-- ==== Sys2Proof/Word.lean ====
section
/-! DEFINITION. The plain word and number types of the part (spec/00_scope.md section 4, spec/01 R1, R5). -/

namespace Sys2Proof

/-- A byte on the wire. -/
abbrev Byte := BitVec 8

/-- A 16-bit field: a key, a handle, a term, a counter value. -/
abbrev Word := BitVec 16

/-- A slot generation, counted modulo 64 (R1, R6). -/
abbrev Generation := BitVec 6

/-- A station S0 to S3, also the number of its port. -/
abbrev Station := Fin 4

/-- An ownership channel, 0 to 3 (spec/10). -/
abbrev ChannelNumber := Fin 4

/-- The index of a lease slot, 0 to 255 (R1). -/
abbrev SlotIndex := Fin 256

end Sys2Proof
end

