-- ==== Sys2Proof/Syntax.lean ====
section
/-! DEFINITION. The commands: one constructor of Instr for each row of spec/opcode_table.json.
A posted command's arguments travel in its frame and wait in the command buffer (R153, R155), so the taking of
a posted command names its port alone. -/

namespace Sys2Proof

/-- What a station does with its select line and clock (R145, R182). A list of bits is shifted in order, first
bit first, each by a whole clock: a rising and then a falling edge, after a falling one if the clock stood high. A bit list of `whole` and `start` comes AFTER the command byte that the frame's row names. -/
inductive FrameEvent where
  /-- Select falls, the command byte and the bits are clocked, select rises. -/
  | whole (bits : List Bool)
  /-- Select falls and the command byte and the bits are clocked; select stays low. -/
  | start (bits : List Bool)
  /-- The bits are clocked; select is left as it is. -/
  | more (bits : List Bool)
  /-- SnSCK alone rises, with SnSDI at `sdi` (R182). -/
  | rise (sdi : Bool)
  /-- SnSCK alone falls (R182). -/
  | fall
  /-- Select rises. -/
  | stop
  deriving DecidableEq, Repr

/-- The commands of the block, in the order of spec/opcode_table.json (the two rows at the table's end last). -/
inductive Instr where
  /-- HARDWARE_RESET: RST_N or the power-on reset takes the part into reset (R3). -/
  | hardwareReset
  /-- STATUS frame on a port (R150). -/
  | status (p : Station) (ev : FrameEvent)
  /-- FETCH frame on a port (R151). -/
  | fetch (p : Station) (ev : FrameEvent)
  /-- NOTICES frame on a port (R133); its first eight bits after the command byte are the limit byte. -/
  | notices (p : Station) (ev : FrameEvent)
  /-- MASK frame on a port (R141); its first eight bits after the command byte are the mask byte. -/
  | mask (p : Station) (ev : FrameEvent)
  /-- CLEARFLAGS frame on a port (R140); its first eight bits after the command byte are the flag byte. -/
  | clearFlags (p : Station) (ev : FrameEvent)
  /-- IDENT frame on a port (R152). -/
  | ident (p : Station) (ev : FrameEvent)
  /-- A frame the port discards (R146); the bits are all the frame's bits, the command byte's among them. -/
  | brokenFrame (p : Station) (ev : FrameEvent)
  /-- A posted frame with its command code; the bits carry the argument bytes (R153). -/
  | postedFrameEnd (p : Station) (code : Byte) (ev : FrameEvent)
  /-- The Session Unit takes one of a port's outstanding reloads, the one at position `which` (R101). -/
  | livenessReload (p : Station) (which : Nat)
  /-- The port answers an unknown code itself (R157). -/
  | badCmd (p : Station)
  | attach (p : Station)
  | detach (p : Station)
  | acquire (p : Station)
  | release (p : Station)
  | renew (p : Station)
  | extend (p : Station)
  | convert (p : Station)
  | queryLease (p : Station)
  | queryKey (p : Station)
  | purge (p : Station)
  | clearAll (p : Station)
  | revokeRange (p : Station)
  | readConfig (p : Station)
  /-- A WRITE CONFIG of an unknown or read-only item (R161). -/
  | writeConfig (p : Station)
  | writeTickSource (p : Station)
  | writeTickPeriod (p : Station)
  | writeAccessLevel (p : Station)
  | writeQuota (p : Station)
  | writeProtectedRange (p : Station)
  | writeSharedLimit (p : Station)
  | writeQueueLimit (p : Station)
  | writeChannelKey (p : Station)
  | writeChannelCtrl (p : Station)
  | freeze (p : Station)
  | holdTimeOn (p : Station)
  | holdTimeOff (p : Station)
  /-- The microsecond count reaches TICK_PERIOD (R66). -/
  | internalTick
  /-- A rising edge on the TICK pin (R67). -/
  | tick
  | leaseCounterRunout (i : SlotIndex)
  | livenessCounterRunout (p : Station)
  | termExpiryClaim (i : SlotIndex)
  | graceExpiryClaim (i : SlotIndex)
  | waitExpiryClaim (i : SlotIndex)
  | lapseClaim (p : Station)
  /-- The GE takes the outstanding removal claim of the active station order (R119). -/
  | stationSweepRemoval
  /-- The GE takes the outstanding removal claim of the active range order (R120). -/
  | rangeSweepRemoval
  | stationOrderComplete
  | sessionSweepCompletion (p : Station)
  | rangeOrderComplete
  /-- The GE takes one of the outstanding completion claims, the one at position `which` (R34). -/
  | rangeCompletionClaim (which : Nat)
  /-- The GE takes the oldest acknowledgement claim of a port (R136, R138). -/
  | acknowledgementClaim (p : Station)
  /-- The part leaves reset with ADMSEL[1:0] at `strap` (R160, R182). -/
  | endOfReset (strap : Station)
  | holdTimeInvalidSetting (p : Station)
  deriving DecidableEq, Repr

end Sys2Proof
end

