-- ==== Sys2Proof/Config.lean ====
section
/-! DEFINITION. What the part fixes (capacities, identification) and the one free value of the model. -/

namespace Sys2Proof.Config

/-- Entries the Resource Directory can hold (R24). -/
def directoryCapacity : Nat := 128

/-- Range orders the Sweep Queue can hold (R109). -/
def rangeOrderCapacity : Nat := 2

/-- Acknowledgement claims one port can have in flight (R138). -/
def acknowledgementCapacity : Nat := 4

/-- Records one NOTICES frame can show (R132). -/
def noticesLimit : Nat := 8

/-- The identification bytes 2 to 9 of an IDENT frame (R152). -/
def identification : List Byte := [0x5B, 0x42, 0x56, 0x01, 0x04, 0x01, 0x00, 0x80]

/-- FREE VALUE (log entry 6): the level of SnSDO while select is low and port `n` has no frame, which no rule states
(R159, R182), one value for each port and each number of its `freeIndex`. It has no body, so nothing can be proved of it. -/
opaque freeSdoBit : Station → Nat → Bool

/-- FREE VALUE (log entry 6): whether the part drives SnSDO at all while select is low and port `n` has no frame: R182
has it high-impedance while select is released, and no rule says which it is in such a span. It has no body, so nothing
can be proved of it. -/
opaque freeSdoDriven : Station → Nat → Bool

end Sys2Proof.Config
end

