-- ==== Sys2Proof/Machine/State.lean ====
section
/-! DEFINITION. The state of the part as plain data, and its value right after reset.
Every record is the spec's own; the fields that are the model's (pending, Port.sdo, Port.freeIndex) say so. -/

namespace Sys2Proof.Machine

/-- The five slot states (R1). -/
inductive SlotState where
  | free | waiting | held | grace | ended
  deriving DecidableEq, Repr

/-- The mode of a lease (R1). -/
inductive LeaseMode where
  | shared | exclusive
  deriving DecidableEq, Repr

/-- The hold mode of a directory entry (R24, R26). -/
inductive HoldMode where
  | unheld | shared | exclusive
  deriving DecidableEq, Repr

/-- The six notice kinds (R128). -/
inductive NoticeKind where
  | granted | lapsed | extended | revoked | timedOut | swept
  deriving DecidableEq, Repr

/-- The fields of a slot that are present exactly while it is not FREE (R1, R2). -/
structure Lease where
  station : Station
  key : Word
  mode : LeaseMode
  term : Word
  waitLimit : Word
  deriving DecidableEq, Repr

/-- A lease slot (R1). -/
structure Slot where
  state : SlotState
  generation : Generation
  lease : Option Lease
  extension : Option Word
  notice : Option NoticeKind
  deriving DecidableEq, Repr

/-- A directory entry (R24). -/
structure Entry where
  key : Word
  holders : List SlotIndex
  holdMode : HoldMode
  queue : List SlotIndex
  deriving DecidableEq, Repr

/-- The three session states (R90). -/
inductive SessionState where
  | detached | attached | sweeping
  deriving DecidableEq, Repr

/-- Why a session is ending (R90, R98). -/
inductive SweepCause where
  | detach | lapse | reclaim | purge | clear
  deriving DecidableEq, Repr

/-- A session record (R90). -/
structure Session where
  state : SessionState
  epoch : Byte
  livenessTerm : Word
  grace : Byte
  leaseCount : Nat
  cause : Option SweepCause
  deriving DecidableEq, Repr

/-- The phase a lease counter was last loaded for (R71). -/
inductive Phase where
  | term | grace | wait
  deriving DecidableEq, Repr

/-- An expiry claim of one lease counter (R75); the slot is the counter's place in the bank. -/
structure ExpiryClaim where
  generation : Generation
  phase : Phase
  deriving DecidableEq, Repr

/-- A lease counter with its two tags and its outstanding claim (R71, R72). A running counter that reads 0 has
reached 0, and its run-out is due (log entry 4). -/
structure LeaseCounter where
  value : Word
  running : Bool
  generation : Generation
  phase : Phase
  claim : Option ExpiryClaim
  deriving DecidableEq, Repr

/-- A liveness counter and whether its lapse claim is outstanding (R71, R72). -/
structure LivenessCounter where
  value : Word
  running : Bool
  claim : Bool
  deriving DecidableEq, Repr

/-- The time base (section 4.1): microseconds counted in the interval now running, the period that interval
completes at (R68), and the hold state. TICK_SOURCE and TICK_PERIOD are items of Settings. -/
structure TimeBase where
  count : Word
  period : Word
  held : Bool
  deriving DecidableEq, Repr

/-- A range order (R109). -/
structure RangeOrder where
  first : Word
  last : Word
  force : Bool
  requester : Station
  deriving DecidableEq, Repr

/-- An order of the Sweep Queue (R109). -/
inductive Order where
  | station (p : Station) (cause : SweepCause)
  | range (r : RangeOrder)
  deriving DecidableEq, Repr

/-- A completion claim of a range order in flight to the GE (R34, R124). `overtaken` says that the requesting
port's command in flight was passed on before SWEEP_DONE was set, so that this command alone may be taken
before the claim (R41). -/
structure RangeCompletion where
  first : Word
  last : Word
  requester : Station
  overtaken : Bool
  deriving DecidableEq, Repr

/-- A posted command in the command buffer, and whether it has been passed on to its block (R153, R155). -/
structure PostedCommand where
  code : Byte
  args : List Byte
  passedOn : Bool
  deriving DecidableEq, Repr

/-- The command state of a port with what it holds (R144): the command in flight while BUSY, the result record
while HOLDING. -/
inductive CommandState where
  | ready
  | busy (command : PostedCommand)
  | holding (record : List Byte)
  deriving DecidableEq, Repr

/-- The five event flags of a port (R139). -/
structure EventFlags where
  overrun : Bool
  lost : Bool
  frameErr : Bool
  sessionEnded : Bool
  sweepDone : Bool
  deriving DecidableEq, Repr

/-- The seven enables of a port's attention mask (R141). -/
structure AttentionMask where
  overrun : Bool
  lost : Bool
  frameErr : Bool
  sessionEnded : Bool
  sweepDone : Bool
  notice : Bool
  result : Bool
  deriving DecidableEq, Repr

/-- One record of a notices snapshot (R133). -/
structure NoticeRecord where
  slot : SlotIndex
  generation : Generation
  key : Word
  kind : NoticeKind
  state : SlotState
  deriving DecidableEq, Repr

/-- One entry of an acknowledgement claim (R135). -/
structure AckEntry where
  slot : SlotIndex
  generation : Generation
  kind : NoticeKind
  deriving DecidableEq, Repr

/-- A frame in progress: the bits received and shifted out since select fell, each counted by the rising edge of SnSCK
that takes it (R182), the byte being shifted out, the
result record a FETCH has fixed and the snapshot a NOTICES has taken (section 8.1, R133, R145, R151). -/
structure Frame where
  received : List Bool
  sent : List Bool
  outByte : Byte
  fetched : Option (List Byte)
  snapshot : Option (List NoticeRecord)
  deriving DecidableEq, Repr

/-- The frame shifter: select released; select low over a span that is no frame for the port (R159), with the
bits sent in it; or a frame in progress. -/
inductive Shifter where
  | released
  | ignoring (sent : List Bool)
  | receiving (f : Frame)
  deriving DecidableEq, Repr

/-- A liveness reload in flight: of a frame without a taken command, or of the frame whose command stands in
the command buffer and is passed on after this reload (R100, R155). -/
inductive Reload where
  | plain
  | ofCommand
  deriving DecidableEq, Repr

/-- A station port (section 8.1). `clockHigh` is the level of SnSCK, whose edges R182 tells apart. `sdo` is the MODEL's
record of the bits SnSDO carried in the last span of select low (log entry 7), and `freeIndex` its index of the port's
next free values (log entry 6). -/
structure Port where
  command : CommandState
  flags : EventFlags
  mask : AttentionMask
  clockHigh : Bool
  shifter : Shifter
  reloads : List Reload
  acks : List (List AckEntry)
  sdo : List Bool
  freeIndex : Nat
  deriving DecidableEq, Repr

/-- TICK_SOURCE (R162). -/
inductive TickSource where
  | internal | external
  deriving DecidableEq, Repr

/-- A protected range: FIRST, LAST and the fields of CTRL (R166). -/
structure KeyRange where
  first : Word
  last : Word
  enable : Bool
  invert : Bool
  level : BitVec 2
  deriving DecidableEq, Repr

/-- The binding of an ownership channel (R174). -/
structure Channel where
  key : Word
  enable : Bool
  graceDrop : Bool
  deriving DecidableEq, Repr

/-- The configuration items (R162), the administrator station (R160) and the frozen latch (R172). -/
structure Settings where
  tickSource : TickSource
  tickPeriod : Word
  accessLevel : Vector (BitVec 2) 4
  quota : Vector Nat 4
  p0 : KeyRange
  p1 : KeyRange
  sharedLimit : Nat
  queueLimit : Nat
  channels : Vector Channel 4
  admin : Station
  frozen : Bool
  deriving DecidableEq, Repr

/-- The state of the part, with the queue of commands that wait, which is the model's own (log entry 1). -/
structure State where
  pending : List Instr
  inReset : Bool
  slots : Vector Slot 256
  directory : List Entry
  sessions : Vector Session 4
  leaseCounters : Vector LeaseCounter 256
  livenessCounters : Vector LivenessCounter 4
  timeBase : TimeBase
  sweepQueue : List Order
  walk : Option SlotIndex
  sessionCompletions : Vector (Option SweepCause) 4
  rangeCompletions : List RangeCompletion
  lastTaken : Station
  ports : Vector Port 4
  settings : Settings
  deriving DecidableEq, Repr

/-- The part stops with no fault: it has no device-wide error state (spec/00_scope.md section 2.4), and no rule
gives a command that stops it. No constructor, so no meaning can answer a fault: safe. -/
inductive Fault where
  deriving DecidableEq, Repr

/-- Why a command has no meaning. -/
inductive Refusal where
  /-- Raised by exec alone, for a row not modelled yet: safe. No arm of exec raises it. -/
  | notModelled (mnemonic : String)
  deriving DecidableEq, Repr

/-- A slot after hardware reset (R3). -/
def Slot.reset : Slot :=
  { state := .free, generation := 0, lease := none, extension := none, notice := none }

/-- A session record after hardware reset (R91). -/
def Session.reset : Session :=
  { state := .detached, epoch := 0, livenessTerm := 0, grace := 0, leaseCount := 0, cause := none }

/-- A lease counter after hardware reset (R71). -/
def LeaseCounter.reset : LeaseCounter :=
  { value := 0, running := false, generation := 0, phase := .term, claim := none }

/-- A liveness counter after hardware reset (R71, R91). -/
def LivenessCounter.reset : LivenessCounter := { value := 0, running := false, claim := false }

/-- The time base after hardware reset (R70). -/
def TimeBase.reset : TimeBase := { count := 0, period := 1000, held := false }

/-- The event flags after hardware reset (R143). -/
def EventFlags.reset : EventFlags :=
  { overrun := false, lost := false, frameErr := false, sessionEnded := false, sweepDone := false }

/-- The attention mask after hardware reset (R143). -/
def AttentionMask.reset : AttentionMask :=
  { overrun := false, lost := false, frameErr := false, sessionEnded := false, sweepDone := false,
    notice := false, result := false }

/-- A port after hardware reset (R159), its select line released and its clock low. -/
def Port.reset : Port :=
  { command := .ready, flags := .reset, mask := .reset, clockHigh := false, shifter := .released, reloads := [],
    acks := [], sdo := [], freeIndex := 0 }

/-- A protected range after hardware reset (R162). -/
def KeyRange.reset : KeyRange := { first := 0, last := 0, enable := false, invert := false, level := 0 }

/-- A channel binding after hardware reset (R170). -/
def Channel.reset : Channel := { key := 0, enable := false, graceDrop := false }

/-- The settings after hardware reset with the straps naming `strap` (R160, R162, R165). -/
def Settings.reset (strap : Station) : Settings :=
  { tickSource := .internal, tickPeriod := 1000,
    accessLevel := (Vector.replicate 4 0).set strap 3, quota := Vector.replicate 4 64,
    p0 := .reset, p1 := .reset, sharedLimit := 8, queueLimit := 16,
    channels := Vector.replicate 4 .reset, admin := strap, frozen := false }

/-- The machine right after reset: every record at the value the spec states, the straps naming S0, every
select line released and every clock low (DESIGN CHOICE, log entry 8; a board with other straps is reached by END_OF_RESET). -/
def State.reset : State :=
  { pending := [], inReset := false, slots := Vector.replicate 256 .reset, directory := [],
    sessions := Vector.replicate 4 .reset, leaseCounters := Vector.replicate 256 .reset,
    livenessCounters := Vector.replicate 4 .reset, timeBase := .reset, sweepQueue := [], walk := none,
    sessionCompletions := Vector.replicate 4 none, rangeCompletions := [], lastTaken := 3,
    ports := Vector.replicate 4 .reset, settings := .reset 0 }

end Sys2Proof.Machine
end

