-- ==== Sys2Proof/Machine/Formats.lean ====
section
/-! DEFINITION. The formats of spec/11: bits and bytes on the wire, codes for values, command and result codes,
frame lengths, and the class of a frame (R146). -/

namespace Sys2Proof.Machine

/-! ### Bits and bytes: most significant bit first (spec/11) -/

/-- The eight bits of a byte, most significant first. -/
def byteBits (b : Byte) : List Bool :=
  [b.getLsbD 7, b.getLsbD 6, b.getLsbD 5, b.getLsbD 4, b.getLsbD 3, b.getLsbD 2, b.getLsbD 1, b.getLsbD 0]

/-- The bits of a sequence of bytes, first byte first. -/
def bytesBits (bs : List Byte) : List Bool := bs.flatMap byteBits

/-- The byte whose bits, most significant first, are the given ones (the first eight of them; missing bits 0). -/
def bitsByte (bits : List Bool) : Byte :=
  BitVec.ofBool (bits.getD 0 false) ++ BitVec.ofBool (bits.getD 1 false) ++ BitVec.ofBool (bits.getD 2 false) ++
    BitVec.ofBool (bits.getD 3 false) ++ BitVec.ofBool (bits.getD 4 false) ++ BitVec.ofBool (bits.getD 5 false) ++
    BitVec.ofBool (bits.getD 6 false) ++ BitVec.ofBool (bits.getD 7 false)

/-- Byte number `n` of a sequence of bits, counted from 0. -/
def frameByte (bits : List Bool) (n : Nat) : Byte := bitsByte (bits.drop (8 * n))

/-- The first `n` bytes of a sequence of bits from byte number `start` on. -/
def frameBytes (bits : List Bool) (start n : Nat) : List Byte :=
  (List.range n).map fun k => frameByte bits (start + k)

/-- A 16-bit field as it travels, high byte first. -/
def wordBytes (w : Word) : List Byte := [w.extractLsb' 8 8, w.extractLsb' 0 8]

/-! ### Codes for values (R179) -/

/-- The code of a mode (R179). -/
def LeaseMode.code : LeaseMode → Byte
  | .shared => 0x01
  | .exclusive => 0x02

/-- The code of a hold mode (R179). -/
def HoldMode.code : HoldMode → Byte
  | .unheld => 0x00
  | .shared => 0x01
  | .exclusive => 0x02

/-- The hold mode of an entry whose holders have this mode (R26). -/
def LeaseMode.hold : LeaseMode → HoldMode
  | .shared => .shared
  | .exclusive => .exclusive

/-- The mode a command's code names: 0x00 and 0x03 and above name none (R179). -/
def modeOfCode (c : Byte) : Option LeaseMode :=
  if c = 0x01 then some .shared else if c = 0x02 then some .exclusive else none

/-- The code of a slot state (R179). -/
def SlotState.code : SlotState → Byte
  | .free => 0x00
  | .waiting => 0x01
  | .held => 0x02
  | .grace => 0x03
  | .ended => 0x04

/-- The code of a notice kind (R179). -/
def NoticeKind.code : NoticeKind → Byte
  | .granted => 0x01
  | .lapsed => 0x02
  | .extended => 0x03
  | .revoked => 0x04
  | .timedOut => 0x05
  | .swept => 0x06

/-- The two-bit code of a session state (R179). -/
def SessionState.code : SessionState → BitVec 2
  | .detached => 0b00
  | .attached => 0b01
  | .sweeping => 0b10

/-! ### Handles (R5) -/

/-- The handle of a slot: generation times 256 plus index. -/
def handleOf (g : Generation) (i : SlotIndex) : Word := (0#2 ++ g) ++ BitVec.ofFin (w := 8) i

/-- The slot index a handle names. -/
def handleSlot (h : Word) : SlotIndex := (h.extractLsb' 0 8).toFin

/-- The generation a handle names. -/
def handleGeneration (h : Word) : Generation := h.extractLsb' 8 6

/-- A handle value below 0x4000 (R7). -/
def handleWellFormed (h : Word) : Bool := h < 0x4000#16

/-! ### Result codes and result records (section 11.2, R180) -/

/-- The result codes. -/
inductive ResultCode where
  | ok | granted | queued | accepted
  | badCmd | badArg | noSession | staleSession | sessionEnded | attached
  | staleHandle | foreign | wrongState | duplicate | doomed
  | denied | frozen | inUse
  | quota | poolFull | dirFull | queueFull | busyRes | conflict | sweepingKey | sweepFull
  | noResult
  deriving DecidableEq, Repr

/-- The byte of a result code. -/
def ResultCode.code : ResultCode → Byte
  | .ok => 0x00
  | .granted => 0x01
  | .queued => 0x02
  | .accepted => 0x03
  | .badCmd => 0x10
  | .badArg => 0x11
  | .noSession => 0x12
  | .staleSession => 0x13
  | .sessionEnded => 0x14
  | .attached => 0x15
  | .staleHandle => 0x20
  | .foreign => 0x21
  | .wrongState => 0x22
  | .duplicate => 0x23
  | .doomed => 0x24
  | .denied => 0x30
  | .frozen => 0x31
  | .inUse => 0x32
  | .quota => 0x40
  | .poolFull => 0x41
  | .dirFull => 0x42
  | .queueFull => 0x43
  | .busyRes => 0x44
  | .conflict => 0x45
  | .sweepingKey => 0x46
  | .sweepFull => 0x47
  | .noResult => 0xFF

/-- A result before it is laid out: its code and its body. -/
structure Reply where
  result : ResultCode
  body : List Byte
  deriving DecidableEq, Repr

/-- A result without a body: every refusal, and every accepted command whose rule gives no body (R180). -/
def Reply.plain (r : ResultCode) : Reply := { result := r, body := [] }

/-- The result record: length, echoed command code, result code, body (R180). -/
def resultRecord (code : Byte) (r : Reply) : List Byte :=
  BitVec.ofNat 8 (2 + r.body.length) :: code :: r.result.code :: r.body

/-- The record a FETCH shows when no result is held (R151). -/
def noneRecord : List Byte := resultRecord 0x00 (Reply.plain .noResult)

/-! ### Command codes (section 11.2) -/

def codeStatus : Byte := 0x51
def codeFetch : Byte := 0x52
def codeNotices : Byte := 0x53
def codeMask : Byte := 0x54
def codeClearFlags : Byte := 0x55
def codeIdent : Byte := 0x5F
def codeAttach : Byte := 0x20
def codeDetach : Byte := 0x21
def codeAcquire : Byte := 0x30
def codeRelease : Byte := 0x31
def codeRenew : Byte := 0x32
def codeExtend : Byte := 0x33
def codeConvert : Byte := 0x34
def codeQueryLease : Byte := 0x38
def codeQueryKey : Byte := 0x39
def codePurge : Byte := 0x60
def codeRevokeRange : Byte := 0x61
def codeClearAll : Byte := 0x62
def codeReadConfig : Byte := 0x68
def codeWriteConfig : Byte := 0x69
def codeFreeze : Byte := 0x6A
def codeHoldTime : Byte := 0x6B

/-- The block that takes a posted command; the port itself answers an unknown code (R146, R157). -/
inductive Owner where
  | sessionUnit | grantEngine | configurationUnit | port
  deriving DecidableEq, Repr

/-- The commands the GE takes (R40, R146). -/
def grantEngineCodes : List Byte :=
  [codeAcquire, codeRelease, codeRenew, codeExtend, codeConvert, codeQueryLease, codeQueryKey, codeRevokeRange]

/-- The commands the Session Unit takes (R146). -/
def sessionUnitCodes : List Byte := [codeAttach, codeDetach, codePurge, codeClearAll]

/-- The commands the Configuration Unit takes (R146). -/
def configurationUnitCodes : List Byte := [codeReadConfig, codeWriteConfig, codeFreeze, codeHoldTime]

/-- The owning block of a posted command code (R146). -/
def ownerOf (code : Byte) : Owner :=
  if code ∈ grantEngineCodes then .grantEngine
  else if code ∈ sessionUnitCodes then .sessionUnit
  else if code ∈ configurationUnitCodes then .configurationUnit
  else .port

/-- Argument bytes a posted command needs after its code; an unknown code needs none (R146, R157). -/
def argumentLength (code : Byte) : Nat :=
  if code = codeAttach then 4
  else if code = codeDetach then 1
  else if code = codeAcquire then 8
  else if code = codeRelease then 3
  else if code = codeRenew then 5
  else if code = codeExtend then 5
  else if code = codeConvert then 4
  else if code = codeQueryLease then 3
  else if code = codeQueryKey then 3
  else if code = codePurge then 2
  else if code = codeRevokeRange then 6
  else if code = codeClearAll then 1
  else if code = codeReadConfig then 2
  else if code = codeWriteConfig then 4
  else if code = codeFreeze then 1
  else if code = codeHoldTime then 2
  else 0

/-- The port-local read commands (R146). -/
def readCodes : List Byte := [codeStatus, codeFetch, codeNotices, codeIdent]

/-- The port-local commands (R145). -/
def localCodes : List Byte := [codeStatus, codeFetch, codeNotices, codeMask, codeClearFlags, codeIdent]

/-! ### The class of a frame (R146) -/

/-- What a frame is, decided by the bits received alone (R146). -/
inductive FrameClass where
  | empty
  | broken
  | read (code : Byte)
  | mask (b : Byte)
  | clearFlags (b : Byte)
  | posted (code : Byte) (args : List Byte)
  deriving DecidableEq, Repr

/-- The class of a frame of at least one whole byte (R146, R147). -/
def classifyCommand (bits : List Bool) : FrameClass :=
  let code := frameByte bits 0
  let onBoundary := bits.length % 8 == 0
  let bytes := bits.length / 8
  if code ∈ readCodes then .read code
  else if code = codeMask then
    if onBoundary && 2 ≤ bytes then .mask (frameByte bits 1) else .broken
  else if code = codeClearFlags then
    if onBoundary && 2 ≤ bytes then .clearFlags (frameByte bits 1) else .broken
  else if onBoundary && argumentLength code + 1 ≤ bytes then
    .posted code (frameBytes bits 1 (argumentLength code))
  else .broken

/-- The class of a frame by the bits received since select fell (R146). -/
def classify (bits : List Bool) : FrameClass :=
  if bits.length = 0 then .empty else if bits.length < 8 then .broken else classifyCommand bits

end Sys2Proof.Machine
end

