-- ==== Sys2Proof/Machine/Operands.lean ====
section
/-! DEFINITION. Operand forms: the fields of an argument list as received (section 11.1, 11.2, 11.4). -/

namespace Sys2Proof.Machine

/-- Byte number `n` of an argument list, counted from 0 after the command code. -/
def argByte (args : List Byte) (n : Nat) : Byte := args.getD n 0

/-- The two-byte field that starts at byte `n` of an argument list, high byte first. -/
def argWord (args : List Byte) (n : Nat) : Word := argByte args n ++ argByte args (n + 1)

/-- The mode an ACQUIRE flags byte names: bits 1 to 0 (section 11.1.2). -/
def acquireMode (flags : Byte) : Option LeaseMode := modeOfCode (flags &&& 0x03#8)

/-- The TRY bit of an ACQUIRE flags byte: bit 7. -/
def acquireTry (flags : Byte) : Bool := flags.getLsbD 7

/-- ACQUIRE sets none of bits 6 to 2. -/
def acquireFlagsAssigned (flags : Byte) : Bool := flags &&& 0x7C#8 == 0

/-- ATTACH and REVOKE RANGE assign bit 0 of their flags byte alone. -/
def oneFlagAssigned (flags : Byte) : Bool := flags &&& 0xFE#8 == 0

/-- The RECLAIM bit of an ATTACH, and the FORCE bit of a REVOKE RANGE: bit 0. -/
def flagBit0 (flags : Byte) : Bool := flags.getLsbD 0

/-- The station a byte of 0 to 3 names. -/
def stationOfByte (b : Byte) : Station := Fin.ofNat 4 b.toNat

/-- The station or channel number of a configuration item that comes in four: the item's low two bits (R162). -/
def itemIndex (item : Byte) : Fin 4 := Fin.ofNat 4 item.toNat

/-- A protected range's control value: enable, invert, required level (section 11.4). -/
def rangeCtrlWord (r : KeyRange) : Word :=
  ((0#10 ++ r.level) ++ 0#2) ++ (BitVec.ofBool r.invert ++ BitVec.ofBool r.enable)

/-- A range control value sets no unassigned bit: bits 15 to 6 and 3 to 2 are 0 (section 11.4). -/
def rangeCtrlAssigned (v : Word) : Bool := v &&& 0xFFCC#16 == 0

/-- The range with its control fields taken from a control value. -/
def KeyRange.withCtrl (r : KeyRange) (v : Word) : KeyRange :=
  { r with enable := v.getLsbD 0, invert := v.getLsbD 1, level := v.extractLsb' 4 2 }

/-- A channel's control value: enable, grace-drop (section 11.4). -/
def channelCtrlWord (c : Channel) : Word := 0#14 ++ (BitVec.ofBool c.graceDrop ++ BitVec.ofBool c.enable)

/-- A channel control value sets none of bits 15 to 2 (section 11.4). -/
def channelCtrlAssigned (v : Word) : Bool := v &&& 0xFFFC#16 == 0

/-- The channel with its control fields taken from a control value. -/
def Channel.withCtrl (c : Channel) (v : Word) : Channel :=
  { c with enable := v.getLsbD 0, graceDrop := v.getLsbD 1 }

end Sys2Proof.Machine
end

