-- ==== Sys2Proof/Machine/Flags.lean ====
section
/-! DEFINITION. What is worked out from the state and never stored: the NOTICE condition, the status and flags
bytes, the attention line (spec/07, spec/08, R181) and the ownership pins (spec/10). -/

namespace Sys2Proof.Machine

/-- A slot of a station that carries a notice: a member of the station's notice set (R131). -/
def Slot.inNoticeSet (sl : Slot) (p : Station) : Bool :=
  sl.notice.isSome && (sl.lease.map Lease.station == some p)

/-- The NOTICE condition of a port (R131). -/
def State.noticeCondition (s : State) (p : Station) : Bool :=
  (List.finRange 256).any fun i => s.slots[i].inNoticeSet p

/-- The BUSY bit (R144). -/
def CommandState.isBusy : CommandState → Bool
  | .busy _ => true
  | _ => false

/-- The RESULT bit (R144). -/
def CommandState.isHolding : CommandState → Bool
  | .holding _ => true
  | _ => false

/-- The status byte of a port (R148, R181). -/
def State.statusByte (s : State) (p : Station) : Byte :=
  (BitVec.ofBool s.ports[p].command.isBusy ++ BitVec.ofBool s.ports[p].command.isHolding ++
    BitVec.ofBool (s.noticeCondition p)) ++ s.sessions[p].state.code ++ (BitVec.ofBool s.timeBase.held ++ 0#2)

/-- The flags byte (R150, R181). -/
def EventFlags.byte (f : EventFlags) : Byte :=
  0#3 ++ (BitVec.ofBool f.sweepDone ++ BitVec.ofBool f.sessionEnded ++ BitVec.ofBool f.frameErr ++
    BitVec.ofBool f.lost ++ BitVec.ofBool f.overrun)

/-- The flags after a CLEARFLAGS byte: each flag whose bit is set is cleared, other bits are ignored (R140, R181). -/
def EventFlags.clearedBy (f : EventFlags) (b : Byte) : EventFlags :=
  { overrun := f.overrun && !b.getLsbD 0, lost := f.lost && !b.getLsbD 1, frameErr := f.frameErr && !b.getLsbD 2,
    sessionEnded := f.sessionEnded && !b.getLsbD 3, sweepDone := f.sweepDone && !b.getLsbD 4 }

/-- The mask a MASK byte sets; other bits are ignored (R141, R181). -/
def AttentionMask.ofByte (b : Byte) : AttentionMask :=
  { overrun := b.getLsbD 0, lost := b.getLsbD 1, frameErr := b.getLsbD 2, sessionEnded := b.getLsbD 3,
    sweepDone := b.getLsbD 4, notice := b.getLsbD 5, result := b.getLsbD 6 }

/-- The attention line of a port is asserted: an input is true and enabled (R142). -/
def State.attention (s : State) (p : Station) : Bool :=
  let f := s.ports[p].flags
  let m := s.ports[p].mask
  (f.overrun && m.overrun) || (f.lost && m.lost) || (f.frameErr && m.frameErr) ||
    (f.sessionEnded && m.sessionEnded) || (f.sweepDone && m.sweepDone) ||
    (s.ports[p].command.isHolding && m.result) || (s.noticeCondition p && m.notice)

/-- The entry of a key in a directory (R24). -/
def entryOf (d : List Entry) (k : Word) : Option Entry := d.find? fun e => e.key == k

/-- A holder that shows on a channel: HELD, or GRACE with grace-drop clear (R175). -/
def Slot.showsOn (sl : Slot) (c : Channel) : Bool :=
  match sl.state with
  | .held => true
  | .grace => !c.graceDrop
  | _ => false

/-- The station a channel shows, if any (R175). -/
def State.channelHolder (s : State) (n : ChannelNumber) : Option Station :=
  let c := s.settings.channels[n]
  if c.enable then
    match entryOf s.directory c.key with
    | none => none
    | some e =>
      match e.holdMode, e.holders with
      | .exclusive, i :: _ => if s.slots[i].showsOn c then s.slots[i].lease.map Lease.station else none
      | _, _ => none
  else none

/-- The OHOLD pin of a channel (R175); deasserted while the part is held in reset (R174). -/
def State.ohold (s : State) (n : ChannelNumber) : Bool := !s.inReset && (s.channelHolder n).isSome

/-- The OID pins of a channel: the holder's number while OHOLD is asserted, 0 otherwise (R175). -/
def State.oid (s : State) (n : ChannelNumber) : BitVec 2 :=
  if s.ohold n then
    match s.channelHolder n with
    | some p => BitVec.ofFin p
    | none => 0
  else 0

/-- The level of SnSDO, none while it is high-impedance: high-impedance while select is released (R182). In a frame it is
a bit of the byte being shifted out: bit 7 of the status byte before the first rising edge of SnSCK, then the bit that the
last rising edge took while the clock is high, and the one after it from the falling edge on (R182). In a span of select low that is no frame for the port the spec states
neither whether the pin is driven nor its level: both are free values of the port's own (DESIGN CHOICE, log entry 6,
which also says how long they stand). -/
def State.sdoPin (s : State) (p : Station) : Option Bool :=
  match s.ports[p].shifter with
  | .released => none
  | .ignoring _ =>
    let k := s.ports[p].freeIndex
    if Config.freeSdoDriven p k then some (Config.freeSdoBit p k) else none
  | .receiving f => some ((byteBits f.outByte).getD ((f.received.length - s.ports[p].clockHigh.toNat) % 8) false)

end Sys2Proof.Machine
end

