-- ==== Sys2Proof/Machine/Ops.lean ====
section
/-! DEFINITION. The named operations the meanings share: updates of one record, loads and stops of counters
(R71, R73), the directory's lists (R25 to R32), freeing and ending a slot (R18, R19, R11, R15, R17), doom
(R43, R44), the grant policy (R54), the session check (R46), the handle check (R7), orders (R111), and the
taking of a posted command with the placing of its result (R40, R41, R155, R156). -/

namespace Sys2Proof.Machine

/-! ### Records by number -/

/-- Change one element of a vector. -/
def updVec {α : Type} {n : Nat} (v : Vector α n) (i : Fin n) (f : α → α) : Vector α n := v.set i (f v[i])

/-- Change every element of a vector. -/
def mapVec {α : Type} {n : Nat} (v : Vector α n) (f : α → α) : Vector α n :=
  ⟨⟨v.toArray.toList.map f⟩, by simp⟩

def State.modifySlot (s : State) (i : SlotIndex) (f : Slot → Slot) : State := { s with slots := updVec s.slots i f }

def State.modifyCounter (s : State) (i : SlotIndex) (f : LeaseCounter → LeaseCounter) : State :=
  { s with leaseCounters := updVec s.leaseCounters i f }

def State.modifySession (s : State) (p : Station) (f : Session → Session) : State :=
  { s with sessions := updVec s.sessions p f }

def State.modifyLiveness (s : State) (p : Station) (f : LivenessCounter → LivenessCounter) : State :=
  { s with livenessCounters := updVec s.livenessCounters p f }

def State.modifyPort (s : State) (p : Station) (f : Port → Port) : State := { s with ports := updVec s.ports p f }

def State.modifySettings (s : State) (f : Settings → Settings) : State := { s with settings := f s.settings }

def State.withDirectory (s : State) (d : List Entry) : State := { s with directory := d }

def State.modifyTimeBase (s : State) (f : TimeBase → TimeBase) : State := { s with timeBase := f s.timeBase }

/-! ### Counters (R71) -/

/-- The GE loads a lease counter with a value, the slot's generation and a phase, and starts it. A claim raised
earlier stays outstanding (R72). -/
def State.loadCounter (s : State) (i : SlotIndex) (v : Word) (ph : Phase) : State :=
  s.modifyCounter i fun c =>
    { c with value := v, running := true, generation := s.slots[i].generation, phase := ph }

/-- The GE stops a lease counter: stopped with value 0; the tags stay as they were (log entry 9). -/
def State.stopCounter (s : State) (i : SlotIndex) : State :=
  s.modifyCounter i fun c => { c with value := 0, running := false }

/-- The Session Unit loads a liveness counter and starts it. -/
def State.loadLiveness (s : State) (p : Station) (v : Word) : State :=
  s.modifyLiveness p fun c => { c with value := v, running := true }

/-- The Session Unit stops a liveness counter, leaving value 0. -/
def State.stopLiveness (s : State) (p : Station) : State :=
  s.modifyLiveness p fun c => { c with value := 0, running := false }

/-! ### The directory -/

/-- Put an entry in the directory, in place of the one with its key, keys rising (log entry 5). -/
def putEntry (e : Entry) : List Entry → List Entry
  | [] => [e]
  | x :: xs => if e.key < x.key then e :: x :: xs else if e.key = x.key then e :: xs else x :: putEntry e xs

/-- Change the entry of a key, if there is one. -/
def State.editEntry (s : State) (k : Word) (f : Entry → Entry) : State :=
  match entryOf s.directory k with
  | none => s
  | some e => s.withDirectory (putEntry (f e) s.directory)

/-- The entry of a key, or the empty one an accepted ACQUIRE creates (R30). -/
def State.entryOrNew (s : State) (k : Word) : Entry :=
  (entryOf s.directory k).getD { key := k, holders := [], holdMode := .unheld, queue := [] }

/-- An entry with a new holder at the end of its holder list and that holder's mode (R25, R26). -/
def Entry.addHolder (e : Entry) (i : SlotIndex) (m : LeaseMode) : Entry :=
  { e with holders := e.holders ++ [i], holdMode := m.hold }

/-- An entry with a new waiter at the end of its wait queue (R27). -/
def Entry.addWaiter (e : Entry) (i : SlotIndex) : Entry := { e with queue := e.queue ++ [i] }

/-- An entry without a slot in its wait queue; the waiters behind close up (R28). -/
def Entry.dropWaiter (e : Entry) (i : SlotIndex) : Entry := { e with queue := e.queue.filter (· != i) }

/-- An entry without a slot among its holders; the hold mode becomes NONE when the last one leaves (R25, R26). -/
def Entry.dropHolder (e : Entry) (i : SlotIndex) : Entry :=
  let hs := e.holders.filter (· != i)
  { e with holders := hs, holdMode := if hs.isEmpty then .unheld else e.holdMode }

/-- Remove the entry of a key that is left with no holder and no waiter (R32). -/
def State.settleEntry (s : State) (k : Word) : State :=
  match entryOf s.directory k with
  | none => s
  | some e =>
    if e.holders.isEmpty && e.queue.isEmpty then s.withDirectory (s.directory.filter fun x => x.key != k) else s

/-! ### Protection, scope and doom -/

/-- A range covers a key (R166). -/
def KeyRange.covers (r : KeyRange) (k : Word) : Bool :=
  r.enable &&
    if r.first ≤ r.last then
      if r.invert then k < r.first || r.last < k else r.first ≤ k && k ≤ r.last
    else r.invert

/-- A key is protected (R166). -/
def State.protectedKey (s : State) (k : Word) : Bool := s.settings.p0.covers k || s.settings.p1.covers k

/-- A range order names a key and, without FORCE, spares the protected ones (R43, R120). -/
def State.orderCovers (s : State) (r : RangeOrder) (k : Word) : Bool :=
  r.first ≤ k && k ≤ r.last && (r.force || !s.protectedKey k)

/-- A key is within the scope of an accepted range sweep (R43). -/
def State.inSweepScope (s : State) (k : Word) : Bool :=
  s.sweepQueue.any fun o =>
    match o with
    | .range r => s.orderCovers r k
    | .station _ _ => false

/-- The slot states of a live lease (R24). -/
def SlotState.isLive : SlotState → Bool
  | .waiting => true
  | .held => true
  | .grace => true
  | .free => false
  | .ended => false

/-- The lease of a slot is doomed (R44). -/
def State.doomed (s : State) (i : SlotIndex) : Bool :=
  s.slots[i].state.isLive &&
    match s.slots[i].lease with
    | none => false
    | some l => s.sessions[l.station].state == .sweeping || s.inSweepScope l.key

/-! ### The grant policy -/

/-- A mode is compatible with an entry's holders (R51, R54). -/
def State.compatible (s : State) (e : Entry) (m : LeaseMode) : Bool :=
  match m with
  | .exclusive => e.holders.isEmpty
  | .shared => e.holdMode != .exclusive && e.holders.length < s.settings.sharedLimit

/-- Grant a waiter (R10, R57): HELD with notice GRANTED, its term loaded, moved from the wait queue to the end of
the holder list. -/
def State.grantWaiter (s : State) (k : Word) (i : SlotIndex) (l : Lease) : State :=
  ((s.modifySlot i fun sl => { sl with state := .held, notice := some .granted }).loadCounter i l.term
      .term).editEntry k fun e => (e.dropWaiter i).addHolder i l.mode

/-- The grant policy over the waiters still to be looked at, in queue order (R54, R55). -/
def regrantOver (k : Word) : List SlotIndex → State → State
  | [], s => s
  | i :: rest, s =>
    if s.doomed i then regrantOver k rest s
    else
      match s.slots[i].lease, entryOf s.directory k with
      | some l, some e =>
        if s.compatible e l.mode then
          match l.mode with
          | .exclusive => s.grantWaiter k i l
          | .shared => regrantOver k rest (s.grantWaiter k i l)
        else s
      | _, _ => s

/-- A regrant of the entry of a key (R54). -/
def State.regrant (s : State) (k : Word) : State :=
  match entryOf s.directory k with
  | none => s
  | some e => regrantOver k e.queue s

/-! ### Moves of a slot -/

/-- Take a slot out of the holder list and the wait queue of its key. -/
def State.vacate (s : State) (i : SlotIndex) (k : Word) : State :=
  s.editEntry k fun e => (e.dropHolder i).dropWaiter i

/-- The slot as it becomes FREE: the generation advanced, every other field removed (R19). -/
def Slot.freed (sl : Slot) : Slot :=
  { state := .free, generation := sl.generation + 1, lease := none, extension := none, notice := none }

/-- The slot as it becomes ENDED with a notice: a pending extension is removed (R11, R15, R17). -/
def Slot.endedWith (sl : Slot) (kind : NoticeKind) : Slot :=
  { sl with state := .ended, extension := none, notice := some kind }

/-- A slot becomes FREE: the four things of R19. -/
def State.freeSlot (s : State) (i : SlotIndex) : State :=
  let s' := (s.modifySlot i Slot.freed).stopCounter i
  match s.slots[i].lease with
  | none => s'
  | some l => s'.modifySession l.station fun r => { r with leaseCount := r.leaseCount - 1 }

/-- A slot becomes ENDED with a notice; its counter is stopped (R11, R15, R17). -/
def State.endSlot (s : State) (i : SlotIndex) (kind : NoticeKind) : State :=
  (s.modifySlot i (Slot.endedWith · kind)).stopCounter i

/-- How a slot leaves the holders or waiters of its key. -/
inductive Disposal where
  | free
  | ended (kind : NoticeKind)
  deriving DecidableEq, Repr

/-- Make the slot FREE or ENDED. -/
def State.dispose (s : State) (i : SlotIndex) : Disposal → State
  | .free => s.freeSlot i
  | .ended kind => s.endSlot i kind

/-- A slot leaves its state for FREE or ENDED. A live slot leaves its list, and the regrant of its key and the
removal of an emptied entry belong to the same taking (R4, R18, R32, R56). -/
def State.removeSlot (s : State) (i : SlotIndex) (d : Disposal) : State :=
  match s.slots[i].state.isLive, s.slots[i].lease with
  | true, some l => (((s.vacate i l.key).dispose i d).regrant l.key).settleEntry l.key
  | _, _ => s.dispose i d

/-- A renewal (R12, R16, R82, R83): HELD, the carried term stored if it is not 0, the counter loaded with it or
with the stored term, a pending extension removed, a notice left as it was. -/
def State.renewSlot (s : State) (i : SlotIndex) (l : Lease) (term : Word) : State :=
  let t := if term = 0 then l.term else term
  (s.modifySlot i fun sl =>
    { sl with state := .held, extension := none, lease := some { l with term := t } }).loadCounter i t .term

/-- The lowest-numbered FREE slot (R9). -/
def State.lowestFree (s : State) : Option SlotIndex :=
  (List.finRange 256).find? fun i => s.slots[i].state == .free

/-- Place a new lease in a FREE slot (R9, R21): the generation stays. -/
def State.occupy (s : State) (i : SlotIndex) (st : SlotState) (l : Lease) : State :=
  (s.modifySlot i fun sl => { sl with state := st, lease := some l, extension := none, notice := none }).modifySession
    l.station fun r => { r with leaseCount := r.leaseCount + 1 }

/-- The slot of a station's WAITING, HELD or GRACE lease on a key (R36, R49). -/
def State.liveLeaseOn (s : State) (p : Station) (k : Word) : Option SlotIndex :=
  (List.finRange 256).find? fun i =>
    s.slots[i].state.isLive &&
      match s.slots[i].lease with
      | none => false
      | some l => l.station == p && l.key == k

/-! ### Checks shared by the blocks -/

/-- The session check (R46, R104): the refusal, if there is one. -/
def State.sessionRefusal (s : State) (p : Station) (epoch : Byte) : Option ResultCode :=
  match s.sessions[p].state with
  | .detached => some .noSession
  | .sweeping => some .sessionEnded
  | .attached => if epoch = s.sessions[p].epoch then none else some .staleSession

/-- The handle check (R7), the format aside: the refusal, if there is one. -/
def State.handleRefusal (s : State) (p : Station) (h : Word) : Option ResultCode :=
  let sl := s.slots[handleSlot h]
  if sl.generation ≠ handleGeneration h then some .staleHandle
  else
    match sl.lease with
    | none => some .staleHandle
    | some l =>
      if sl.state = .free then some .staleHandle else if l.station ≠ p then some .foreign else none

/-- The checks of R60 up to the state checks, `own` being the command's own format check. -/
def State.handleCommandRefusal (s : State) (p : Station) (epoch : Byte) (h : Word) (own : Bool) :
    Option ResultCode :=
  if handleWellFormed h && own then
    match s.sessionRefusal p epoch with
    | some r => some r
    | none => s.handleRefusal p h
  else some .badArg

/-- The checks of an administrator command (R112, R161 steps 1 to 3): format, session, administrator. -/
def State.adminRefusal (s : State) (p : Station) (epoch : Byte) (format : Bool) : Option ResultCode :=
  if format then
    match s.sessionRefusal p epoch with
    | some r => some r
    | none => if s.settings.admin = p then none else some .denied
  else some .badArg

/-! ### Orders of the Sweep Engine -/

/-- The Sweep Engine enters an order at the tail; the first order of an empty queue becomes active and its walk
begins at slot 0 (R111). -/
def State.enterOrder (s : State) (o : Order) : State :=
  { s with sweepQueue := s.sweepQueue ++ [o], walk := if s.sweepQueue.isEmpty then some 0 else s.walk }

/-- Remove the active order and make the next one active, its walk at slot 0, or become IDLE (R125). -/
def State.nextOrder (s : State) : State :=
  { s with sweepQueue := s.sweepQueue.tail, walk := if s.sweepQueue.tail.isEmpty then none else some 0 }

/-- The GE reports that it has taken the removal claim of slot `i`: the claim of the next slot is handed over,
and none after slot 255 (R118). -/
def State.advanceWalk (s : State) (i : SlotIndex) : State :=
  { s with walk := if i = 255 then none else some (i + 1) }

/-- An ATTACHED session moves to SWEEPING: the liveness counter stopped, the cause set, a station order handed
to the Sweep Engine (R98). -/
def State.endSession (s : State) (p : Station) (cause : SweepCause) : State :=
  ((s.stopLiveness p).modifySession p fun r => { r with state := .sweeping, cause := some cause }).enterOrder
    (.station p cause)

/-! ### Posted commands: taking and answering -/

/-- The arguments of a port's command in flight, if it has this code and has been passed on to its block (R155). -/
def State.posted (s : State) (p : Station) (code : Byte) : Option (List Byte) :=
  match s.ports[p].command with
  | .busy c => if c.passedOn && c.code == code then some c.args else none
  | _ => none

/-- The owning block's taking ends: the result record is placed in the port's result buffer and the command
buffer is emptied (R156). Commands of the port passed on from here on come after every completion claim
outstanding for its station (R41). -/
def State.placeResult (s : State) (p : Station) (code : Byte) (r : Reply) : State :=
  { s.modifyPort p (fun q => { q with command := .holding (resultRecord code r) }) with
    rangeCompletions := s.rangeCompletions.map fun c =>
      if c.requester = p then { c with overtaken := false } else c }

/-- A port has a command passed on to the GE and not yet taken (R41). -/
def State.waitsForGE (s : State) (p : Station) : Bool :=
  match s.ports[p].command with
  | .busy c => c.passedOn && ownerOf c.code == .grantEngine
  | _ => false

/-- The port whose command the arbiter takes next: rotating order of station number from the one after the one
taken last (R41). -/
def State.arbiterChoice (s : State) : Option Station :=
  [s.lastTaken + 1, s.lastTaken + 2, s.lastTaken + 3, s.lastTaken].find? s.waitsForGE

/-- A command of a port must wait for an outstanding completion claim of its station's range order (R41, R124). -/
def State.behindCompletion (s : State) (p : Station) : Bool :=
  s.rangeCompletions.any fun c => c.requester == p && !c.overtaken

/-- The GE can take the command of a port now (R41). -/
def State.geMayTake (s : State) (p : Station) : Bool := s.arbiterChoice == some p && !s.behindCompletion p

/-- The outcome type of every meaning. -/
abbrev Result := Host.Outcome State Fault Refusal

/-- The Session Unit or the Configuration Unit takes a port's command with this code, if that command is there
and its arguments are the ones this row is about. Otherwise there is no such taking (log entry 3). -/
def unitTaking (p : Station) (code : Byte) (about : List Byte → Bool) (act : List Byte → State → State × Reply)
    (s : State) : Result :=
  match s.posted p code with
  | none => .next s
  | some args => if about args then .next ((act args s).1.placeResult p code (act args s).2) else .next s

/-- The GE takes a port's command with this code, if that command is there and the arbiter comes to it (R41).
Otherwise there is no such taking (log entry 3). -/
def geTaking (p : Station) (code : Byte) (act : List Byte → State → State × Reply) (s : State) : Result :=
  match s.posted p code with
  | none => .next s
  | some args =>
    if s.geMayTake p then
      .next ({ (act args s).1 with lastTaken := p }.placeResult p code (act args s).2)
    else .next s

end Sys2Proof.Machine
end

