-- ==== Sys2Proof/Machine/TimeBase.lean ====
section
/-! DEFINITION. The time base and the counter bank (spec/04 sections 4.1 and 4.2). -/

namespace Sys2Proof.Machine

/-- A tick on a lease counter: a running counter decreases by one; one that has reached 0 stays there (R72). -/
def LeaseCounter.ticked (c : LeaseCounter) : LeaseCounter :=
  if c.running ∧ c.value ≠ 0 then { c with value := c.value - 1 } else c

/-- A tick on a liveness counter (R72). -/
def LivenessCounter.ticked (c : LivenessCounter) : LivenessCounter :=
  if c.running ∧ c.value ≠ 0 then { c with value := c.value - 1 } else c

/-- The time base delivers one tick to the counter bank (R72). -/
def State.deliverTick (s : State) : State :=
  { s with leaseCounters := mapVec s.leaseCounters LeaseCounter.ticked,
           livenessCounters := mapVec s.livenessCounters LivenessCounter.ticked }

/-- The next internal interval begins from a count of 0, at the period the item now holds (R66, R68). -/
def State.beginInterval (s : State) : State :=
  s.modifyTimeBase fun t => { t with count := 0, period := s.settings.tickPeriod }

/-- The internal source is making ticks: selected, time running, the part out of reset (R66, R69). -/
def State.internalRuns (s : State) : Bool :=
  s.settings.tickSource == .internal && !s.timeBase.held && !s.inReset

/-- INTERNAL_TICK (R66): the count reaches the interval's period, one tick is delivered, the next interval begins
(log entry 2). -/
def execInternalTick (s : State) : Result :=
  if s.internalRuns then .next s.deliverTick.beginInterval else .next s

/-- TICK (R67): a rising edge on the pin is one tick with the external source and time running, and is ignored
otherwise (R66, R69). -/
def execTick (s : State) : Result :=
  if s.settings.tickSource = .external ∧ s.timeBase.held = false ∧ s.inReset = false then .next s.deliverTick
  else .next s

/-- A microsecond of REFCLK passes while no command waits (R66, log entry 1). -/
def State.microsecond (s : State) : State :=
  if s.internalRuns then
    if s.timeBase.period ≤ s.timeBase.count + 1 then s.deliverTick.beginInterval
    else s.modifyTimeBase fun t => { t with count := t.count + 1 }
  else s

/-- LEASE_COUNTER_RUNOUT (R72): a running counter that has reached 0 stops and raises its expiry claim in place of
any earlier one. -/
def execLeaseCounterRunout (i : SlotIndex) (s : State) : Result :=
  let c := s.leaseCounters[i]
  if c.running ∧ c.value = 0 then
    .next (s.modifyCounter i fun k =>
      { k with running := false, claim := some { generation := k.generation, phase := k.phase } })
  else .next s

/-- LIVENESS_COUNTER_RUNOUT (R72): a running counter that has reached 0 stops and raises its lapse claim. -/
def execLivenessCounterRunout (p : Station) (s : State) : Result :=
  let c := s.livenessCounters[p]
  if c.running ∧ c.value = 0 then .next (s.modifyLiveness p fun k => { k with running := false, claim := true })
  else .next s

end Sys2Proof.Machine
end

