-- ==== Sys2Proof/Machine/Configuration.lean ====
section
/-! DEFINITION. The Configuration Unit's takings (spec/09). -/

namespace Sys2Proof.Machine

/-! ### Items (R162) -/

def itemTickSource : Byte := 0x01
def itemTickPeriod : Byte := 0x02
def itemSharedLimit : Byte := 0x30
def itemQueueLimit : Byte := 0x31
def itemAdminStation : Byte := 0x70
def itemFrozen : Byte := 0x71
def itemTimeHeld : Byte := 0x72

def accessLevelItems : List Byte := [0x10, 0x11, 0x12, 0x13]
def quotaItems : List Byte := [0x18, 0x19, 0x1A, 0x1B]
def protectedRangeItems : List Byte := [0x20, 0x21, 0x22, 0x24, 0x25, 0x26]
def channelKeyItems : List Byte := [0x40, 0x41, 0x42, 0x43]
def channelCtrlItems : List Byte := [0x48, 0x49, 0x4A, 0x4B]

/-- The writable items (R162). -/
def writableItems : List Byte :=
  [itemTickSource, itemTickPeriod] ++ accessLevelItems ++ quotaItems ++ protectedRangeItems ++
    [itemSharedLimit, itemQueueLimit] ++ channelKeyItems ++ channelCtrlItems

/-- The 16-bit value of an item, none if the item is unknown (R162, R164). -/
def State.readItem (s : State) (item : Byte) : Option Word :=
  let t := s.settings
  if item = itemTickSource then some (match t.tickSource with | .internal => 0 | .external => 1)
  else if item = itemTickPeriod then some t.tickPeriod
  else if item ∈ accessLevelItems then some (t.accessLevel[itemIndex item].setWidth 16)
  else if item ∈ quotaItems then some (BitVec.ofNat 16 t.quota[itemIndex item])
  else if item = 0x20 then some t.p0.first
  else if item = 0x21 then some t.p0.last
  else if item = 0x22 then some (rangeCtrlWord t.p0)
  else if item = 0x24 then some t.p1.first
  else if item = 0x25 then some t.p1.last
  else if item = 0x26 then some (rangeCtrlWord t.p1)
  else if item = itemSharedLimit then some (BitVec.ofNat 16 t.sharedLimit)
  else if item = itemQueueLimit then some (BitVec.ofNat 16 t.queueLimit)
  else if item ∈ channelKeyItems then some t.channels[itemIndex item].key
  else if item ∈ channelCtrlItems then some (channelCtrlWord t.channels[itemIndex item])
  else if item = itemAdminStation then some (BitVec.ofNat 16 t.admin.val)
  else if item = itemFrozen then some (if t.frozen then 1 else 0)
  else if item = itemTimeHeld then some (if s.timeBase.held then 1 else 0)
  else none

/-- READ CONFIG with its arguments (R161, R164). -/
def readConfig (p : Station) (epoch item : Byte) (s : State) : State × Reply :=
  match s.readItem item with
  | none => (s, .plain .badArg)
  | some v =>
    match s.sessionRefusal p epoch with
    | some r => (s, .plain r)
    | none => (s, { result := .ok, body := wordBytes v })

/-- READ CONFIG (R164). -/
def execReadConfig (p : Station) (s : State) : Result :=
  unitTaking p codeReadConfig (fun _ => true) (fun a => readConfig p (argByte a 0) (argByte a 1)) s

/-! ### Writes -/

/-- A WRITE CONFIG of a known writable item: `format` says the value passes the item's format check, `needsEmpty`
that the directory must be empty, `store` puts the value in the item (R161, R162). -/
def writeItem (p : Station) (epoch : Byte) (format needsEmpty : Bool) (store : State → State) (s : State) :
    State × Reply :=
  match s.adminRefusal p epoch format with
  | some r => (s, .plain r)
  | none =>
    if s.settings.frozen then (s, .plain .frozen)
    else if needsEmpty && !s.directory.isEmpty then (s, .plain .inUse)
    else (store s, .plain .ok)

/-- The item and the value of a WRITE CONFIG's arguments (section 11.2). -/
def writtenItem (a : List Byte) : Byte := argByte a 1
def writtenValue (a : List Byte) : Word := argWord a 2

/-- WRITE_CONFIG (R161): an unknown or read-only item is refused BAD_ARG. -/
def execWriteConfig (p : Station) (s : State) : Result :=
  unitTaking p codeWriteConfig (fun a => !writableItems.contains (writtenItem a))
    (fun _ t => (t, .plain .badArg)) s

/-- A write of TICK_SOURCE reaches the time base (R68): a switch abandons the internal interval or begins a new
one at a count of 0; the value already held changes nothing. -/
def State.storeTickSource (s : State) (v : Word) : State :=
  let src := if v = 0 then TickSource.internal else .external
  if s.settings.tickSource = src then s
  else (s.modifySettings fun t => { t with tickSource := src }).beginInterval

/-- WRITE_TICK_SOURCE (R68). -/
def execWriteTickSource (p : Station) (s : State) : Result :=
  unitTaking p codeWriteConfig (fun a => writtenItem a == itemTickSource)
    (fun a => writeItem p (argByte a 0) (writtenValue a ≤ 1#16) false (·.storeTickSource (writtenValue a))) s

/-- A write of TICK_PERIOD is stored; the internal interval now running completes at its old period (R68). -/
def State.storeTickPeriod (s : State) (v : Word) : State := s.modifySettings fun t => { t with tickPeriod := v }

/-- WRITE_TICK_PERIOD (R68): 0 is out of range (R171). -/
def execWriteTickPeriod (p : Station) (s : State) : Result :=
  unitTaking p codeWriteConfig (fun a => writtenItem a == itemTickPeriod)
    (fun a => writeItem p (argByte a 0) (writtenValue a != 0) false (·.storeTickPeriod (writtenValue a))) s

def State.storeAccessLevel (s : State) (q : Station) (v : Word) : State :=
  s.modifySettings fun t => { t with accessLevel := updVec t.accessLevel q fun _ => v.setWidth 2 }

/-- WRITE_ACCESS_LEVEL (R165): 0 to 3. -/
def execWriteAccessLevel (p : Station) (s : State) : Result :=
  unitTaking p codeWriteConfig (fun a => accessLevelItems.contains (writtenItem a))
    (fun a => writeItem p (argByte a 0) (writtenValue a ≤ 3#16) false
      (·.storeAccessLevel (itemIndex (writtenItem a)) (writtenValue a))) s

def State.storeQuota (s : State) (q : Station) (v : Word) : State :=
  s.modifySettings fun t => { t with quota := updVec t.quota q fun _ => v.toNat }

/-- WRITE_QUOTA (R168): 0 to 256. -/
def execWriteQuota (p : Station) (s : State) : Result :=
  unitTaking p codeWriteConfig (fun a => quotaItems.contains (writtenItem a))
    (fun a => writeItem p (argByte a 0) (writtenValue a ≤ 256#16) false
      (·.storeQuota (itemIndex (writtenItem a)) (writtenValue a))) s

/-- The value of a protected range item passes its format check: a key always, a control value with no unassigned
bit (R162, section 11.4). -/
def rangeValueOk (item : Byte) (v : Word) : Bool :=
  if item = 0x22 ∨ item = 0x26 then rangeCtrlAssigned v else true

/-- Store an item of P0 or P1 (R166). -/
def State.storeProtectedRange (s : State) (item : Byte) (v : Word) : State :=
  s.modifySettings fun t =>
    if item = 0x20 then { t with p0 := { t.p0 with first := v } }
    else if item = 0x21 then { t with p0 := { t.p0 with last := v } }
    else if item = 0x22 then { t with p0 := t.p0.withCtrl v }
    else if item = 0x24 then { t with p1 := { t.p1 with first := v } }
    else if item = 0x25 then { t with p1 := { t.p1 with last := v } }
    else { t with p1 := t.p1.withCtrl v }

/-- WRITE_PROTECTED_RANGE (R166). -/
def execWriteProtectedRange (p : Station) (s : State) : Result :=
  unitTaking p codeWriteConfig (fun a => protectedRangeItems.contains (writtenItem a))
    (fun a => writeItem p (argByte a 0) (rangeValueOk (writtenItem a) (writtenValue a)) false
      (·.storeProtectedRange (writtenItem a) (writtenValue a))) s

def State.storeSharedLimit (s : State) (v : Word) : State :=
  s.modifySettings fun t => { t with sharedLimit := v.toNat }

/-- WRITE_SHARED_LIMIT (R169): 1 to 8, only while the directory is empty. -/
def execWriteSharedLimit (p : Station) (s : State) : Result :=
  unitTaking p codeWriteConfig (fun a => writtenItem a == itemSharedLimit)
    (fun a => writeItem p (argByte a 0) (1#16 ≤ writtenValue a && writtenValue a ≤ 8#16) true
      (·.storeSharedLimit (writtenValue a))) s

def State.storeQueueLimit (s : State) (v : Word) : State :=
  s.modifySettings fun t => { t with queueLimit := v.toNat }

/-- WRITE_QUEUE_LIMIT (R169): 1 to 32, only while the directory is empty. -/
def execWriteQueueLimit (p : Station) (s : State) : Result :=
  unitTaking p codeWriteConfig (fun a => writtenItem a == itemQueueLimit)
    (fun a => writeItem p (argByte a 0) (1#16 ≤ writtenValue a && writtenValue a ≤ 32#16) true
      (·.storeQueueLimit (writtenValue a))) s

def State.storeChannelKey (s : State) (n : ChannelNumber) (v : Word) : State :=
  s.modifySettings fun t => { t with channels := updVec t.channels n fun c => { c with key := v } }

/-- WRITE_CHANNEL_KEY (R178). -/
def execWriteChannelKey (p : Station) (s : State) : Result :=
  unitTaking p codeWriteConfig (fun a => channelKeyItems.contains (writtenItem a))
    (fun a => writeItem p (argByte a 0) true false
      (·.storeChannelKey (itemIndex (writtenItem a)) (writtenValue a))) s

def State.storeChannelCtrl (s : State) (n : ChannelNumber) (v : Word) : State :=
  s.modifySettings fun t => { t with channels := updVec t.channels n fun c => c.withCtrl v }

/-- WRITE_CHANNEL_CTRL (R178). -/
def execWriteChannelCtrl (p : Station) (s : State) : Result :=
  unitTaking p codeWriteConfig (fun a => channelCtrlItems.contains (writtenItem a))
    (fun a => writeItem p (argByte a 0) (channelCtrlAssigned (writtenValue a)) false
      (·.storeChannelCtrl (itemIndex (writtenItem a)) (writtenValue a))) s

/-! ### FREEZE and HOLD TIME -/

/-- FREEZE with its argument (R172). -/
def freeze (p : Station) (epoch : Byte) (s : State) : State × Reply :=
  match s.adminRefusal p epoch true with
  | some r => (s, .plain r)
  | none => (s.modifySettings fun t => { t with frozen := true }, .plain .ok)

/-- FREEZE (R172). -/
def execFreeze (p : Station) (s : State) : Result :=
  unitTaking p codeFreeze (fun _ => true) (fun a => freeze p (argByte a 0)) s

/-- HOLD TIME with its setting known to be on or off (R69, R171): the interval's count is kept. -/
def holdTime (p : Station) (epoch : Byte) (on : Bool) (s : State) : State × Reply :=
  match s.adminRefusal p epoch true with
  | some r => (s, .plain r)
  | none => (s.modifyTimeBase fun t => { t with held := on }, .plain .ok)

/-- HOLD_TIME_ON (R69): setting 1. -/
def execHoldTimeOn (p : Station) (s : State) : Result :=
  unitTaking p codeHoldTime (fun a => argByte a 1 == 1) (fun a => holdTime p (argByte a 0) true) s

/-- HOLD_TIME_OFF (R69): setting 0. -/
def execHoldTimeOff (p : Station) (s : State) : Result :=
  unitTaking p codeHoldTime (fun a => argByte a 1 == 0) (fun a => holdTime p (argByte a 0) false) s

/-- HOLD_TIME_INVALID_SETTING (R171): any other setting is refused BAD_ARG. -/
def execHoldTimeInvalidSetting (p : Station) (s : State) : Result :=
  unitTaking p codeHoldTime (fun a => argByte a 1 != 0 && argByte a 1 != 1) (fun _ t => (t, .plain .badArg)) s

end Sys2Proof.Machine
end

