-- ==== Sys2Proof/Machine/Frames.lean ====
section
/-! DEFINITION. Frames of a station port (spec/08, spec/07 section 7.2): what select and the clock do, what is
shifted out, what the end of a frame does, and the eight rows of the table that are frames. The port counts bits
and judges a frame by what it received (R146), whatever the sender meant (R183). -/

namespace Sys2Proof.Machine

/-! ### What is shifted out -/

/-- The record of a slot in a station's notices snapshot (R133). -/
def State.noticeRecord (s : State) (p : Station) (i : SlotIndex) : Option NoticeRecord :=
  match s.slots[i].notice, s.slots[i].lease with
  | some kind, some l =>
    if l.station = p then
      some { slot := i, generation := s.slots[i].generation, key := l.key, kind := kind, state := s.slots[i].state }
    else none
  | _, _ => none

/-- The number of records a limit byte asks for: 1 to 8 that many, 0 and 9 to 255 eight (R132). -/
def limitOf (b : Byte) : Nat := if 1 ≤ b.toNat && b.toNat ≤ 8 then b.toNat else Config.noticesLimit

/-- The snapshot of a station's notice set for a limit byte, in ascending order of slot (R133). -/
def State.noticesSnapshot (s : State) (p : Station) (limit : Byte) : List NoticeRecord :=
  ((List.finRange 256).filterMap (s.noticeRecord p)).take (limitOf limit)

/-- A notice record as it travels (R134, section 11.3). -/
def NoticeRecord.bytes (r : NoticeRecord) : List Byte :=
  wordBytes (handleOf r.generation r.slot) ++ wordBytes r.key ++ [r.kind.code, r.state.code]

/-- The count byte and the records of a snapshot, from byte 3 of a NOTICES frame on (R134). -/
def noticesBytes (rs : List NoticeRecord) : List Byte := BitVec.ofNat 8 rs.length :: rs.flatMap NoticeRecord.bytes

/-- What the completion of a byte fixes for the rest of the frame: the record of a FETCH when its command byte is
complete (R151), the snapshot of a NOTICES when its limit byte is, unless four claims are in flight (R133, R138). -/
def State.fixReply (s : State) (p : Station) (f : Frame) : Frame :=
  let n := f.received.length / 8
  let code := frameByte f.received 0
  if n = 1 ∧ code = codeFetch then
    match s.ports[p].command with
    | .holding r => { f with fetched := some r }
    | _ => f
  else if n = 2 ∧ code = codeNotices then
    if s.ports[p].acks.length < Config.acknowledgementCapacity then
      { f with snapshot := some (s.noticesSnapshot p (frameByte f.received 1)) }
    else f
  else f

/-- The byte shifted out after the bytes received so far (R145, R150, R151, R152, R134). -/
def State.nextOutByte (s : State) (p : Station) (f : Frame) : Byte :=
  let n := f.received.length / 8
  let code := frameByte f.received 0
  if code = codeStatus then if n % 2 = 0 then s.statusByte p else s.ports[p].flags.byte
  else if code = codeFetch then (f.fetched.getD noneRecord).getD (n - 1) 0
  else if code = codeIdent then Config.identification.getD (n - 1) 0
  else if code = codeNotices then
    match f.snapshot with
    | none => 0
    | some rs => if n < 2 then 0 else (noticesBytes rs).getD (n - 2) 0
  else 0

/-- A rising edge of SnSCK in a frame: SnSDI is sampled and counted as one bit, and the bit on SnSDO is taken; a byte it
completes may fix the reply (R145, R182). -/
def State.sampleBit (s : State) (p : Station) (f : Frame) (b : Bool) : Frame :=
  let f1 : Frame :=
    { f with received := f.received ++ [b],
             sent := f.sent ++ [(byteBits f.outByte).getD (f.received.length % 8) false] }
  if f1.received.length % 8 = 0 then s.fixReply p f1 else f1

/-- A falling edge of SnSCK in a frame: the bit after the one taken follows on SnSDO. A byte is read as its first bit is
shifted out (R148, R150, R182); before the first rising edge the first bit of byte 1 stays. -/
def State.shiftOut (s : State) (p : Station) (f : Frame) : Frame :=
  if f.received.length % 8 = 0 ∧ f.received ≠ [] then { f with outByte := s.nextOutByte p f } else f

/-- One clock of a frame in progress: a rising edge and then a falling one. -/
def State.clockFrame (s : State) (p : Station) (f : Frame) (b : Bool) : Frame := s.shiftOut p (s.sampleBit p f b)

/-! ### Select and clock -/

/-- Select falls: a new frame with nothing received begins, its first byte out the status byte (R145, R148). A span
begun while the part is held in reset is no frame (R159). -/
def State.selectFalls (s : State) (p : Station) : State :=
  match s.ports[p].shifter with
  | .released =>
    s.modifyPort p fun q =>
      { q with
        shifter :=
          if s.inReset then .ignoring []
          else .receiving { received := [], sent := [], outByte := s.statusByte p, fetched := none, snapshot := none } }
  | _ => s

/-- A rising edge at a port, `sample` being what it does to a frame in progress: no bit while select is released (R145),
a bit the port ignores in a span that is no frame (R159; what goes out there is free, log entry 6). A clock that stands
high has no rising edge (log entry 3). -/
def Port.rises (p : Station) (sample : Frame → Frame) (q : Port) : Port :=
  if q.clockHigh then q
  else
    { q with
      clockHigh := true
      shifter :=
        match q.shifter with
        | .released => .released
        | .ignoring sent => .ignoring (sent ++ [Config.freeSdoBit p q.freeIndex])
        | .receiving f => .receiving (sample f) }

/-- A falling edge at a port, `shift` being what it does to a frame in progress; in a span that is no frame the next free
value follows (log entry 6). A clock that stands low has no falling edge (log entry 3). -/
def Port.falls (shift : Frame → Frame) (q : Port) : Port :=
  if q.clockHigh then
    match q.shifter with
    | .released => { q with clockHigh := false }
    | .ignoring _ => { q with clockHigh := false, freeIndex := q.freeIndex + 1 }
    | .receiving f => { q with clockHigh := false, shifter := .receiving (shift f) }
  else q

/-- `n` whole clocks at a port whose clock stands low, `run` being what they do to a frame in progress. -/
def Port.clocked (p : Station) (run : Frame → Frame) (n : Nat) (q : Port) : Port :=
  match q.shifter with
  | .released => q
  | .ignoring sent =>
    { q with
      shifter := .ignoring (sent ++ (List.range n).map fun k => Config.freeSdoBit p (q.freeIndex + k))
      freeIndex := q.freeIndex + n }
  | .receiving f => { q with shifter := .receiving (run f) }

/-- SnSCK rises with SnSDI at `b` (R182). -/
def State.clockRises (s : State) (p : Station) (b : Bool) : State :=
  s.modifyPort p (Port.rises p fun f => s.sampleBit p f b)

/-- SnSCK falls (R182). -/
def State.clockFalls (s : State) (p : Station) : State := s.modifyPort p (Port.falls (s.shiftOut p))

/-- Bits are clocked, each by a rising and a falling edge, after a falling edge if the clock stands high: the edges of
clockRises and clockFalls in turn (clockBits_cons of Laws/Frames). -/
def State.clockBits (s : State) (p : Station) (bits : List Bool) : State :=
  if bits = [] then s
  else (s.clockFalls p).modifyPort p (Port.clocked p (fun f => bits.foldl (s.clockFrame p) f) bits.length)

/-! ### The end of a frame -/

/-- The port hands the Session Unit the frame's liveness reload (R100). -/
def State.handReload (s : State) (p : Station) (r : Reload) : State :=
  s.modifyPort p fun q => { q with reloads := q.reloads ++ [r] }

/-- The end of a FETCH frame: a result record that went out whole is removed (R151). -/
def State.endFetch (s : State) (p : Station) (f : Frame) : State :=
  match f.fetched with
  | none => s
  | some r =>
    if 8 * (1 + r.length) ≤ f.received.length then s.modifyPort p fun q => { q with command := .ready } else s

/-- The records of a NOTICES frame whose sixth byte went out in full (R135). -/
def Frame.recordsRead (f : Frame) : List NoticeRecord :=
  match f.snapshot with
  | none => []
  | some rs => rs.take ((f.received.length / 8 - 3) / 6)

/-- The entry of an acknowledgement claim for a record (R135). -/
def NoticeRecord.ack (r : NoticeRecord) : AckEntry := { slot := r.slot, generation := r.generation, kind := r.kind }

/-- The end of a NOTICES frame: one claim with an entry for each record read whole, none if no record was (R135). -/
def State.endNotices (s : State) (p : Station) (f : Frame) : State :=
  if f.recordsRead.isEmpty then s
  else s.modifyPort p fun q => { q with acks := q.acks ++ [f.recordsRead.map NoticeRecord.ack] }

/-- The end of a well-formed posted frame: taken when the port is READY or HOLDING, a held result discarded with
LOST (R153); refused with OVERRUN when it is BUSY (R154). -/
def State.endPosted (s : State) (p : Station) (code : Byte) (args : List Byte) : State :=
  let cmd : PostedCommand := { code := code, args := args, passedOn := false }
  match s.ports[p].command with
  | .busy _ =>
    (s.modifyPort p fun q => { q with flags := { q.flags with overrun := true } }).handReload p .plain
  | .holding _ =>
    (s.modifyPort p fun q => { q with command := .busy cmd, flags := { q.flags with lost := true } }).handReload p
      .ofCommand
  | .ready => (s.modifyPort p fun q => { q with command := .busy cmd }).handReload p .ofCommand

/-- The end of a read frame by its command (R150, R151, R152, R135). -/
def State.endRead (s : State) (p : Station) (code : Byte) (f : Frame) : State :=
  if code = codeFetch then s.endFetch p f else if code = codeNotices then s.endNotices p f else s

/-- What the end of a frame does, by the frame's class (R146). -/
def State.endFrame (s : State) (p : Station) (f : Frame) : State :=
  match classify f.received with
  | .empty => s
  | .broken => s.modifyPort p fun q => { q with flags := { q.flags with frameErr := true } }
  | .read code => (s.endRead p code f).handReload p .plain
  | .mask b => (s.modifyPort p fun q => { q with mask := .ofByte b }).handReload p .plain
  | .clearFlags b => (s.modifyPort p fun q => { q with flags := q.flags.clearedBy b }).handReload p .plain
  | .posted code args => s.endPosted p code args

/-- Select rises: the frame in progress is classed and ends (R146); a span that was no frame ends without a class
(R159). -/
def State.selectRises (s : State) (p : Station) : State :=
  match s.ports[p].shifter with
  | .released => s
  | .ignoring sent => s.modifyPort p fun q => { q with shifter := .released, sdo := sent }
  | .receiving f => (s.endFrame p f).modifyPort p fun q => { q with shifter := .released, sdo := f.sent }

/-- A station's event on its port, `lead` being the bytes its row puts before the event's bits. -/
def State.frameEvent (s : State) (p : Station) (lead : List Byte) (ev : FrameEvent) : State :=
  match ev with
  | .whole bits => ((s.selectFalls p).clockBits p (bytesBits lead ++ bits)).selectRises p
  | .start bits => (s.selectFalls p).clockBits p (bytesBits lead ++ bits)
  | .more bits => s.clockBits p bits
  | .rise b => s.clockRises p b
  | .fall => s.clockFalls p
  | .stop => s.selectRises p

/-! ### The rows -/

/-- STATUS (R150): status and flags bytes in turn; a reload at the end. -/
def execStatus (p : Station) (ev : FrameEvent) (s : State) : Result := .next (s.frameEvent p [codeStatus] ev)

/-- FETCH (R151): the result record, or the NONE record; a record that went out whole is removed. -/
def execFetch (p : Station) (ev : FrameEvent) (s : State) : Result := .next (s.frameEvent p [codeFetch] ev)

/-- NOTICES (R132 to R135, R138): a snapshot of the notice set; the records read whole are acknowledged. -/
def execNotices (p : Station) (ev : FrameEvent) (s : State) : Result := .next (s.frameEvent p [codeNotices] ev)

/-- MASK (R141): the whole attention mask is replaced. -/
def execMask (p : Station) (ev : FrameEvent) (s : State) : Result := .next (s.frameEvent p [codeMask] ev)

/-- CLEARFLAGS (R140): the flags whose bits are set are cleared. -/
def execClearFlags (p : Station) (ev : FrameEvent) (s : State) : Result :=
  .next (s.frameEvent p [codeClearFlags] ev)

/-- IDENT (R152): the identification bytes. -/
def execIdent (p : Station) (ev : FrameEvent) (s : State) : Result := .next (s.frameEvent p [codeIdent] ev)

/-- A frame that the port discards with FRAME_ERR (R146); the bits are all the frame's bits. -/
def execBrokenFrame (p : Station) (ev : FrameEvent) (s : State) : Result := .next (s.frameEvent p [] ev)

/-- The end of a posted frame (R153, R154, R157). -/
def execPostedFrameEnd (p : Station) (code : Byte) (ev : FrameEvent) (s : State) : Result :=
  .next (s.frameEvent p [code] ev)

/-- The port answers an unknown code itself, once the frame's reload has been taken (R157). -/
def execBadCmd (p : Station) (s : State) : Result :=
  match s.ports[p].command with
  | .busy c =>
    if c.passedOn && ownerOf c.code == .port then .next (s.placeResult p c.code (.plain .badCmd)) else .next s
  | _ => .next s

end Sys2Proof.Machine
end

