-- ==== Sys2Proof/Machine/Granting.lean ====
section
/-! DEFINITION. The Grant Engine's takings of ACQUIRE, RELEASE, CONVERT (spec/03) and of the two queries
(spec/02). -/

namespace Sys2Proof.Machine

/-- The handle body of an accepted ACQUIRE (R180). -/
def handleBody (s : State) (i : SlotIndex) : List Byte := wordBytes (handleOf s.slots[i].generation i)

/-- The access check: each enabled range that covers the key demands its level (R47). -/
def State.accessDenied (s : State) (p : Station) (k : Word) : Bool :=
  (s.settings.p0.covers k && s.settings.accessLevel[p] < s.settings.p0.level) ||
    (s.settings.p1.covers k && s.settings.accessLevel[p] < s.settings.p1.level)

/-- Steps 1 to 6 of the ACQUIRE checks: the refusal, if one of them decides (R45). -/
def State.acquireRefusal (s : State) (p : Station) (epoch : Byte) (k : Word) (flags : Byte) (term : Word) :
    Option ResultCode :=
  if (acquireMode flags).isNone || !acquireFlagsAssigned flags || term == 0 then some .badArg
  else
    match s.sessionRefusal p epoch with
    | some r => some r
    | none =>
      if s.accessDenied p k then some .denied
      else if s.inSweepScope k then some .sweepingKey
      else if (s.liveLeaseOn p k).isSome then some .duplicate
      else if s.settings.quota[p] ≤ s.sessions[p].leaseCount then some .quota
      else none

/-- An immediate grant is possible: no waiter that is not doomed, and a compatible mode (R51). -/
def State.immediateGrant (s : State) (e : Entry) (m : LeaseMode) : Bool :=
  e.queue.all s.doomed && s.compatible e m

/-- The grant at once into a FREE slot (R9, R30). -/
def State.grantNow (s : State) (i : SlotIndex) (l : Lease) : State :=
  let s' := (s.occupy i .held l).loadCounter i l.term .term
  s'.withDirectory (putEntry ((s.entryOrNew l.key).addHolder i l.mode) s.directory)

/-- The queuing into a FREE slot (R9, R53, R73): a wait limit of 0 loads no counter. -/
def State.queueUp (s : State) (i : SlotIndex) (l : Lease) : State :=
  let s1 := s.occupy i .waiting l
  let s2 := if l.waitLimit = 0 then s1.stopCounter i else s1.loadCounter i l.waitLimit .wait
  s2.withDirectory (putEntry ((s.entryOrNew l.key).addWaiter i) s.directory)

/-- Steps 7 to 12 of the ACQUIRE checks, for a request that has passed the first six (R45). -/
def acquirePlace (l : Lease) (try? : Bool) (s : State) : State × Reply :=
  match s.lowestFree with
  | none => (s, .plain .poolFull)
  | some i =>
    if (entryOf s.directory l.key).isNone && Config.directoryCapacity ≤ s.directory.length then
      (s, .plain .dirFull)
    else if s.immediateGrant (s.entryOrNew l.key) l.mode then
      (s.grantNow i l, { result := .granted, body := handleBody s i })
    else if try? then (s, .plain .busyRes)
    else if s.settings.queueLimit ≤ (s.entryOrNew l.key).queue.length then (s, .plain .queueFull)
    else
      (s.queueUp i l,
        { result := .queued, body := handleBody s i ++ [BitVec.ofNat 8 ((s.entryOrNew l.key).queue.length + 1)] })

/-- ACQUIRE with its arguments (R45). -/
def acquire (p : Station) (epoch : Byte) (k : Word) (flags : Byte) (term wait : Word) (s : State) : State × Reply :=
  match s.acquireRefusal p epoch k flags term, acquireMode flags with
  | some r, _ => (s, .plain r)
  | none, none => (s, .plain .badArg)
  | none, some m =>
    acquirePlace { station := p, key := k, mode := m, term := term, waitLimit := wait } (acquireTry flags) s

/-- ACQUIRE (R45). -/
def execAcquire (p : Station) (s : State) : Result :=
  geTaking p codeAcquire
    (fun a => acquire p (argByte a 0) (argWord a 1) (argByte a 3) (argWord a 4) (argWord a 6)) s

/-- RELEASE with its arguments (R61): accepted in every state the handle can name. -/
def release (p : Station) (epoch : Byte) (h : Word) (s : State) : State × Reply :=
  match s.handleCommandRefusal p epoch h true with
  | some r => (s, .plain r)
  | none => (s.removeSlot (handleSlot h) .free, .plain .ok)

/-- RELEASE (R61). -/
def execRelease (p : Station) (s : State) : Result :=
  geTaking p codeRelease (fun a => release p (argByte a 0) (argWord a 1)) s

/-- A HELD slot's mode becomes SHARED, and its entry is regranted in the same taking (R64). -/
def State.stepDown (s : State) (i : SlotIndex) (l : Lease) : State :=
  ((s.modifySlot i fun sl => { sl with lease := some { l with mode := .shared } }).editEntry l.key fun e =>
    { e with holdMode := .shared }).regrant l.key

/-- A HELD slot's mode becomes EXCLUSIVE; no regrant (R65). -/
def State.stepUp (s : State) (i : SlotIndex) (l : Lease) : State :=
  (s.modifySlot i fun sl => { sl with lease := some { l with mode := .exclusive } }).editEntry l.key fun e =>
    { e with holdMode := .exclusive }

/-- The slot is the only member of its key's holder list (R65). -/
def State.soleHolder (s : State) (i : SlotIndex) (k : Word) : Bool :=
  match entryOf s.directory k with
  | none => false
  | some e => e.holders == [i]

/-- CONVERT of a HELD slot that is not doomed (R63, R64, R65). -/
def convertHeld (i : SlotIndex) (l : Lease) (m : LeaseMode) (s : State) : State × Reply :=
  if l.mode = m then (s, .plain .ok)
  else
    match m with
    | .shared => (s.stepDown i l, .plain .ok)
    | .exclusive => if s.soleHolder i l.key then (s.stepUp i l, .plain .ok) else (s, .plain .conflict)

/-- CONVERT with its arguments (R63): WRONG_STATE unless HELD, then DOOMED. -/
def convert (p : Station) (epoch : Byte) (h : Word) (mode : Byte) (s : State) : State × Reply :=
  match s.handleCommandRefusal p epoch h (modeOfCode mode).isSome with
  | some r => (s, .plain r)
  | none =>
    match s.slots[handleSlot h].state, s.slots[handleSlot h].lease, modeOfCode mode with
    | .held, some l, some m =>
      if s.doomed (handleSlot h) then (s, .plain .doomed) else convertHeld (handleSlot h) l m s
    | _, _, _ => (s, .plain .wrongState)

/-- CONVERT (R63). -/
def execConvert (p : Station) (s : State) : Result :=
  geTaking p codeConvert (fun a => convert p (argByte a 0) (argWord a 1) (argByte a 3)) s

/-- The place of a slot in the wait queue of a key, counted from 1 (R29). -/
def State.queuePosition (s : State) (i : SlotIndex) (k : Word) : Nat :=
  match entryOf s.directory k with
  | none => 0
  | some e => e.queue.idxOf i + 1

/-- The QUERY LEASE body of a slot (R37, R38, R180). -/
def leaseBody (s : State) (i : SlotIndex) (l : Lease) : List Byte :=
  let sl := s.slots[i]
  let counter := s.leaseCounters[i].value
  let remaining : Word :=
    match sl.state with
    | .waiting => if l.waitLimit = 0 then 0 else counter
    | .held => counter
    | .grace => counter
    | _ => 0
  let extension : Word := if sl.state = .held then sl.extension.getD 0 else 0
  let position : Nat := if sl.state = .waiting then s.queuePosition i l.key else 0
  [sl.state.code] ++ wordBytes l.key ++ [l.mode.code] ++ wordBytes remaining ++ wordBytes extension ++
    [BitVec.ofNat 8 position]

/-- QUERY LEASE with its arguments (R37). -/
def queryLease (p : Station) (epoch : Byte) (h : Word) (s : State) : State × Reply :=
  match s.handleCommandRefusal p epoch h true, s.slots[handleSlot h].lease with
  | some r, _ => (s, .plain r)
  | none, some l => (s, { result := .ok, body := leaseBody s (handleSlot h) l })
  | none, none => (s, .plain .staleHandle)

/-- QUERY LEASE (R37). -/
def execQueryLease (p : Station) (s : State) : Result :=
  geTaking p codeQueryLease (fun a => queryLease p (argByte a 0) (argWord a 1)) s

/-- The holder byte of a QUERY KEY body: station in bits 7 to 4, mode code in bits 3 to 0 (R180). -/
def holderByte (s : State) (i : SlotIndex) : Byte :=
  match s.slots[i].lease with
  | none => 0
  | some l => (BitVec.ofNat 4 l.station.val : BitVec 4) ++ l.mode.code.extractLsb' 0 4

/-- The own-handle field of a QUERY KEY body (R36). -/
def ownHandle (s : State) (p : Station) (k : Word) : Word :=
  match s.liveLeaseOn p k with
  | none => 0xFFFF
  | some i => handleOf s.slots[i].generation i

/-- The QUERY KEY body (R35, R36, R180). -/
def keyBody (s : State) (p : Station) (k : Word) : List Byte :=
  match entryOf s.directory k with
  | none => [0x00, HoldMode.unheld.code, 0x00, 0x00] ++ wordBytes (ownHandle s p k)
  | some e =>
    [0x01, e.holdMode.code, BitVec.ofNat 8 e.holders.length, BitVec.ofNat 8 e.queue.length] ++
      e.holders.map (holderByte s) ++ wordBytes (ownHandle s p k)

/-- QUERY KEY with its arguments (R35). -/
def queryKey (p : Station) (epoch : Byte) (k : Word) (s : State) : State × Reply :=
  match s.sessionRefusal p epoch with
  | some r => (s, .plain r)
  | none => (s, { result := .ok, body := keyBody s p k })

/-- QUERY KEY (R35). -/
def execQueryKey (p : Station) (s : State) : Result :=
  geTaking p codeQueryKey (fun a => queryKey p (argByte a 0) (argWord a 1)) s

end Sys2Proof.Machine
end

