-- ==== Sys2Proof/Machine/Notices.lean ====
section
/-! DEFINITION. The Grant Engine's taking of an acknowledgement claim (R136). -/

namespace Sys2Proof.Machine

/-- The test of an acknowledgement entry (R136). -/
def State.ackPasses (s : State) (p : Station) (e : AckEntry) : Bool :=
  s.slots[e.slot].generation == e.generation && s.slots[e.slot].notice == some e.kind &&
    s.slots[e.slot].lease.map Lease.station == some p

/-- One entry: the notice is removed, and an ENDED slot becomes FREE (R136). -/
def State.acknowledge (s : State) (p : Station) (e : AckEntry) : State :=
  if s.ackPasses p e then
    if s.slots[e.slot].state = .ended then s.freeSlot e.slot
    else s.modifySlot e.slot fun sl => { sl with notice := none }
  else s

/-- ACKNOWLEDGEMENT_CLAIM (R136): the entries of the port's oldest claim, in order (R138). -/
def execAcknowledgementClaim (p : Station) (s : State) : Result :=
  match s.ports[p].acks with
  | [] => .next s
  | claim :: rest =>
    .next (claim.foldl (fun t e => t.acknowledge p e) (s.modifyPort p fun q => { q with acks := rest }))

end Sys2Proof.Machine
end

