-- ==== Sys2Proof/Machine/Reset.lean ====
section
/-! DEFINITION. Hardware reset and its end (R3, R39, R42, R70, R71, R91, R110, R143, R159, R160, R173, R182). -/

namespace Sys2Proof.Machine

/-- A span of select low that reset meets is no frame for the port; the line itself is the station's (R159). -/
def Shifter.atReset : Shifter → Shifter
  | .released => .released
  | .ignoring _ => .ignoring []
  | .receiving _ => .ignoring []

/-- HARDWARE_RESET (R3): every record of the part goes to its reset value and every command and claim not yet
taken is lost; the part is held in reset until END_OF_RESET (R182, log entry 8). The queue of the environment's
commands, the stations' select and clock lines and the indices of free values are not the part's and stay. -/
def execHardwareReset (s : State) : Result :=
  .next
    { State.reset with
      pending := s.pending, inReset := true,
      ports := mapVec s.ports fun q =>
        { Port.reset with shifter := q.shifter.atReset, clockHigh := q.clockHigh, freeIndex := q.freeIndex } }

/-- The straps name the administrator station: its access level is 3 and every other station's 0 (R160, R165). -/
def Settings.withStrap (t : Settings) (strap : Station) : Settings :=
  { t with admin := strap, accessLevel := (Vector.replicate 4 0).set strap 3 }

/-- END_OF_RESET (R160, R182): the part leaves reset, takes the straps as the administrator station, and begins
its first internal interval at a count of 0 (R70). Out of reset there is no such event (log entry 3). -/
def execEndOfReset (strap : Station) (s : State) : Result :=
  if s.inReset then
    .next { s with inReset := false, settings := s.settings.withStrap strap, timeBase := TimeBase.reset }
  else .next s

end Sys2Proof.Machine
end

