-- ==== Sys2Proof/Machine/Sessions.lean ====
section
/-! DEFINITION. The Session Unit's takings (spec/05). -/

namespace Sys2Proof.Machine

/-- A command in the command buffer is passed on to its block (R155). -/
def CommandState.passOn : CommandState → CommandState
  | .busy c => .busy { c with passedOn := true }
  | st => st

/-- LIVENESS_RELOAD (R101): the liveness counter of an ATTACHED session with a nonzero term is loaded, otherwise
the reload is discarded. The command whose frame sent the reload is then passed on (R100, R155). -/
def execLivenessReload (p : Station) (which : Nat) (s : State) : Result :=
  match s.ports[p].reloads[which]? with
  | none => .next s
  | some r =>
    let taken := s.modifyPort p fun q =>
      { q with
        reloads := q.reloads.eraseIdx which
        command := match r with | .plain => q.command | .ofCommand => q.command.passOn }
    if s.sessions[p].state = .attached ∧ s.sessions[p].livenessTerm ≠ 0 then
      .next (taken.loadLiveness p s.sessions[p].livenessTerm)
    else .next taken

/-- The next epoch: 0 and 255 give 1 (R92). -/
def nextEpoch (e : Byte) : Byte := if e = 255 then 1 else e + 1

/-- An ATTACH taken while DETACHED begins a session (R94). -/
def State.beginSession (s : State) (p : Station) (term : Word) (grace : Byte) : State :=
  let s' := s.modifySession p fun r =>
    { r with state := .attached, epoch := nextEpoch r.epoch, livenessTerm := term, grace := grace }
  if term = 0 then s'.stopLiveness p else s'.loadLiveness p term

/-- ATTACH with its arguments (R93 to R97). -/
def attach (p : Station) (term : Word) (grace flags : Byte) (s : State) : State × Reply :=
  if oneFlagAssigned flags then
    match s.sessions[p].state with
    | .detached => (s.beginSession p term grace, { result := .ok, body := [nextEpoch s.sessions[p].epoch] })
    | .attached => if flagBit0 flags then (s.endSession p .reclaim, .plain .accepted) else (s, .plain .attached)
    | .sweeping => (s, .plain .sessionEnded)
  else (s, .plain .badArg)

/-- ATTACH (R93). -/
def execAttach (p : Station) (s : State) : Result :=
  unitTaking p codeAttach (fun _ => true) (fun a => attach p (argWord a 0) (argByte a 2) (argByte a 3)) s

/-- DETACH with its argument (R99). -/
def detach (p : Station) (epoch : Byte) (s : State) : State × Reply :=
  match s.sessionRefusal p epoch with
  | some r => (s, .plain r)
  | none => (s.endSession p .detach, .plain .accepted)

/-- DETACH (R99). -/
def execDetach (p : Station) (s : State) : Result :=
  unitTaking p codeDetach (fun _ => true) (fun a => detach p (argByte a 0)) s

/-- LAPSE_CLAIM (R102): a claim that passes the three tests ends the session with cause LAPSE; any other is
discarded. -/
def execLapseClaim (p : Station) (s : State) : Result :=
  if s.livenessCounters[p].claim then
    let taken := s.modifyLiveness p fun c => { c with claim := false }
    if s.sessions[p].state = .attached ∧ s.sessions[p].livenessTerm ≠ 0 ∧ s.livenessCounters[p].value = 0 then
      .next (taken.endSession p .lapse)
    else .next taken
  else .next s

/-- The causes whose completion sets SESSION_ENDED (R106). -/
def SweepCause.tellsStation : SweepCause → Bool
  | .lapse => true
  | .purge => true
  | .clear => true
  | .detach => false
  | .reclaim => false

/-- SESSION_SWEEP_COMPLETION (R106): the session becomes DETACHED, its epoch kept; SESSION_ENDED is set for the
causes LAPSE, PURGE and CLEAR. -/
def execSessionSweepCompletion (p : Station) (s : State) : Result :=
  match s.sessionCompletions[p] with
  | none => .next s
  | some cause =>
    let s1 := { s with sessionCompletions := updVec s.sessionCompletions p fun _ => none }
    let s2 := s1.modifySession p fun r =>
      { r with state := .detached, livenessTerm := 0, grace := 0, cause := none }
    .next (s2.modifyPort p fun q =>
      { q with flags := { q.flags with sessionEnded := q.flags.sessionEnded || cause.tellsStation } })

end Sys2Proof.Machine
end

