-- ==== Sys2Proof/Machine/Sweeps.lean ====
section
/-! DEFINITION. Sweeps (spec/06): the administrator commands that order them, the removal claims of the walk,
completion, and the completion claim of a range order (R34). -/

namespace Sys2Proof.Machine

/-- PURGE with its arguments (R112, R113). -/
def purge (p : Station) (epoch station : Byte) (s : State) : State × Reply :=
  match s.adminRefusal p epoch (station ≤ 3#8) with
  | some r => (s, .plain r)
  | none =>
    match s.sessions[stationOfByte station].state with
    | .attached => (s.endSession (stationOfByte station) .purge, .plain .accepted)
    | .sweeping => (s, .plain .accepted)
    | .detached => (s, .plain .noSession)

/-- PURGE (R113). -/
def execPurge (p : Station) (s : State) : Result :=
  unitTaking p codePurge (fun _ => true) (fun a => purge p (argByte a 0) (argByte a 1)) s

/-- One station's part of CLEAR ALL: an ATTACHED session ends, any other is left as it is (R115). -/
def State.clearStation (s : State) (q : Station) : State :=
  if s.sessions[q].state = .attached then s.endSession q .clear else s

/-- CLEAR ALL with its argument: every station in ascending order (R115). -/
def clearAll (p : Station) (epoch : Byte) (s : State) : State × Reply :=
  match s.adminRefusal p epoch true with
  | some r => (s, .plain r)
  | none => ((((s.clearStation 0).clearStation 1).clearStation 2).clearStation 3, .plain .accepted)

/-- CLEAR ALL (R115). -/
def execClearAll (p : Station) (s : State) : Result :=
  unitTaking p codeClearAll (fun _ => true) (fun a => clearAll p (argByte a 0)) s

/-- An order is a range order (R109). -/
def Order.isRange : Order → Bool
  | .range _ => true
  | .station _ _ => false

/-- REVOKE RANGE with its arguments (R112, R116). -/
def revokeRange (p : Station) (epoch : Byte) (first last : Word) (flags : Byte) (s : State) : State × Reply :=
  match s.adminRefusal p epoch (first ≤ last && oneFlagAssigned flags) with
  | some r => (s, .plain r)
  | none =>
    if Config.rangeOrderCapacity ≤ s.sweepQueue.countP Order.isRange then (s, .plain .sweepFull)
    else
      (s.enterOrder (.range { first := first, last := last, force := flagBit0 flags, requester := p }),
        .plain .accepted)

/-- REVOKE RANGE (R116). -/
def execRevokeRange (p : Station) (s : State) : Result :=
  geTaking p codeRevokeRange
    (fun a => revokeRange p (argByte a 0) (argWord a 1) (argWord a 3) (argByte a 5)) s

/-! ### The walk -/

/-- What a removal claim of a station order does to the visited slot (R119). -/
def State.stationVisit (s : State) (p : Station) (i : SlotIndex) : State :=
  if s.slots[i].state ≠ .free ∧ s.slots[i].lease.map Lease.station = some p then s.removeSlot i .free else s

/-- STATION_SWEEP_REMOVAL (R119): the outstanding removal claim of the active station order is taken. -/
def execStationSweepRemoval (s : State) : Result :=
  match s.sweepQueue, s.walk with
  | .station p _ :: _, some i => .next ((s.stationVisit p i).advanceWalk i)
  | _, _ => .next s

/-- What a removal claim of a range order does to the visited slot (R120). -/
def State.rangeVisit (s : State) (r : RangeOrder) (i : SlotIndex) : State :=
  match s.slots[i].lease with
  | none => s
  | some l =>
    if s.slots[i].state.isLive && s.orderCovers r l.key then s.removeSlot i (.ended .swept) else s

/-- RANGE_SWEEP_REMOVAL (R120): the outstanding removal claim of the active range order is taken. -/
def execRangeSweepRemoval (s : State) : Result :=
  match s.sweepQueue, s.walk with
  | .range r :: _, some i => .next ((s.rangeVisit r i).advanceWalk i)
  | _, _ => .next s

/-! ### Completion -/

/-- STATION_ORDER_COMPLETE (R123, R125): after slot 255 the order leaves the queue, its completion is handed to
the Session Unit, and the next order becomes active. -/
def execStationOrderComplete (s : State) : Result :=
  match s.sweepQueue, s.walk with
  | .station p cause :: _, none =>
    .next { s with sessionCompletions := updVec s.sessionCompletions p fun _ => some cause }.nextOrder
  | _, _ => .next s

/-- A port's command in flight has been passed on to its block (R155). -/
def State.hasPassedOn (s : State) (p : Station) : Bool :=
  match s.ports[p].command with
  | .busy c => c.passedOn
  | _ => false

/-- RANGE_ORDER_COMPLETE (R124, R125): the order leaves the queue, its completion claim is handed to the GE,
SWEEP_DONE is set on the requesting port, and the next order becomes active. -/
def execRangeOrderComplete (s : State) : Result :=
  match s.sweepQueue, s.walk with
  | .range r :: _, none =>
    let claim : RangeCompletion :=
      { first := r.first, last := r.last, requester := r.requester, overtaken := s.hasPassedOn r.requester }
    let handed := { s with rangeCompletions := s.rangeCompletions ++ [claim] }
    .next (handed.modifyPort r.requester fun q => { q with flags := { q.flags with sweepDone := true } }).nextOrder
  | _, _ => .next s

/-- A regrant of each of these keys, an emptied entry removed (R34, R56). -/
def regrantKeys : List Word → State → State
  | [], s => s
  | k :: ks, s => regrantKeys ks ((s.regrant k).settleEntry k)

/-- RANGE_COMPLETION_CLAIM (R34): every entry whose key lies in the range is regranted. -/
def execRangeCompletionClaim (which : Nat) (s : State) : Result :=
  match s.rangeCompletions[which]? with
  | none => .next s
  | some c =>
    let taken := { s with rangeCompletions := s.rangeCompletions.eraseIdx which }
    .next (regrantKeys ((s.directory.map Entry.key).filter fun k => c.first ≤ k && k ≤ c.last) taken)

end Sys2Proof.Machine
end

