-- ==== Sys2Proof/Machine/Terms.lean ====
section
/-! DEFINITION. RENEW and EXTEND, and the Grant Engine's takings of expiry claims (spec/04). -/

namespace Sys2Proof.Machine

/-- RENEW with its arguments (R81, R82, R83): WRONG_STATE outside HELD and GRACE, then DOOMED. -/
def renew (p : Station) (epoch : Byte) (h term : Word) (s : State) : State × Reply :=
  match s.handleCommandRefusal p epoch h true with
  | some r => (s, .plain r)
  | none =>
    match s.slots[handleSlot h].state, s.slots[handleSlot h].lease with
    | .held, some l =>
      if s.doomed (handleSlot h) then (s, .plain .doomed) else (s.renewSlot (handleSlot h) l term, .plain .ok)
    | .grace, some l =>
      if s.doomed (handleSlot h) then (s, .plain .doomed) else (s.renewSlot (handleSlot h) l term, .plain .ok)
    | _, _ => (s, .plain .wrongState)

/-- RENEW (R82). -/
def execRenew (p : Station) (s : State) : Result :=
  geTaking p codeRenew (fun a => renew p (argByte a 0) (argWord a 1) (argWord a 3)) s

/-- EXTEND of a HELD slot: set the pending extension, or remove it with a term of 0 (R84). -/
def State.setExtension (s : State) (i : SlotIndex) (term : Word) : State :=
  s.modifySlot i fun sl => { sl with extension := if term = 0 then none else some term }

/-- EXTEND with its arguments (R81, R84, R85): in GRACE a nonzero term renews and a term of 0 changes nothing. -/
def extend (p : Station) (epoch : Byte) (h term : Word) (s : State) : State × Reply :=
  match s.handleCommandRefusal p epoch h true with
  | some r => (s, .plain r)
  | none =>
    match s.slots[handleSlot h].state, s.slots[handleSlot h].lease with
    | .held, some _ =>
      if s.doomed (handleSlot h) then (s, .plain .doomed) else (s.setExtension (handleSlot h) term, .plain .ok)
    | .grace, some l =>
      if s.doomed (handleSlot h) then (s, .plain .doomed)
      else if term = 0 then (s, .plain .ok)
      else (s.renewSlot (handleSlot h) l term, .plain .ok)
    | _, _ => (s, .plain .wrongState)

/-- EXTEND (R84). -/
def execExtend (p : Station) (s : State) : Result :=
  geTaking p codeExtend (fun a => extend p (argByte a 0) (argWord a 1) (argWord a 3)) s

/-! ### Expiry claims -/

/-- The slot state a phase implies (R76). -/
def Phase.state : Phase → SlotState
  | .term => .held
  | .grace => .grace
  | .wait => .waiting

/-- The test of an expiry claim (R76). -/
def State.claimPasses (s : State) (i : SlotIndex) (c : ExpiryClaim) : Bool :=
  s.slots[i].generation == c.generation && s.slots[i].state == c.phase.state && s.leaseCounters[i].value == 0

/-- The GE takes the outstanding expiry claim of a counter if it is of this phase; one that fails the test is
discarded (R76). Without such a claim there is no such taking (log entry 3). -/
def State.takeExpiry (s : State) (i : SlotIndex) (ph : Phase) (act : State → State) : State :=
  match s.leaseCounters[i].claim with
  | none => s
  | some c =>
    if c.phase = ph then
      let taken := s.modifyCounter i fun k => { k with claim := none }
      if s.claimPasses i c then act taken else taken
    else s

/-- A pending extension is applied (R13). -/
def State.applyExtension (s : State) (i : SlotIndex) (x : Word) : State :=
  (s.modifySlot i fun sl => { sl with extension := none, notice := some .extended }).loadCounter i x .term

/-- The lease lapses into GRACE (R14). -/
def State.lapseInto (s : State) (i : SlotIndex) (g : Byte) : State :=
  (s.modifySlot i fun sl => { sl with state := .grace, notice := some .lapsed }).loadCounter i (g.setWidth 16) .grace

/-- What a TERM claim that passes its test does (R77): the extension, or grace, or revocation. -/
def State.termExpires (s : State) (i : SlotIndex) : State :=
  match s.slots[i].extension, s.slots[i].lease with
  | some x, _ => s.applyExtension i x
  | none, some l =>
    if s.sessions[l.station].grace = 0 then s.removeSlot i (.ended .revoked)
    else s.lapseInto i s.sessions[l.station].grace
  | none, none => s.removeSlot i (.ended .revoked)

/-- TERM_EXPIRY_CLAIM (R77). -/
def execTermExpiryClaim (i : SlotIndex) (s : State) : Result :=
  .next (s.takeExpiry i .term fun t => t.termExpires i)

/-- GRACE_EXPIRY_CLAIM (R17, R77): the lease is revoked. -/
def execGraceExpiryClaim (i : SlotIndex) (s : State) : Result :=
  .next (s.takeExpiry i .grace fun t => t.removeSlot i (.ended .revoked))

/-- WAIT_EXPIRY_CLAIM (R11, R80): the waiter times out. -/
def execWaitExpiryClaim (i : SlotIndex) (s : State) : Result :=
  .next (s.takeExpiry i .wait fun t => t.removeSlot i (.ended .timedOut))

end Sys2Proof.Machine
end

