-- ==== Sys2Proof/Machine/Dispatch.lean ====
section
/-! DEFINITION. One arm per row of spec/opcode_table.json, each a call of the row's meaning. -/

namespace Sys2Proof.Machine

def exec (i : Instr) (s : State) : Host.Outcome State Fault Refusal :=
  match i with
  | .hardwareReset => Sys2Proof.Machine.execHardwareReset s
  | .status p ev => Sys2Proof.Machine.execStatus p ev s
  | .fetch p ev => Sys2Proof.Machine.execFetch p ev s
  | .notices p ev => Sys2Proof.Machine.execNotices p ev s
  | .mask p ev => Sys2Proof.Machine.execMask p ev s
  | .clearFlags p ev => Sys2Proof.Machine.execClearFlags p ev s
  | .ident p ev => Sys2Proof.Machine.execIdent p ev s
  | .brokenFrame p ev => Sys2Proof.Machine.execBrokenFrame p ev s
  | .postedFrameEnd p code ev => Sys2Proof.Machine.execPostedFrameEnd p code ev s
  | .livenessReload p which => Sys2Proof.Machine.execLivenessReload p which s
  | .badCmd p => Sys2Proof.Machine.execBadCmd p s
  | .attach p => Sys2Proof.Machine.execAttach p s
  | .detach p => Sys2Proof.Machine.execDetach p s
  | .acquire p => Sys2Proof.Machine.execAcquire p s
  | .release p => Sys2Proof.Machine.execRelease p s
  | .renew p => Sys2Proof.Machine.execRenew p s
  | .extend p => Sys2Proof.Machine.execExtend p s
  | .convert p => Sys2Proof.Machine.execConvert p s
  | .queryLease p => Sys2Proof.Machine.execQueryLease p s
  | .queryKey p => Sys2Proof.Machine.execQueryKey p s
  | .purge p => Sys2Proof.Machine.execPurge p s
  | .clearAll p => Sys2Proof.Machine.execClearAll p s
  | .revokeRange p => Sys2Proof.Machine.execRevokeRange p s
  | .readConfig p => Sys2Proof.Machine.execReadConfig p s
  | .writeConfig p => Sys2Proof.Machine.execWriteConfig p s
  | .writeTickSource p => Sys2Proof.Machine.execWriteTickSource p s
  | .writeTickPeriod p => Sys2Proof.Machine.execWriteTickPeriod p s
  | .writeAccessLevel p => Sys2Proof.Machine.execWriteAccessLevel p s
  | .writeQuota p => Sys2Proof.Machine.execWriteQuota p s
  | .writeProtectedRange p => Sys2Proof.Machine.execWriteProtectedRange p s
  | .writeSharedLimit p => Sys2Proof.Machine.execWriteSharedLimit p s
  | .writeQueueLimit p => Sys2Proof.Machine.execWriteQueueLimit p s
  | .writeChannelKey p => Sys2Proof.Machine.execWriteChannelKey p s
  | .writeChannelCtrl p => Sys2Proof.Machine.execWriteChannelCtrl p s
  | .freeze p => Sys2Proof.Machine.execFreeze p s
  | .holdTimeOn p => Sys2Proof.Machine.execHoldTimeOn p s
  | .holdTimeOff p => Sys2Proof.Machine.execHoldTimeOff p s
  | .internalTick => Sys2Proof.Machine.execInternalTick s
  | .tick => Sys2Proof.Machine.execTick s
  | .leaseCounterRunout slot => Sys2Proof.Machine.execLeaseCounterRunout slot s
  | .livenessCounterRunout p => Sys2Proof.Machine.execLivenessCounterRunout p s
  | .termExpiryClaim slot => Sys2Proof.Machine.execTermExpiryClaim slot s
  | .graceExpiryClaim slot => Sys2Proof.Machine.execGraceExpiryClaim slot s
  | .waitExpiryClaim slot => Sys2Proof.Machine.execWaitExpiryClaim slot s
  | .lapseClaim p => Sys2Proof.Machine.execLapseClaim p s
  | .stationSweepRemoval => Sys2Proof.Machine.execStationSweepRemoval s
  | .rangeSweepRemoval => Sys2Proof.Machine.execRangeSweepRemoval s
  | .stationOrderComplete => Sys2Proof.Machine.execStationOrderComplete s
  | .sessionSweepCompletion p => Sys2Proof.Machine.execSessionSweepCompletion p s
  | .rangeOrderComplete => Sys2Proof.Machine.execRangeOrderComplete s
  | .rangeCompletionClaim which => Sys2Proof.Machine.execRangeCompletionClaim which s
  | .acknowledgementClaim p => Sys2Proof.Machine.execAcknowledgementClaim p s
  | .endOfReset strap => Sys2Proof.Machine.execEndOfReset strap s
  | .holdTimeInvalidSetting p => Sys2Proof.Machine.execHoldTimeInvalidSetting p s

end Sys2Proof.Machine
end

