-- ==== Sys2Proof/Safety.lean ====
section
/-! DEFINITION. What counts as a safe run: the invariants the manual's rules state of the records, and the frames
that say what a command leaves alone. -/

namespace Sys2Proof.Machine

/-! ### The lease pool (R2, R20, R21) -/

/-- The optional fields a slot carries in its state (R2), and the notice of an ENDED slot (R20). -/
def Slot.shaped (sl : Slot) : Prop :=
  match sl.state with
  | .free => sl.lease = none ∧ sl.extension = none ∧ sl.notice = none
  | .waiting => sl.lease.isSome ∧ sl.extension = none ∧ sl.notice = none
  | .held => sl.lease.isSome
  | .grace => sl.lease.isSome ∧ sl.extension = none
  | .ended =>
    sl.lease.isSome ∧ sl.extension = none ∧
      (sl.notice = some .timedOut ∨ sl.notice = some .revoked ∨ sl.notice = some .swept)

/-- A slot belongs to a station (R1). -/
def Slot.ownedBy (sl : Slot) (p : Station) : Bool := sl.lease.map Lease.station == some p

/-- The number of slots that name a station (R21). -/
def State.slotsOf (s : State) (p : Station) : Nat := s.slots.toList.countP fun sl => sl.ownedBy p

/-- The pool keeps R2, R20 and R21: each slot carries what its state allows, and each lease count is the number of
the station's slots. -/
def State.PoolSound (s : State) : Prop :=
  (∀ i : SlotIndex, s.slots[i].shaped) ∧ ∀ p : Station, s.sessions[p].leaseCount = s.slotsOf p

/-! ### The directory (R4, R24 to R27, R49) -/

/-- The keys of a directory rise strictly: one entry a key (R24), in canonical form (log entry 5). -/
def Rising (d : List Entry) : Prop := d.Pairwise fun x y => x.key < y.key

/-- A slot is in one of these states with a lease on this key. -/
def Slot.leases (sl : Slot) (states : SlotState → Bool) (k : Word) : Prop :=
  states sl.state = true ∧ ∃ l, sl.lease = some l ∧ l.key = k

/-- The holding states (R4). -/
def SlotState.isHolding : SlotState → Bool
  | .held => true
  | .grace => true
  | .free => false
  | .waiting => false
  | .ended => false

/-- The waiting state (R4). -/
def SlotState.isWaiting : SlotState → Bool
  | .waiting => true
  | .free => false
  | .held => false
  | .grace => false
  | .ended => false

/-- One entry agrees with the pool: its holder list holds each holder of its key once and nothing else, its wait
queue each waiter (R4, R25, R27), its hold mode is its holders' (R26), an exclusive holder stands alone and shared
holders number at most SHARED_LIMIT (R25). -/
structure Entry.Sound (e : Entry) (s : State) : Prop where
  inUse : e.holders ≠ [] ∨ e.queue ≠ []
  holdersOnce : e.holders.Nodup
  queueOnce : e.queue.Nodup
  holders : ∀ i, i ∈ e.holders ↔ s.slots[i].leases SlotState.isHolding e.key
  waiters : ∀ i, i ∈ e.queue ↔ s.slots[i].leases SlotState.isWaiting e.key
  unheld : e.holders = [] → e.holdMode = .unheld
  mode : ∀ i ∈ e.holders, ∀ l, s.slots[i].lease = some l → l.mode.hold = e.holdMode
  alone : e.holdMode = .exclusive → e.holders.length ≤ 1
  shared : e.holders.length ≤ s.settings.sharedLimit
  queued : e.queue.length ≤ s.settings.queueLimit

/-- The directory agrees with the pool (R4, R24): one entry for each key with a live lease and no other, never more
than its capacity; and both limits lie in their ranges (R162). -/
structure State.DirectorySound (s : State) : Prop where
  rising : Rising s.directory
  entries : ∀ e ∈ s.directory, e.Sound s
  listed : ∀ i : SlotIndex, ∀ l, s.slots[i].state.isLive = true → s.slots[i].lease = some l →
    ∃ e ∈ s.directory, e.key = l.key
  capacity : s.directory.length ≤ Config.directoryCapacity
  sharedLimit : 1 ≤ s.settings.sharedLimit ∧ s.settings.sharedLimit ≤ 8
  queueLimit : 1 ≤ s.settings.queueLimit ∧ s.settings.queueLimit ≤ 32

/-- No station has two WAITING, HELD or GRACE leases on one key (R49). -/
def State.OneLeaseEach (s : State) : Prop :=
  ∀ i j : SlotIndex, ∀ l m, s.slots[i].state.isLive = true → s.slots[j].state.isLive = true →
    s.slots[i].lease = some l → s.slots[j].lease = some m → l.station = m.station → l.key = m.key → i = j

/-! ### The counter bank (R71, R73) -/

/-- A slot's counter is one that runs in this phase: the slot is HELD, or in GRACE, or WAITING with a wait limit of 1
to 65535 (R73). -/
def Slot.timedFor (sl : Slot) : Phase → Prop
  | .term => sl.state = .held
  | .grace => sl.state = .grace
  | .wait => sl.state = .waiting ∧ ∃ l, sl.lease = some l ∧ l.waitLimit ≠ 0

/-- A lease counter and its slot: a stopped counter reads 0 (R71), and a counter runs exactly while its slot is timed, but
for the time between its reaching 0 and the taking of the expiry claim that follows (R73): a running one carries the
slot's generation and a phase the slot is timed for; the counter of a timed slot is running, or stopped at 0 with the
claim of this generation and phase outstanding. -/
structure CounterSound (c : LeaseCounter) (sl : Slot) : Prop where
  stopped : c.running = false → c.value = 0
  runs : c.running = true → c.generation = sl.generation ∧ sl.timedFor c.phase
  timed : ∀ ph, sl.timedFor ph →
    c.running = true ∨ (c.value = 0 ∧ c.claim = some { generation := sl.generation, phase := ph })

/-- Every lease counter agrees with its slot. -/
def State.CountersSound (s : State) : Prop := ∀ i : SlotIndex, CounterSound s.leaseCounters[i] s.slots[i]

/-! ### Sweeps and sessions (R74, R90, R98, R106, R109, R119, R123) -/

/-- The station orders of one station in a queue. -/
def stationOrders (q : List Order) (p : Station) : List Order :=
  q.filter fun o => match o with | .station r _ => r == p | .range _ => false

/-- The range orders in a queue. -/
def rangeOrders (q : List Order) : List Order :=
  q.filter fun o => match o with | .range _ => true | .station _ _ => false

/-- A session and the sweep engine: a SWEEPING session has its one station order in the queue, with its own cause,
or its completion on the way, with its own cause; any other session has neither (R98, R109, R123). -/
def State.SweepOf (s : State) (p : Station) : Prop :=
  match s.sessions[p].state, s.sessions[p].cause with
  | .sweeping, some c =>
    (stationOrders s.sweepQueue p = [.station p c] ∧ s.sessionCompletions[p] = none) ∨
      (stationOrders s.sweepQueue p = [] ∧ s.sessionCompletions[p] = some c)
  | .sweeping, none => False
  | _, some _ => False
  | _, none => stationOrders s.sweepQueue p = [] ∧ s.sessionCompletions[p] = none

/-- A session record and its liveness counter in each session state (R74, the second table of R90). An ATTACHED session
with a liveness term has a running counter, or one that ran out with its lapse claim outstanding (R74, R102). -/
def SessionSound (r : Session) (c : LivenessCounter) : Prop :=
  match r.state with
  | .detached =>
    r.livenessTerm = 0 ∧ r.grace = 0 ∧ r.leaseCount = 0 ∧ r.cause = none ∧ c.running = false ∧ c.value = 0
  | .attached =>
    r.epoch ≠ 0 ∧ r.cause = none ∧ (c.running = false → c.value = 0) ∧
      (r.livenessTerm = 0 → c.running = false) ∧ (r.livenessTerm ≠ 0 → c.running = true ∨ c.claim = true)
  | .sweeping => r.epoch ≠ 0 ∧ r.cause.isSome ∧ c.running = false ∧ c.value = 0

/-- What a station sweep has cleared (R118, R119, R123, R106): no slot that the walk of the active station order has
visited belongs to its station, none at all once the walk has ended, and none while the completion is on its way. -/
structure State.SweepCleared (s : State) (p : Station) : Prop where
  visited : ∀ cause rest, s.sweepQueue = .station p cause :: rest →
    ∀ i : SlotIndex, (∀ w, s.walk = some w → i < w) → s.slots[i].ownedBy p = false
  completed : s.sessionCompletions[p] ≠ none → ∀ i : SlotIndex, s.slots[i].ownedBy p = false

/-- The sweeps and the sessions: each session with its fields, its liveness counter, its order or completion and what
its sweep has cleared; at most two range orders (R109); no walk position on an empty queue (R110, R125). -/
structure State.SweepSound (s : State) : Prop where
  orders : ∀ p : Station, s.SweepOf p
  sessions : ∀ p : Station, SessionSound s.sessions[p] s.livenessCounters[p]
  cleared : ∀ p : Station, s.SweepCleared p
  atMostTwo : (rangeOrders s.sweepQueue).length ≤ 2
  idle : s.sweepQueue = [] → s.walk = none

/-! ### Ports (R138, R144, R155) -/

/-- A port keeps R138 (at most four acknowledgement claims in flight, with room for the one a snapshot in progress
may add), R132 (at most eight records) and R155 (a command not passed on has exactly one reload on the way, and no
other command has one). -/
structure Port.Sound (q : Port) : Prop where
  acks : q.acks.length ≤ Config.acknowledgementCapacity
  room : ∀ f, q.shifter = .receiving f → f.snapshot.isSome → q.acks.length < Config.acknowledgementCapacity
  records : ∀ f rs, q.shifter = .receiving f → f.snapshot = some rs → rs.length ≤ Config.noticesLimit
  fetched : ∀ f r, q.shifter = .receiving f → f.fetched = some r → q.command = .holding r
  reload : q.reloads.count .ofCommand =
    match q.command with
    | .busy c => if c.passedOn then 0 else 1
    | _ => 0

/-- Every port is sound. -/
def State.PortsSound (s : State) : Prop := ∀ p : Station, s.ports[p].Sound

/-! ### Frames: what a command leaves alone -/

/-- Nothing outside the pool, the directory, the lease counters and the session table changed. -/
def PoolOnly (s t : State) : Prop :=
  t = { s with slots := t.slots, directory := t.directory, leaseCounters := t.leaseCounters, sessions := t.sessions }

/-- Only one port's record changed. -/
def PortOnly (p : Station) (s t : State) : Prop := t = { s with ports := updVec s.ports p fun _ => t.ports[p] }

/-- A lease count aside, a session record is as it was. -/
def SessionsKept (s t : State) : Prop :=
  ∀ p : Station, { t.sessions[p] with leaseCount := 0 } = { s.sessions[p] with leaseCount := 0 }

/-! ### Commands in flight and the order of checks (R41, R46, R60, R112, R155, R161) -/

/-- A port's command in flight has been passed on to its block, with these arguments (R155). -/
def State.Offers (s : State) (p : Station) (code : Byte) (args : List Byte) : Prop :=
  s.ports[p].command = .busy { code := code, args := args, passedOn := true }

/-- The same, and the GE comes to it (R41). -/
def State.GeOffers (s : State) (p : Station) (code : Byte) (args : List Byte) : Prop :=
  s.Offers p code args ∧ s.geMayTake p = true

/-- The result code of the first test that fails, in the order of the list; none if no test fails. -/
def firstFailing : List (Bool × ResultCode) → Option ResultCode
  | [] => none
  | (fails, r) :: rest => if fails then some r else firstFailing rest

/-- The session check as a list of tests (R46). -/
def State.sessionTests (s : State) (p : Station) (epoch : Byte) : List (Bool × ResultCode) :=
  [(s.sessions[p].state == .detached, .noSession), (s.sessions[p].state == .sweeping, .sessionEnded),
    (epoch != s.sessions[p].epoch, .staleSession)]

/-- The session check followed by the administrator check (R112, R161). -/
def State.adminTests (s : State) (p : Station) (epoch : Byte) : List (Bool × ResultCode) :=
  s.sessionTests p epoch ++ [(s.settings.admin != p, .denied)]

/-- The checks of R60 down to the handle check, `own` saying that the command's own arguments are well formed. -/
def State.handleTests (s : State) (p : Station) (epoch : Byte) (h : Word) (own : Bool) : List (Bool × ResultCode) :=
  let sl := s.slots[handleSlot h]
  [(0x4000#16 ≤ h || !own, .badArg)] ++ s.sessionTests p epoch ++
    [(sl.generation != handleGeneration h || sl.state == .free || sl.lease.isNone, .staleHandle),
      (!sl.ownedBy p, .foreign)]

/-- The tests of ACQUIRE, steps 1 to 8 (R45). -/
def State.acquireTests (s : State) (p : Station) (epoch : Byte) (k : Word) (flags : Byte) (term : Word) :
    List (Bool × ResultCode) :=
  [((flags &&& 0x03#8 != 0x01#8 && flags &&& 0x03#8 != 0x02#8) || flags &&& 0x7C#8 != 0x00#8 || term == 0, .badArg)] ++
    s.sessionTests p epoch ++
    [([s.settings.p0, s.settings.p1].any fun r => r.covers k && s.settings.accessLevel[p] < r.level, .denied),
      (s.inSweepScope k, .sweepingKey),
      ((List.finRange 256).any fun i =>
        s.slots[i].state.isLive && s.slots[i].lease.any fun l => l.station == p && l.key == k, .duplicate),
      (s.settings.quota[p] ≤ s.sessions[p].leaseCount, .quota),
      ((List.finRange 256).all fun i => s.slots[i].state != .free, .poolFull),
      ((s.directory.all fun e => e.key != k) && 128 ≤ s.directory.length, .dirFull)]

/-- An immediate grant is possible on an entry (R51): every waiter is doomed, and the mode is compatible. -/
def State.canGrantNow (s : State) (e : Entry) (m : LeaseMode) : Bool :=
  e.queue.all s.doomed &&
    match m with
    | .exclusive => e.holders == []
    | .shared => e.holdMode != .exclusive && e.holders.length < s.settings.sharedLimit

/-! ### The grant policy as the manual counts it (R54) -/

/-- How many waiters a regrant grants, from the modes of the waiters that are not doomed in queue order, whether an
exclusive holder stands and how many holders there are (R54). -/
def grantCount (limit : Nat) : Bool → Nat → List LeaseMode → Nat
  | _, _, [] => 0
  | _, holders, .exclusive :: _ => if holders = 0 then 1 else 0
  | exclusive, holders, .shared :: rest =>
    if exclusive = false ∧ holders < limit then 1 + grantCount limit false (holders + 1) rest else 0

/-- The mode of a slot's lease. -/
def State.modeOf (s : State) (i : SlotIndex) : LeaseMode :=
  match s.slots[i].lease with
  | some l => l.mode
  | none => .shared

/-- The waiters of an entry that a regrant grants, in queue order (R54, R55). -/
def State.grantedOf (s : State) (e : Entry) : List SlotIndex :=
  let ws := e.queue.filter fun i => !s.doomed i
  ws.take (grantCount s.settings.sharedLimit (e.holdMode == .exclusive) e.holders.length (ws.map s.modeOf))

/-- The hold mode after these waiters were granted: theirs, or what it was if none was (R26, R57). -/
def State.holdAfter (s : State) (held : HoldMode) : List SlotIndex → HoldMode
  | [] => held
  | i :: _ => (s.modeOf i).hold

/-- The entry after its regrant (R54, R57): the granted waiters leave the queue and join the end of the holder list,
whose hold mode becomes theirs. -/
def State.regranted (s : State) (e : Entry) : Entry :=
  let g := s.grantedOf e
  { e with
    holders := e.holders ++ g
    queue := e.queue.filter fun i => !g.contains i
    holdMode := s.holdAfter e.holdMode g }

/-- A waiter granted by a regrant (R10, R57): HELD with notice GRANTED, its counter loaded with its term. -/
def Granted (j : SlotIndex) (s t : State) : Prop :=
  ∃ l, s.slots[j].lease = some l ∧ t.slots[j] = { s.slots[j] with state := .held, notice := some .granted } ∧
    t.leaseCounters[j] =
      { s.leaseCounters[j] with
        value := l.term, running := true, generation := s.slots[j].generation, phase := .term }

/-- A slot and its counter are as they were. -/
def Untouched (j : SlotIndex) (s t : State) : Prop :=
  t.slots[j] = s.slots[j] ∧ t.leaseCounters[j] = s.leaseCounters[j]

/-- What a taking that regrants the entry of a key does, `e` being the entry as the regrant finds it and `i` the slot
the taking itself moves, if any: the entry follows R54 and is removed if it is left empty (R32), no other entry and no
slot but the granted ones changes (R28, R33, R56). -/
structure Regrants (moved : Option SlotIndex) (k : Word) (e : Entry) (s t : State) : Prop where
  entry : entryOf t.directory k =
    if (s.regranted e).holders = [] ∧ (s.regranted e).queue = [] then none else some (s.regranted e)
  otherKeys : ∀ k', k' ≠ k → entryOf t.directory k' = entryOf s.directory k'
  granted : ∀ j ∈ s.grantedOf e, some j ≠ moved ∧ Granted j s t
  others : ∀ j, some j ≠ moved → j ∉ s.grantedOf e → Untouched j s t

/-- The entry of a key without a slot among its holders and waiters (R25, R26, R28). -/
def Entry.without (e : Entry) (i : SlotIndex) : Entry :=
  { e with
    holders := e.holders.filter (· != i)
    queue := e.queue.filter (· != i)
    holdMode := if e.holders.filter (· != i) = [] then .unheld else e.holdMode }

/-- A slot becomes FREE: the four things of R19; the stopped counter keeps its tags (log entry 9). -/
structure Freed (i : SlotIndex) (l : Lease) (s t : State) : Prop where
  slot : t.slots[i] =
    { state := .free, generation := s.slots[i].generation + 1, lease := none, extension := none, notice := none }
  counter : t.leaseCounters[i] = { s.leaseCounters[i] with value := 0, running := false }
  count : t.sessions =
    s.sessions.set l.station { s.sessions[l.station] with leaseCount := s.sessions[l.station].leaseCount - 1 }

/-- A slot becomes ENDED with a notice, its lease kept and its counter stopped (R11, R15, R17), which keeps its tags (log
entry 9); `claim` is what is left outstanding of its counter. -/
structure EndedWith (i : SlotIndex) (kind : NoticeKind) (claim : Option ExpiryClaim) (s t : State) : Prop where
  slot : t.slots[i] = { s.slots[i] with state := .ended, extension := none, notice := some kind }
  counter : t.leaseCounters[i] = { s.leaseCounters[i] with value := 0, running := false, claim := claim }
  count : t.sessions = s.sessions

/-- The whole of a taking that moves slot `i` out of the holders or waiters of its key (R4, R18, R32, R56). -/
structure Leaves (i : SlotIndex) (l : Lease) (s t : State) : Prop where
  regrants : ∀ e, entryOf s.directory l.key = some e → Regrants (some i) l.key (e.without i) s t
  poolOnly : PoolOnly s t

/-! ### Bits on the wire (R145, R182) -/

/-- `n` bits of a sequence of bytes, most significant bit first. -/
def wireBits (out : Nat → Byte) (n : Nat) : List Bool :=
  (List.range n).map fun m => (byteBits (out (m / 8))).getD (m % 8) false

/-- A port after a frame that carried these bits out on SnSDO, its select line released and its clock left low, its
liveness reload handed over if there is one (R100). -/
def Port.afterFrame (q : Port) (reload : List Reload) (out : List Bool) : Port :=
  { q with clockHigh := false, shifter := .released, reloads := q.reloads ++ reload, sdo := out }

/-- A port after select rises on a frame in progress: as Port.afterFrame, its clock as it stands. -/
def Port.afterStop (q : Port) (reload : List Reload) (out : List Bool) : Port :=
  { q.afterFrame reload out with clockHigh := q.clockHigh }

/-- The bytes after byte 1 of a frame that shows no data of its own (R145). -/
def statusThenZeros (b : Byte) (n : Nat) : Byte := if n = 0 then b else 0

/-- The bytes a posted command's frame needs, its command byte among them (the table of R146, section 11.2); an unknown
code needs its command byte alone (R157). -/
def postedBytes (code : Byte) : Nat :=
  (([(0x20, 5), (0x21, 2), (0x30, 9), (0x31, 4), (0x32, 6), (0x33, 6), (0x34, 5), (0x38, 4), (0x39, 4), (0x60, 3),
    (0x61, 7), (0x62, 2), (0x68, 3), (0x69, 5), (0x6A, 2), (0x6B, 3)] : List (Byte × Nat)).lookup code).getD 1

/-- The eight rows of the table that are frames of one port, a posted frame with this command code. -/
def frameRows (p : Station) (code : Byte) : List (FrameEvent → Instr) :=
  [.status p, .fetch p, .notices p, .mask p, .clearFlags p, .ident p, .brokenFrame p, .postedFrameEnd p code]

/-- The same rows, each with the bytes it puts before its event's bits. -/
def frameRowsWithLead (p : Station) (code : Byte) : List ((FrameEvent → Instr) × List Byte) :=
  [(.status p, [0x51]), (.fetch p, [0x52]), (.notices p, [0x53]), (.mask p, [0x54]), (.clearFlags p, [0x55]),
    (.ident p, [0x5F]), (.brokenFrame p, []), (.postedFrameEnd p code, [code])]

/-- Select rises on a port, in whichever frame row: the port becomes `q` and nothing else changes. The port judges its
frame by what it received, so the row does not matter (R146). -/
def StopsAs (s : State) (p : Station) (q : Port) : Prop :=
  ∀ code : Byte, ∀ row ∈ frameRows p code, exec (row .stop) s = .next { s with ports := s.ports.set p q }

/-- Walk position after the removal claim of a slot was taken (R118). -/
def nextWalk (i : SlotIndex) : Option SlotIndex := if i = 255 then none else some (i + 1)

/-! ### The configuration items as READ CONFIG shows them (R162, R164, section 11.4) -/

/-- A protected range's control value: bit 0 enable, bit 1 invert, bits 5 to 4 the required level (section 11.4). -/
def KeyRange.ctrlShown (r : KeyRange) : Word :=
  BitVec.ofNat 16 (r.enable.toNat + 2 * r.invert.toNat + 16 * r.level.toNat)

/-- A channel's control value: bit 0 enable, bit 1 grace-drop (section 11.4). -/
def Channel.ctrlShown (c : Channel) : Word := BitVec.ofNat 16 (c.enable.toNat + 2 * c.graceDrop.toNat)

/-- Every item with the 16-bit value it shows. -/
def State.itemTable (s : State) : List (Byte × Word) :=
  let t := s.settings
  [(0x01, if t.tickSource = .external then 1 else 0), (0x02, t.tickPeriod),
    (0x10, t.accessLevel[0].setWidth 16), (0x11, t.accessLevel[1].setWidth 16),
    (0x12, t.accessLevel[2].setWidth 16), (0x13, t.accessLevel[3].setWidth 16),
    (0x18, BitVec.ofNat 16 t.quota[0]), (0x19, BitVec.ofNat 16 t.quota[1]),
    (0x1A, BitVec.ofNat 16 t.quota[2]), (0x1B, BitVec.ofNat 16 t.quota[3]),
    (0x20, t.p0.first), (0x21, t.p0.last), (0x22, t.p0.ctrlShown),
    (0x24, t.p1.first), (0x25, t.p1.last), (0x26, t.p1.ctrlShown),
    (0x30, BitVec.ofNat 16 t.sharedLimit), (0x31, BitVec.ofNat 16 t.queueLimit),
    (0x40, t.channels[0].key), (0x41, t.channels[1].key), (0x42, t.channels[2].key), (0x43, t.channels[3].key),
    (0x48, t.channels[0].ctrlShown), (0x49, t.channels[1].ctrlShown),
    (0x4A, t.channels[2].ctrlShown), (0x4B, t.channels[3].ctrlShown),
    (0x70, BitVec.ofNat 16 t.admin.val), (0x71, if t.frozen then 1 else 0), (0x72, if s.timeBase.held then 1 else 0)]

/-- The rows that write an item: the row, its items, the check of the value (R162) and whether the directory must be
empty (R169). -/
def writeRows (p : Station) (item : Byte) (v : Word) : List (Instr × List Byte × Bool × Bool) :=
  [(.writeTickSource p, [0x01], v == 0 || v == 1, false),
    (.writeTickPeriod p, [0x02], v != 0, false),
    (.writeAccessLevel p, [0x10, 0x11, 0x12, 0x13], v ≤ 3#16, false),
    (.writeQuota p, [0x18, 0x19, 0x1A, 0x1B], v ≤ 256#16, false),
    (.writeProtectedRange p, [0x20, 0x21, 0x22, 0x24, 0x25, 0x26],
      (item != 0x22 && item != 0x26) || v &&& 0xFFCC#16 == 0, false),
    (.writeSharedLimit p, [0x30], 1#16 ≤ v && v ≤ 8#16, true),
    (.writeQueueLimit p, [0x31], 1#16 ≤ v && v ≤ 32#16, true),
    (.writeChannelKey p, [0x40, 0x41, 0x42, 0x43], true, false),
    (.writeChannelCtrl p, [0x48, 0x49, 0x4A, 0x4B], v &&& 0xFFFC#16 == 0, false)]

/-- The writable items (R162). -/
def writableItemNumbers : List Byte :=
  [0x01, 0x02, 0x10, 0x11, 0x12, 0x13, 0x18, 0x19, 0x1A, 0x1B, 0x20, 0x21, 0x22, 0x24, 0x25, 0x26, 0x30, 0x31,
    0x40, 0x41, 0x42, 0x43, 0x48, 0x49, 0x4A, 0x4B]

end Sys2Proof.Machine
end

