-- ==== Sys2Proof/Certificates/Slice0/Obligations.lean ====
section
/-! DEFINITION. The statements for the provers: what the commands and the part do, by the manual's rules. -/

open Sys2Proof Sys2Proof.Machine

/-! ### The machine (log entry 1, chapter 4) -/

/-- A step runs the command at the front of the queue, with the queue's rest (the model's queue, log entry 1). -/
def Obligations.StepTakesTheFrontCommand : Prop :=
  ∀ (c : Instr) (s : State), step { s with pending := c :: s.pending } = exec c s

/-- On an empty queue one microsecond passes (the model's choice, log entry 1): the internal interval counts on, or
completes with the tick INTERNAL_TICK stands for (R66); with another source, a hold or reset nothing changes. -/
def Obligations.IdleStepPassesAMicrosecond : Prop :=
  ∀ s : State, s.pending = [] →
    let runs := s.settings.tickSource = .internal ∧ s.timeBase.held = false ∧ s.inReset = false
    (runs ∧ s.timeBase.count + 1 < s.timeBase.period →
      step s = .next { s with timeBase := { s.timeBase with count := s.timeBase.count + 1 } }) ∧
    (runs ∧ s.timeBase.period ≤ s.timeBase.count + 1 → step s = exec .internalTick s) ∧
    (¬ runs → step s = .next s)

/-! ### Reset -/

/-- Hardware reset leaves every record at its reset value and every output deasserted (R3, R39, R42, R70, R71, R91,
R110, R143, R159, R162, R174); the part is then held in reset (log entry 8). -/
def Obligations.HardwareResetClearsThePart : Prop :=
  ∀ s : State, ∃ t, exec .hardwareReset s = .next t ∧ t.inReset = true ∧
    (∀ i : SlotIndex,
      t.slots[i] = { state := .free, generation := 0, lease := none, extension := none, notice := none } ∧
      t.leaseCounters[i] = { value := 0, running := false, generation := 0, phase := .term, claim := none }) ∧
    t.directory = [] ∧
    (∀ p : Station,
      t.sessions[p] =
        { state := .detached, epoch := 0, livenessTerm := 0, grace := 0, leaseCount := 0, cause := none } ∧
      t.livenessCounters[p] = { value := 0, running := false, claim := false } ∧ t.sessionCompletions[p] = none ∧
      t.ports[p].command = .ready ∧
      t.ports[p].flags =
        { overrun := false, lost := false, frameErr := false, sessionEnded := false, sweepDone := false } ∧
      t.ports[p].mask =
        { overrun := false, lost := false, frameErr := false, sessionEnded := false, sweepDone := false,
          notice := false, result := false } ∧
      t.ports[p].reloads = [] ∧ t.ports[p].acks = [] ∧ (∀ f, t.ports[p].shifter ≠ .receiving f) ∧
      t.statusByte p = 0x00 ∧ t.attention p = false) ∧
    t.timeBase = { count := 0, period := 1000, held := false } ∧
    t.sweepQueue = [] ∧ t.walk = none ∧ t.rangeCompletions = [] ∧ t.lastTaken = 3 ∧
    t.settings.tickSource = .internal ∧ t.settings.tickPeriod = 1000 ∧ (∀ p : Station, t.settings.quota[p] = 64) ∧
    t.settings.p0 = { first := 0, last := 0, enable := false, invert := false, level := 0 } ∧
    t.settings.p1 = { first := 0, last := 0, enable := false, invert := false, level := 0 } ∧
    t.settings.sharedLimit = 8 ∧ t.settings.queueLimit = 16 ∧ t.settings.frozen = false ∧
    (∀ n : ChannelNumber,
      t.settings.channels[n] = { key := 0, enable := false, graceDrop := false } ∧
      t.ohold n = false ∧ t.oid n = 0)

/-- At the end of reset the straps name the administrator station, whose access level is 3 and every other's 0, and
the first internal interval begins at a count of 0 (R160, R165, R70; that the part stands in reset between the two rows
is log entry 8). -/
def Obligations.EndOfResetReadsTheStraps : Prop :=
  ∀ (s : State) (strap : Station), s.inReset = true →
    exec (.endOfReset strap) s = .next
      { s with
        inReset := false
        settings := { s.settings with admin := strap, accessLevel := (Vector.replicate 4 0#2).set strap 3#2 }
        timeBase := { count := 0, period := 1000, held := false } }

/-- The machine right after reset keeps every invariant (State.reset is part chosen: log entry 8). -/
def Obligations.ResetKeepsEveryInvariant : Prop :=
  State.reset.PoolSound ∧ State.reset.CountersSound ∧ State.reset.SweepSound ∧ State.reset.PortsSound ∧
    State.reset.DirectorySound ∧ State.reset.OneLeaseEach

/-! ### Frames of a station port (chapters 7, 8) -/

/-- The status byte carries BUSY, RESULT, NOTICE, the session state and TIME_HELD and the flags byte the five event
flags, each at its place (R148, R150, R181). STATUS shifts out the two bytes in turn for as long as select stays low, and
IDENT the status byte and the identification bytes; each changes nothing but its port's reload (R150, R152, R100), so too
a frame whose bits other commands stood between, as select rises. -/
def Obligations.StatusAndIdentFrames : Prop :=
  ∀ (s : State) (p : Station),
    let status := s.statusByte p
    let flags := s.ports[p].flags.byte
    ((status.getLsbD 7 = true ↔ ∃ c, s.ports[p].command = .busy c) ∧
      (status.getLsbD 6 = true ↔ ∃ r, s.ports[p].command = .holding r) ∧
      (status.getLsbD 5 = true ↔
        ∃ (i : SlotIndex) (l : Lease), s.slots[i].lease = some l ∧ l.station = p ∧ s.slots[i].notice ≠ none) ∧
      status.extractLsb' 3 2 =
        (match s.sessions[p].state with | .detached => 0b00#2 | .attached => 0b01#2 | .sweeping => 0b10#2) ∧
      status.getLsbD 2 = s.timeBase.held ∧ status.extractLsb' 0 2 = 0b00#2) ∧
    (flags.extractLsb' 5 3 = 0b000#3 ∧ flags.getLsbD 4 = s.ports[p].flags.sweepDone ∧
      flags.getLsbD 3 = s.ports[p].flags.sessionEnded ∧ flags.getLsbD 2 = s.ports[p].flags.frameErr ∧
      flags.getLsbD 1 = s.ports[p].flags.lost ∧ flags.getLsbD 0 = s.ports[p].flags.overrun) ∧
    (∀ f, s.ports[p].shifter = .receiving f → 8 ≤ f.received.length →
      bitsByte f.received = 0x51 ∨ bitsByte f.received = 0x5F → StopsAs s p (s.ports[p].afterStop [.plain] f.sent)) ∧
    ∀ bits : List Bool, s.ports[p].shifter = .released → s.inReset = false →
      exec (.status p (.whole bits)) s = .next
        { s with
          ports := s.ports.set p (s.ports[p].afterFrame [.plain]
            (wireBits (fun n => if n % 2 = 0 then status else flags) (8 + bits.length))) } ∧
      exec (.ident p (.whole bits)) s = .next
        { s with
          ports := s.ports.set p (s.ports[p].afterFrame [.plain]
            (wireBits (fun n =>
              if n = 0 then status
              else ([0x5B, 0x42, 0x56, 0x01, 0x04, 0x01, 0x00, 0x80] : List Byte).getD (n - 1) 0x00)
              (8 + bits.length))) }

/-- FETCH shifts out the held result record, or the NONE record (length 2, 0x00, 0xFF), and removes a result record
whose last bit went out. When select rises on a FETCH frame whose bits other commands stood between, the record fixed for
the frame alone decides: a result placed after the command byte stays (R151; when a bit has gone out, log entry 15). -/
def Obligations.FetchFrame : Prop :=
  ∀ (s : State) (p : Station), (∀ f, s.ports[p].shifter = .receiving f → 8 ≤ f.received.length →
      bitsByte f.received = 0x52 →
      let q := s.ports[p].afterStop [.plain] f.sent
      StopsAs s p
        (match f.fetched with
        | none => q
        | some record => { q with command := if 8 * (1 + record.length) ≤ f.received.length then .ready else q.command })) ∧
    ∀ bits : List Bool, s.ports[p].shifter = .released → s.inReset = false →
    let out := fun (record : List Byte) =>
      wireBits (fun n => if n = 0 then s.statusByte p else record.getD (n - 1) 0x00) (8 + bits.length)
    (∀ record, s.ports[p].command = .holding record →
      exec (.fetch p (.whole bits)) s = .next
        { s with
          ports := s.ports.set p
            { s.ports[p].afterFrame [.plain] (out record) with
              command := if 8 * (1 + record.length) ≤ 8 + bits.length then .ready else .holding record } }) ∧
    ((∀ record, s.ports[p].command ≠ .holding record) →
      exec (.fetch p (.whole bits)) s = .next
        { s with ports := s.ports.set p (s.ports[p].afterFrame [.plain] (out [0x02, 0x00, 0xFF])) })

/-- NOTICES shifts out the count and the records of its snapshot, and hands over one acknowledgement claim for the
records whose sixth byte went out in full (R132, R134, R135); a frame that ends before its limit byte, or finds four
claims in flight, shows a count of 0 and acknowledges nothing (R132, R138). When select rises on a NOTICES frame whose bits
other commands stood between, the claim lists the records of the frame's own snapshot, whatever the pool has become (R134,
R135; when a bit has gone out, log entry 15). -/
def Obligations.NoticesFrame : Prop :=
  ∀ (s : State) (p : Station), (∀ f, s.ports[p].shifter = .receiving f → 8 ≤ f.received.length →
      bitsByte f.received = 0x53 →
      let read := (f.snapshot.getD []).take ((f.received.length / 8 - 3) / 6)
      StopsAs s p
        { s.ports[p].afterStop [.plain] f.sent with
          acks := s.ports[p].acks ++
            if read = [] then []
            else [read.map fun r => { slot := r.slot, generation := r.generation, kind := r.kind }] }) ∧
    ∀ bits : List Bool, s.ports[p].shifter = .released → s.inReset = false →
    (8 ≤ bits.length ∧ s.ports[p].acks.length < 4 →
      let records := s.noticesSnapshot p (bitsByte bits)
      let bytes := BitVec.ofNat 8 records.length ::
        records.flatMap fun r => wordBytes (handleOf r.generation r.slot) ++ wordBytes r.key ++ [r.kind.code, r.state.code]
      let read := records.take (((8 + bits.length) / 8 - 3) / 6)
      exec (.notices p (.whole bits)) s = .next
        { s with
          ports := s.ports.set p
            { s.ports[p].afterFrame [.plain]
                (wireBits (fun n =>
                  if n = 0 then s.statusByte p else if n = 1 then 0x00 else bytes.getD (n - 2) 0x00)
                  (8 + bits.length)) with
              acks := s.ports[p].acks ++
                if read = [] then []
                else [read.map fun r => { slot := r.slot, generation := r.generation, kind := r.kind }] } }) ∧
    (bits.length < 8 ∨ 4 ≤ s.ports[p].acks.length →
      exec (.notices p (.whole bits)) s = .next
        { s with
          ports := s.ports.set p
            (s.ports[p].afterFrame [.plain] (wireBits (statusThenZeros (s.statusByte p)) (8 + bits.length))) })

/-- The snapshot of a NOTICES frame: the station's slots with a notice in ascending order of slot, as many as the
limit byte asks for, each with its handle, key, kind and state (R132, R133). -/
def Obligations.NoticesSnapshotReadsThePool : Prop :=
  ∀ (s : State) (p : Station) (limit : Byte),
    (s.noticesSnapshot p limit).map NoticeRecord.slot =
      ((List.finRange 256).filter fun i =>
        s.slots[i].notice.isSome && s.slots[i].lease.any fun l => l.station == p).take
        (if 1 ≤ limit.toNat ∧ limit.toNat ≤ 8 then limit.toNat else 8) ∧
    ∀ r ∈ s.noticesSnapshot p limit, ∃ l, s.slots[r.slot].lease = some l ∧ l.station = p ∧ r.key = l.key ∧
      r.generation = s.slots[r.slot].generation ∧ s.slots[r.slot].notice = some r.kind ∧
      r.state = s.slots[r.slot].state

/-- MASK replaces the whole attention mask and CLEARFLAGS clears the flags whose bits are set, each by its second byte
alone (R140, R141, R147, R181). Both act as select rises, on the mask and the flags as they then stand. -/
def Obligations.MaskAndClearFlagsFrames : Prop :=
  ∀ (s : State) (p : Station),
    let masked := fun (q : Port) (b : Byte) =>
      { q with
        mask :=
          { overrun := b.getLsbD 0, lost := b.getLsbD 1, frameErr := b.getLsbD 2, sessionEnded := b.getLsbD 3,
            sweepDone := b.getLsbD 4, notice := b.getLsbD 5, result := b.getLsbD 6 } }
    let cleared := fun (q : Port) (b : Byte) =>
      let f := s.ports[p].flags
      { q with
        flags :=
          { overrun := if b.getLsbD 0 then false else f.overrun, lost := if b.getLsbD 1 then false else f.lost,
            frameErr := if b.getLsbD 2 then false else f.frameErr,
            sessionEnded := if b.getLsbD 3 then false else f.sessionEnded,
            sweepDone := if b.getLsbD 4 then false else f.sweepDone } }
    (∀ f, s.ports[p].shifter = .receiving f → f.received.length % 8 = 0 → 16 ≤ f.received.length →
      let q := s.ports[p].afterStop [.plain] f.sent
      let b := bitsByte (f.received.drop 8)
      (bitsByte f.received = 0x54 → StopsAs s p (masked q b)) ∧
      (bitsByte f.received = 0x55 → StopsAs s p (cleared q b))) ∧
    ∀ bits : List Bool, s.ports[p].shifter = .released → s.inReset = false → bits.length % 8 = 0 → 8 ≤ bits.length →
      let q := s.ports[p].afterFrame [.plain] (wireBits (statusThenZeros (s.statusByte p)) (8 + bits.length))
      exec (.mask p (.whole bits)) s = .next { s with ports := s.ports.set p (masked q (bitsByte bits)) } ∧
      exec (.clearFlags p (.whole bits)) s = .next { s with ports := s.ports.set p (cleared q (bitsByte bits)) }

/-- A broken frame does nothing beyond setting FRAME_ERR, whatever the state of its port and whatever other commands stood
between its bits; the lengths that make a posted frame short are those of the command table (R146, section 11.2). A frame of
no bits does nothing at all (R146). -/
def Obligations.BrokenFrameSetsFrameErrAlone : Prop :=
  ∀ (s : State) (p : Station),
    let broken := fun bits : List Bool => bits ≠ [] ∧
      (8 ≤ bits.length →
        let code := bitsByte bits
        let needed := if code = 0x54 ∨ code = 0x55 then 2 else postedBytes code
        code ∉ ([0x51, 0x52, 0x53, 0x5F] : List Byte) ∧ (bits.length % 8 ≠ 0 ∨ bits.length / 8 < needed))
    (∀ f, s.ports[p].shifter = .receiving f →
      let q := s.ports[p].afterStop [] f.sent
      (f.received = [] → StopsAs s p q) ∧
      (broken f.received → StopsAs s p { q with flags := { q.flags with frameErr := true } })) ∧
    ∀ bits : List Bool, s.ports[p].shifter = .released → s.inReset = false → broken bits →
    exec (.brokenFrame p (.whole bits)) s = .next
      { s with
        ports := s.ports.set p
          { s.ports[p].afterFrame [] (wireBits (statusThenZeros (s.statusByte p)) bits.length) with
            flags := { s.ports[p].flags with frameErr := true } } }

/-- The end of a well-formed posted frame. On a READY or HOLDING port it is taken with the bytes of its argument list,
a held result being discarded with LOST (R146, R147, R153); on a BUSY port it is refused with OVERRUN (R154). The command
state that decides is the one as select rises, whatever other commands stood between the frame's bits. -/
def Obligations.PostedFrameTakenOrRefused : Prop :=
  ∀ (s : State) (p : Station) (code : Byte) (args extra : List Byte),
    code ∉ ([0x51, 0x52, 0x53, 0x54, 0x55, 0x5F] : List Byte) → 1 + args.length = postedBytes code →
    let command : CommandState := .busy { code := code, args := args, passedOn := false }
    let ended := fun (after : List Reload → Port) =>
      match s.ports[p].command with
      | .ready => { after [.ofCommand] with command := command }
      | .holding _ => { after [.ofCommand] with command := command, flags := { s.ports[p].flags with lost := true } }
      | .busy _ => { after [.plain] with flags := { s.ports[p].flags with overrun := true } }
    (∀ f, s.ports[p].shifter = .receiving f → f.received = bytesBits (code :: (args ++ extra)) →
      StopsAs s p (ended fun reload => s.ports[p].afterStop reload f.sent)) ∧
    (s.ports[p].shifter = .released → s.inReset = false →
      let out := wireBits (statusThenZeros (s.statusByte p)) (8 * (1 + args.length + extra.length))
      exec (.postedFrameEnd p code (.whole (bytesBits (args ++ extra)))) s = .next
        { s with ports := s.ports.set p (ended fun reload => s.ports[p].afterFrame reload out) })

/-- A frame clocked in pieces is the same frame: select falls, bits, more bits, select rises (R145, R183). In any span of
select, and while it is released, bits clocked are edges of SnSCK: for each bit a rising edge that samples it and a falling
edge, after a falling edge if the clock stands high (R182; that the rows' bits leave the clock low is log entry 15). -/
def Obligations.FrameInPieces : Prop :=
  ∀ (s : State) (p : Station) (code : Byte), ∀ row ∈ frameRows p code,
    (∀ a b : List Bool, s.ports[p].shifter = .released →
      ∃ u v w, exec (row (.start a)) s = .next u ∧ exec (row (.more b)) u = .next v ∧
        exec (row .stop) v = .next w ∧ exec (row (.whole (a ++ b))) s = .next w) ∧
    ∀ (b : Bool) (bits : List Bool), ∃ u v w x, exec (row .fall) s = .next u ∧ exec (row (.rise b)) u = .next v ∧
      exec (row .fall) v = .next w ∧ exec (row (.more bits)) w = .next x ∧ exec (row (.more (b :: bits))) s = .next x

/-- While select stays low the port counts new bits as part of the frame already open, whatever the host means by
them: no command byte is read afresh and no reload is handed over (R183). A rising edge of SnSCK samples and counts one
bit and leaves SnSDO; it fixes the record of a FETCH at the eighth bit and takes the snapshot of a NOTICES at the sixteenth,
unless four claims are in flight, and at no other bit (R133, R138, R151). A falling edge changes SnSDO to the bit after the
one taken; a byte is read as its first bit is shifted out, from the state for STATUS and from what is fixed for FETCH,
NOTICES and IDENT, and is 0x00 in every other frame and past a command's data (R134, R147, R152). SnSDO shows bit 7 of the status byte from the fall of select to the falling edge
after the first rising edge, and is high-impedance while select is released, when clocks are ignored (R145, R148, R150,
R182). An edge to the level the clock already has is none (log entry 3); that a byte is
read as its first bit comes on SnSDO is read from these rules together (log entry 15). -/
def Obligations.OpenFrameCountsOn : Prop :=
  ∀ (s : State) (p : Station) (code : Byte) (b : Bool) (bits : List Bool), ∀ row ∈ frameRowsWithLead p code,
    let q := s.ports[p]
    let becomes := fun (c : Instr) (q' : Port) => exec c s = .next { s with ports := s.ports.set p q' }
    let level := if bits = [] then q.clockHigh else false
    (q.clockHigh = true → exec (row.1 (.rise b)) s = .next s) ∧
    (q.clockHigh = false → exec (row.1 .fall) s = .next s) ∧
    (q.shifter = .released →
      s.sdoPin p = none ∧
      (q.clockHigh = false → becomes (row.1 (.rise b)) { q with clockHigh := true }) ∧
      (q.clockHigh = true → becomes (row.1 .fall) { q with clockHigh := false }) ∧
      becomes (row.1 (.more bits)) { q with clockHigh := level } ∧
      (s.inReset = false →
        ∃ t, exec (.brokenFrame p (.start [])) s = .next t ∧ t.sdoPin p = some ((s.statusByte p).getLsbD 7) ∧
          t = { s with
            ports := s.ports.set p
              { q with
                shifter := .receiving
                  { received := [], sent := [], outByte := s.statusByte p, fetched := none, snapshot := none } } })) ∧
    ∀ f, q.shifter = .receiving f →
      (∃ g, becomes (row.1 (.more bits)) { q with shifter := .receiving g, clockHigh := level } ∧
        g.received = f.received ++ bits) ∧
      (∃ g, becomes (row.1 (.start bits))
          { q with
            shifter := .receiving g, clockHigh := if row.2 = [] ∧ bits = [] then q.clockHigh else false } ∧
        g.received = f.received ++ bytesBits row.2 ++ bits) ∧
      (q.clockHigh = false →
        let bits := f.received ++ [b]
        ∃ t g out, exec (row.1 (.rise b)) s = .next t ∧
          t = { s with ports := s.ports.set p { q with shifter := .receiving g, clockHigh := true } } ∧
          s.sdoPin p = some out ∧ t.sdoPin p = some out ∧
          g = {
            received := bits
            sent := f.sent ++ [out]
            outByte := f.outByte
            fetched :=
              if bits.length = 8 ∧ bitsByte bits = 0x52 then
                match q.command with
                | .holding record => some record
                | _ => f.fetched
              else f.fetched
            snapshot :=
              if bits.length = 16 ∧ bitsByte bits = 0x53 ∧ q.acks.length < 4 then
                some (s.noticesSnapshot p (bitsByte (bits.drop 8)))
              else f.snapshot }) ∧
      (q.clockHigh = true →
        ∃ t g, exec (row.1 .fall) s = .next t ∧
          t = { s with ports := s.ports.set p { q with shifter := .receiving g, clockHigh := false } } ∧
          g = { f with outByte := g.outByte } ∧
          (f.received = [] → t.sdoPin p = s.sdoPin p) ∧
          (f.received.length % 8 ≠ 0 → t.sdoPin p = some (f.outByte.getLsbD (7 - f.received.length % 8))) ∧
          (f.received ≠ [] → f.received.length % 8 = 0 →
            let n := f.received.length / 8
            let code := bitsByte f.received
            t.sdoPin p = some (g.outByte.getLsbD 7) ∧
            (code = 0x51 → g.outByte = if n % 2 = 0 then s.statusByte p else q.flags.byte) ∧
            (code = 0x52 → g.outByte = (f.fetched.getD [0x02, 0x00, 0xFF]).getD (n - 1) 0x00) ∧
            (code = 0x53 → g.outByte =
              match f.snapshot with
              | none => 0x00
              | some records =>
                (0x00 :: BitVec.ofNat 8 records.length :: records.flatMap fun r =>
                  wordBytes (handleOf r.generation r.slot) ++ wordBytes r.key ++ [r.kind.code, r.state.code]).getD
                    (n - 1) 0x00) ∧
            (code = 0x5F → g.outByte =
              ([0x5B, 0x42, 0x56, 0x01, 0x04, 0x01, 0x00, 0x80] : List Byte).getD (n - 1) 0x00) ∧
            (code ∉ ([0x51, 0x52, 0x53, 0x5F] : List Byte) → g.outByte = 0x00)))

/-- A span of select that reset meets, whether it was open when reset began or begins while the part is held in reset, is
no frame for the port, and it stays none when reset ends while select is low: bits clocked in it, and the rise of select
that ends it, in reset or out of it, set no flag, hand no reload and change no command state (R159). Only the unstated
bits of SnSDO are spent, which change at falling edges alone (R182; the model's free values, log entry 6, and its record
of SnSDO, log entry 7). -/
def Obligations.SpanBegunInResetIsNoFrame : Prop :=
  ∀ (s : State) (p : Station),
    (s.ports[p].shifter ≠ .released →
      ∃ t sent, exec .hardwareReset s = .next t ∧ t.ports[p].shifter = .ignoring sent) ∧
    (∀ strap : Station, ∃ t, exec (.endOfReset strap) s = .next t ∧ t.ports = s.ports) ∧
    ∀ (code : Byte) (b : Bool) (bits : List Bool), ∀ row ∈ frameRowsWithLead p code,
      let q := s.ports[p]
      let clocks := fun (c : Instr) (n : Nat) (port : List Bool → Port) =>
        ∃ out, out.length = n ∧
          exec c s = .next
            { s with
              ports := s.ports.set p
                { port out with
                  clockHigh := if n = 0 then q.clockHigh else false
                  freeIndex := q.freeIndex + n + if n ≠ 0 ∧ q.clockHigh = true then 1 else 0 } }
      let n := 8 * row.2.length + bits.length
      (s.inReset = true → q.shifter = .released →
        clocks (row.1 (.start bits)) n (fun out => { q with shifter := .ignoring out }) ∧
        clocks (row.1 (.whole bits)) n (fun out => { q with sdo := out })) ∧
      ∀ sent, q.shifter = .ignoring sent →
        clocks (row.1 (.start bits)) n (fun out => { q with shifter := .ignoring (sent ++ out) }) ∧
        clocks (row.1 (.more bits)) bits.length (fun out => { q with shifter := .ignoring (sent ++ out) }) ∧
        clocks (row.1 (.whole bits)) n (fun out => { q with shifter := .released, sdo := sent ++ out }) ∧
        clocks (row.1 .stop) 0 (fun _ => { q with shifter := .released, sdo := sent }) ∧
        (q.clockHigh = false →
          ∃ t out, exec (row.1 (.rise b)) s = .next t ∧ t.sdoPin p = s.sdoPin p ∧
            t = { s with ports := s.ports.set p { q with shifter := .ignoring (sent ++ [out]), clockHigh := true } }) ∧
        (q.clockHigh = true →
          exec (row.1 .fall) s = .next
            { s with ports := s.ports.set p { q with clockHigh := false, freeIndex := q.freeIndex + 1 } })

/-- Nothing a station does on its port reaches another port's state or any other block's (chapter 8). -/
def Obligations.FramesStayOnTheirPort : Prop :=
  ∀ (s : State) (p : Station) (code : Byte) (ev : FrameEvent), ∀ row ∈ frameRows p code,
    ∃ t, exec (row ev) s = .next t ∧ PortOnly p s t

/-! ### Results (R156, R157) -/

/-- A block's answer: the result record of length, echoed code, result code and body stands in the port's result
buffer and the port is HOLDING; nothing else changes, but that a command posted from now on comes after every
completion claim then outstanding for its station (R156, R180; the model's record of R41's exception, log entry 13). With
it the formats every result and frame uses: the codes of results, modes, states and notice kinds, the handle as generation
times 256 plus slot index, most significant byte and bit first (R5, R179, sections 11.1 and 11.2). -/
def Obligations.ResultPlaced : Prop :=
  (∀ (s : State) (p : Station) (code : Byte) (r : Reply),
    s.placeResult p code r =
      { s with
        ports := s.ports.set p
          { s.ports[p] with
            command := .holding (BitVec.ofNat 8 (2 + r.body.length) :: code :: r.result.code :: r.body) }
        rangeCompletions := s.rangeCompletions.map fun c =>
          if c.requester = p then { c with overtaken := false } else c }) ∧
  ([.ok, .granted, .queued, .accepted, .badCmd, .badArg, .noSession, .staleSession, .sessionEnded, .attached,
      .staleHandle, .foreign, .wrongState, .duplicate, .doomed, .denied, .frozen, .inUse, .quota, .poolFull, .dirFull,
      .queueFull, .busyRes, .conflict, .sweepingKey, .sweepFull, .noResult] : List ResultCode).map ResultCode.code =
    [0x00, 0x01, 0x02, 0x03, 0x10, 0x11, 0x12, 0x13, 0x14, 0x15, 0x20, 0x21, 0x22, 0x23, 0x24, 0x30, 0x31, 0x32, 0x40,
      0x41, 0x42, 0x43, 0x44, 0x45, 0x46, 0x47, 0xFF] ∧
  [LeaseMode.shared, .exclusive].map LeaseMode.code = [0x01, 0x02] ∧
  [HoldMode.unheld, .shared, .exclusive].map HoldMode.code = [0x00, 0x01, 0x02] ∧
  [SlotState.free, .waiting, .held, .grace, .ended].map SlotState.code = [0x00, 0x01, 0x02, 0x03, 0x04] ∧
  [NoticeKind.granted, .lapsed, .extended, .revoked, .timedOut, .swept].map NoticeKind.code =
    [0x01, 0x02, 0x03, 0x04, 0x05, 0x06] ∧
  (∀ (g : Generation) (i : SlotIndex), (handleOf g i).toNat = g.toNat * 256 + i.val ∧
    handleGeneration (handleOf g i) = g ∧ handleSlot (handleOf g i) = i) ∧
  (∀ h : Word, h < 0x4000 → handleOf (handleGeneration h) (handleSlot h) = h) ∧
  (∀ w : Word, (wordBytes w).map BitVec.toNat = [w.toNat / 256, w.toNat % 256]) ∧
  ∀ (b : Byte) (rest : List Bool), (byteBits b).length = 8 ∧ (∀ n < 8, (byteBits b)[n]? = some (b.getLsbD (7 - n))) ∧
    bitsByte (byteBits b ++ rest) = b

/-- A command code that names no command is answered BAD_CMD by the port itself, with no state outside the port
changed (R157). -/
def Obligations.UnknownCodeAnswered : Prop :=
  ∀ (s : State) (p : Station) (code : Byte) (args : List Byte), s.Offers p code args →
    code ∉ ([0x20, 0x21, 0x30, 0x31, 0x32, 0x33, 0x34, 0x38, 0x39, 0x60, 0x61, 0x62, 0x68, 0x69, 0x6A, 0x6B] : List Byte) →
    exec (.badCmd p) s = .next (s.placeResult p code { result := .badCmd, body := [] })

/-! ### Sessions (chapter 5) -/

/-- A liveness reload loads the counter of an ATTACHED session with a nonzero term and is discarded otherwise; the
command whose frame handed it is then passed on (R100, R101, R155). The choice among a port's reloads is the
operand's (log entry 10). -/
def Obligations.LivenessReloadTaken : Prop :=
  ∀ (s : State) (p : Station) (which : Nat) (r : Reload), s.ports[p].reloads[which]? = some r →
    let q := { s.ports[p] with reloads := s.ports[p].reloads.eraseIdx which }
    let port' : Port :=
      match r, s.ports[p].command with
      | .ofCommand, .busy c => { q with command := .busy { c with passedOn := true } }
      | _, _ => q
    let counter := s.livenessCounters[p]
    exec (.livenessReload p which) s = .next
      { s with
        ports := s.ports.set p port'
        livenessCounters := s.livenessCounters.set p
          (if s.sessions[p].state = .attached ∧ s.sessions[p].livenessTerm ≠ 0 then
            { counter with value := s.sessions[p].livenessTerm, running := true }
          else counter) }

/-- ATTACH by the state at its taking. DETACHED: a session begins, its epoch counting on from the last and skipping 0,
its liveness counter loaded or left stopped. ATTACHED: answered ATTACHED, or with RECLAIM the session ends with cause
RECLAIM. SWEEPING: SESSION_ENDED. An unassigned flag is BAD_ARG in every state (R92 to R97). -/
def Obligations.AttachByState : Prop :=
  ∀ (s : State) (p : Station) (term : Word) (grace flags : Byte),
    s.Offers p 0x20 (wordBytes term ++ [grace, flags]) →
    let answers := fun (t : State) (r : Reply) => exec (.attach p) s = .next (t.placeResult p 0x20 r)
    let epoch := if s.sessions[p].epoch = 0 ∨ s.sessions[p].epoch = 255 then 1 else s.sessions[p].epoch + 1
    (flags &&& 0xFE#8 ≠ 0 → answers s { result := .badArg, body := [] }) ∧
    (flags &&& 0xFE#8 = 0 → s.sessions[p].state = .detached →
      answers
        { s with
          sessions := s.sessions.set p
            { s.sessions[p] with state := .attached, epoch := epoch, livenessTerm := term, grace := grace }
          livenessCounters := s.livenessCounters.set p
            { s.livenessCounters[p] with value := term, running := term != 0 } }
        { result := .ok, body := [epoch] }) ∧
    (flags = 0x00 → s.sessions[p].state = .attached → answers s { result := .attached, body := [] }) ∧
    (flags = 0x01 → s.sessions[p].state = .attached →
      answers (s.endSession p .reclaim) { result := .accepted, body := [] }) ∧
    (flags &&& 0xFE#8 = 0 → s.sessions[p].state = .sweeping → answers s { result := .sessionEnded, body := [] })

/-- A session that ends: liveness counter stopped, cause set, SWEEPING, a station order with the cause at the tail of
the Sweep Queue, whose walk begins at slot 0 if the queue was empty (R98, R111). -/
def Obligations.SessionEndOrdersASweep : Prop :=
  ∀ (s : State) (p : Station) (cause : SweepCause),
    s.endSession p cause =
      { s with
        livenessCounters := s.livenessCounters.set p { s.livenessCounters[p] with value := 0, running := false }
        sessions := s.sessions.set p { s.sessions[p] with state := .sweeping, cause := some cause }
        sweepQueue := s.sweepQueue ++ [.station p cause]
        walk := if s.sweepQueue = [] then some 0 else s.walk }

/-- DETACH with the session's epoch ends the session with cause DETACH; a session check that fails refuses it (R99,
R46, R104). -/
def Obligations.DetachEndsTheSession : Prop :=
  ∀ (s : State) (p : Station) (epoch : Byte), s.Offers p 0x21 [epoch] →
    (firstFailing (s.sessionTests p epoch) = none →
      exec (.detach p) s = .next ((s.endSession p .detach).placeResult p 0x21 { result := .accepted, body := [] })) ∧
    (∀ r, firstFailing (s.sessionTests p epoch) = some r →
      exec (.detach p) s = .next (s.placeResult p 0x21 { result := r, body := [] }))

/-- A lapse claim is accepted only if the session is ATTACHED with a liveness term of 1 to 65535 and the counter reads
0; it then ends the session with cause LAPSE, and is otherwise discarded with nothing changed (R102). -/
def Obligations.LapseClaimTested : Prop :=
  ∀ (s : State) (p : Station), s.livenessCounters[p].claim = true →
    let taken := { s with livenessCounters := s.livenessCounters.set p { s.livenessCounters[p] with claim := false } }
    let passes :=
      s.sessions[p].state = .attached ∧ 1 ≤ s.sessions[p].livenessTerm.toNat ∧ s.livenessCounters[p].value = 0
    (passes → exec (.lapseClaim p) s = .next (taken.endSession p .lapse)) ∧
    (¬ passes → exec (.lapseClaim p) s = .next taken)

/-- The completion of a station order: DETACHED, liveness term and grace 0, no cause, epoch kept; SESSION_ENDED is set
for the causes LAPSE, PURGE and CLEAR and left alone for DETACH and RECLAIM (R106). -/
def Obligations.SweepCompletionDetaches : Prop :=
  ∀ (s : State) (p : Station) (cause : SweepCause), s.sessionCompletions[p] = some cause →
    exec (.sessionSweepCompletion p) s = .next
      { s with
        sessionCompletions := s.sessionCompletions.set p none
        sessions := s.sessions.set p
          { s.sessions[p] with state := .detached, livenessTerm := 0, grace := 0, cause := none }
        ports := s.ports.set p
          { s.ports[p] with
            flags :=
              { s.ports[p].flags with
                sessionEnded :=
                  if cause = .lapse ∨ cause = .purge ∨ cause = .clear then true
                  else s.ports[p].flags.sessionEnded } } }

/-! ### The administrator's sweeps (chapter 6) -/

/-- PURGE ends the named station's session with cause PURGE, or merges with the sweep already ordered. CLEAR ALL ends
every ATTACHED session with cause CLEAR, its orders entering in ascending order of station. REVOKE RANGE enters a range
order at the tail of the Sweep Queue, naming the sender (R111, R113, R115, R116). -/
def Obligations.SweepCommandsAccepted : Prop :=
  ∀ (s : State) (p : Station) (epoch : Byte), firstFailing (s.adminTests p epoch) = none →
    let accepted : Reply := { result := .accepted, body := [] }
    (∀ q : Station, s.Offers p 0x60 [epoch, BitVec.ofNat 8 q.val] →
      (s.sessions[q].state = .attached →
        exec (.purge p) s = .next ((s.endSession q .purge).placeResult p 0x60 accepted)) ∧
      (s.sessions[q].state = .sweeping → exec (.purge p) s = .next (s.placeResult p 0x60 accepted))) ∧
    (s.Offers p 0x62 [epoch] →
      ∃ t : State, exec (.clearAll p) s = .next (t.placeResult p 0x62 accepted) ∧
        t = { s with
          sessions := t.sessions
          livenessCounters := t.livenessCounters
          sweepQueue := s.sweepQueue ++
            ((List.finRange 4).filter fun q : Station => s.sessions[q].state == .attached).map fun q =>
              Order.station q .clear
          walk := if s.sweepQueue = [] then some 0 else s.walk } ∧
        ∀ q : Station,
          if s.sessions[q].state = .attached then
            t.sessions[q] = { s.sessions[q] with state := .sweeping, cause := some .clear } ∧
            t.livenessCounters[q] = { s.livenessCounters[q] with value := 0, running := false }
          else t.sessions[q] = s.sessions[q] ∧ t.livenessCounters[q] = s.livenessCounters[q]) ∧
    (∀ (first last : Word) (flags : Byte),
      s.GeOffers p 0x61 ([epoch] ++ wordBytes first ++ wordBytes last ++ [flags]) → first ≤ last →
      flags &&& 0xFE#8 = 0 → (rangeOrders s.sweepQueue).length < 2 →
      exec (.revokeRange p) s = .next
        ({ s with
            lastTaken := p
            sweepQueue := s.sweepQueue ++
              [Order.range { first := first, last := last, force := flags.getLsbD 0, requester := p }]
            walk := if s.sweepQueue = [] then some 0 else s.walk }.placeResult p 0x61 accepted))

/-- The administrator's sweep commands are refused in the order of R112, then by their own tests, and a refused one
changes nothing (R112, R113, R116). -/
def Obligations.SweepCommandsRefusedInOrder : Prop :=
  ∀ (s : State) (p : Station) (epoch : Byte) (r : ResultCode),
    (∀ station : Byte, s.Offers p 0x60 [epoch, station] →
      firstFailing ([(decide (3#8 < station), ResultCode.badArg)] ++ s.adminTests p epoch ++
        [(s.sessions[stationOfByte station].state == .detached, .noSession)]) = some r →
      exec (.purge p) s = .next (s.placeResult p 0x60 { result := r, body := [] })) ∧
    (s.Offers p 0x62 [epoch] → firstFailing (s.adminTests p epoch) = some r →
      exec (.clearAll p) s = .next (s.placeResult p 0x62 { result := r, body := [] })) ∧
    (∀ (first last : Word) (flags : Byte),
      s.GeOffers p 0x61 ([epoch] ++ wordBytes first ++ wordBytes last ++ [flags]) →
      firstFailing ([(last < first || flags &&& 0xFE#8 != 0, .badArg)] ++ s.adminTests p epoch ++
        [(decide (2 ≤ (rangeOrders s.sweepQueue).length), ResultCode.sweepFull)]) = some r →
      exec (.revokeRange p) s = .next ({ s with lastTaken := p }.placeResult p 0x61 { result := r, body := [] }))

/-! ### The arbiter and ACQUIRE (chapter 3) -/

/-- The GE takes the posted commands waiting for it in rotating order of station number from the one after the command
taken last, and none of a station whose completion claim stands before it (R41; how the model keeps the exception is log
entry 13). -/
def Obligations.ArbiterRotates : Prop :=
  ∀ (s : State) (p : Station), s.geMayTake p = true ↔
    (∃ code args, s.Offers p code args ∧
      code ∈ ([0x30, 0x31, 0x32, 0x33, 0x34, 0x38, 0x39, 0x61] : List Byte)) ∧
    (∀ q : Station, (q - s.lastTaken - 1).val < (p - s.lastTaken - 1).val → ∀ code args, s.Offers q code args →
      code ∉ ([0x30, 0x31, 0x32, 0x33, 0x34, 0x38, 0x39, 0x61] : List Byte)) ∧
    ∀ c ∈ s.rangeCompletions, c.requester = p → c.overtaken = true

/-- An ACQUIRE that passes steps 1 to 8 and can be granted at once: the lowest FREE slot becomes HELD with its counter
loaded, joins the end of the holder list and raises the lease count; no notice (R9, R30, R51; the entry's place in the
list of entries is log entry 5). -/
def Obligations.AcquireGrantedAtOnce : Prop :=
  ∀ (s : State) (p : Station) (epoch flags : Byte) (k term wait : Word) (m : LeaseMode) (i : SlotIndex),
    s.GeOffers p 0x30 ([epoch] ++ wordBytes k ++ [flags] ++ wordBytes term ++ wordBytes wait) →
    firstFailing (s.acquireTests p epoch k flags term) = none → flags &&& 0x03#8 = m.code →
    s.slots[i].state = .free → (∀ j, j < i → s.slots[j].state ≠ .free) → s.canGrantNow (s.entryOrNew k) m = true →
    let e := s.entryOrNew k
    let l : Lease := { station := p, key := k, mode := m, term := term, waitLimit := wait }
    exec (.acquire p) s = .next
      ({ s with
          lastTaken := p
          slots := s.slots.set i
            { state := .held, generation := s.slots[i].generation, lease := some l, extension := none, notice := none }
          leaseCounters := s.leaseCounters.set i
            { s.leaseCounters[i] with
              value := term, running := true, generation := s.slots[i].generation, phase := .term }
          sessions := s.sessions.set p { s.sessions[p] with leaseCount := s.sessions[p].leaseCount + 1 }
          directory := putEntry { e with holders := e.holders ++ [i], holdMode := m.hold } s.directory }.placeResult p 0x30
        { result := .granted, body := wordBytes (handleOf s.slots[i].generation i) })

/-- An ACQUIRE that cannot be granted at once, with TRY clear and room in the wait queue, is queued: the lowest FREE slot
becomes WAITING at the end of the queue, its counter loaded with a nonzero wait limit, and stopped at 0 with its tags
left as they were for a wait limit of 0 (R9, R27, R53; the tags of a stopped counter are log entry 9, the entry's place in
the list of entries log entry 5). -/
def Obligations.AcquireQueued : Prop :=
  ∀ (s : State) (p : Station) (epoch flags : Byte) (k term wait : Word) (m : LeaseMode) (i : SlotIndex),
    s.GeOffers p 0x30 ([epoch] ++ wordBytes k ++ [flags] ++ wordBytes term ++ wordBytes wait) →
    firstFailing (s.acquireTests p epoch k flags term) = none → flags &&& 0x03#8 = m.code →
    s.slots[i].state = .free → (∀ j, j < i → s.slots[j].state ≠ .free) → s.canGrantNow (s.entryOrNew k) m = false →
    flags.getLsbD 7 = false → (s.entryOrNew k).queue.length < s.settings.queueLimit →
    let e := s.entryOrNew k
    let l : Lease := { station := p, key := k, mode := m, term := term, waitLimit := wait }
    exec (.acquire p) s = .next
      ({ s with
          lastTaken := p
          slots := s.slots.set i
            { state := .waiting, generation := s.slots[i].generation, lease := some l, extension := none,
              notice := none }
          leaseCounters := s.leaseCounters.set i
            (if wait = 0 then { s.leaseCounters[i] with value := 0, running := false }
            else
              { s.leaseCounters[i] with
                value := wait, running := true, generation := s.slots[i].generation, phase := .wait })
          sessions := s.sessions.set p { s.sessions[p] with leaseCount := s.sessions[p].leaseCount + 1 }
          directory := putEntry { e with queue := e.queue ++ [i] } s.directory }.placeResult p 0x30
        { result := .queued
          body := wordBytes (handleOf s.slots[i].generation i) ++ [BitVec.ofNat 8 (e.queue.length + 1)] })

/-- ACQUIRE is refused by the first test of R45 that decides, and a refused one takes no slot and changes nothing but
the result and the arbiter's turn (R45, R46 to R53). -/
def Obligations.AcquireRefusedInOrder : Prop :=
  ∀ (s : State) (p : Station) (epoch flags : Byte) (k term wait : Word) (r : ResultCode),
    s.GeOffers p 0x30 ([epoch] ++ wordBytes k ++ [flags] ++ wordBytes term ++ wordBytes wait) →
    let m : LeaseMode := if flags &&& 0x03#8 = 0x01#8 then .shared else .exclusive
    let blocked := !s.canGrantNow (s.entryOrNew k) m
    firstFailing (s.acquireTests p epoch k flags term ++
      [(blocked && flags.getLsbD 7, .busyRes),
        (blocked && s.settings.queueLimit ≤ (s.entryOrNew k).queue.length, .queueFull)]) = some r →
    exec (.acquire p) s = .next ({ s with lastTaken := p }.placeResult p 0x30 { result := r, body := [] })

/-! ### Commands that name a handle (chapters 3 and 4) -/

/-- RELEASE, RENEW, EXTEND, CONVERT and QUERY LEASE are refused by the first failing check of R60, the state refusal
before the doom refusal, and a refused one changes nothing in the pool or the directory (R7, R60, R65, R81). -/
def Obligations.HandleCommandsRefusedInOrder : Prop :=
  ∀ (s : State) (p : Station) (epoch : Byte) (h : Word) (r : ResultCode),
    let i := handleSlot h
    let notHolding := s.slots[i].state != .held && s.slots[i].state != .grace
    let doomed := (s.doomed i, ResultCode.doomed)
    let refuses := fun (c : Instr) (code : Byte) =>
      exec c s = .next ({ s with lastTaken := p }.placeResult p code { result := r, body := [] })
    (s.GeOffers p 0x31 ([epoch] ++ wordBytes h) → firstFailing (s.handleTests p epoch h true) = some r →
      refuses (.release p) 0x31) ∧
    (s.GeOffers p 0x38 ([epoch] ++ wordBytes h) → firstFailing (s.handleTests p epoch h true) = some r →
      refuses (.queryLease p) 0x38) ∧
    (∀ term : Word, s.GeOffers p 0x32 ([epoch] ++ wordBytes h ++ wordBytes term) →
      firstFailing (s.handleTests p epoch h true ++ [(notHolding, .wrongState), doomed]) = some r →
      refuses (.renew p) 0x32) ∧
    (∀ term : Word, s.GeOffers p 0x33 ([epoch] ++ wordBytes h ++ wordBytes term) →
      firstFailing (s.handleTests p epoch h true ++ [(notHolding, .wrongState), doomed]) = some r →
      refuses (.extend p) 0x33) ∧
    (∀ mode : Byte, s.GeOffers p 0x34 ([epoch] ++ wordBytes h ++ [mode]) →
      firstFailing (s.handleTests p epoch h (mode == 0x01 || mode == 0x02) ++
        [(s.slots[i].state != .held, .wrongState), doomed,
          (mode == 0x02 && s.slots[i].lease.any (fun l => l.mode == .shared &&
            !(s.directory.any fun e => e.key == l.key && e.holders == [i])), .conflict)]) = some r →
      s.DirectorySound → refuses (.convert p) 0x34)

/-- RELEASE of a current handle frees the slot in every state; from WAITING, HELD or GRACE the slot leaves its list and
its key is regranted, from ENDED nothing else moves (R61, R18, R19, R32; that the stopped counter keeps its tags is log
entry 9). -/
def Obligations.ReleaseFreesTheSlot : Prop :=
  ∀ (s : State) (p : Station) (epoch : Byte) (h : Word), s.GeOffers p 0x31 ([epoch] ++ wordBytes h) →
    s.DirectorySound → firstFailing (s.handleTests p epoch h true) = none →
    ∃ l t, s.slots[handleSlot h].lease = some l ∧ l.station = p ∧
      exec (.release p) s = .next ({ t with lastTaken := p }.placeResult p 0x31 { result := .ok, body := [] }) ∧
      Freed (handleSlot h) l s t ∧
      (s.slots[handleSlot h].state.isLive = true → Leaves (handleSlot h) l s t) ∧
      (s.slots[handleSlot h].state = .ended →
        PoolOnly s t ∧ t.directory = s.directory ∧ ∀ j, j ≠ handleSlot h → Untouched j s t)

/-- RENEW of a HELD or GRACE slot loads its counter with the carried term, or the stored one for 0, stores a carried
term, and removes a pending extension. EXTEND of a HELD slot sets or removes the pending extension; of a GRACE slot it
renews with a nonzero term and changes nothing with 0 (R82, R83, R84, R85). -/
def Obligations.RenewAndExtend : Prop :=
  ∀ (s : State) (p : Station) (epoch : Byte) (h term : Word),
    let i := handleSlot h
    firstFailing (s.handleTests p epoch h true ++
      [(s.slots[i].state != .held && s.slots[i].state != .grace, .wrongState), (s.doomed i, .doomed)]) = none →
    ∃ l, s.slots[i].lease = some l ∧
      let renewed := fun (t : Word) =>
        { s with
          lastTaken := p
          slots := s.slots.set i
            { s.slots[i] with state := .held, extension := none, lease := some { l with term := t } }
          leaseCounters := s.leaseCounters.set i
            { s.leaseCounters[i] with value := t, running := true, generation := s.slots[i].generation, phase := .term } }
      (s.GeOffers p 0x32 ([epoch] ++ wordBytes h ++ wordBytes term) →
        exec (.renew p) s = .next
          ((renewed (if term = 0 then l.term else term)).placeResult p 0x32 { result := .ok, body := [] })) ∧
      (s.GeOffers p 0x33 ([epoch] ++ wordBytes h ++ wordBytes term) →
        (s.slots[i].state = .held →
          exec (.extend p) s = .next
            ({ s with
                lastTaken := p
                slots := s.slots.set i
                  { s.slots[i] with extension := if term = 0 then none else some term } }.placeResult p 0x33
              { result := .ok, body := [] })) ∧
        (s.slots[i].state = .grace → term ≠ 0 →
          exec (.extend p) s = .next ((renewed term).placeResult p 0x33 { result := .ok, body := [] })) ∧
        (s.slots[i].state = .grace → term = 0 →
          exec (.extend p) s = .next ({ s with lastTaken := p }.placeResult p 0x33 { result := .ok, body := [] })))

/-- CONVERT of a HELD slot that is not doomed: to its own mode nothing changes; to EXCLUSIVE as the sole holder, slot
and entry become EXCLUSIVE with no regrant; to SHARED, slot and entry become SHARED and the entry is regranted, the
slot keeping its place (R63, R64, R65; the entry's place in the list of entries is log entry 5). -/
def Obligations.ConvertChangesTheMode : Prop :=
  ∀ (s : State) (p : Station) (epoch mode : Byte) (h : Word) (l : Lease) (e : Entry),
    let i := handleSlot h
    s.GeOffers p 0x34 ([epoch] ++ wordBytes h ++ [mode]) → s.DirectorySound →
    firstFailing (s.handleTests p epoch h (mode == 0x01 || mode == 0x02)) = none →
    s.slots[i].state = .held → s.doomed i = false → s.slots[i].lease = some l → entryOf s.directory l.key = some e →
    let ok : Reply := { result := .ok, body := [] }
    let slots' := fun (m : LeaseMode) =>
      s.slots.set i { s.slots[i] with lease := some { l with mode := m } }
    (mode = l.mode.code → exec (.convert p) s = .next ({ s with lastTaken := p }.placeResult p 0x34 ok)) ∧
    (mode = 0x02 → l.mode = .shared → e.holders = [i] →
      exec (.convert p) s = .next
        ({ s with
            lastTaken := p
            slots := slots' .exclusive
            directory := putEntry { e with holdMode := .exclusive } s.directory }.placeResult p 0x34 ok)) ∧
    (mode = 0x01 → l.mode = .exclusive →
      ∃ t, exec (.convert p) s = .next ({ t with lastTaken := p }.placeResult p 0x34 ok) ∧
        PoolOnly s t ∧ t.sessions = s.sessions ∧ t.slots[i] = { s.slots[i] with lease := some { l with mode := .shared } } ∧
        t.leaseCounters[i] = s.leaseCounters[i] ∧ Regrants (some i) l.key { e with holdMode := .shared } s t)

/-- The answers of the two queries, which change nothing but the result and the arbiter's turn (R29, R35 to R38, R180).
The entry of a key is the one the directory holds (R24), and a holder byte carries the holder's station in bits 7 to 4 and
its mode code in bits 3 to 0 (R180). -/
def Obligations.QueriesAnswer : Prop :=
  ∀ (s : State) (p : Station) (epoch : Byte),
    (∀ (k : Word) (e : Entry), s.DirectorySound → (entryOf s.directory k = some e ↔ e ∈ s.directory ∧ e.key = k)) ∧
    (∀ (e : Entry) (k : Word),
      entryOf (putEntry e s.directory) k = if k = e.key then some e else entryOf s.directory k) ∧
    (∀ (i : SlotIndex) (l : Lease), s.slots[i].lease = some l →
      (holderByte s i).toNat = 16 * l.station.val + (match l.mode with | .shared => 1 | .exclusive => 2)) ∧
    (∀ (h : Word) (l : Lease), s.GeOffers p 0x38 ([epoch] ++ wordBytes h) →
      firstFailing (s.handleTests p epoch h true) = none → s.slots[handleSlot h].lease = some l →
      let i := handleSlot h
      let state := s.slots[i].state
      let remaining : Word :=
        if state = .held ∨ state = .grace ∨ (state = .waiting ∧ l.waitLimit ≠ 0) then s.leaseCounters[i].value else 0
      let extension : Word := if state = .held then s.slots[i].extension.getD 0 else 0
      let position : Nat :=
        if state = .waiting then (entryOf s.directory l.key).elim 0 fun e => e.queue.idxOf i + 1 else 0
      exec (.queryLease p) s = .next
        ({ s with lastTaken := p }.placeResult p 0x38
          { result := .ok
            body := [state.code] ++ wordBytes l.key ++ [l.mode.code] ++ wordBytes remaining ++ wordBytes extension ++
              [BitVec.ofNat 8 position] })) ∧
    (∀ k : Word, s.GeOffers p 0x39 ([epoch] ++ wordBytes k) → s.OneLeaseEach →
      firstFailing (s.sessionTests p epoch) = none →
      ∃ own : Word,
        (∀ (i : SlotIndex) (l : Lease), s.slots[i].state.isLive = true → s.slots[i].lease = some l → l.station = p →
          l.key = k → own = handleOf s.slots[i].generation i) ∧
        ((∀ (i : SlotIndex) (l : Lease), s.slots[i].state.isLive = true → s.slots[i].lease = some l →
          ¬ (l.station = p ∧ l.key = k)) → own = 0xFFFF) ∧
        exec (.queryKey p) s = .next
          ({ s with lastTaken := p }.placeResult p 0x39
            { result := .ok
              body :=
                match entryOf s.directory k with
                | none => [0x00, 0x00, 0x00, 0x00] ++ wordBytes own
                | some e =>
                  [0x01, e.holdMode.code, BitVec.ofNat 8 e.holders.length, BitVec.ofNat 8 e.queue.length] ++
                    e.holders.map (holderByte s) ++ wordBytes own })) ∧
    (∀ (k : Word) (r : ResultCode), s.GeOffers p 0x39 ([epoch] ++ wordBytes k) →
      firstFailing (s.sessionTests p epoch) = some r →
      exec (.queryKey p) s = .next ({ s with lastTaken := p }.placeResult p 0x39 { result := r, body := [] }))

/-- After a regrant the first waiter that is not doomed, if there is one, cannot be granted: an EXCLUSIVE one finds a
holder, a SHARED one an exclusive holder or SHARED_LIMIT holders (R33, R54). -/
def Obligations.RegrantLeavesNoGrantableWaiter : Prop :=
  ∀ (s : State) (k : Word) (e : Entry) (j : SlotIndex) (rest : List SlotIndex), s.DirectorySound →
    entryOf (s.regrant k).directory k = some e → (e.queue.filter fun i => !(s.regrant k).doomed i) = j :: rest →
    ∃ l, (s.regrant k).slots[j].lease = some l ∧
      match l.mode with
      | .exclusive => e.holders ≠ []
      | .shared => e.holdMode = .exclusive ∨ s.settings.sharedLimit ≤ e.holders.length

/-! ### Expiry (chapter 4) -/

/-- A TERM claim that passes its test applies the pending extension, or lapses the lease into GRACE, or, with a grace
of 0, revokes it with a regrant (R13, R14, R15, R77; that the stopped counter keeps its tags is log entry 9). -/
def Obligations.TermExpires : Prop :=
  ∀ (s : State) (i : SlotIndex) (l : Lease),
    s.leaseCounters[i].claim = some { generation := s.slots[i].generation, phase := .term } →
    s.slots[i].state = .held → s.leaseCounters[i].value = 0 → s.slots[i].lease = some l →
    let grace := s.sessions[l.station].grace
    let loaded := fun (v : Word) (phase : Phase) =>
      s.leaseCounters.set i
        { value := v, running := true, generation := s.slots[i].generation, phase := phase, claim := none }
    (∀ x, s.slots[i].extension = some x →
      exec (.termExpiryClaim i) s = .next
        { s with
          slots := s.slots.set i { s.slots[i] with extension := none, notice := some .extended }
          leaseCounters := loaded x .term }) ∧
    (s.slots[i].extension = none → grace ≠ 0 →
      exec (.termExpiryClaim i) s = .next
        { s with
          slots := s.slots.set i { s.slots[i] with state := .grace, notice := some .lapsed }
          leaseCounters := loaded (grace.setWidth 16) .grace }) ∧
    (s.slots[i].extension = none → grace = 0 → s.DirectorySound →
      ∃ t, exec (.termExpiryClaim i) s = .next t ∧ EndedWith i .revoked none s t ∧ Leaves i l s t)

/-- A GRACE claim that passes its test revokes the lease, and a WAIT claim times the waiter out, each with a regrant
(R11, R17, R77, R80; that the stopped counter keeps its tags is log entry 9). -/
def Obligations.GraceAndWaitExpire : Prop :=
  ∀ (s : State) (i : SlotIndex) (l : Lease), s.DirectorySound → s.leaseCounters[i].value = 0 →
    s.slots[i].lease = some l →
    (s.leaseCounters[i].claim = some { generation := s.slots[i].generation, phase := .grace } →
      s.slots[i].state = .grace →
      ∃ t, exec (.graceExpiryClaim i) s = .next t ∧ EndedWith i .revoked none s t ∧ Leaves i l s t) ∧
    (s.leaseCounters[i].claim = some { generation := s.slots[i].generation, phase := .wait } →
      s.slots[i].state = .waiting →
      ∃ t, exec (.waitExpiryClaim i) s = .next t ∧ EndedWith i .timedOut none s t ∧ Leaves i l s t)

/-- An expiry claim whose generation, state or counter test fails is discarded: no slot, list, notice or counter value
changes, and the claim is gone (R76). -/
def Obligations.FailedExpiryClaimDiscarded : Prop :=
  ∀ (s : State) (i : SlotIndex) (c : ExpiryClaim), s.leaseCounters[i].claim = some c →
    ∀ row ∈ ([(.termExpiryClaim i, .term, .held), (.graceExpiryClaim i, .grace, .grace),
        (.waitExpiryClaim i, .wait, .waiting)] : List (Instr × Phase × SlotState)),
      c.phase = row.2.1 →
      ¬ (s.slots[i].generation = c.generation ∧ s.slots[i].state = row.2.2 ∧ s.leaseCounters[i].value = 0) →
      exec row.1 s = .next
        { s with leaseCounters := s.leaseCounters.set i { s.leaseCounters[i] with claim := none } }

/-! ### The walk, completion and acknowledgement (chapters 2, 6, 7) -/

/-- A removal claim frees a slot of a station order's station, in whatever state it stands, and ends a live slot in a
range order's scope with SWEPT; any other slot is passed by; the walk moves to the next slot (R118, R119, R120; the GE's
report is part of its taking, log entry 14; that the stopped counter keeps its tags is log entry 9). -/
def Obligations.RemovalClaims : Prop :=
  ∀ (s : State) (i : SlotIndex) (rest : List Order), s.DirectorySound → s.walk = some i →
    (∀ (p : Station) (cause : SweepCause) (l : Lease), s.sweepQueue = .station p cause :: rest →
      s.slots[i].state ≠ .free → s.slots[i].lease = some l → l.station = p →
      ∃ t, exec .stationSweepRemoval s = .next { t with walk := nextWalk i } ∧ Freed i l s t ∧
        (s.slots[i].state.isLive = true → Leaves i l s t) ∧
        (s.slots[i].state = .ended → PoolOnly s t ∧ t.directory = s.directory ∧ ∀ j, j ≠ i → Untouched j s t)) ∧
    (∀ (p : Station) (cause : SweepCause), s.sweepQueue = .station p cause :: rest →
      s.slots[i].state = .free ∨ s.slots[i].lease.map Lease.station ≠ some p →
      exec .stationSweepRemoval s = .next { s with walk := nextWalk i }) ∧
    (∀ r : RangeOrder, s.sweepQueue = .range r :: rest →
      let inScope := fun (l : Lease) =>
        s.slots[i].state.isLive = true ∧ r.first ≤ l.key ∧ l.key ≤ r.last ∧
          (r.force = true ∨ (s.settings.p0.covers l.key = false ∧ s.settings.p1.covers l.key = false))
      (∀ l, s.slots[i].lease = some l → inScope l →
        ∃ t, exec .rangeSweepRemoval s = .next { t with walk := nextWalk i } ∧
          EndedWith i .swept s.leaseCounters[i].claim s t ∧ Leaves i l s t) ∧
      ((∀ l, s.slots[i].lease = some l → ¬ inScope l) →
        exec .rangeSweepRemoval s = .next { s with walk := nextWalk i }))

/-- A completed order leaves the head of the queue and the next begins at slot 0. A station order hands its completion
and cause to the Session Unit; a range order hands the GE its completion claim and sets SWEEP_DONE on the requesting
port (R123, R124, R125; a walk that has ended is `walk` none, log entry 14; `overtaken` is log entry 13). -/
def Obligations.OrdersComplete : Prop :=
  ∀ (s : State) (rest : List Order), s.walk = none →
    let walk' : Option SlotIndex := if rest = [] then none else some 0
    (∀ (p : Station) (cause : SweepCause), s.sweepQueue = .station p cause :: rest →
      exec .stationOrderComplete s = .next
        { s with
          sweepQueue := rest
          walk := walk'
          sessionCompletions := s.sessionCompletions.set p (some cause) }) ∧
    (∀ r : RangeOrder, s.sweepQueue = .range r :: rest →
      ∃ overtaken, exec .rangeOrderComplete s = .next
        { s with
          sweepQueue := rest
          walk := walk'
          rangeCompletions := s.rangeCompletions ++
            [{ first := r.first, last := r.last, requester := r.requester, overtaken := overtaken }]
          ports := s.ports.set r.requester
            { s.ports[r.requester] with flags := { s.ports[r.requester].flags with sweepDone := true } } } ∧
        (overtaken = true ↔ ∃ c, s.ports[r.requester].command = .busy c ∧ c.passedOn = true))

/-- A completion claim regrants every entry whose key lies in its range and touches no other entry; which of the
outstanding claims is taken is the operand's choice (R34, log entry 11). -/
def Obligations.RangeCompletionRegrants : Prop :=
  ∀ (s : State) (which : Nat) (c : RangeCompletion), s.DirectorySound → s.rangeCompletions[which]? = some c →
    let inRange := fun (k : Word) => c.first ≤ k ∧ k ≤ c.last
    ∃ t, exec (.rangeCompletionClaim which) s = .next { t with rangeCompletions := s.rangeCompletions.eraseIdx which } ∧
      PoolOnly s t ∧ t.sessions = s.sessions ∧
      (∀ k, entryOf t.directory k =
        if inRange k then (entryOf s.directory k).map s.regranted else entryOf s.directory k) ∧
      (∀ k e j, entryOf s.directory k = some e → inRange k → j ∈ s.grantedOf e → Granted j s t) ∧
      (∀ j, (∀ k e, entryOf s.directory k = some e → inRange k → j ∉ s.grantedOf e) → Untouched j s t)

/-- An acknowledgement claim removes the notice of each slot an entry of it passes the test for, frees such a slot if it
is ENDED, and changes nothing for an entry that fails (R136, R138, R19; that the stopped counter of a freed slot keeps its
tags is log entry 9). -/
def Obligations.AcknowledgementTaken : Prop :=
  ∀ (s : State) (p : Station) (claim : List AckEntry) (rest : List (List AckEntry)), s.ports[p].acks = claim :: rest →
    let passes := fun (i : SlotIndex) => claim.any fun e =>
      e.slot == i && s.slots[i].generation == e.generation && s.slots[i].notice == some e.kind && s.slots[i].ownedBy p
    let frees := fun (i : SlotIndex) => passes i && s.slots[i].state == .ended
    ∃ t, exec (.acknowledgementClaim p) s = .next t ∧
      t = { s with
        slots := t.slots
        leaseCounters := t.leaseCounters
        ports := s.ports.set p { s.ports[p] with acks := rest }
        sessions := s.sessions.set p
          { s.sessions[p] with leaseCount := s.sessions[p].leaseCount - (List.finRange 256).countP frees } } ∧
      ∀ i : SlotIndex,
        t.slots[i] =
          (if frees i then
            { state := .free, generation := s.slots[i].generation + 1, lease := none, extension := none,
              notice := none }
          else if passes i then { s.slots[i] with notice := none }
          else s.slots[i]) ∧
        t.leaseCounters[i] =
          if frees i then { s.leaseCounters[i] with value := 0, running := false } else s.leaseCounters[i]

/-! ### Configuration (chapter 9) -/

/-- READ CONFIG of a known item by a station with a live session is answered OK with the item's value and changes
nothing else (R161, R164). -/
def Obligations.ReadConfigShowsTheItem : Prop :=
  ∀ (s : State) (p : Station) (epoch item : Byte) (v : Word), s.Offers p 0x68 [epoch, item] →
    firstFailing (s.sessionTests p epoch) = none → (item, v) ∈ s.itemTable →
    exec (.readConfig p) s = .next (s.placeResult p 0x68 { result := .ok, body := wordBytes v })

/-- The Configuration Unit refuses by the first failing check of R161, and a refused command changes no item, no latch
and no hold state (R161, R169, R171, R172). -/
def Obligations.ConfigurationRefusedInOrder : Prop :=
  ∀ (s : State) (p : Station) (epoch : Byte) (r : ResultCode),
    let refuses := fun (c : Instr) (code : Byte) =>
      exec c s = .next (s.placeResult p code { result := r, body := [] })
    (∀ item : Byte, s.Offers p 0x68 [epoch, item] →
      firstFailing ([((s.itemTable.map Prod.fst).all (· != item), .badArg)] ++ s.sessionTests p epoch) = some r →
      refuses (.readConfig p) 0x68) ∧
    (∀ (item : Byte) (v : Word), s.Offers p 0x69 ([epoch, item] ++ wordBytes v) →
      (∀ row ∈ writeRows p item v, item ∈ row.2.1 →
        firstFailing ([(!row.2.2.1, .badArg)] ++ s.adminTests p epoch ++
          [(s.settings.frozen, .frozen), (row.2.2.2 && s.directory != [], .inUse)]) = some r →
        refuses row.1 0x69) ∧
      (item ∉ writableItemNumbers → r = .badArg → refuses (.writeConfig p) 0x69)) ∧
    (s.Offers p 0x6A [epoch] → firstFailing (s.adminTests p epoch) = some r → refuses (.freeze p) 0x6A) ∧
    (∀ setting : Byte, s.Offers p 0x6B [epoch, setting] →
      (setting = 0x01 → firstFailing (s.adminTests p epoch) = some r → refuses (.holdTimeOn p) 0x6B) ∧
      (setting = 0x00 → firstFailing (s.adminTests p epoch) = some r → refuses (.holdTimeOff p) 0x6B) ∧
      (setting ≠ 0x00 → setting ≠ 0x01 → r = .badArg → refuses (.holdTimeInvalidSetting p) 0x6B))

/-- A WRITE CONFIG that passes its checks is answered OK; the item then reads the value written and every other item
what it read before, and nothing but the settings can change, but for a write of TICK_SOURCE, which alone reaches the
running interval (R68, R161 to R163). -/
def Obligations.WriteThenRead : Prop :=
  ∀ (s : State) (p : Station) (epoch item : Byte) (v : Word), s.Offers p 0x69 ([epoch, item] ++ wordBytes v) →
    ∀ row ∈ writeRows p item v, item ∈ row.2.1 →
      firstFailing ([(!row.2.2.1, .badArg)] ++ s.adminTests p epoch ++
        [(s.settings.frozen, .frozen), (row.2.2.2 && s.directory != [], .inUse)]) = none →
      ∃ t : State, exec row.1 s = .next (t.placeResult p 0x69 { result := .ok, body := [] }) ∧
        t = { s with settings := t.settings, timeBase := t.timeBase } ∧
        (row.1 ≠ .writeTickSource p → t.timeBase = s.timeBase) ∧ (item, v) ∈ t.itemTable ∧
        ∀ item' v', item' ≠ item → ((item', v') ∈ t.itemTable ↔ (item', v') ∈ s.itemTable)

/-- How a write of the tick source or period reaches the time base: a period is stored and the running interval keeps
its own; a switch to the internal source begins an interval at 0; the source already held changes nothing; no counter
moves (R68). -/
def Obligations.TimeBaseWrites : Prop :=
  ∀ (s : State) (p : Station) (epoch : Byte) (v : Word), firstFailing (s.adminTests p epoch) = none →
    s.settings.frozen = false →
    let ok : Reply := { result := .ok, body := [] }
    (s.Offers p 0x69 ([epoch, 0x02] ++ wordBytes v) → v ≠ 0 →
      exec (.writeTickPeriod p) s = .next
        ({ s with settings := { s.settings with tickPeriod := v } }.placeResult p 0x69 ok)) ∧
    (s.Offers p 0x69 ([epoch, 0x01] ++ wordBytes v) →
      (v = 0 → s.settings.tickSource = .internal → exec (.writeTickSource p) s = .next (s.placeResult p 0x69 ok)) ∧
      (v = 1 → s.settings.tickSource = .external → exec (.writeTickSource p) s = .next (s.placeResult p 0x69 ok)) ∧
      (v = 0 → s.settings.tickSource = .external →
        exec (.writeTickSource p) s = .next
          ({ s with
              settings := { s.settings with tickSource := .internal }
              timeBase := { s.timeBase with count := 0, period := s.settings.tickPeriod } }.placeResult p 0x69 ok)) ∧
      (v = 1 → s.settings.tickSource = .internal →
        ∃ count period, exec (.writeTickSource p) s = .next
          ({ s with
              settings := { s.settings with tickSource := .external }
              timeBase := { s.timeBase with count := count, period := period } }.placeResult p 0x69 ok)))

/-- FREEZE sets the frozen latch; HOLD TIME on and off set the hold state and keep the interval's count, changing
nothing when it is already so (R69, R172). -/
def Obligations.FreezeAndHoldTime : Prop :=
  ∀ (s : State) (p : Station) (epoch : Byte), firstFailing (s.adminTests p epoch) = none →
    let ok : Reply := { result := .ok, body := [] }
    (s.Offers p 0x6A [epoch] →
      exec (.freeze p) s = .next ({ s with settings := { s.settings with frozen := true } }.placeResult p 0x6A ok)) ∧
    (s.Offers p 0x6B [epoch, 0x01] →
      exec (.holdTimeOn p) s = .next ({ s with timeBase := { s.timeBase with held := true } }.placeResult p 0x6B ok)) ∧
    (s.Offers p 0x6B [epoch, 0x00] →
      exec (.holdTimeOff p) s = .next ({ s with timeBase := { s.timeBase with held := false } }.placeResult p 0x6B ok))

/-- Once set, the frozen latch keeps every setting as it stands until hardware reset, and the administrator station is
the one the straps named, whatever command is taken (R160, R172). -/
def Obligations.FrozenSettingsStay : Prop :=
  ∀ (c : Instr) (s t : State), exec c s = .next t → c ≠ .hardwareReset → s.inReset = false →
    t.settings.admin = s.settings.admin ∧ (s.settings.frozen = true → t.settings = s.settings)

/-! ### Time (chapter 4) -/

/-- A tick decreases every running counter that has not reached 0 by one and changes nothing else, the internal source's
also beginning the next interval; a counter that reached 0 stops and raises its one claim at its run-out. Ticks of a
source not selected, while time is held or in reset, do nothing (R66, R67, R69, R72; log entries 2 and 4, and log entry 9
for the tags of a counter that ran out). -/
def Obligations.TicksAndRunouts : Prop :=
  ∀ s : State,
    let running := s.timeBase.held = false ∧ s.inReset = false
    let ticked := fun (t : State) =>
      t = { s with
        leaseCounters := t.leaseCounters, livenessCounters := t.livenessCounters, timeBase := t.timeBase } ∧
      (∀ i : SlotIndex, t.leaseCounters[i] =
        if s.leaseCounters[i].running = true ∧ s.leaseCounters[i].value ≠ 0 then
          { s.leaseCounters[i] with value := s.leaseCounters[i].value - 1 }
        else s.leaseCounters[i]) ∧
      (∀ p : Station, t.livenessCounters[p] =
        if s.livenessCounters[p].running = true ∧ s.livenessCounters[p].value ≠ 0 then
          { s.livenessCounters[p] with value := s.livenessCounters[p].value - 1 }
        else s.livenessCounters[p])
    (running ∧ s.settings.tickSource = .internal →
      ∃ t, exec .internalTick s = .next t ∧ ticked t ∧
        t.timeBase = { count := 0, period := s.settings.tickPeriod, held := false }) ∧
    (running ∧ s.settings.tickSource = .external →
      ∃ t, exec .tick s = .next t ∧ ticked t ∧ t.timeBase = s.timeBase) ∧
    (¬ (running ∧ s.settings.tickSource = .internal) → exec .internalTick s = .next s) ∧
    (¬ (running ∧ s.settings.tickSource = .external) → exec .tick s = .next s) ∧
    (∀ i : SlotIndex, s.leaseCounters[i].running = true → s.leaseCounters[i].value = 0 →
      exec (.leaseCounterRunout i) s = .next
        { s with
          leaseCounters := s.leaseCounters.set i
            { s.leaseCounters[i] with
              running := false
              claim := some { generation := s.leaseCounters[i].generation, phase := s.leaseCounters[i].phase } } }) ∧
    (∀ p : Station, s.livenessCounters[p].running = true → s.livenessCounters[p].value = 0 →
      exec (.livenessCounterRunout p) s = .next
        { s with
          livenessCounters := s.livenessCounters.set p { s.livenessCounters[p] with running := false, claim := true } })

/-! ### Outputs and protection (chapters 7, 9, 10) -/

/-- OHOLDn is asserted exactly when channel n is enabled and its bound key has an exclusive holder that is HELD, or
GRACE with grace-drop clear; OIDn then shows that holder's station and is 0 otherwise (R175). -/
def Obligations.OwnershipPins : Prop :=
  ∀ (s : State) (n : ChannelNumber), s.DirectorySound → s.inReset = false →
    let c := s.settings.channels[n]
    let shows := fun (p : Station) => c.enable = true ∧
      ∃ e i l, e ∈ s.directory ∧ e.key = c.key ∧ e.holdMode = .exclusive ∧ e.holders = [i] ∧
        s.slots[i].lease = some l ∧ l.station = p ∧
        (s.slots[i].state = .held ∨ (s.slots[i].state = .grace ∧ c.graceDrop = false))
    (∀ p, shows p → s.ohold n = true ∧ s.oid n = BitVec.ofNat 2 p.val) ∧
    ((∀ p, ¬ shows p) → s.ohold n = false ∧ s.oid n = 0)

/-- The attention line is asserted while at least one of its seven inputs is true and has its enable on (R142). -/
def Obligations.AttentionLine : Prop :=
  ∀ (s : State) (p : Station),
    let f := s.ports[p].flags
    let m := s.ports[p].mask
    s.attention p = true ↔
      (f.overrun = true ∧ m.overrun = true) ∨ (f.lost = true ∧ m.lost = true) ∨
      (f.frameErr = true ∧ m.frameErr = true) ∨ (f.sessionEnded = true ∧ m.sessionEnded = true) ∨
      (f.sweepDone = true ∧ m.sweepDone = true) ∨
      ((∃ r, s.ports[p].command = .holding r) ∧ m.result = true) ∨
      ((∃ (i : SlotIndex) (l : Lease), s.slots[i].lease = some l ∧ l.station = p ∧ s.slots[i].notice ≠ none) ∧
        m.notice = true)

/-- Which keys a protected range covers, which keys are protected, and whom the ranges deny (R166, R47); which keys are in
the scope of an accepted range sweep (R43), and which leases are doomed (R44). -/
def Obligations.ProtectedRanges : Prop :=
  (∀ (r : KeyRange) (k : Word), r.covers k = true ↔
    r.enable = true ∧
      ((r.invert = false ∧ r.first ≤ k ∧ k ≤ r.last) ∨
        (r.invert = true ∧ (r.last < r.first ∨ k < r.first ∨ r.last < k)))) ∧
  ∀ (s : State) (p : Station) (k : Word),
    (s.protectedKey k = true ↔ s.settings.p0.covers k = true ∨ s.settings.p1.covers k = true) ∧
    (s.accessDenied p k = true ↔
      ∃ r, (r = s.settings.p0 ∨ r = s.settings.p1) ∧ r.covers k = true ∧
        s.settings.accessLevel[p].toNat < r.level.toNat) ∧
    (s.inSweepScope k = true ↔
      ∃ r, Order.range r ∈ s.sweepQueue ∧ r.first ≤ k ∧ k ≤ r.last ∧ (r.force = true ∨ s.protectedKey k = false)) ∧
    ∀ i : SlotIndex,
      (s.slots[i].state.isLive = true ↔
        s.slots[i].state = .waiting ∨ s.slots[i].state = .held ∨ s.slots[i].state = .grace) ∧
      (s.doomed i = true ↔
        (s.slots[i].state = .waiting ∨ s.slots[i].state = .held ∨ s.slots[i].state = .grace) ∧
          ∃ l, s.slots[i].lease = some l ∧
            (s.sessions[l.station].state = .sweeping ∨ s.inSweepScope l.key = true))

/-! ### The whole machine -/

/-- The generation of a slot changes only when the slot becomes FREE, by one modulo 64, and at hardware reset, which sets
it to 0; a slot that becomes FREE keeps nothing else (R6, R19). -/
def Obligations.GenerationsAdvanceOnFree : Prop :=
  ∀ (c : Instr) (s t : State) (i : SlotIndex), exec c s = .next t →
    if c = .hardwareReset then t.slots[i].generation = 0
    else if s.slots[i].state ≠ .free ∧ t.slots[i].state = .free then
      t.slots[i] =
        { state := .free, generation := s.slots[i].generation + 1, lease := none, extension := none, notice := none }
    else t.slots[i].generation = s.slots[i].generation

/-- The epoch of a session changes only when an ATTACH moves it from DETACHED to ATTACHED, to the next epoch with 0 and
255 both giving 1, and at hardware reset, which sets it to 0 (R92). -/
def Obligations.EpochsAdvanceOnAttach : Prop :=
  ∀ (c : Instr) (s t : State) (p : Station), exec c s = .next t →
    if c = .hardwareReset then t.sessions[p].epoch = 0
    else if s.sessions[p].state = .detached ∧ t.sessions[p].state = .attached then
      c = .attach p ∧ t.sessions[p].epoch =
        if s.sessions[p].epoch = 0 ∨ s.sessions[p].epoch = 255 then 1 else s.sessions[p].epoch + 1
    else t.sessions[p].epoch = s.sessions[p].epoch

/-- Every step keeps the pool: each slot carries the fields its state allows, every ENDED slot a notice, and each lease
count is the number of the station's slots (R2, R20, R21). -/
def Obligations.EveryStepKeepsThePool : Prop :=
  ∀ s t : State, s.PoolSound → step s = .next t → t.PoolSound

/-- Every step keeps the counter bank: a stopped lease counter reads 0, a running one carries its slot's generation and the
phase of its slot's state, and the counter of a HELD or GRACE slot, or of a WAITING one with a wait limit, is running, or
stands at 0 with the claim of this generation and phase outstanding (R71, R73). -/
def Obligations.EveryStepKeepsTheCounters : Prop :=
  ∀ s t : State, s.CountersSound → step s = .next t → t.CountersSound

/-- Every step keeps the sweeps and the sessions: one station order, or completion, with the session's own cause for each
SWEEPING station and none for another, and at most two range orders (R98, R109, R123); each session's fields and liveness
counter as its state has them (R74, R90); and no slot left to a station where its sweep has passed (R106, R119). -/
def Obligations.EveryStepKeepsTheSweeps : Prop :=
  ∀ s t : State, s.PoolSound → s.SweepSound → step s = .next t → t.SweepSound

/-- Every step keeps the ports: at most four acknowledgement claims in flight, at most eight records in a snapshot, and
exactly one reload on its way for a command not passed on (R132, R138, R155). -/
def Obligations.EveryStepKeepsThePorts : Prop :=
  ∀ s t : State, s.PortsSound → step s = .next t → t.PortsSound

/-- Every step keeps the directory in agreement with the pool: one entry for each key with a live lease, each holder and
waiter in its list once, hold modes and limits as they should be, no station with two live leases on one key (R4, R24
to R27, R49; that the entries stand in order of their keys is the model's choice, log entry 5). -/
def Obligations.EveryStepKeepsTheDirectory : Prop :=
  ∀ s t : State, s.PoolSound → s.DirectorySound → s.OneLeaseEach → step s = .next t →
    t.DirectorySound ∧ t.OneLeaseEach
end

