-- ==== Sys2Proof/Laws/Checks.lean ====
section
/-! SUPPORT. Checks by evaluation of the invariants that a concrete state meets: used by the tests, to show that no
statement's hypotheses are empty. -/

namespace Sys2Proof.Machine

/-- A slot is in one of these states with a lease on this key, by evaluation. -/
def Slot.leasesCheck (sl : Slot) (states : SlotState → Bool) (k : Word) : Bool :=
  states sl.state && sl.lease.any fun l => l.key == k

theorem leases_iff_check (sl : Slot) (states : SlotState → Bool) (k : Word) :
    sl.leases states k ↔ sl.leasesCheck states k = true := by
  unfold Slot.leases Slot.leasesCheck
  cases sl.lease <;> simp

/-- Every slot outside a list is FREE and as reset left it. -/
def State.FreeOutside (s : State) (used : List SlotIndex) : Prop := ∀ i, i ∉ used → s.slots[i] = Slot.reset

/-- One entry agrees with the pool, by evaluation over the slots in use. -/
def Entry.check (e : Entry) (s : State) (used : List SlotIndex) : Bool :=
  (e.holders != [] || e.queue != []) && decide e.holders.Nodup && decide e.queue.Nodup &&
    ((e.holders.all (used.contains ·) && e.queue.all (used.contains ·)) &&
    (used.all (fun i => e.holders.contains i == s.slots[i].leasesCheck SlotState.isHolding e.key) &&
    used.all fun i => e.queue.contains i == s.slots[i].leasesCheck SlotState.isWaiting e.key)) &&
    (decide (e.holders = [] → e.holdMode = .unheld) &&
    (e.holders.all fun i => s.slots[i].lease.all fun l => decide (l.mode.hold = e.holdMode))) &&
    (decide (e.holdMode = .exclusive → e.holders.length ≤ 1) && decide (e.holders.length ≤ s.settings.sharedLimit) &&
    decide (e.queue.length ≤ s.settings.queueLimit))

theorem mem_iff_leases {s : State} {used list : List SlotIndex} {states : SlotState → Bool} {k : Word}
    (hu : s.FreeOutside used) (hf : states .free = false) (h1 : list.all (used.contains ·) = true)
    (h2 : used.all (fun i => list.contains i == s.slots[i].leasesCheck states k) = true) (i : SlotIndex) :
    i ∈ list ↔ s.slots[i].leases states k := by
  rw [leases_iff_check]
  by_cases hi : i ∈ used
  · have := List.all_eq_true.1 h2 i hi
    rw [beq_iff_eq] at this
    rw [← this, List.contains_iff_mem]
  · have hn : i ∉ list := fun hc => hi (by simpa using List.all_eq_true.1 h1 i hc)
    rw [hu i hi]
    simp [hn, Slot.leasesCheck, Slot.reset, hf]

theorem entrySound_of_check {e : Entry} {s : State} {used : List SlotIndex} (hu : s.FreeOutside used)
    (h : e.check s used = true) : e.Sound s := by
  unfold Entry.check at h
  simp only [Bool.and_eq_true, decide_eq_true_eq] at h
  obtain ⟨⟨⟨⟨⟨h1, h2⟩, h3⟩, ⟨ha, hb⟩, hc, hd⟩, h6, h7⟩, ⟨h8, h9⟩, h10⟩ := h
  refine ⟨?_, h2, h3, mem_iff_leases hu rfl ha hc, mem_iff_leases hu rfl hb hd, h6, fun i hi l hl => ?_, h8, h9, h10⟩
  · simpa using h1
  · have := List.all_eq_true.1 h7 i hi
    rw [hl] at this
    simpa using this

/-- The directory agrees with the pool, by evaluation over the slots in use. -/
def State.directoryCheck (s : State) (used : List SlotIndex) : Bool :=
  decide (s.directory.Pairwise fun x y => x.key < y.key) && (s.directory.all fun e => e.check s used) &&
    ((used.all fun i => !s.slots[i].state.isLive ||
      s.slots[i].lease.all fun l => s.directory.any fun e => e.key == l.key) &&
    decide (s.directory.length ≤ Config.directoryCapacity)) &&
    decide ((1 ≤ s.settings.sharedLimit ∧ s.settings.sharedLimit ≤ 8) ∧
      (1 ≤ s.settings.queueLimit ∧ s.settings.queueLimit ≤ 32))

theorem directorySound_of_check {s : State} {used : List SlotIndex} (hu : s.FreeOutside used)
    (h : s.directoryCheck used = true) : s.DirectorySound := by
  unfold State.directoryCheck at h
  simp only [Bool.and_eq_true, decide_eq_true_eq] at h
  obtain ⟨⟨⟨h1, h2⟩, h3, h4⟩, h5, h6⟩ := h
  refine ⟨h1, fun e he => entrySound_of_check hu (List.all_eq_true.1 h2 e he), fun i l hlive hl => ?_, h4, h5, h6⟩
  have hi : i ∈ used := by
    by_contra hi
    rw [hu i hi] at hlive
    cases hlive
  have := List.all_eq_true.1 h3 i hi
  rw [hlive, hl] at this
  simpa using this

/-- No station has two live leases on one key, by evaluation over the slots in use. -/
def State.oneLeaseCheck (s : State) (used : List SlotIndex) : Bool :=
  used.all fun i => used.all fun j =>
    i == j || !s.slots[i].state.isLive || !s.slots[j].state.isLive ||
      s.slots[i].lease.all fun l => s.slots[j].lease.all fun m => !(l.station == m.station && l.key == m.key)

theorem oneLeaseEach_of_check {s : State} {used : List SlotIndex} (hu : s.FreeOutside used)
    (h : s.oneLeaseCheck used = true) : s.OneLeaseEach := by
  intro i j l m hi hj hl hm hst hk
  have mem : ∀ x : SlotIndex, s.slots[x].state.isLive = true → x ∈ used := fun x hx => by
    by_contra hn
    rw [hu x hn] at hx
    cases hx
  have h2 := List.all_eq_true.1 (List.all_eq_true.1 h i (mem i hi)) j (mem j hj)
  by_contra hne
  simp [-Fin.getElem_fin, hl, hm, hst, hk, hne, hi, hj] at h2

/-- A slot carries what its state allows, by evaluation. -/
def Slot.shapedCheck (sl : Slot) : Bool :=
  match sl.state with
  | .free => sl.lease.isNone && sl.extension.isNone && sl.notice.isNone
  | .waiting => sl.lease.isSome && sl.extension.isNone && sl.notice.isNone
  | .held => sl.lease.isSome
  | .grace => sl.lease.isSome && sl.extension.isNone
  | .ended =>
    sl.lease.isSome && sl.extension.isNone &&
      (sl.notice == some .timedOut || sl.notice == some .revoked || sl.notice == some .swept)

theorem shaped_of_check {sl : Slot} (h : sl.shapedCheck = true) : sl.shaped := by
  unfold Slot.shapedCheck at h
  unfold Slot.shaped
  cases hs : sl.state <;> simp only [hs] at h ⊢ <;> simpa [and_assoc, or_assoc] using h

theorem poolSound_of_check {s : State} {used : List SlotIndex} (hu : s.FreeOutside used)
    (h : used.all (fun i => s.slots[i].shapedCheck) = true)
    (hc : ∀ p : Station, s.sessions[p].leaseCount = s.slotsOf p) : s.PoolSound := by
  refine ⟨fun i => ?_, hc⟩
  by_cases hi : i ∈ used
  · exact shaped_of_check (List.all_eq_true.1 h i hi)
  · rw [hu i hi]; exact ⟨rfl, rfl, rfl⟩

/-- A slot's counter is one that runs in this phase, by evaluation. -/
def Slot.timedCheck (sl : Slot) (ph : Phase) : Bool :=
  sl.state == ph.state && (ph != .wait || sl.lease.any fun l => l.waitLimit != 0)

theorem timedFor_iff_check (sl : Slot) (ph : Phase) : sl.timedFor ph ↔ sl.timedCheck ph = true := by
  unfold Slot.timedCheck
  cases ph <;> cases hl : sl.lease <;> simp [Slot.timedFor, Phase.state, hl]

/-- A lease counter agrees with its slot, by evaluation. -/
def LeaseCounter.check (c : LeaseCounter) (sl : Slot) : Bool :=
  (c.running || c.value == 0) && (!c.running || (c.generation == sl.generation && sl.timedCheck c.phase)) &&
    [Phase.term, Phase.grace, Phase.wait].all fun ph =>
      !sl.timedCheck ph || c.running || (c.value == 0 && c.claim == some { generation := sl.generation, phase := ph })

theorem counterSound_of_check {c : LeaseCounter} {sl : Slot} (h : c.check sl = true) : CounterSound c sl := by
  unfold LeaseCounter.check at h
  simp only [Bool.and_eq_true, Bool.or_eq_true, Bool.not_eq_true', beq_iff_eq] at h
  obtain ⟨⟨h1, h2⟩, h3⟩ := h
  refine ⟨fun hr => ?_, fun hr => ?_, fun ph hp => ?_⟩
  · rcases h1 with h1 | h1
    · rw [hr] at h1; cases h1
    · exact h1
  · rcases h2 with h2 | h2
    · rw [hr] at h2; cases h2
    · exact ⟨h2.1, (timedFor_iff_check _ _).2 h2.2⟩
  · have := List.all_eq_true.1 h3 ph (by cases ph <;> simp)
    rw [(timedFor_iff_check _ _).1 hp] at this
    simpa using this

theorem countersSound_of_check {s : State} {used : List SlotIndex} (hf : s.FreeOutside used)
    (hu : ∀ i, i ∉ used → s.leaseCounters[i] = LeaseCounter.reset)
    (h : used.all (fun i => s.leaseCounters[i].check s.slots[i]) = true) : s.CountersSound := by
  intro i
  by_cases hi : i ∈ used
  · exact counterSound_of_check (List.all_eq_true.1 h i hi)
  · rw [hu i hi, hf i hi]; exact counterSound_of_check (by decide)

/-- A session and the sweep engine, by evaluation. -/
def State.sweepCheck (s : State) (p : Station) : Bool :=
  match s.sessions[p].state, s.sessions[p].cause with
  | .sweeping, some c =>
    (stationOrders s.sweepQueue p == [.station p c] && s.sessionCompletions[p] == none) ||
      (stationOrders s.sweepQueue p == [] && s.sessionCompletions[p] == some c)
  | .sweeping, none => false
  | _, some _ => false
  | _, none => stationOrders s.sweepQueue p == [] && s.sessionCompletions[p] == none

theorem sweepOf_of_check {s : State} {p : Station} (h : s.sweepCheck p = true) : s.SweepOf p := by
  unfold State.sweepCheck at h
  unfold State.SweepOf
  cases hs : s.sessions[p].state <;> cases hc : s.sessions[p].cause <;>
    simp [-Fin.getElem_fin, hs, hc] at h ⊢ <;> exact h

/-- A session record and its liveness counter, by evaluation. -/
def Session.check (r : Session) (c : LivenessCounter) : Bool :=
  match r.state with
  | .detached =>
    r.livenessTerm == 0 && r.grace == 0 && r.leaseCount == 0 && r.cause == none && !c.running && c.value == 0
  | .attached =>
    r.epoch != 0 && r.cause == none && (c.running || c.value == 0) && (r.livenessTerm != 0 || !c.running) &&
      (r.livenessTerm == 0 || c.running || c.claim)
  | .sweeping => r.epoch != 0 && r.cause.isSome && !c.running && c.value == 0

theorem sessionSound_of_check {r : Session} {c : LivenessCounter} (h : r.check c = true) : SessionSound r c := by
  unfold Session.check at h
  unfold SessionSound
  cases hs : r.state <;> simp only [hs] at h ⊢ <;> cases hr : c.running <;> simp [hr] at h ⊢ <;> tauto

/-- What a station sweep has cleared, by evaluation over the slots in use. -/
def State.clearedCheck (s : State) (used : List SlotIndex) (p : Station) : Bool :=
  used.all fun i => !s.slots[i].ownedBy p ||
    (s.sessionCompletions[p].isNone &&
      match s.sweepQueue with
      | .station q _ :: _ => q != p || s.walk.any fun w => w ≤ i
      | _ => true)

theorem sweepCleared_of_check {s : State} {used : List SlotIndex} {p : Station} (hu : s.FreeOutside used)
    (h : s.clearedCheck used p = true) : s.SweepCleared p := by
  have owned : ∀ i : SlotIndex, s.slots[i].ownedBy p = true → i ∈ used := fun i hi => by
    by_contra hn
    rw [hu i hn] at hi
    cases hi
  refine ⟨fun cause rest hq i hw => ?_, fun hc i => ?_⟩
  · by_contra ho
    rw [Bool.not_eq_false] at ho
    have hi := List.all_eq_true.1 h i (owned i ho)
    rw [ho, hq] at hi
    cases hwalk : s.walk with
    | none => simp [hwalk] at hi
    | some w =>
      have := hw w hwalk
      simp [hwalk] at hi
      exact absurd this (not_lt.2 hi.2)
  · by_contra ho
    rw [Bool.not_eq_false] at ho
    have hi := List.all_eq_true.1 h i (owned i ho)
    rw [ho] at hi
    simp [-Fin.getElem_fin] at hi
    exact hc hi.1

theorem sweepSound_of_check {s : State} {used : List SlotIndex} (hu : s.FreeOutside used)
    (h : (∀ p : Station, s.sweepCheck p = true) ∧ (∀ p : Station, s.sessions[p].check s.livenessCounters[p] = true) ∧
      (∀ p : Station, s.clearedCheck used p = true) ∧
      (rangeOrders s.sweepQueue).length ≤ 2 ∧ (s.sweepQueue = [] → s.walk = none)) :
    s.SweepSound :=
  ⟨fun p => sweepOf_of_check (h.1 p), fun p => sessionSound_of_check (h.2.1 p),
    fun p => sweepCleared_of_check hu (h.2.2.1 p), h.2.2.2.1, h.2.2.2.2⟩

/-- A port is sound, by evaluation. -/
def Port.check (q : Port) : Bool :=
  decide (q.acks.length ≤ Config.acknowledgementCapacity) &&
    (match q.shifter with
    | .receiving f =>
      (f.snapshot.isNone || decide (q.acks.length < Config.acknowledgementCapacity)) &&
        (f.snapshot.all (fun rs => decide (rs.length ≤ Config.noticesLimit)) &&
        f.fetched.all fun r => q.command == .holding r)
    | _ => true) &&
    q.reloads.count .ofCommand ==
      match q.command with
      | .busy c => if c.passedOn then 0 else 1
      | _ => 0

theorem portsSound_of_check {s : State} (h : ∀ p : Station, s.ports[p].check = true) : s.PortsSound := by
  intro p
  have := h p
  unfold Port.check at this
  generalize s.ports[p] = q at this
  simp only [Bool.and_eq_true, decide_eq_true_eq, beq_iff_eq] at this
  obtain ⟨⟨h1, h2⟩, h3⟩ := this
  refine ⟨h1, fun f hf hs => ?_, fun f rs hf hs => ?_, fun f r hf hr => ?_, h3⟩
  · rw [hf] at h2
    obtain ⟨rs, hrs⟩ := Option.isSome_iff_exists.1 hs
    simp [hrs] at h2
    exact h2.1
  · rw [hf] at h2
    simp [hs] at h2
    exact h2.2.1
  · rw [hf] at h2
    simp [hr] at h2
    exact h2.2.2

end Sys2Proof.Machine
end

