-- ==== Sys2Proof/Laws/State.lean ====
section
/-! SUPPORT. One lemma per field per update of State, true by rfl, and the reads of a changed vector. -/

namespace Sys2Proof.Machine

/-! ### Vectors -/

theorem updVec_get {α : Type} {n : Nat} (v : Vector α n) (i j : Fin n) (f : α → α) :
    (updVec v i f)[j] = if j = i then f v[j] else v[j] := by
  simp only [updVec, Fin.getElem_fin, Vector.getElem_set]
  by_cases h : j = i
  · subst h; simp
  · have : i.val ≠ j.val := fun e => h (Fin.ext e.symm)
    simp [h, this]

@[simp] theorem updVec_get_self {α : Type} {n : Nat} (v : Vector α n) (i : Fin n) (f : α → α) :
    (updVec v i f)[i] = f v[i] := by rw [updVec_get]; simp

theorem updVec_get_ne {α : Type} {n : Nat} (v : Vector α n) {i j : Fin n} (h : j ≠ i) (f : α → α) :
    (updVec v i f)[j] = v[j] := by rw [updVec_get]; simp [h]

@[simp] theorem mapVec_get {α : Type} {n : Nat} (v : Vector α n) (f : α → α) (i : Fin n) :
    (mapVec v f)[i] = f v[i] := by simp [mapVec, Vector.getElem_mk]

theorem vec_ext {α : Type} {n : Nat} {v w : Vector α n} (h : ∀ i : Fin n, v[i] = w[i]) : v = w :=
  Vector.ext fun i hi => h ⟨i, hi⟩

theorem updVec_id {α : Type} {n : Nat} (v : Vector α n) (i : Fin n) : (updVec v i fun x => x) = v := by
  refine vec_ext fun j => ?_
  rw [updVec_get]; split <;> rfl

theorem updVec_updVec {α : Type} {n : Nat} (v : Vector α n) (i : Fin n) (f g : α → α) :
    updVec (updVec v i f) i g = updVec v i (fun x => g (f x)) := by
  refine vec_ext fun j => ?_
  simp only [updVec_get]; split <;> rfl

/-! ### Fields of an updated state -/

section fields
variable (s : State)

@[simp] theorem modifySlot_pending (i : SlotIndex) (f : Slot → Slot) : (s.modifySlot i f).pending = s.pending := rfl
@[simp] theorem modifySlot_inReset (i : SlotIndex) (f : Slot → Slot) : (s.modifySlot i f).inReset = s.inReset := rfl
@[simp] theorem modifySlot_slots (i : SlotIndex) (f : Slot → Slot) : (s.modifySlot i f).slots = updVec s.slots i f := rfl
@[simp] theorem modifySlot_directory (i : SlotIndex) (f : Slot → Slot) : (s.modifySlot i f).directory = s.directory := rfl
@[simp] theorem modifySlot_sessions (i : SlotIndex) (f : Slot → Slot) : (s.modifySlot i f).sessions = s.sessions := rfl
@[simp] theorem modifySlot_leaseCounters (i : SlotIndex) (f : Slot → Slot) : (s.modifySlot i f).leaseCounters = s.leaseCounters := rfl
@[simp] theorem modifySlot_livenessCounters (i : SlotIndex) (f : Slot → Slot) : (s.modifySlot i f).livenessCounters = s.livenessCounters := rfl
@[simp] theorem modifySlot_timeBase (i : SlotIndex) (f : Slot → Slot) : (s.modifySlot i f).timeBase = s.timeBase := rfl
@[simp] theorem modifySlot_sweepQueue (i : SlotIndex) (f : Slot → Slot) : (s.modifySlot i f).sweepQueue = s.sweepQueue := rfl
@[simp] theorem modifySlot_walk (i : SlotIndex) (f : Slot → Slot) : (s.modifySlot i f).walk = s.walk := rfl
@[simp] theorem modifySlot_sessionCompletions (i : SlotIndex) (f : Slot → Slot) : (s.modifySlot i f).sessionCompletions = s.sessionCompletions := rfl
@[simp] theorem modifySlot_rangeCompletions (i : SlotIndex) (f : Slot → Slot) : (s.modifySlot i f).rangeCompletions = s.rangeCompletions := rfl
@[simp] theorem modifySlot_lastTaken (i : SlotIndex) (f : Slot → Slot) : (s.modifySlot i f).lastTaken = s.lastTaken := rfl
@[simp] theorem modifySlot_ports (i : SlotIndex) (f : Slot → Slot) : (s.modifySlot i f).ports = s.ports := rfl
@[simp] theorem modifySlot_settings (i : SlotIndex) (f : Slot → Slot) : (s.modifySlot i f).settings = s.settings := rfl

@[simp] theorem modifyCounter_pending (i : SlotIndex) (f : LeaseCounter → LeaseCounter) : (s.modifyCounter i f).pending = s.pending := rfl
@[simp] theorem modifyCounter_inReset (i : SlotIndex) (f : LeaseCounter → LeaseCounter) : (s.modifyCounter i f).inReset = s.inReset := rfl
@[simp] theorem modifyCounter_slots (i : SlotIndex) (f : LeaseCounter → LeaseCounter) : (s.modifyCounter i f).slots = s.slots := rfl
@[simp] theorem modifyCounter_directory (i : SlotIndex) (f : LeaseCounter → LeaseCounter) : (s.modifyCounter i f).directory = s.directory := rfl
@[simp] theorem modifyCounter_sessions (i : SlotIndex) (f : LeaseCounter → LeaseCounter) : (s.modifyCounter i f).sessions = s.sessions := rfl
@[simp] theorem modifyCounter_leaseCounters (i : SlotIndex) (f : LeaseCounter → LeaseCounter) : (s.modifyCounter i f).leaseCounters = updVec s.leaseCounters i f := rfl
@[simp] theorem modifyCounter_livenessCounters (i : SlotIndex) (f : LeaseCounter → LeaseCounter) : (s.modifyCounter i f).livenessCounters = s.livenessCounters := rfl
@[simp] theorem modifyCounter_timeBase (i : SlotIndex) (f : LeaseCounter → LeaseCounter) : (s.modifyCounter i f).timeBase = s.timeBase := rfl
@[simp] theorem modifyCounter_sweepQueue (i : SlotIndex) (f : LeaseCounter → LeaseCounter) : (s.modifyCounter i f).sweepQueue = s.sweepQueue := rfl
@[simp] theorem modifyCounter_walk (i : SlotIndex) (f : LeaseCounter → LeaseCounter) : (s.modifyCounter i f).walk = s.walk := rfl
@[simp] theorem modifyCounter_sessionCompletions (i : SlotIndex) (f : LeaseCounter → LeaseCounter) : (s.modifyCounter i f).sessionCompletions = s.sessionCompletions := rfl
@[simp] theorem modifyCounter_rangeCompletions (i : SlotIndex) (f : LeaseCounter → LeaseCounter) : (s.modifyCounter i f).rangeCompletions = s.rangeCompletions := rfl
@[simp] theorem modifyCounter_lastTaken (i : SlotIndex) (f : LeaseCounter → LeaseCounter) : (s.modifyCounter i f).lastTaken = s.lastTaken := rfl
@[simp] theorem modifyCounter_ports (i : SlotIndex) (f : LeaseCounter → LeaseCounter) : (s.modifyCounter i f).ports = s.ports := rfl
@[simp] theorem modifyCounter_settings (i : SlotIndex) (f : LeaseCounter → LeaseCounter) : (s.modifyCounter i f).settings = s.settings := rfl

@[simp] theorem modifySession_pending (p : Station) (f : Session → Session) : (s.modifySession p f).pending = s.pending := rfl
@[simp] theorem modifySession_inReset (p : Station) (f : Session → Session) : (s.modifySession p f).inReset = s.inReset := rfl
@[simp] theorem modifySession_slots (p : Station) (f : Session → Session) : (s.modifySession p f).slots = s.slots := rfl
@[simp] theorem modifySession_directory (p : Station) (f : Session → Session) : (s.modifySession p f).directory = s.directory := rfl
@[simp] theorem modifySession_sessions (p : Station) (f : Session → Session) : (s.modifySession p f).sessions = updVec s.sessions p f := rfl
@[simp] theorem modifySession_leaseCounters (p : Station) (f : Session → Session) : (s.modifySession p f).leaseCounters = s.leaseCounters := rfl
@[simp] theorem modifySession_livenessCounters (p : Station) (f : Session → Session) : (s.modifySession p f).livenessCounters = s.livenessCounters := rfl
@[simp] theorem modifySession_timeBase (p : Station) (f : Session → Session) : (s.modifySession p f).timeBase = s.timeBase := rfl
@[simp] theorem modifySession_sweepQueue (p : Station) (f : Session → Session) : (s.modifySession p f).sweepQueue = s.sweepQueue := rfl
@[simp] theorem modifySession_walk (p : Station) (f : Session → Session) : (s.modifySession p f).walk = s.walk := rfl
@[simp] theorem modifySession_sessionCompletions (p : Station) (f : Session → Session) : (s.modifySession p f).sessionCompletions = s.sessionCompletions := rfl
@[simp] theorem modifySession_rangeCompletions (p : Station) (f : Session → Session) : (s.modifySession p f).rangeCompletions = s.rangeCompletions := rfl
@[simp] theorem modifySession_lastTaken (p : Station) (f : Session → Session) : (s.modifySession p f).lastTaken = s.lastTaken := rfl
@[simp] theorem modifySession_ports (p : Station) (f : Session → Session) : (s.modifySession p f).ports = s.ports := rfl
@[simp] theorem modifySession_settings (p : Station) (f : Session → Session) : (s.modifySession p f).settings = s.settings := rfl

@[simp] theorem modifyLiveness_pending (p : Station) (f : LivenessCounter → LivenessCounter) : (s.modifyLiveness p f).pending = s.pending := rfl
@[simp] theorem modifyLiveness_inReset (p : Station) (f : LivenessCounter → LivenessCounter) : (s.modifyLiveness p f).inReset = s.inReset := rfl
@[simp] theorem modifyLiveness_slots (p : Station) (f : LivenessCounter → LivenessCounter) : (s.modifyLiveness p f).slots = s.slots := rfl
@[simp] theorem modifyLiveness_directory (p : Station) (f : LivenessCounter → LivenessCounter) : (s.modifyLiveness p f).directory = s.directory := rfl
@[simp] theorem modifyLiveness_sessions (p : Station) (f : LivenessCounter → LivenessCounter) : (s.modifyLiveness p f).sessions = s.sessions := rfl
@[simp] theorem modifyLiveness_leaseCounters (p : Station) (f : LivenessCounter → LivenessCounter) : (s.modifyLiveness p f).leaseCounters = s.leaseCounters := rfl
@[simp] theorem modifyLiveness_livenessCounters (p : Station) (f : LivenessCounter → LivenessCounter) : (s.modifyLiveness p f).livenessCounters = updVec s.livenessCounters p f := rfl
@[simp] theorem modifyLiveness_timeBase (p : Station) (f : LivenessCounter → LivenessCounter) : (s.modifyLiveness p f).timeBase = s.timeBase := rfl
@[simp] theorem modifyLiveness_sweepQueue (p : Station) (f : LivenessCounter → LivenessCounter) : (s.modifyLiveness p f).sweepQueue = s.sweepQueue := rfl
@[simp] theorem modifyLiveness_walk (p : Station) (f : LivenessCounter → LivenessCounter) : (s.modifyLiveness p f).walk = s.walk := rfl
@[simp] theorem modifyLiveness_sessionCompletions (p : Station) (f : LivenessCounter → LivenessCounter) : (s.modifyLiveness p f).sessionCompletions = s.sessionCompletions := rfl
@[simp] theorem modifyLiveness_rangeCompletions (p : Station) (f : LivenessCounter → LivenessCounter) : (s.modifyLiveness p f).rangeCompletions = s.rangeCompletions := rfl
@[simp] theorem modifyLiveness_lastTaken (p : Station) (f : LivenessCounter → LivenessCounter) : (s.modifyLiveness p f).lastTaken = s.lastTaken := rfl
@[simp] theorem modifyLiveness_ports (p : Station) (f : LivenessCounter → LivenessCounter) : (s.modifyLiveness p f).ports = s.ports := rfl
@[simp] theorem modifyLiveness_settings (p : Station) (f : LivenessCounter → LivenessCounter) : (s.modifyLiveness p f).settings = s.settings := rfl

@[simp] theorem modifyPort_pending (p : Station) (f : Port → Port) : (s.modifyPort p f).pending = s.pending := rfl
@[simp] theorem modifyPort_inReset (p : Station) (f : Port → Port) : (s.modifyPort p f).inReset = s.inReset := rfl
@[simp] theorem modifyPort_slots (p : Station) (f : Port → Port) : (s.modifyPort p f).slots = s.slots := rfl
@[simp] theorem modifyPort_directory (p : Station) (f : Port → Port) : (s.modifyPort p f).directory = s.directory := rfl
@[simp] theorem modifyPort_sessions (p : Station) (f : Port → Port) : (s.modifyPort p f).sessions = s.sessions := rfl
@[simp] theorem modifyPort_leaseCounters (p : Station) (f : Port → Port) : (s.modifyPort p f).leaseCounters = s.leaseCounters := rfl
@[simp] theorem modifyPort_livenessCounters (p : Station) (f : Port → Port) : (s.modifyPort p f).livenessCounters = s.livenessCounters := rfl
@[simp] theorem modifyPort_timeBase (p : Station) (f : Port → Port) : (s.modifyPort p f).timeBase = s.timeBase := rfl
@[simp] theorem modifyPort_sweepQueue (p : Station) (f : Port → Port) : (s.modifyPort p f).sweepQueue = s.sweepQueue := rfl
@[simp] theorem modifyPort_walk (p : Station) (f : Port → Port) : (s.modifyPort p f).walk = s.walk := rfl
@[simp] theorem modifyPort_sessionCompletions (p : Station) (f : Port → Port) : (s.modifyPort p f).sessionCompletions = s.sessionCompletions := rfl
@[simp] theorem modifyPort_rangeCompletions (p : Station) (f : Port → Port) : (s.modifyPort p f).rangeCompletions = s.rangeCompletions := rfl
@[simp] theorem modifyPort_lastTaken (p : Station) (f : Port → Port) : (s.modifyPort p f).lastTaken = s.lastTaken := rfl
@[simp] theorem modifyPort_ports (p : Station) (f : Port → Port) : (s.modifyPort p f).ports = updVec s.ports p f := rfl
@[simp] theorem modifyPort_settings (p : Station) (f : Port → Port) : (s.modifyPort p f).settings = s.settings := rfl

@[simp] theorem modifySettings_pending (f : Settings → Settings) : (s.modifySettings f).pending = s.pending := rfl
@[simp] theorem modifySettings_inReset (f : Settings → Settings) : (s.modifySettings f).inReset = s.inReset := rfl
@[simp] theorem modifySettings_slots (f : Settings → Settings) : (s.modifySettings f).slots = s.slots := rfl
@[simp] theorem modifySettings_directory (f : Settings → Settings) : (s.modifySettings f).directory = s.directory := rfl
@[simp] theorem modifySettings_sessions (f : Settings → Settings) : (s.modifySettings f).sessions = s.sessions := rfl
@[simp] theorem modifySettings_leaseCounters (f : Settings → Settings) : (s.modifySettings f).leaseCounters = s.leaseCounters := rfl
@[simp] theorem modifySettings_livenessCounters (f : Settings → Settings) : (s.modifySettings f).livenessCounters = s.livenessCounters := rfl
@[simp] theorem modifySettings_timeBase (f : Settings → Settings) : (s.modifySettings f).timeBase = s.timeBase := rfl
@[simp] theorem modifySettings_sweepQueue (f : Settings → Settings) : (s.modifySettings f).sweepQueue = s.sweepQueue := rfl
@[simp] theorem modifySettings_walk (f : Settings → Settings) : (s.modifySettings f).walk = s.walk := rfl
@[simp] theorem modifySettings_sessionCompletions (f : Settings → Settings) : (s.modifySettings f).sessionCompletions = s.sessionCompletions := rfl
@[simp] theorem modifySettings_rangeCompletions (f : Settings → Settings) : (s.modifySettings f).rangeCompletions = s.rangeCompletions := rfl
@[simp] theorem modifySettings_lastTaken (f : Settings → Settings) : (s.modifySettings f).lastTaken = s.lastTaken := rfl
@[simp] theorem modifySettings_ports (f : Settings → Settings) : (s.modifySettings f).ports = s.ports := rfl
@[simp] theorem modifySettings_settings (f : Settings → Settings) : (s.modifySettings f).settings = f s.settings := rfl

@[simp] theorem withDirectory_pending (d : List Entry) : (s.withDirectory d).pending = s.pending := rfl
@[simp] theorem withDirectory_inReset (d : List Entry) : (s.withDirectory d).inReset = s.inReset := rfl
@[simp] theorem withDirectory_slots (d : List Entry) : (s.withDirectory d).slots = s.slots := rfl
@[simp] theorem withDirectory_directory (d : List Entry) : (s.withDirectory d).directory = d := rfl
@[simp] theorem withDirectory_sessions (d : List Entry) : (s.withDirectory d).sessions = s.sessions := rfl
@[simp] theorem withDirectory_leaseCounters (d : List Entry) : (s.withDirectory d).leaseCounters = s.leaseCounters := rfl
@[simp] theorem withDirectory_livenessCounters (d : List Entry) : (s.withDirectory d).livenessCounters = s.livenessCounters := rfl
@[simp] theorem withDirectory_timeBase (d : List Entry) : (s.withDirectory d).timeBase = s.timeBase := rfl
@[simp] theorem withDirectory_sweepQueue (d : List Entry) : (s.withDirectory d).sweepQueue = s.sweepQueue := rfl
@[simp] theorem withDirectory_walk (d : List Entry) : (s.withDirectory d).walk = s.walk := rfl
@[simp] theorem withDirectory_sessionCompletions (d : List Entry) : (s.withDirectory d).sessionCompletions = s.sessionCompletions := rfl
@[simp] theorem withDirectory_rangeCompletions (d : List Entry) : (s.withDirectory d).rangeCompletions = s.rangeCompletions := rfl
@[simp] theorem withDirectory_lastTaken (d : List Entry) : (s.withDirectory d).lastTaken = s.lastTaken := rfl
@[simp] theorem withDirectory_ports (d : List Entry) : (s.withDirectory d).ports = s.ports := rfl
@[simp] theorem withDirectory_settings (d : List Entry) : (s.withDirectory d).settings = s.settings := rfl

@[simp] theorem modifyTimeBase_pending (f : TimeBase → TimeBase) : (s.modifyTimeBase f).pending = s.pending := rfl
@[simp] theorem modifyTimeBase_inReset (f : TimeBase → TimeBase) : (s.modifyTimeBase f).inReset = s.inReset := rfl
@[simp] theorem modifyTimeBase_slots (f : TimeBase → TimeBase) : (s.modifyTimeBase f).slots = s.slots := rfl
@[simp] theorem modifyTimeBase_directory (f : TimeBase → TimeBase) : (s.modifyTimeBase f).directory = s.directory := rfl
@[simp] theorem modifyTimeBase_sessions (f : TimeBase → TimeBase) : (s.modifyTimeBase f).sessions = s.sessions := rfl
@[simp] theorem modifyTimeBase_leaseCounters (f : TimeBase → TimeBase) : (s.modifyTimeBase f).leaseCounters = s.leaseCounters := rfl
@[simp] theorem modifyTimeBase_livenessCounters (f : TimeBase → TimeBase) : (s.modifyTimeBase f).livenessCounters = s.livenessCounters := rfl
@[simp] theorem modifyTimeBase_timeBase (f : TimeBase → TimeBase) : (s.modifyTimeBase f).timeBase = f s.timeBase := rfl
@[simp] theorem modifyTimeBase_sweepQueue (f : TimeBase → TimeBase) : (s.modifyTimeBase f).sweepQueue = s.sweepQueue := rfl
@[simp] theorem modifyTimeBase_walk (f : TimeBase → TimeBase) : (s.modifyTimeBase f).walk = s.walk := rfl
@[simp] theorem modifyTimeBase_sessionCompletions (f : TimeBase → TimeBase) : (s.modifyTimeBase f).sessionCompletions = s.sessionCompletions := rfl
@[simp] theorem modifyTimeBase_rangeCompletions (f : TimeBase → TimeBase) : (s.modifyTimeBase f).rangeCompletions = s.rangeCompletions := rfl
@[simp] theorem modifyTimeBase_lastTaken (f : TimeBase → TimeBase) : (s.modifyTimeBase f).lastTaken = s.lastTaken := rfl
@[simp] theorem modifyTimeBase_ports (f : TimeBase → TimeBase) : (s.modifyTimeBase f).ports = s.ports := rfl
@[simp] theorem modifyTimeBase_settings (f : TimeBase → TimeBase) : (s.modifyTimeBase f).settings = s.settings := rfl

end fields

end Sys2Proof.Machine
end

