-- ==== Sys2Proof/Laws/Directory.lean ====
section
/-! SUPPORT. The directory's operations: what an entry reads after a put, an edit, and the removal of an emptied
entry; the rising order of the keys is kept. -/

namespace Sys2Proof.Machine

theorem entryOf_key {d : List Entry} {k : Word} {e : Entry} (h : entryOf d k = some e) : e.key = k := by
  have := List.find?_some h
  simpa using this

theorem entryOf_mem {d : List Entry} {k : Word} {e : Entry} (h : entryOf d k = some e) : e ∈ d :=
  List.mem_of_find?_eq_some h

theorem entryOf_cons (x : Entry) (d : List Entry) (k : Word) :
    entryOf (x :: d) k = if x.key = k then some x else entryOf d k := by
  by_cases h : x.key = k <;> simp [entryOf, h]

theorem entryOf_eq_none {d : List Entry} {k : Word} : entryOf d k = none ↔ ∀ e ∈ d, e.key ≠ k := by
  simp [entryOf, List.find?_eq_none]

/-- A put entry is the one its key reads. -/
@[simp] theorem entryOf_putEntry_self (e : Entry) (d : List Entry) : entryOf (putEntry e d) e.key = some e := by
  induction d with
  | nil => simp [putEntry, entryOf_cons]
  | cons x xs ih =>
    simp only [putEntry]
    split
    · simp [entryOf_cons]
    · split
      · simp [entryOf_cons]
      · rename_i h
        rw [entryOf_cons, if_neg (fun hx => h hx.symm), ih]

/-- A put leaves every other key's entry alone. -/
theorem entryOf_putEntry_ne {e : Entry} {k : Word} (h : k ≠ e.key) (d : List Entry) :
    entryOf (putEntry e d) k = entryOf d k := by
  induction d with
  | nil => simp [putEntry, h.symm, entryOf]
  | cons x xs ih =>
    simp only [putEntry]
    split
    · rw [entryOf_cons, if_neg h.symm]
    · split
      · rename_i hx
        rw [entryOf_cons, if_neg h.symm, entryOf_cons, if_neg (fun hk => h (by rw [← hk, hx]))]
      · rw [entryOf_cons, entryOf_cons, ih]

/-- The members after a put: the entry itself and members of the old list. -/
theorem mem_putEntry {e x : Entry} {d : List Entry} (h : x ∈ putEntry e d) : x = e ∨ x ∈ d := by
  induction d with
  | nil => simpa [putEntry] using h
  | cons y ys ih =>
    simp only [putEntry] at h
    split at h
    · simpa using h
    · split at h
      · rcases List.mem_cons.1 h with h | h
        · exact .inl h
        · exact .inr (List.mem_cons_of_mem _ h)
      · rcases List.mem_cons.1 h with h | h
        · exact .inr (h ▸ List.mem_cons_self)
        · rcases ih h with h | h
          · exact .inl h
          · exact .inr (List.mem_cons_of_mem _ h)

theorem putEntry_rising {e : Entry} {d : List Entry} (h : Rising d) : Rising (putEntry e d) := by
  induction d with
  | nil => simp [putEntry, Rising]
  | cons x xs ih =>
    obtain ⟨hx, hxs⟩ := List.pairwise_cons.1 h
    simp only [putEntry]
    split
    · rename_i hlt
      refine List.pairwise_cons.2 ⟨fun y hy => ?_, h⟩
      rcases List.mem_cons.1 hy with rfl | hy
      · exact hlt
      · exact BitVec.lt_trans hlt (hx y hy)
    · split
      · rename_i heq
        exact List.pairwise_cons.2 ⟨fun y hy => heq ▸ hx y hy, hxs⟩
      · rename_i hnlt hne
        refine List.pairwise_cons.2 ⟨fun y hy => ?_, ih hxs⟩
        rcases mem_putEntry hy with rfl | hy
        · rcases Nat.lt_trichotomy y.key.toNat x.key.toNat with hlt | heq | hgt
          · exact absurd (BitVec.lt_def.2 hlt) hnlt
          · exact absurd (BitVec.eq_of_toNat_eq heq) hne
          · exact BitVec.lt_def.2 hgt
        · exact hx y hy

theorem filter_rising {d : List Entry} (f : Entry → Bool) (h : Rising d) : Rising (d.filter f) :=
  List.Pairwise.sublist List.filter_sublist h

/-- In a rising directory a member is what its key reads. -/
theorem entryOf_of_mem {d : List Entry} (h : Rising d) {e : Entry} (he : e ∈ d) : entryOf d e.key = some e := by
  induction d with
  | nil => simp at he
  | cons x xs ih =>
    obtain ⟨hx, hxs⟩ := List.pairwise_cons.1 h
    rw [entryOf_cons]
    rcases List.mem_cons.1 he with rfl | he
    · simp
    · have : x.key ≠ e.key := fun hk => by
        have := hx e he
        rw [hk] at this
        exact absurd this (BitVec.lt_irrefl _)
      rw [if_neg this, ih hxs he]

/-! ### Edits of one entry -/

@[simp] theorem addHolder_key (e : Entry) (i m) : (e.addHolder i m).key = e.key := rfl
@[simp] theorem addHolder_holders (e : Entry) (i m) : (e.addHolder i m).holders = e.holders ++ [i] := rfl
@[simp] theorem addHolder_holdMode (e : Entry) (i m) : (e.addHolder i m).holdMode = m.hold := rfl
@[simp] theorem addHolder_queue (e : Entry) (i m) : (e.addHolder i m).queue = e.queue := rfl
@[simp] theorem addWaiter_key (e : Entry) (i) : (e.addWaiter i).key = e.key := rfl
@[simp] theorem addWaiter_holders (e : Entry) (i) : (e.addWaiter i).holders = e.holders := rfl
@[simp] theorem addWaiter_holdMode (e : Entry) (i) : (e.addWaiter i).holdMode = e.holdMode := rfl
@[simp] theorem addWaiter_queue (e : Entry) (i) : (e.addWaiter i).queue = e.queue ++ [i] := rfl
@[simp] theorem dropWaiter_key (e : Entry) (i) : (e.dropWaiter i).key = e.key := rfl
@[simp] theorem dropWaiter_holders (e : Entry) (i) : (e.dropWaiter i).holders = e.holders := rfl
@[simp] theorem dropWaiter_holdMode (e : Entry) (i) : (e.dropWaiter i).holdMode = e.holdMode := rfl
@[simp] theorem dropWaiter_queue (e : Entry) (i) : (e.dropWaiter i).queue = e.queue.filter (· != i) := rfl
@[simp] theorem dropHolder_key (e : Entry) (i) : (e.dropHolder i).key = e.key := rfl
@[simp] theorem dropHolder_holders (e : Entry) (i) : (e.dropHolder i).holders = e.holders.filter (· != i) := rfl
@[simp] theorem dropHolder_queue (e : Entry) (i) : (e.dropHolder i).queue = e.queue := rfl

/-- What an edit does to the directory. -/
theorem editEntry_cases (s : State) (k : Word) (f : Entry → Entry) :
    (entryOf s.directory k = none ∧ s.editEntry k f = s) ∨
      ∃ e, entryOf s.directory k = some e ∧ s.editEntry k f = s.withDirectory (putEntry (f e) s.directory) := by
  unfold State.editEntry
  cases h : entryOf s.directory k with
  | none => exact .inl ⟨rfl, rfl⟩
  | some e => exact .inr ⟨e, rfl, rfl⟩

theorem editEntry_self (s : State) (k : Word) (f : Entry → Entry) (hf : ∀ e, (f e).key = e.key) :
    entryOf (s.editEntry k f).directory k = (entryOf s.directory k).map f := by
  rcases editEntry_cases s k f with ⟨h, e⟩ | ⟨x, h, e⟩
  · rw [e, h]; rfl
  · rw [e, h]
    have : (f x).key = k := by rw [hf, entryOf_key h]
    show entryOf (putEntry (f x) s.directory) k = some (f x)
    rw [← this]; exact entryOf_putEntry_self _ _

theorem editEntry_ne (s : State) {k k' : Word} (f : Entry → Entry) (hf : ∀ e, (f e).key = e.key) (h : k' ≠ k) :
    entryOf (s.editEntry k f).directory k' = entryOf s.directory k' := by
  rcases editEntry_cases s k f with ⟨_, e⟩ | ⟨x, hx, e⟩
  · rw [e]
  · rw [e]
    exact entryOf_putEntry_ne (by rw [hf, entryOf_key hx]; exact h) _

theorem editEntry_rising (s : State) (k : Word) (f : Entry → Entry) (h : Rising s.directory) :
    Rising (s.editEntry k f).directory := by
  rcases editEntry_cases s k f with ⟨_, e⟩ | ⟨x, _, e⟩
  · rw [e]; exact h
  · rw [e]; exact putEntry_rising h

/-- What the removal of an emptied entry does to the directory (R32). -/
theorem settleEntry_cases (s : State) (k : Word) :
    (s.settleEntry k = s ∧ ∀ e, entryOf s.directory k = some e → e.holders ≠ [] ∨ e.queue ≠ []) ∨
      (s.settleEntry k = s.withDirectory (s.directory.filter fun x => x.key != k) ∧
        ∃ e, entryOf s.directory k = some e ∧ e.holders = [] ∧ e.queue = []) := by
  unfold State.settleEntry
  cases h : entryOf s.directory k with
  | none => exact .inl ⟨rfl, fun e he => by simp at he⟩
  | some e =>
    by_cases hc : (e.holders.isEmpty && e.queue.isEmpty) = true
    · have hc' := hc
      simp only [Bool.and_eq_true, List.isEmpty_iff] at hc'
      exact .inr ⟨by simp [hc], e, rfl, hc'.1, hc'.2⟩
    · refine .inl ⟨by simp [hc], fun e' he' => ?_⟩
      simp only [Bool.and_eq_true, List.isEmpty_iff, not_and_or] at hc
      obtain rfl := Option.some.inj he'
      exact hc

theorem entryOf_filter_ne (d : List Entry) {k k' : Word} (h : k' ≠ k) :
    entryOf (d.filter fun x => x.key != k) k' = entryOf d k' := by
  induction d with
  | nil => rfl
  | cons x xs ih =>
    by_cases hx : x.key = k
    · have h1 : ((x :: xs).filter fun x => x.key != k) = xs.filter fun x => x.key != k := by simp [hx]
      rw [h1, ih, entryOf_cons, if_neg (fun e' => h (e'.symm.trans hx))]
    · have h1 : ((x :: xs).filter fun x => x.key != k) = x :: xs.filter fun x => x.key != k := by simp [hx]
      rw [h1, entryOf_cons, entryOf_cons, ih]

theorem entryOf_filter_self (d : List Entry) (k : Word) : entryOf (d.filter fun x => x.key != k) k = none := by
  rw [entryOf_eq_none]
  intro e he
  simpa using (List.mem_filter.1 he).2

theorem settleEntry_ne (s : State) {k k' : Word} (h : k' ≠ k) :
    entryOf (s.settleEntry k).directory k' = entryOf s.directory k' := by
  rcases settleEntry_cases s k with ⟨e, _⟩ | ⟨e, _⟩
  · rw [e]
  · rw [e]; exact entryOf_filter_ne _ h

/-- After the removal step a key's entry has a holder or a waiter, and is what it was if it had one (R32). -/
theorem settleEntry_self (s : State) (k : Word) :
    entryOf (s.settleEntry k).directory k =
      (entryOf s.directory k).filter fun e => !(e.holders.isEmpty && e.queue.isEmpty) := by
  rcases settleEntry_cases s k with ⟨e, he⟩ | ⟨e, x, hx, hh, hq⟩
  · rw [e]
    cases h : entryOf s.directory k with
    | none => rfl
    | some x =>
      have := he x h
      have hb : (x.holders.isEmpty && x.queue.isEmpty) = false := by
        rcases this with h | h <;> simp [h]
      simp [Option.filter, hb]
  · rw [e, hx]
    have : entryOf (s.directory.filter fun x => x.key != k) k = none := entryOf_filter_self _ _
    rw [withDirectory_directory, this]
    simp [Option.filter, hh, hq]

theorem settleEntry_rising (s : State) (k : Word) (h : Rising s.directory) : Rising (s.settleEntry k).directory := by
  rcases settleEntry_cases s k with ⟨e, _⟩ | ⟨e, _⟩
  · rw [e]; exact h
  · rw [e]; exact filter_rising _ h

end Sys2Proof.Machine
end

