-- ==== Sys2Proof/Laws/Frames.lean ====
section
/-! SUPPORT. Frames: bytes and bits, what a run of clocked bits shifts out, and that a frame's event touches its own
port alone (R145, R146). -/

namespace Sys2Proof.Machine

/-! ### Bits and bytes -/

@[simp] theorem byteBits_length (b : Byte) : (byteBits b).length = 8 := rfl

theorem bytesBits_cons (b : Byte) (bs : List Byte) : bytesBits (b :: bs) = byteBits b ++ bytesBits bs := rfl

@[simp] theorem bytesBits_length (bs : List Byte) : (bytesBits bs).length = 8 * bs.length := by
  induction bs with
  | nil => rfl
  | cons b bs ih => rw [bytesBits_cons, List.length_append, byteBits_length, ih, List.length_cons]; omega

theorem bitsByte_byteBits (b : Byte) (rest : List Bool) : bitsByte (byteBits b ++ rest) = b := by
  have h : ∀ b : Byte, BitVec.ofBool (b.getLsbD 7) ++ BitVec.ofBool (b.getLsbD 6) ++ BitVec.ofBool (b.getLsbD 5) ++
      BitVec.ofBool (b.getLsbD 4) ++ BitVec.ofBool (b.getLsbD 3) ++ BitVec.ofBool (b.getLsbD 2) ++
      BitVec.ofBool (b.getLsbD 1) ++ BitVec.ofBool (b.getLsbD 0) = b := by decide +kernel
  exact h b

theorem frameByte_zero (b : Byte) (rest : List Bool) : frameByte (byteBits b ++ rest) 0 = b := by
  unfold frameByte; exact bitsByte_byteBits b rest

theorem frameByte_succ (b : Byte) (rest : List Bool) (n : Nat) :
    frameByte (byteBits b ++ rest) (n + 1) = frameByte rest n := by
  unfold frameByte
  rw [List.drop_append, List.drop_of_length_le (by rw [byteBits_length]; omega), List.nil_append, byteBits_length]
  congr 2

/-- The bytes of a sequence of bits that spells them. -/
theorem frameBytes_bytesBits (lead : Byte) (args rest : List Byte) :
    frameBytes (byteBits lead ++ bytesBits (args ++ rest)) 1 args.length = args := by
  have key : ∀ (args : List Byte) (n : Nat) (hn : n < args.length), frameByte (bytesBits (args ++ rest)) n = args[n] := by
    intro args
    induction args with
    | nil => intro n hn; simp at hn
    | cons b bs ih =>
      intro n hn
      rw [List.cons_append, bytesBits_cons]
      cases n with
      | zero => rw [frameByte_zero]; rfl
      | succ n => rw [frameByte_succ, ih n (by simpa using hn)]; rfl
  unfold frameBytes
  refine List.ext_getElem (by simp) fun n h1 h2 => ?_
  simp only [List.getElem_map, List.getElem_range]
  rw [Nat.add_comm, frameByte_succ, key args n (by simpa using h2)]

theorem wireBits_succ (out : Nat → Byte) (n : Nat) :
    wireBits out (n + 1) = wireBits out n ++ [(byteBits (out (n / 8))).getD (n % 8) false] := by
  unfold wireBits; rw [List.range_succ, List.map_append]; rfl

/-- The first byte of a run of bits is there from eight bits on. -/
theorem frameByte_append {a b : List Bool} {n : Nat} (h : 8 * (n + 1) ≤ a.length) :
    frameByte (a ++ b) n = frameByte a n := by
  unfold frameByte
  rw [List.drop_append_of_le_length (by omega)]
  have hl : 8 ≤ (a.drop (8 * n)).length := by rw [List.length_drop]; omega
  unfold bitsByte
  have : ∀ k, k < 8 → (a.drop (8 * n) ++ b).getD k false = (a.drop (8 * n)).getD k false := fun k hk => by
    rw [List.getD_eq_getElem?_getD, List.getD_eq_getElem?_getD, List.getElem?_append_left (by omega)]
  rw [this 0 (by omega), this 1 (by omega), this 2 (by omega), this 3 (by omega), this 4 (by omega),
    this 5 (by omega), this 6 (by omega), this 7 (by omega)]

/-- The command byte of a frame, read from any part of it that has the byte whole. -/
theorem code_of_prefix {code : Byte} {bits rest : List Bool} {m : Nat} (hp : bits <+: bytesBits [code] ++ rest)
    (hl : bits.length = 8 * (m + 1)) : frameByte bits 0 = code := by
  obtain ⟨t, ht⟩ := hp
  rw [← frameByte_append (b := t) (n := 0) (by omega), ht]
  simp only [bytesBits_cons, List.append_assoc]
  exact frameByte_zero _ _

/-- A frame that opens with a read command's code is that read, whatever follows (R146). -/
theorem classify_read {code : Byte} (hc : code ∈ readCodes) (rest : List Bool) :
    classify (bytesBits [code] ++ rest) = .read code := by
  have h0 : frameByte (bytesBits [code] ++ rest) 0 = code := by
    simp only [bytesBits_cons, List.append_assoc]; exact frameByte_zero _ _
  unfold classify
  rw [if_neg (by simp), if_neg (by simp)]
  unfold classifyCommand
  simp only [h0, hc, if_true]

/-! ### A run of clocks -/

/-- A frame in progress with the bits received so far, `out` being its bytes on SnSDO and `fetched` and `snapshot`
what has been fixed after so many bytes. -/
def runningFrame (bits : List Bool) (out : Nat → Byte) (fetched : Nat → Option (List Byte))
    (snapshot : Nat → Option (List NoticeRecord)) : Frame :=
  { received := bits, sent := wireBits out bits.length, outByte := out (bits.length / 8),
    fetched := fetched (bits.length / 8), snapshot := snapshot (bits.length / 8) }

/-- One clock as the two edges give it: a completed byte fixes the reply and the next byte is read. -/
theorem clockFrame_eq (s : State) (p : Station) (f : Frame) (b : Bool) :
    s.clockFrame p f b =
      let f1 : Frame :=
        { f with received := f.received ++ [b],
                 sent := f.sent ++ [(byteBits f.outByte).getD (f.received.length % 8) false] }
      if f1.received.length % 8 = 0 then { s.fixReply p f1 with outByte := s.nextOutByte p (s.fixReply p f1) } else f1 := by
  have hr : ∀ g : Frame, (s.fixReply p g).received = g.received := fun g => by
    unfold State.fixReply
    dsimp only
    repeat' split
    all_goals rfl
  unfold State.clockFrame State.sampleBit State.shiftOut
  dsimp only
  split <;> rename_i h
  · rw [hr, if_pos ⟨h, by simp⟩]
  · rw [if_neg fun hc => h hc.1]

/-- A run of clocks: if each completed byte fixes what `fetched` and `snapshot` say and puts the next byte of `out` on
the wire, the frame after any bits is the running frame of `out` (R145, R182). -/
theorem clock_run (s : State) (p : Station) (out : Nat → Byte) (fetched : Nat → Option (List Byte))
    (snapshot : Nat → Option (List NoticeRecord)) (all : List Bool)
    (step : ∀ bits m, bits <+: all → bits.length = 8 * (m + 1) →
      s.fixReply p
          { received := bits, sent := wireBits out bits.length, outByte := out m, fetched := fetched m,
            snapshot := snapshot m } =
        { received := bits, sent := wireBits out bits.length, outByte := out m, fetched := fetched (m + 1),
          snapshot := snapshot (m + 1) } ∧
      s.nextOutByte p
          { received := bits, sent := wireBits out bits.length, outByte := out m, fetched := fetched (m + 1),
            snapshot := snapshot (m + 1) } = out (m + 1)) :
    ∀ bits, bits <+: all →
      bits.foldl (s.clockFrame p) (runningFrame [] out fetched snapshot) = runningFrame bits out fetched snapshot := by
  intro bits
  induction bits using List.reverseRecOn with
  | nil => intro _; rfl
  | append_singleton bits b ih =>
    intro hpre
    rw [List.foldl_append, ih ((List.prefix_append _ _).trans hpre)]
    show s.clockFrame p (runningFrame bits out fetched snapshot) b = _
    rw [clockFrame_eq]
    unfold runningFrame
    simp only [List.length_append, List.length_cons, List.length_nil, Nat.zero_add]
    rw [← wireBits_succ]
    by_cases hm : (bits.length + 1) % 8 = 0
    · obtain ⟨m, hm⟩ : ∃ m, bits.length + 1 = 8 * (m + 1) := ⟨(bits.length + 1) / 8 - 1, by omega⟩
      have h1 : bits.length / 8 = m := by omega
      have h2 : (bits.length + 1) / 8 = m + 1 := by omega
      have h3 : (bits.length + 1) % 8 = 0 := by omega
      obtain ⟨e1, e2⟩ := step (bits ++ [b]) m hpre (by simpa using hm)
      simp only [List.length_append, List.length_cons, List.length_nil, Nat.zero_add] at e1 e2
      rw [if_pos h3, h1, h2, e1, e2]
    · have h1 : (bits.length + 1) / 8 = bits.length / 8 := by omega
      rw [if_neg hm, h1]

/-! ### What a frame reads of the state -/

/-- What a frame shifts out is read from the port's command and flags, its acknowledgement claims, the pool, the
station's session and the hold state. -/
theorem sampleBit_congr {s t : State} (p : Station) (h1 : t.ports[p].command = s.ports[p].command)
    (h3 : t.ports[p].acks = s.ports[p].acks) (h4 : t.slots = s.slots) : t.sampleBit p = s.sampleBit p := by
  have hsn : t.noticesSnapshot p = s.noticesSnapshot p := by
    funext l; unfold State.noticesSnapshot State.noticeRecord; simp only [h4]
  funext f b
  unfold State.sampleBit State.fixReply
  simp only [h1, h3, hsn]

theorem shiftOut_congr {s t : State} (p : Station) (h1 : t.ports[p].command = s.ports[p].command)
    (h2 : t.ports[p].flags = s.ports[p].flags) (h4 : t.slots = s.slots)
    (h5 : t.sessions = s.sessions) (h6 : t.timeBase = s.timeBase) : t.shiftOut p = s.shiftOut p := by
  have hsb : t.statusByte p = s.statusByte p := by
    unfold State.statusByte State.noticeCondition
    simp only [h1, h4, h5, h6]
  funext f
  unfold State.shiftOut State.nextOutByte
  simp only [h2, hsb]

theorem clockFrame_congr {s t : State} (p : Station) (h1 : t.ports[p].command = s.ports[p].command)
    (h2 : t.ports[p].flags = s.ports[p].flags) (h3 : t.ports[p].acks = s.ports[p].acks) (h4 : t.slots = s.slots)
    (h5 : t.sessions = s.sessions) (h6 : t.timeBase = s.timeBase) : t.clockFrame p = s.clockFrame p := by
  funext f b
  unfold State.clockFrame
  rw [sampleBit_congr p h1 h3 h4, shiftOut_congr p h1 h2 h4 h5 h6]

/-! ### A frame's event touches its own port alone -/

theorem PortOnly.refl (p : Station) (s : State) : PortOnly p s s := by
  unfold PortOnly
  have : updVec s.ports p (fun _ => s.ports[p]) = s.ports := by
    rw [show updVec s.ports p (fun _ => s.ports[p]) = updVec s.ports p (fun x => x) from rfl, updVec_id]
  rw [this]

theorem PortOnly.trans {p : Station} {s t u : State} (h : PortOnly p s t) (h' : PortOnly p t u) : PortOnly p s u := by
  unfold PortOnly at *
  have hp : t.ports = updVec s.ports p fun _ => t.ports[p] := by rw [h]; simp [updVec]
  have hq : updVec t.ports p (fun _ => u.ports[p]) = updVec s.ports p fun _ => u.ports[p] := by
    rw [hp, updVec_updVec]
  refine h'.trans ?_
  rw [hq]
  conv_lhs => rw [h]

theorem portOnly_modifyPort (p : Station) (s : State) (f : Port → Port) : PortOnly p s (s.modifyPort p f) := by
  unfold PortOnly State.modifyPort
  have : updVec s.ports p (fun _ => (updVec s.ports p f)[p]) = updVec s.ports p f := by
    rw [updVec_get_self]; rfl
  simp only [this]

theorem portOnly_selectFalls (p : Station) (s : State) : PortOnly p s (s.selectFalls p) := by
  unfold State.selectFalls
  split
  · exact portOnly_modifyPort _ _ _
  · exact PortOnly.refl _ _

theorem portOnly_clockRises (p : Station) (s : State) (b : Bool) : PortOnly p s (s.clockRises p b) :=
  portOnly_modifyPort _ _ _

theorem portOnly_clockFalls (p : Station) (s : State) : PortOnly p s (s.clockFalls p) := portOnly_modifyPort _ _ _

theorem portOnly_clockBits (p : Station) (s : State) (bits : List Bool) : PortOnly p s (s.clockBits p bits) := by
  unfold State.clockBits
  split
  · exact PortOnly.refl _ _
  · exact (portOnly_clockFalls _ _).trans (portOnly_modifyPort _ _ _)

theorem portOnly_endFrame (p : Station) (s : State) (f : Frame) : PortOnly p s (s.endFrame p f) := by
  unfold State.endFrame
  split
  · exact PortOnly.refl _ _
  · exact portOnly_modifyPort _ _ _
  · refine PortOnly.trans (t := s.endRead p _ f) ?_ (portOnly_modifyPort _ _ _)
    unfold State.endRead
    split
    · unfold State.endFetch
      split
      · exact PortOnly.refl _ _
      · split
        · exact portOnly_modifyPort _ _ _
        · exact PortOnly.refl _ _
    · split
      · unfold State.endNotices
        split
        · exact PortOnly.refl _ _
        · exact portOnly_modifyPort _ _ _
      · exact PortOnly.refl _ _
  · exact (portOnly_modifyPort _ _ _).trans (portOnly_modifyPort _ _ _)
  · exact (portOnly_modifyPort _ _ _).trans (portOnly_modifyPort _ _ _)
  · unfold State.endPosted
    split <;> exact (portOnly_modifyPort _ _ _).trans (portOnly_modifyPort _ _ _)

theorem portOnly_selectRises (p : Station) (s : State) : PortOnly p s (s.selectRises p) := by
  unfold State.selectRises
  split
  · exact PortOnly.refl _ _
  · exact portOnly_modifyPort _ _ _
  · exact (portOnly_endFrame _ _ _).trans (portOnly_modifyPort _ _ _)

theorem portOnly_frameEvent (p : Station) (s : State) (lead : List Byte) (ev : FrameEvent) :
    PortOnly p s (s.frameEvent p lead ev) := by
  cases ev with
  | whole bits =>
    exact ((portOnly_selectFalls _ _).trans (portOnly_clockBits _ _ _)).trans (portOnly_selectRises _ _)
  | start bits => exact (portOnly_selectFalls _ _).trans (portOnly_clockBits _ _ _)
  | more bits => exact portOnly_clockBits _ _ _
  | rise b => exact portOnly_clockRises _ _ _
  | fall => exact portOnly_clockFalls _ _
  | stop => exact portOnly_selectRises _ _

/-! ### Edges and clocks -/

theorem Port.falls_low (shift : Frame → Frame) (q : Port) : (q.falls shift).clockHigh = false := by
  unfold Port.falls
  split <;> rename_i h
  · split <;> rfl
  · exact Bool.eq_false_of_not_eq_true h

/-- A clock that stands low is left as it is by a falling edge (log entry 3). -/
theorem Port.falls_of_low {q : Port} (h : q.clockHigh = false) (shift : Frame → Frame) : q.falls shift = q := by
  unfold Port.falls; rw [h]; rfl

/-- A clock that stands high is left as it is by a rising edge (log entry 3). -/
theorem Port.rises_of_high {q : Port} (h : q.clockHigh = true) (p : Station) (sample : Frame → Frame) :
    q.rises p sample = q := by
  unfold Port.rises; rw [h]; rfl

/-- A falling edge before the first rising edge of a frame moves the clock alone. -/
theorem Port.falls_fresh {q : Port} {f : Frame} {shift : Frame → Frame} (hs : q.shifter = .receiving f)
    (hf : shift f = f) : q.falls shift = { q with clockHigh := false } := by
  cases hq : q.clockHigh
  · rw [Port.falls_of_low hq, ← hq]
  · unfold Port.falls; rw [hq, hs]; simp only [if_true]; rw [hf, ← hs]

theorem Port.clocked_zero (p : Station) (q : Port) : q.clocked p (fun f => f) 0 = q := by
  unfold Port.clocked
  split
  · rfl
  · rename_i sent h; simp [← h]
  · rename_i f h; rw [← h]

/-- The first of a run of clocks is its two edges. -/
theorem Port.clocked_succ {q : Port} (h : q.clockHigh = false) (p : Station) (sample shift run : Frame → Frame) (n : Nat) :
    q.clocked p (fun f => run (shift (sample f))) (n + 1) = ((q.rises p sample).falls shift).clocked p run n := by
  have hb : ¬ q.clockHigh = true := by rw [h]; exact Bool.false_ne_true
  unfold Port.rises
  rw [if_neg hb]
  cases hs : q.shifter with
  | released =>
    simp only [Port.clocked, Port.falls, hs, if_true]
    rw [← h, ← hs]
  | ignoring sent =>
    simp [Port.clocked, Port.falls, hs, ← h, List.range_succ_eq_map, Function.comp_def, Nat.add_assoc, Nat.add_comm 1]
  | receiving f => simp [Port.clocked, Port.falls, hs, ← h]

/-- An edge leaves all of a port that a frame reads of it. -/
theorem Port.falls_kept (shift : Frame → Frame) (q : Port) :
    (q.falls shift).command = q.command ∧ (q.falls shift).flags = q.flags ∧ (q.falls shift).acks = q.acks := by
  unfold Port.falls
  split
  · split <;> exact ⟨rfl, rfl, rfl⟩
  · exact ⟨rfl, rfl, rfl⟩

theorem Port.rises_kept (p : Station) (sample : Frame → Frame) (q : Port) :
    (q.rises p sample).command = q.command ∧ (q.rises p sample).flags = q.flags ∧
      (q.rises p sample).acks = q.acks := by
  unfold Port.rises
  split <;> exact ⟨rfl, rfl, rfl⟩

/-- A change of a port that leaves its command, flags and claims leaves what each edge does. -/
theorem edges_modifyPort (s : State) (p : Station) {g : Port → Port} (h : (g s.ports[p]).command = s.ports[p].command ∧
      (g s.ports[p]).flags = s.ports[p].flags ∧ (g s.ports[p]).acks = s.ports[p].acks) :
    (s.modifyPort p g).sampleBit p = s.sampleBit p ∧ (s.modifyPort p g).shiftOut p = s.shiftOut p ∧
      (s.modifyPort p g).clockFrame p = s.clockFrame p := by
  have e : (s.modifyPort p g).ports[p] = g s.ports[p] := by rw [modifyPort_ports, updVec_get_self]
  refine ⟨sampleBit_congr p ?_ ?_ rfl, shiftOut_congr p ?_ ?_ rfl rfl rfl, clockFrame_congr p ?_ ?_ ?_ rfl rfl rfl⟩ <;>
    rw [e]
  exacts [h.1, h.2.2, h.1, h.2.1, h.1, h.2.1, h.2.2]

theorem modifyPort_modifyPort (s : State) (p : Station) (f g : Port → Port) :
    (s.modifyPort p f).modifyPort p g = s.modifyPort p fun q => g (f q) := by
  unfold State.modifyPort; simp only [updVec_updVec]

/-- Clocked bits, as one change of the port. -/
theorem clockBits_eq (s : State) (p : Station) (bits : List Bool) (h : bits ≠ []) :
    s.clockBits p bits = s.modifyPort p fun q =>
      (q.falls (s.shiftOut p)).clocked p (fun f => bits.foldl (s.clockFrame p) f) bits.length := by
  unfold State.clockBits State.clockFalls
  rw [if_neg h, modifyPort_modifyPort]

/-- Clocked bits are their edges in turn: a falling edge if the clock stands high, a rising edge that samples the first
bit, a falling edge, and the bits after it (R182). -/
theorem clockBits_cons (s : State) (p : Station) (b : Bool) (bits : List Bool) :
    s.clockBits p (b :: bits) = (((s.clockFalls p).clockRises p b).clockFalls p).clockBits p bits := by
  have e1 := edges_modifyPort s p (g := Port.falls (s.shiftOut p)) (Port.falls_kept _ _)
  have hr : (s.clockFalls p).clockRises p b =
      s.modifyPort p fun q => (q.falls (s.shiftOut p)).rises p fun f => s.sampleBit p f b := by
    unfold State.clockRises State.clockFalls
    rw [e1.1, modifyPort_modifyPort]
  have k1 := Port.falls_kept (s.shiftOut p) s.ports[p]
  have k2 := Port.rises_kept p (fun f => s.sampleBit p f b) (s.ports[p].falls (s.shiftOut p))
  have e2 := edges_modifyPort s p (g := fun q => (q.falls (s.shiftOut p)).rises p fun f => s.sampleBit p f b)
    ⟨k2.1.trans k1.1, k2.2.1.trans k1.2.1, k2.2.2.trans k1.2.2⟩
  have hf : ((s.clockFalls p).clockRises p b).clockFalls p = s.modifyPort p fun q =>
      ((q.falls (s.shiftOut p)).rises p fun f => s.sampleBit p f b).falls (s.shiftOut p) := by
    rw [hr]
    unfold State.clockFalls
    rw [e2.2.1, modifyPort_modifyPort]
  have k3 := Port.falls_kept (s.shiftOut p) ((s.ports[p].falls (s.shiftOut p)).rises p fun f => s.sampleBit p f b)
  have e3 := edges_modifyPort s p
    (g := fun q => ((q.falls (s.shiftOut p)).rises p fun f => s.sampleBit p f b).falls (s.shiftOut p))
    ⟨k3.1.trans (k2.1.trans k1.1), k3.2.1.trans (k2.2.1.trans k1.2.1), k3.2.2.trans (k2.2.2.trans k1.2.2)⟩
  rw [clockBits_eq s p (b :: bits) (List.cons_ne_nil _ _), hf]
  have key : (fun q : Port => (q.falls (s.shiftOut p)).clocked p (fun f => (b :: bits).foldl (s.clockFrame p) f)
      (b :: bits).length) = fun q =>
      (((q.falls (s.shiftOut p)).rises p fun f => s.sampleBit p f b).falls (s.shiftOut p)).clocked p
        (fun f => bits.foldl (s.clockFrame p) f) bits.length := by
    funext q
    exact Port.clocked_succ (Port.falls_low _ _) p (fun f => s.sampleBit p f b) (s.shiftOut p)
      (fun f => bits.foldl (s.clockFrame p) f) bits.length
  rw [key]
  cases bits with
  | nil =>
    unfold State.clockBits
    rw [if_pos rfl]
    refine congrArg (s.modifyPort p) (funext fun q => ?_)
    exact Port.clocked_zero p _
  | cons c rest =>
    rw [clockBits_eq _ _ _ (List.cons_ne_nil _ _), modifyPort_modifyPort, e3.2.1, e3.2.2]
    refine congrArg (s.modifyPort p) (funext fun q => ?_)
    rw [Port.falls_of_low (Port.falls_low _ _)]

/-- A run of clocks in two parts. -/
theorem clockBits_append (s : State) (p : Station) (a b : List Bool) :
    s.clockBits p (a ++ b) = (s.clockBits p a).clockBits p b := by
  induction a generalizing s with
  | nil => rfl
  | cons x a ih => rw [List.cons_append, clockBits_cons, clockBits_cons, ih]

/-! ### A whole frame -/

/-- A whole frame of at least one bit on a port with select released, out of reset, ends as the frame its bits make, its
clock left low. -/
theorem frameEvent_whole {s : State} {p : Station} (hr : s.ports[p].shifter = .released) (hi : s.inReset = false)
    (lead : List Byte) (bits : List Bool) (hb : bytesBits lead ++ bits ≠ []) (g : Frame)
    (hg : (bytesBits lead ++ bits).foldl (s.clockFrame p)
      { received := [], sent := [], outByte := s.statusByte p, fetched := none, snapshot := none } = g) :
    s.frameEvent p lead (.whole bits) =
      ((s.modifyPort p fun q => { q with clockHigh := false, shifter := .receiving g }).endFrame p g).modifyPort p fun q =>
        { q with shifter := .released, sdo := g.sent } := by
  have h1 : s.selectFalls p = s.modifyPort p fun q =>
      { q with
        shifter :=
          .receiving { received := [], sent := [], outByte := s.statusByte p, fetched := none, snapshot := none } } := by
    unfold State.selectFalls; rw [hr]; simp only [hi, Bool.false_eq_true, if_false]
  have h2 : (s.selectFalls p).clockBits p (bytesBits lead ++ bits) =
      s.modifyPort p fun q => { q with clockHigh := false, shifter := .receiving g } := by
    have hc : (s.selectFalls p).clockFrame p = s.clockFrame p := by
      rw [h1]
      exact (edges_modifyPort s p ⟨rfl, rfl, rfl⟩).2.2
    rw [clockBits_eq _ _ _ hb, hc]
    conv_lhs => rw [h1, modifyPort_modifyPort]
    refine congrArg (s.modifyPort p) (funext fun q => ?_)
    rw [Port.falls_fresh rfl (by simp [State.shiftOut])]
    simp only [Port.clocked, hg]
  show ((s.selectFalls p).clockBits p (bytesBits lead ++ bits)).selectRises p = _
  rw [h2]
  unfold State.selectRises
  simp only [modifyPort_ports, updVec_get_self]

/-! ### The end of an open frame -/

/-- A frame that opens with a whole read command's code is that read (R146). -/
theorem classify_of_code {bits : List Bool} (h : 8 ≤ bits.length) (hc : bitsByte bits ∈ readCodes) :
    classify bits = .read (bitsByte bits) := by
  have fb : frameByte bits 0 = bitsByte bits := by unfold frameByte; simp
  unfold classify classifyCommand
  rw [if_neg (by omega), if_neg (by omega)]
  simp only [fb, hc, if_true]

theorem modifyPort_of_eq (s : State) (p : Station) (g : Port → Port) {q : Port} (h : g s.ports[p] = q) :
    s.modifyPort p g = { s with ports := s.ports.set p q } := by
  unfold State.modifyPort updVec; rw [h]

/-- Select rises on an open frame: the port ends as the frame's end changes it, released, with its bits recorded. -/
theorem stopsAs_of_endFrame {s : State} {p : Station} {f : Frame} (hf : s.ports[p].shifter = .receiving f) {q : Port}
    (g : Port → Port) (h : s.endFrame p f = s.modifyPort p g)
    (hq : { g s.ports[p] with shifter := .released, sdo := f.sent } = q) : StopsAs s p q := by
  intro code row hrow
  have hx : exec (row .stop) s = .next (s.selectRises p) := by
    simp only [frameRows, List.mem_cons, List.mem_nil_iff, or_false] at hrow
    rcases hrow with rfl | rfl | rfl | rfl | rfl | rfl | rfl | rfl <;> rfl
  rw [hx]
  unfold State.selectRises
  rw [hf]
  simp only [h]
  rw [modifyPort_modifyPort, modifyPort_of_eq _ _ _ hq]

end Sys2Proof.Machine
end

