-- ==== Sys2Proof/Laws/Granting.lean ====
section
/-! SUPPORT. The grant policy: what a grant and a regrant do, said once (R54, R57). -/

namespace Sys2Proof.Machine

/-! ### Only the pool changes -/

theorem PoolOnly.refl (s : State) : PoolOnly s s := rfl

theorem PoolOnly.trans {s t u : State} (h : PoolOnly s t) (h' : PoolOnly t u) : PoolOnly s u := by
  unfold PoolOnly at *
  rw [h'] ; rw [h]

theorem PoolOnly.settings {s t : State} (h : PoolOnly s t) : t.settings = s.settings := by rw [h]
theorem PoolOnly.sweepQueue {s t : State} (h : PoolOnly s t) : t.sweepQueue = s.sweepQueue := by rw [h]
theorem PoolOnly.walk {s t : State} (h : PoolOnly s t) : t.walk = s.walk := by rw [h]
theorem PoolOnly.ports {s t : State} (h : PoolOnly s t) : t.ports = s.ports := by rw [h]
theorem PoolOnly.sessionCompletions {s t : State} (h : PoolOnly s t) :
    t.sessionCompletions = s.sessionCompletions := by rw [h]
theorem PoolOnly.rangeCompletions {s t : State} (h : PoolOnly s t) :
    t.rangeCompletions = s.rangeCompletions := by rw [h]
theorem PoolOnly.livenessCounters {s t : State} (h : PoolOnly s t) :
    t.livenessCounters = s.livenessCounters := by rw [h]
theorem PoolOnly.timeBase {s t : State} (h : PoolOnly s t) : t.timeBase = s.timeBase := by rw [h]
theorem PoolOnly.inReset {s t : State} (h : PoolOnly s t) : t.inReset = s.inReset := by rw [h]
theorem PoolOnly.lastTaken {s t : State} (h : PoolOnly s t) : t.lastTaken = s.lastTaken := by rw [h]
theorem PoolOnly.pending {s t : State} (h : PoolOnly s t) : t.pending = s.pending := by rw [h]

theorem poolOnly_withDirectory (s : State) (d) : PoolOnly s (s.withDirectory d) := rfl
theorem poolOnly_modifySlot (s : State) (i f) : PoolOnly s (s.modifySlot i f) := rfl
theorem poolOnly_modifyCounter (s : State) (i f) : PoolOnly s (s.modifyCounter i f) := rfl
theorem poolOnly_modifySession (s : State) (p f) : PoolOnly s (s.modifySession p f) := rfl
theorem poolOnly_loadCounter (s : State) (i v ph) : PoolOnly s (s.loadCounter i v ph) := rfl
theorem poolOnly_stopCounter (s : State) (i) : PoolOnly s (s.stopCounter i) := rfl
theorem poolOnly_occupy (s : State) (i st l) : PoolOnly s (s.occupy i st l) := rfl
theorem poolOnly_endSlot (s : State) (i k) : PoolOnly s (s.endSlot i k) := rfl
theorem poolOnly_renewSlot (s : State) (i l v) : PoolOnly s (s.renewSlot i l v) := rfl

theorem poolOnly_editEntry (s : State) (k f) : PoolOnly s (s.editEntry k f) := by
  rcases editEntry_cases s k f with ⟨_, e⟩ | ⟨_, _, e⟩ <;> rw [e] <;> rfl

theorem poolOnly_settleEntry (s : State) (k) : PoolOnly s (s.settleEntry k) := by
  rcases settleEntry_cases s k with ⟨e, _⟩ | ⟨e, _⟩ <;> rw [e] <;> rfl

theorem poolOnly_vacate (s : State) (i k) : PoolOnly s (s.vacate i k) := poolOnly_editEntry _ _ _

theorem poolOnly_freeSlot (s : State) (i) : PoolOnly s (s.freeSlot i) := by
  unfold State.freeSlot; split <;> rfl

theorem poolOnly_dispose (s : State) (i d) : PoolOnly s (s.dispose i d) := by
  cases d
  · exact poolOnly_freeSlot _ _
  · exact poolOnly_endSlot _ _ _

theorem poolOnly_grantWaiter (s : State) (k i l) : PoolOnly s (s.grantWaiter k i l) :=
  ((poolOnly_modifySlot _ _ _).trans (poolOnly_loadCounter _ _ _ _)).trans (poolOnly_editEntry _ _ _)

/-! ### Edits of the directory leave the other records alone -/

@[simp] theorem editEntry_slots (s : State) (k f) : (s.editEntry k f).slots = s.slots := by
  rcases editEntry_cases s k f with ⟨_, e⟩ | ⟨_, _, e⟩ <;> rw [e]; rfl

@[simp] theorem editEntry_leaseCounters (s : State) (k f) : (s.editEntry k f).leaseCounters = s.leaseCounters := by
  rcases editEntry_cases s k f with ⟨_, e⟩ | ⟨_, _, e⟩ <;> rw [e]; rfl

@[simp] theorem editEntry_sessions (s : State) (k f) : (s.editEntry k f).sessions = s.sessions := by
  rcases editEntry_cases s k f with ⟨_, e⟩ | ⟨_, _, e⟩ <;> rw [e]; rfl

@[simp] theorem settleEntry_slots (s : State) (k) : (s.settleEntry k).slots = s.slots := by
  rcases settleEntry_cases s k with ⟨e, _⟩ | ⟨e, _⟩ <;> rw [e]; rfl

@[simp] theorem settleEntry_leaseCounters (s : State) (k) : (s.settleEntry k).leaseCounters = s.leaseCounters := by
  rcases settleEntry_cases s k with ⟨e, _⟩ | ⟨e, _⟩ <;> rw [e]; rfl

@[simp] theorem settleEntry_sessions (s : State) (k) : (s.settleEntry k).sessions = s.sessions := by
  rcases settleEntry_cases s k with ⟨e, _⟩ | ⟨e, _⟩ <;> rw [e]; rfl

/-! ### Doom -/

/-- Doom of a slot is read from the slot, the session states, the Sweep Queue and the ranges alone (R43, R44). -/
theorem doomed_congr {s t : State} (i : SlotIndex) (hs : t.slots[i] = s.slots[i])
    (hse : ∀ p : Station, t.sessions[p].state = s.sessions[p].state) (hq : t.sweepQueue = s.sweepQueue)
    (hset : t.settings = s.settings) : t.doomed i = s.doomed i := by
  have hc : ∀ k, t.inSweepScope k = s.inSweepScope k := fun k => by
    unfold State.inSweepScope State.orderCovers State.protectedKey; rw [hq, hset]
  unfold State.doomed
  rw [hs]
  cases s.slots[i].lease with
  | none => rfl
  | some l => simp only [hse, hc]

/-! ### One grant -/

@[simp] theorem grantWaiter_slots (s : State) (k i l) :
    (s.grantWaiter k i l).slots = updVec s.slots i fun sl => { sl with state := .held, notice := some .granted } := by
  simp [State.grantWaiter, State.loadCounter]

@[simp] theorem grantWaiter_leaseCounters (s : State) (k i l) :
    (s.grantWaiter k i l).leaseCounters = updVec s.leaseCounters i fun c =>
      { c with value := l.term, running := true, generation := s.slots[i].generation, phase := .term } := by
  unfold State.grantWaiter State.loadCounter
  rw [editEntry_leaseCounters, modifyCounter_leaseCounters, modifySlot_slots, updVec_get_self]
  rfl

@[simp] theorem grantWaiter_sessions (s : State) (k i l) : (s.grantWaiter k i l).sessions = s.sessions := by
  simp [State.grantWaiter, State.loadCounter]

theorem grantWaiter_entry (s : State) (k i l) :
    entryOf (s.grantWaiter k i l).directory k =
      (entryOf s.directory k).map fun e => (e.dropWaiter i).addHolder i l.mode := by
  unfold State.grantWaiter
  rw [editEntry_self _ _ _ (fun e => by rfl)]; rfl

theorem grantWaiter_otherKeys (s : State) {k k' : Word} (i l) (h : k' ≠ k) :
    entryOf (s.grantWaiter k i l).directory k' = entryOf s.directory k' := by
  unfold State.grantWaiter
  rw [editEntry_ne _ _ (fun e => by rfl) h]; rfl

theorem grantWaiter_rising (s : State) (k i l) (h : Rising s.directory) :
    Rising (s.grantWaiter k i l).directory := editEntry_rising _ _ _ h

/-- A grant changes no other slot's doom. -/
theorem grantWaiter_doomed_ne (s : State) (k l) {i j : SlotIndex} (h : j ≠ i) :
    (s.grantWaiter k i l).doomed j = s.doomed j :=
  doomed_congr j (by rw [grantWaiter_slots, updVec_get_ne _ h]) (fun _ => by rw [grantWaiter_sessions])
    (poolOnly_grantWaiter s k i l).sweepQueue (poolOnly_grantWaiter s k i l).settings

theorem grantWaiter_granted (s : State) (k) {i : SlotIndex} {l : Lease} (h : s.slots[i].lease = some l) :
    Granted i s (s.grantWaiter k i l) :=
  ⟨l, h, by rw [grantWaiter_slots, updVec_get_self], by rw [grantWaiter_leaseCounters, updVec_get_self]⟩

theorem grantWaiter_untouched (s : State) (k l) {i j : SlotIndex} (h : j ≠ i) :
    Untouched j s (s.grantWaiter k i l) :=
  ⟨by rw [grantWaiter_slots, updVec_get_ne _ h], by rw [grantWaiter_leaseCounters, updVec_get_ne _ h]⟩

/-! ### A regrant -/

/-- The waiters granted out of a list of waiters, looked at in order (R54). -/
def State.grantedFrom (s : State) (e : Entry) (ws : List SlotIndex) : List SlotIndex :=
  (ws.filter fun i => !s.doomed i).take
    (grantCount s.settings.sharedLimit (e.holdMode == .exclusive) e.holders.length
      ((ws.filter fun i => !s.doomed i).map s.modeOf))

theorem grantedFrom_subset (s : State) (e ws) {j} (h : j ∈ s.grantedFrom e ws) : j ∈ ws :=
  List.mem_of_mem_filter (List.mem_of_mem_take h)

theorem grantedFrom_sublist (s : State) (e ws) : (s.grantedFrom e ws).Sublist ws :=
  (List.take_sublist _ _).trans List.filter_sublist

theorem grantedOf_eq (s : State) (e : Entry) : s.grantedOf e = s.grantedFrom e e.queue := rfl

/-- The entry after these waiters were granted. -/
def State.withGranted (s : State) (e : Entry) (g : List SlotIndex) : Entry :=
  { e with
    holders := e.holders ++ g
    queue := e.queue.filter fun i => !g.contains i
    holdMode := s.holdAfter e.holdMode g }

theorem regranted_eq (s : State) (e : Entry) : s.regranted e = s.withGranted e (s.grantedFrom e e.queue) := rfl

@[simp] theorem withGranted_nil (s : State) (e : Entry) : s.withGranted e [] = e := by
  simp [State.withGranted, State.holdAfter]

theorem modeOf_congr {s t : State} {j : SlotIndex} (h : t.slots[j].lease = s.slots[j].lease) :
    t.modeOf j = s.modeOf j := by unfold State.modeOf; rw [h]

/-- What a pass of the grant policy over waiters does: the granted ones are those R54 counts, the entry takes them
in, and nothing else changes. -/
structure Pass (k : Word) (e : Entry) (g : List SlotIndex) (s t : State) : Prop where
  entry : entryOf t.directory k = some (s.withGranted e g)
  otherKeys : ∀ k', k' ≠ k → entryOf t.directory k' = entryOf s.directory k'
  granted : ∀ j ∈ g, Granted j s t
  others : ∀ j, j ∉ g → Untouched j s t
  sessions : t.sessions = s.sessions
  poolOnly : PoolOnly s t
  rising : Rising s.directory → Rising t.directory

theorem Pass.refl {k : Word} {e : Entry} {s : State} (he : entryOf s.directory k = some e) : Pass k e [] s s :=
  ⟨by rw [withGranted_nil, he], fun _ _ => rfl, fun _ h => by simp at h, fun _ _ => ⟨rfl, rfl⟩, rfl, rfl, id⟩

theorem grantedFrom_doomed {s : State} {e : Entry} {i : SlotIndex} {ws : List SlotIndex} (h : s.doomed i = true) :
    s.grantedFrom e (i :: ws) = s.grantedFrom e ws := by
  unfold State.grantedFrom; simp [h]

theorem grantedFrom_cons {s : State} {e : Entry} {i : SlotIndex} {ws : List SlotIndex} (h : s.doomed i = false) :
    s.grantedFrom e (i :: ws) =
      (i :: ws.filter fun j => !s.doomed j).take
        (grantCount s.settings.sharedLimit (e.holdMode == .exclusive) e.holders.length
          (s.modeOf i :: (ws.filter fun j => !s.doomed j).map s.modeOf)) := by
  unfold State.grantedFrom; simp [h]

/-- The pass of the grant policy over a list of waiters grants the ones R54 counts (R54, R55, R57). -/
theorem regrantOver_pass (k : Word) : ∀ (ws : List SlotIndex) (s : State) (e : Entry),
    entryOf s.directory k = some e → ws.Nodup → (∀ j ∈ ws, (s.slots[j].lease).isSome) →
    Pass k e (s.grantedFrom e ws) s (regrantOver k ws s) := by
  intro ws
  induction ws with
  | nil => intro s e he _ _; exact Pass.refl he
  | cons i ws ih =>
    intro s e he hnd hl
    obtain ⟨hi, hnd⟩ := List.nodup_cons.1 hnd
    have hl' : ∀ j ∈ ws, (s.slots[j].lease).isSome := fun j hj => hl j (List.mem_cons_of_mem _ hj)
    obtain ⟨l, hli⟩ := Option.isSome_iff_exists.1 (hl i List.mem_cons_self)
    have hmode : s.modeOf i = l.mode := by unfold State.modeOf; rw [hli]
    by_cases hd : s.doomed i = true
    · rw [grantedFrom_doomed hd]
      have : regrantOver k (i :: ws) s = regrantOver k ws s := by simp [regrantOver, hd]
      rw [this]; exact ih s e he hnd hl'
    · have hd : s.doomed i = false := by simpa using hd
      rw [grantedFrom_cons hd, hmode]
      simp only [regrantOver, hd, hli, he]
      cases hm : l.mode with
      | exclusive =>
        by_cases hh : e.holders = []
        · have hc : s.compatible e .exclusive = true := by simp [State.compatible, hh]
          have hg : (i :: ws.filter fun j => !s.doomed j).take
              (grantCount s.settings.sharedLimit (e.holdMode == .exclusive) e.holders.length
                (.exclusive :: (ws.filter fun j => !s.doomed j).map s.modeOf)) = [i] := by
            simp [grantCount, hh]
          rw [hg]
          simp only [hc, Bool.false_eq_true, if_false, if_true]
          refine ⟨?_, fun k' hk => grantWaiter_otherKeys s i l hk, ?_, ?_, grantWaiter_sessions s k i l,
            poolOnly_grantWaiter s k i l, grantWaiter_rising s k i l⟩
          · rw [grantWaiter_entry, he]
            simp [State.withGranted, State.holdAfter, Entry.addHolder, Entry.dropWaiter, hmode]
            exact List.filter_congr fun j _ => by by_cases h : j = i <;> simp [bne, h]
          · intro j hj
            obtain rfl := List.mem_singleton.1 hj
            exact grantWaiter_granted s k hli
          · intro j hj
            exact grantWaiter_untouched s k l (fun h => hj (by simp [h]))
        · have hc : s.compatible e .exclusive = false := by simp [State.compatible, hh]
          have hg : (i :: ws.filter fun j => !s.doomed j).take
              (grantCount s.settings.sharedLimit (e.holdMode == .exclusive) e.holders.length
                (.exclusive :: (ws.filter fun j => !s.doomed j).map s.modeOf)) = [] := by
            simp [grantCount, hh]
          rw [hg]
          simp only [hc, Bool.false_eq_true, if_false]
          exact Pass.refl he
      | shared =>
        by_cases hok : e.holdMode ≠ .exclusive ∧ e.holders.length < s.settings.sharedLimit
        · have hc : s.compatible e .shared = true := by simp [State.compatible, hok.1, hok.2]
          have hx : (e.holdMode == HoldMode.exclusive) = false := by simp [hok.1]
          simp only [hc, Bool.false_eq_true, if_false, if_true]
          have hP := ih (s.grantWaiter k i l) ((e.dropWaiter i).addHolder i l.mode)
            (by rw [grantWaiter_entry, he]; rfl) hnd
            (fun j hj => by
              have hne : j ≠ i := fun h => hi (h ▸ hj)
              rw [grantWaiter_slots, updVec_get_ne _ hne]; exact hl' j hj)
          have hset := (poolOnly_grantWaiter s k i l).settings
          have hfil : (ws.filter fun j => !(s.grantWaiter k i l).doomed j) = ws.filter fun j => !s.doomed j :=
            List.filter_congr fun j hj => by
              rw [grantWaiter_doomed_ne s k l (ne_of_mem_of_not_mem hj hi)]
          have hmap : (ws.filter fun j => !s.doomed j).map (s.grantWaiter k i l).modeOf =
              (ws.filter fun j => !s.doomed j).map s.modeOf :=
            List.map_congr_left fun j hj => modeOf_congr (by
              have hne : j ≠ i := fun h => hi (h ▸ List.mem_of_mem_filter hj)
              rw [grantWaiter_slots, updVec_get_ne _ hne])
          have hg' : (s.grantWaiter k i l).grantedFrom ((e.dropWaiter i).addHolder i l.mode) ws =
              (ws.filter fun j => !s.doomed j).take
                (grantCount s.settings.sharedLimit false (e.holders.length + 1)
                  ((ws.filter fun j => !s.doomed j).map s.modeOf)) := by
            unfold State.grantedFrom
            rw [hset, hfil, hmap, hm]
            have : (HoldMode.shared == HoldMode.exclusive) = false := rfl
            simp [LeaseMode.hold, this]
          have hg : (i :: ws.filter fun j => !s.doomed j).take
              (grantCount s.settings.sharedLimit (e.holdMode == .exclusive) e.holders.length
                (.shared :: (ws.filter fun j => !s.doomed j).map s.modeOf)) =
              i :: (s.grantWaiter k i l).grantedFrom ((e.dropWaiter i).addHolder i l.mode) ws := by
            rw [hg', hx]
            simp [grantCount, hok.2, Nat.add_comm 1]
          rw [hg]
          have hig : i ∉ (s.grantWaiter k i l).grantedFrom ((e.dropWaiter i).addHolder i l.mode) ws :=
            fun h => hi (grantedFrom_subset _ _ _ h)
          generalize (s.grantWaiter k i l).grantedFrom ((e.dropWaiter i).addHolder i l.mode) ws = g at hP hg' hg hig ⊢
          have hhead : ∀ j g', g = j :: g' → s.modeOf j = .shared := by
            intro j g' hjg
            rw [hg'] at hjg
            cases hw : (ws.filter fun j => !s.doomed j) with
            | nil => rw [hw] at hjg; simp at hjg
            | cons w ws' =>
              rw [hw] at hjg
              by_contra hne
              have hme : s.modeOf w = .exclusive := by
                have hwj : w = j := by
                  cases hn : grantCount s.settings.sharedLimit false (e.holders.length + 1) ((w :: ws').map s.modeOf) with
                  | zero => rw [hn] at hjg; simp at hjg
                  | succ n => rw [hn] at hjg; simpa using (List.cons.inj hjg).1
                rw [hwj]
                cases hmj : s.modeOf j with
                | shared => exact absurd hmj hne
                | exclusive => rfl
              simp [hme, grantCount] at hjg
          refine ⟨?_, ?_, ?_, ?_, ?_, ?_, ?_⟩
          · rw [hP.entry]
            refine congrArg some ?_
            have hq : ∀ q : List SlotIndex, (q.filter (· != i)).filter (fun j => !g.contains j) =
                q.filter fun j => !(i :: g).contains j := by
              intro q
              rw [List.filter_filter]
              exact List.filter_congr fun j _ => by
                by_cases hji : j = i <;> simp [hji]
            have hmd : (s.grantWaiter k i l).holdAfter l.mode.hold g = (s.modeOf i).hold := by
              cases g with
              | nil => simp [State.holdAfter, hmode]
              | cons j g' =>
                have hjs := hhead j g' rfl
                have hji : j ≠ i := fun h => hig (by rw [h]; simp)
                have : (s.grantWaiter k i l).modeOf j = s.modeOf j :=
                  modeOf_congr (by rw [grantWaiter_slots, updVec_get_ne _ hji])
                simp [State.holdAfter, this, hjs, hmode, hm]
            unfold State.withGranted
            simp only [addHolder_holders, addHolder_queue, dropWaiter_queue, dropWaiter_holders, addHolder_holdMode,
              addHolder_key, dropWaiter_key, hq, List.append_assoc, List.singleton_append, hmd]
            rfl
          · intro k' hk
            rw [hP.otherKeys k' hk, grantWaiter_otherKeys s i l hk]
          · intro j hj
            rcases List.mem_cons.1 hj with rfl | hj
            · obtain ⟨h1, h2⟩ := hP.others j hig
              obtain ⟨l', hl1, hl2, hl3⟩ := grantWaiter_granted s k hli
              exact ⟨l', hl1, by rw [h1, hl2], by rw [h2, hl3]⟩
            · have hji : j ≠ i := fun h => hig (h ▸ hj)
              obtain ⟨l', hl1, hl2, hl3⟩ := hP.granted j hj
              obtain ⟨u1, u2⟩ := grantWaiter_untouched s k l hji
              exact ⟨l', by rw [← hl1, u1], by rw [hl2, u1], by rw [hl3, u1, u2]⟩
          · intro j hj
            have hj1 : j ≠ i := fun h => hj (by simp [h])
            have hj2 : j ∉ g := fun h => hj (List.mem_cons_of_mem _ h)
            obtain ⟨h1, h2⟩ := hP.others j hj2
            obtain ⟨u1, u2⟩ := grantWaiter_untouched s k l hj1
            exact ⟨h1.trans u1, h2.trans u2⟩
          · rw [hP.sessions, grantWaiter_sessions]
          · exact (poolOnly_grantWaiter s k i l).trans hP.poolOnly
          · exact fun h => hP.rising (grantWaiter_rising s k i l h)
        · have hc : s.compatible e .shared = false := by
            simp only [State.compatible]
            by_cases h1 : e.holdMode = .exclusive
            · simp [h1]
            · have h2 : ¬ e.holders.length < s.settings.sharedLimit := fun h => hok ⟨h1, h⟩
              simp [h2]
          have hg : (i :: ws.filter fun j => !s.doomed j).take
              (grantCount s.settings.sharedLimit (e.holdMode == .exclusive) e.holders.length
                (.shared :: (ws.filter fun j => !s.doomed j).map s.modeOf)) = [] := by
            have : ¬ ((e.holdMode == HoldMode.exclusive) = false ∧ e.holders.length < s.settings.sharedLimit) := by
              simpa using hok
            simp only [grantCount, if_neg this, List.take_zero]
          rw [hg]
          simp only [hc, Bool.false_eq_true, if_false]
          exact Pass.refl he

/-- A regrant of a key whose entry is there does one pass over its wait queue (R54). -/
theorem regrant_pass {s : State} {k : Word} {e : Entry} (he : entryOf s.directory k = some e) (hnd : e.queue.Nodup)
    (hl : ∀ j ∈ e.queue, (s.slots[j].lease).isSome) : Pass k e (s.grantedOf e) s (s.regrant k) := by
  have : s.regrant k = regrantOver k e.queue s := by unfold State.regrant; rw [he]
  rw [this, grantedOf_eq]
  exact regrantOver_pass k e.queue s e he hnd hl

/-- A regrant of a key without an entry changes nothing. -/
theorem regrant_none {s : State} {k : Word} (h : entryOf s.directory k = none) : s.regrant k = s := by
  unfold State.regrant; rw [h]

/-- A regrant never changes more than the pool, whatever the state. -/
theorem poolOnly_regrantOver (k : Word) : ∀ (ws : List SlotIndex) (s : State), PoolOnly s (regrantOver k ws s) := by
  intro ws
  induction ws with
  | nil => intro s; rfl
  | cons i ws ih =>
    intro s
    unfold regrantOver
    split
    · exact ih s
    · split
      · split
        · split
          · exact poolOnly_grantWaiter _ _ _ _
          · exact (poolOnly_grantWaiter _ _ _ _).trans (ih _)
        · rfl
      · rfl

theorem poolOnly_regrant (s : State) (k) : PoolOnly s (s.regrant k) := by
  unfold State.regrant
  split
  · rfl
  · exact poolOnly_regrantOver _ _ _

end Sys2Proof.Machine
end

