-- ==== Sys2Proof/Laws/Removal.lean ====
section
/-! SUPPORT. What it does when a slot leaves the holders or waiters of its key (R4, R18, R19, R32, R56). -/

namespace Sys2Proof.Machine

/-! ### Freeing and ending -/

theorem dispose_slots (s : State) (i : SlotIndex) (d : Disposal) :
    (s.dispose i d).slots = updVec s.slots i fun sl => match d with | .free => sl.freed | .ended k => sl.endedWith k := by
  cases d with
  | free => show (s.freeSlot i).slots = _; unfold State.freeSlot; split <;> rfl
  | ended k => rfl

theorem dispose_leaseCounters (s : State) (i : SlotIndex) (d : Disposal) :
    (s.dispose i d).leaseCounters = updVec s.leaseCounters i fun c => { c with value := 0, running := false } := by
  cases d with
  | free => show (s.freeSlot i).leaseCounters = _; unfold State.freeSlot; split <;> rfl
  | ended k => rfl

@[simp] theorem dispose_directory (s : State) (i : SlotIndex) (d : Disposal) :
    (s.dispose i d).directory = s.directory := by
  cases d with
  | free => show (s.freeSlot i).directory = _; unfold State.freeSlot; split <;> rfl
  | ended k => rfl

theorem freeSlot_sessions (s : State) {i : SlotIndex} {l : Lease} (h : s.slots[i].lease = some l) :
    (s.freeSlot i).sessions = updVec s.sessions l.station fun r => { r with leaseCount := r.leaseCount - 1 } := by
  unfold State.freeSlot; rw [h]; rfl

theorem endSlot_sessions (s : State) (i : SlotIndex) (k) : (s.endSlot i k).sessions = s.sessions := rfl

theorem freeSlot_sessionState (s : State) (i : SlotIndex) (p : Station) :
    (s.freeSlot i).sessions[p].state = s.sessions[p].state := by
  cases h : s.slots[i].lease with
  | none => unfold State.freeSlot; rw [h]; rfl
  | some l => simp only [freeSlot_sessions s h]; rw [updVec_get]; split <;> rfl

theorem dispose_sessionState (s : State) (i : SlotIndex) (d : Disposal) (p : Station) :
    (s.dispose i d).sessions[p].state = s.sessions[p].state := by
  cases d with
  | free => exact freeSlot_sessionState s i p
  | ended k => rfl

theorem freeSlot_freed {s : State} {i : SlotIndex} {l : Lease} (h : s.slots[i].lease = some l) :
    Freed i l s (s.freeSlot i) :=
  ⟨by rw [show (s.freeSlot i).slots = _ from dispose_slots s i .free, updVec_get_self]; rfl,
   by rw [show (s.freeSlot i).leaseCounters = _ from dispose_leaseCounters s i .free, updVec_get_self],
   by rw [freeSlot_sessions s h]; rfl⟩

theorem endSlot_ended (s : State) (i : SlotIndex) (k : NoticeKind) :
    EndedWith i k s.leaseCounters[i].claim s (s.endSlot i k) :=
  ⟨by rw [show (s.endSlot i k).slots = _ from dispose_slots s i (.ended k), updVec_get_self]; rfl,
   by rw [show (s.endSlot i k).leaseCounters = _ from dispose_leaseCounters s i (.ended k), updVec_get_self], rfl⟩

/-! ### Vacating -/

theorem without_eq (e : Entry) (i : SlotIndex) : (e.dropHolder i).dropWaiter i = e.without i := by
  unfold Entry.dropHolder Entry.dropWaiter Entry.without
  simp [List.isEmpty_iff]

@[simp] theorem vacate_slots (s : State) (i k) : (s.vacate i k).slots = s.slots := editEntry_slots _ _ _
@[simp] theorem vacate_leaseCounters (s : State) (i k) : (s.vacate i k).leaseCounters = s.leaseCounters :=
  editEntry_leaseCounters _ _ _
@[simp] theorem vacate_sessions (s : State) (i k) : (s.vacate i k).sessions = s.sessions := editEntry_sessions _ _ _

theorem vacate_entry (s : State) (i k) :
    entryOf (s.vacate i k).directory k = (entryOf s.directory k).map fun e => e.without i := by
  unfold State.vacate
  rw [editEntry_self _ _ _ (fun e => by rfl)]
  congr 1; funext e; exact without_eq e i

theorem vacate_otherKeys (s : State) {k k' : Word} (i) (h : k' ≠ k) :
    entryOf (s.vacate i k).directory k' = entryOf s.directory k' := by
  unfold State.vacate
  exact editEntry_ne _ _ (fun e => by rfl) h

theorem vacate_rising (s : State) (i k) (h : Rising s.directory) : Rising (s.vacate i k).directory :=
  editEntry_rising _ _ _ h

/-- Which waiters a regrant grants is read from the slots of the queue, the session states, the Sweep Queue and the
settings alone. -/
theorem grantedOf_congr {s t : State} (e : Entry) (hs : ∀ j ∈ e.queue, t.slots[j] = s.slots[j])
    (hse : ∀ p : Station, t.sessions[p].state = s.sessions[p].state) (hq : t.sweepQueue = s.sweepQueue)
    (hset : t.settings = s.settings) : t.grantedOf e = s.grantedOf e := by
  have hf : (e.queue.filter fun j => !t.doomed j) = e.queue.filter fun j => !s.doomed j :=
    List.filter_congr fun j hj => by rw [doomed_congr j (hs j hj) hse hq hset]
  have hm : (e.queue.filter fun j => !s.doomed j).map t.modeOf = (e.queue.filter fun j => !s.doomed j).map s.modeOf :=
    List.map_congr_left fun j hj => modeOf_congr (by rw [hs j (List.mem_of_mem_filter hj)])
  unfold State.grantedOf
  simp only [hf, hm, hset]

theorem grantedOf_subset (s : State) (e : Entry) {j} (h : j ∈ s.grantedOf e) : j ∈ e.queue :=
  grantedFrom_subset s e e.queue h

theorem regranted_congr {s t : State} (e : Entry) (hs : ∀ j ∈ e.queue, t.slots[j] = s.slots[j])
    (hse : ∀ p : Station, t.sessions[p].state = s.sessions[p].state) (hq : t.sweepQueue = s.sweepQueue)
    (hset : t.settings = s.settings) : t.regranted e = s.regranted e := by
  have hg := grantedOf_congr e hs hse hq hset
  unfold State.regranted
  simp only [hg]
  cases h : s.grantedOf e with
  | nil => rfl
  | cons j g =>
    have : t.modeOf j = s.modeOf j :=
      modeOf_congr (by rw [hs j (grantedOf_subset s e (by rw [h]; exact List.mem_cons_self))])
    simp [State.holdAfter, this]

/-- A live slot of a sound directory has its key's entry. -/
theorem State.DirectorySound.entry_of_live {s : State} (h : s.DirectorySound) {i : SlotIndex} {l : Lease}
    (hlive : s.slots[i].state.isLive = true) (hl : s.slots[i].lease = some l) :
    ∃ e, entryOf s.directory l.key = some e ∧ e.Sound s := by
  obtain ⟨e, he, hk⟩ := h.listed i l hlive hl
  exact ⟨e, hk ▸ entryOf_of_mem h.rising he, h.entries e he⟩

theorem removeSlot_live {s : State} {i : SlotIndex} {l : Lease} (hlive : s.slots[i].state.isLive = true)
    (hl : s.slots[i].lease = some l) (d : Disposal) :
    s.removeSlot i d = (((s.vacate i l.key).dispose i d).regrant l.key).settleEntry l.key := by
  unfold State.removeSlot; rw [hlive, hl]

theorem removeSlot_notLive {s : State} {i : SlotIndex} (h : s.slots[i].state.isLive = false) (d : Disposal) :
    s.removeSlot i d = s.dispose i d := by
  unfold State.removeSlot; rw [h]

theorem poolOnly_removeSlot (s : State) (i d) : PoolOnly s (s.removeSlot i d) := by
  unfold State.removeSlot
  split
  · exact (((poolOnly_vacate _ _ _).trans (poolOnly_dispose _ _ _)).trans (poolOnly_regrant _ _)).trans
      (poolOnly_settleEntry _ _)
  · exact poolOnly_dispose _ _ _

theorem without_queue_nodup {e : Entry} (h : e.queue.Nodup) (i) : (e.without i).queue.Nodup := h.filter _

theorem mem_without_queue {e : Entry} {i j : SlotIndex} : j ∈ (e.without i).queue ↔ j ∈ e.queue ∧ j ≠ i := by
  simp [Entry.without]

theorem mem_without_holders {e : Entry} {i j : SlotIndex} : j ∈ (e.without i).holders ↔ j ∈ e.holders ∧ j ≠ i := by
  simp [Entry.without]

/-- The whole of a removal: the slot takes its new value, the regrant of its key follows R54, and an emptied entry
goes. -/
theorem removeSlot_leaves {s : State} (h : s.DirectorySound) {i : SlotIndex} {l : Lease}
    (hlive : s.slots[i].state.isLive = true) (hl : s.slots[i].lease = some l) (d : Disposal) :
    Leaves i l s (s.removeSlot i d) ∧ (s.removeSlot i d).slots[i] = (s.dispose i d).slots[i] ∧
      (s.removeSlot i d).leaseCounters[i] = (s.dispose i d).leaseCounters[i] ∧
      (s.removeSlot i d).sessions = (s.dispose i d).sessions ∧ Rising (s.removeSlot i d).directory := by
  obtain ⟨e, he, hsound⟩ := h.entry_of_live hlive hl
  set u := (s.vacate i l.key).dispose i d with hu
  have hpu : PoolOnly s u := (poolOnly_vacate _ _ _).trans (poolOnly_dispose _ _ _)
  have hue : entryOf u.directory l.key = some (e.without i) := by
    rw [hu, dispose_directory, vacate_entry, he]; rfl
  have hus : ∀ j, j ≠ i → u.slots[j] = s.slots[j] := fun j hj => by
    rw [hu, dispose_slots, updVec_get_ne _ hj, vacate_slots]
  have huc : ∀ j, j ≠ i → u.leaseCounters[j] = s.leaseCounters[j] := fun j hj => by
    rw [hu, dispose_leaseCounters, updVec_get_ne _ hj, vacate_leaseCounters]
  have huse : u.sessions = (s.dispose i d).sessions := by
    rw [hu]
    cases d with
    | free =>
      show ((s.vacate i l.key).freeSlot i).sessions = (s.freeSlot i).sessions
      rw [freeSlot_sessions _ (by rw [vacate_slots]; exact hl), freeSlot_sessions _ hl, vacate_sessions]
    | ended k => exact vacate_sessions s i l.key
  have hust : ∀ p : Station, u.sessions[p].state = s.sessions[p].state := fun p => by
    rw [huse]; exact dispose_sessionState s i d p
  have hslots : ∀ j ∈ (e.without i).queue, u.slots[j] = s.slots[j] :=
    fun j hj => hus j (mem_without_queue.1 hj).2
  have hP : Pass l.key (e.without i) (u.grantedOf (e.without i)) u (u.regrant l.key) :=
    regrant_pass hue (without_queue_nodup hsound.queueOnce i) fun j hj => by
      rw [hslots j hj]
      obtain ⟨_, l', hl', _⟩ := (hsound.waiters j).1 (mem_without_queue.1 hj).1
      rw [hl']; rfl
  have hg : u.grantedOf (e.without i) = s.grantedOf (e.without i) :=
    grantedOf_congr _ hslots hust hpu.sweepQueue hpu.settings
  have hr : u.regranted (e.without i) = s.regranted (e.without i) :=
    regranted_congr _ hslots hust hpu.sweepQueue hpu.settings
  have hni : i ∉ u.grantedOf (e.without i) := fun hm => (mem_without_queue.1 (grantedOf_subset _ _ hm)).2 rfl
  have ht : s.removeSlot i d = (u.regrant l.key).settleEntry l.key := removeSlot_live hlive hl d
  have hentry : entryOf (u.regrant l.key).directory l.key = some (s.regranted (e.without i)) := by
    rw [hP.entry, ← hr]; rfl
  refine ⟨⟨fun e' he' => ?_, poolOnly_removeSlot s i d⟩, ?_, ?_, ?_, ?_⟩
  · obtain rfl : e = e' := Option.some.inj (he.symm.trans he')
    refine ⟨?_, fun k' hk => ?_, fun j hj => ?_, fun j hj hjg => ?_⟩
    · rw [ht, settleEntry_self, hentry]
      by_cases hc : (s.regranted (e.without i)).holders = [] ∧ (s.regranted (e.without i)).queue = []
      · simp [Option.filter, hc.1, hc.2]
      · rw [if_neg hc]
        rcases not_and_or.1 hc with hc | hc <;> simp [Option.filter, hc]
    · rw [ht, settleEntry_ne _ hk, hP.otherKeys k' hk, hu, dispose_directory, vacate_otherKeys s i hk]
    · have hji : j ≠ i := (mem_without_queue.1 (grantedOf_subset _ _ hj)).2
      refine ⟨fun hc => hji (Option.some.inj hc), ?_⟩
      obtain ⟨l', h1, h2, h3⟩ := hP.granted j (hg ▸ hj)
      exact ⟨l', by rw [← hus j hji, h1], by rw [ht, settleEntry_slots, h2, hus j hji],
        by rw [ht, settleEntry_leaseCounters, h3, hus j hji, huc j hji]⟩
    · have hji : j ≠ i := fun hc => hj (by rw [hc])
      obtain ⟨h1, h2⟩ := hP.others j (hg ▸ hjg)
      exact ⟨by rw [ht, settleEntry_slots, h1, hus j hji], by rw [ht, settleEntry_leaseCounters, h2, huc j hji]⟩
  · rw [ht, settleEntry_slots, (hP.others i hni).1, hu, dispose_slots, dispose_slots, vacate_slots]
  · rw [ht, settleEntry_leaseCounters, (hP.others i hni).2, hu, dispose_leaseCounters, dispose_leaseCounters,
      vacate_leaseCounters]
  · rw [ht, settleEntry_sessions, hP.sessions, huse]
  · rw [ht]
    refine settleEntry_rising _ _ (hP.rising ?_)
    rw [hu, dispose_directory]; exact vacate_rising s i l.key h.rising

/-! ### A slot freed, and a live slot ended: the whole taking -/

/-- A slot that is not FREE is freed: R19 for the slot, its list and its key's regrant if it was live, nothing else if it
was ENDED. -/
theorem removeSlot_free {s : State} (h : s.DirectorySound) {i : SlotIndex} {l : Lease}
    (hl : s.slots[i].lease = some l) :
    Freed i l s (s.removeSlot i .free) ∧ (s.slots[i].state.isLive = true → Leaves i l s (s.removeSlot i .free)) ∧
      (s.slots[i].state = .ended →
        PoolOnly s (s.removeSlot i .free) ∧ (s.removeSlot i .free).directory = s.directory ∧
          ∀ j, j ≠ i → Untouched j s (s.removeSlot i .free)) := by
  have hf := freeSlot_freed hl
  cases hlive : s.slots[i].state.isLive with
  | true =>
    obtain ⟨a, b, c, d, _⟩ := removeSlot_leaves h hlive hl .free
    refine ⟨⟨b.trans hf.slot, c.trans hf.counter, d.trans hf.count⟩, fun _ => a, fun he => ?_⟩
    rw [he] at hlive; cases hlive
  | false =>
    rw [removeSlot_notLive hlive]
    refine ⟨hf, fun hc => (by cases hc), fun _ => ⟨poolOnly_dispose _ _ _, dispose_directory _ _ _, fun j hj => ⟨?_, ?_⟩⟩⟩
    · rw [dispose_slots, updVec_get_ne _ hj]
    · rw [dispose_leaseCounters, updVec_get_ne _ hj]

/-- A live slot is ended with a notice: its list and its key's regrant belong to the same taking. -/
theorem removeSlot_ended {s : State} (h : s.DirectorySound) {i : SlotIndex} {l : Lease}
    (hlive : s.slots[i].state.isLive = true) (hl : s.slots[i].lease = some l) (k : NoticeKind) :
    EndedWith i k s.leaseCounters[i].claim s (s.removeSlot i (.ended k)) ∧ Leaves i l s (s.removeSlot i (.ended k)) := by
  obtain ⟨a, b, c, d, _⟩ := removeSlot_leaves h hlive hl (.ended k)
  have he := endSlot_ended s i k
  exact ⟨⟨b.trans he.slot, c.trans he.counter, d.trans he.count⟩, a⟩

end Sys2Proof.Machine
end

