-- ==== Sys2Proof/Laws/Takings.lean ====
section
/-! SUPPORT. The taking of a posted command said once: its arguments, its checks in order, its answer (R41, R46, R60,
R112, R155, R156, R161). -/

namespace Sys2Proof.Machine

/-! ### Arguments -/

theorem word_of_bytes (w : Word) : w.extractLsb' 8 8 ++ w.extractLsb' 0 8 = w := by
  apply BitVec.eq_of_getLsbD_eq
  intro i hi
  rw [BitVec.getLsbD_append]
  simp only [BitVec.getLsbD_extractLsb']
  by_cases h : i < 8
  · simp [h]
  · have : i - 8 < 8 := by omega
    have h2 : 8 + (i - 8) = i := by omega
    simp [h, this, h2]

@[simp] theorem argByte_zero (b : Byte) (bs : List Byte) : argByte (b :: bs) 0 = b := rfl
@[simp] theorem argByte_succ (b : Byte) (bs : List Byte) (n : Nat) : argByte (b :: bs) (n + 1) = argByte bs n := rfl
theorem argWord_eq (bs : List Byte) (n : Nat) : argWord bs n = argByte bs n ++ argByte bs (n + 1) := rfl
@[simp] theorem argWord_zero (w : Word) (bs : List Byte) : argWord (wordBytes w ++ bs) 0 = w := word_of_bytes w
@[simp] theorem argWord_zero' (w : Word) : argWord (wordBytes w) 0 = w := word_of_bytes w
@[simp] theorem argWord_succ (b : Byte) (bs : List Byte) (n : Nat) : argWord (b :: bs) (n + 1) = argWord bs n := rfl
@[simp] theorem argByte_wordBytes (w : Word) (bs : List Byte) (n : Nat) :
    argByte (wordBytes w ++ bs) (n + 2) = argByte bs n := rfl
@[simp] theorem argWord_wordBytes (w : Word) (bs : List Byte) (n : Nat) :
    argWord (wordBytes w ++ bs) (n + 2) = argWord bs n := rfl

/-! ### Checks in order -/

theorem firstFailing_append (a b : List (Bool × ResultCode)) :
    firstFailing (a ++ b) = (firstFailing a).or (firstFailing b) := by
  induction a with
  | nil => simp [firstFailing]
  | cons x xs ih =>
    obtain ⟨c, r⟩ := x
    cases c <;> simp [firstFailing, ih]

theorem sessionRefusal_eq (s : State) (p : Station) (epoch : Byte) :
    s.sessionRefusal p epoch = firstFailing (s.sessionTests p epoch) := by
  unfold State.sessionRefusal State.sessionTests
  have h1 : (SessionState.attached == SessionState.detached) = false := rfl
  have h2 : (SessionState.attached == SessionState.sweeping) = false := rfl
  have h3 : (SessionState.sweeping == SessionState.detached) = false := rfl
  cases s.sessions[p].state
  · simp [firstFailing]
  · by_cases h : epoch = s.sessions[p].epoch <;> simp [firstFailing, h1, h2, h]
  · simp [firstFailing, h3]

theorem adminRefusal_eq (s : State) (p : Station) (epoch : Byte) (format : Bool) :
    s.adminRefusal p epoch format = firstFailing ([(!format, .badArg)] ++ s.adminTests p epoch) := by
  unfold State.adminRefusal State.adminTests
  rw [firstFailing_append, firstFailing_append, sessionRefusal_eq]
  cases format
  · simp [firstFailing]
  · cases firstFailing (s.sessionTests p epoch) <;> simp [firstFailing]

theorem handleRefusal_eq (s : State) (p : Station) (h : Word) :
    s.handleRefusal p h = firstFailing
      [(s.slots[handleSlot h].generation != handleGeneration h || s.slots[handleSlot h].state == .free ||
          s.slots[handleSlot h].lease.isNone, .staleHandle),
        (!s.slots[handleSlot h].ownedBy p, .foreign)] := by
  unfold State.handleRefusal Slot.ownedBy
  generalize s.slots[handleSlot h] = sl
  by_cases hg : sl.generation = handleGeneration h
  · cases hl : sl.lease with
    | none => simp [firstFailing, hg, hl]
    | some l =>
      by_cases hf : sl.state = .free
      · simp [firstFailing, hg, hf, hl]
      · by_cases hp : l.station = p <;> simp [firstFailing, hg, hf, hl, hp]
  · simp [firstFailing, hg]

/-- The checks of R60 down to the handle check, in their order. -/
theorem handleCommandRefusal_eq (s : State) (p : Station) (epoch : Byte) (h : Word) (own : Bool) :
    s.handleCommandRefusal p epoch h own = firstFailing (s.handleTests p epoch h own) := by
  unfold State.handleCommandRefusal State.handleTests
  simp only
  rw [firstFailing_append, firstFailing_append, ← handleRefusal_eq, ← sessionRefusal_eq]
  have hw : handleWellFormed h = !(decide (0x4000#16 ≤ h)) := by
    unfold handleWellFormed
    rw [← decide_not]
    exact decide_eq_decide.2 BitVec.not_le.symm
  rw [hw]
  cases decide (0x4000#16 ≤ h) <;> cases own <;> simp [firstFailing]
  cases s.sessionRefusal p epoch <;> simp

/-- A handle that passes its checks names a slot with a lease of the station. -/
theorem handleTests_lease {s : State} {p : Station} {epoch : Byte} {h : Word} {own : Bool}
    (hh : firstFailing (s.handleTests p epoch h own) = none) :
    ∃ l, s.slots[handleSlot h].lease = some l ∧ l.station = p ∧ s.slots[handleSlot h].state ≠ .free ∧
      s.slots[handleSlot h].generation = handleGeneration h := by
  unfold State.handleTests at hh
  simp only [firstFailing_append, Option.or_eq_none_iff] at hh
  have h2 := hh.2
  unfold Slot.ownedBy at h2
  generalize s.slots[handleSlot h] = sl at h2 ⊢
  cases hl : sl.lease with
  | none => simp [firstFailing, hl] at h2
  | some l =>
    by_cases hg : sl.generation = handleGeneration h <;> by_cases hf : sl.state = .free <;>
      by_cases hp : l.station = p <;> simp [firstFailing, hl, hg, hf, hp] at h2 ⊢

/-! ### Takings -/

theorem posted_eq_some {s : State} {p : Station} {code : Byte} {args : List Byte} :
    s.posted p code = some args ↔ s.Offers p code args := by
  unfold State.posted State.Offers
  cases hc : s.ports[p].command with
  | ready => simp
  | holding r => simp
  | busy c =>
    obtain ⟨cc, ca, cp⟩ := c
    cases cp <;> simp

/-- The taking of a command that is there (R156). -/
theorem unitTaking_offers {s : State} {p : Station} {code : Byte} {args : List Byte} (h : s.Offers p code args)
    {about : List Byte → Bool} (ha : about args = true) (act : List Byte → State → State × Reply) :
    unitTaking p code about act s = .next ((act args s).1.placeResult p code (act args s).2) := by
  unfold unitTaking; rw [posted_eq_some.2 h]; simp [ha]

/-- The GE's taking of a command that it comes to (R41, R156). -/
theorem geTaking_offers {s : State} {p : Station} {code : Byte} {args : List Byte} (h : s.GeOffers p code args)
    (act : List Byte → State → State × Reply) :
    geTaking p code act s = .next ({ (act args s).1 with lastTaken := p }.placeResult p code (act args s).2) := by
  unfold geTaking; rw [posted_eq_some.2 h.1]; simp [h.2]

/-- What a taking of the Session Unit or the Configuration Unit can do. -/
theorem unitTaking_cases {p : Station} {code : Byte} {about : List Byte → Bool}
    {act : List Byte → State → State × Reply} {s t : State} (h : unitTaking p code about act s = .next t) :
    t = s ∨ ∃ args, s.Offers p code args ∧ about args = true ∧
      t = (act args s).1.placeResult p code (act args s).2 := by
  unfold unitTaking at h
  cases hp : s.posted p code with
  | none => rw [hp] at h; simp only [Host.Outcome.next.injEq] at h; exact .inl h.symm
  | some args =>
    rw [hp] at h
    cases ha : about args <;> simp only [ha, Bool.false_eq_true, if_false, if_true, Host.Outcome.next.injEq] at h
    · exact .inl h.symm
    · exact .inr ⟨args, posted_eq_some.1 hp, ha, h.symm⟩

/-- What a taking of the GE can do. -/
theorem geTaking_cases {p : Station} {code : Byte} {act : List Byte → State → State × Reply} {s t : State}
    (h : geTaking p code act s = .next t) :
    t = s ∨ ∃ args, s.GeOffers p code args ∧
      t = { (act args s).1 with lastTaken := p }.placeResult p code (act args s).2 := by
  unfold geTaking at h
  cases hp : s.posted p code with
  | none => rw [hp] at h; simp only [Host.Outcome.next.injEq] at h; exact .inl h.symm
  | some args =>
    rw [hp] at h
    by_cases ha : s.geMayTake p = true
    · simp only [ha, if_true, Host.Outcome.next.injEq] at h
      exact .inr ⟨args, ⟨posted_eq_some.1 hp, ha⟩, h.symm⟩
    · rw [Bool.not_eq_true] at ha
      simp only [ha, Bool.false_eq_true, if_false, Host.Outcome.next.injEq] at h
      exact .inl h.symm

/-! ### The placing of a result: fields -/

section placeResult
variable (s : State) (p : Station) (code : Byte) (r : Reply)

@[simp] theorem placeResult_pending : (s.placeResult p code r).pending = s.pending := rfl
@[simp] theorem placeResult_inReset : (s.placeResult p code r).inReset = s.inReset := rfl
@[simp] theorem placeResult_slots : (s.placeResult p code r).slots = s.slots := rfl
@[simp] theorem placeResult_directory : (s.placeResult p code r).directory = s.directory := rfl
@[simp] theorem placeResult_sessions : (s.placeResult p code r).sessions = s.sessions := rfl
@[simp] theorem placeResult_leaseCounters : (s.placeResult p code r).leaseCounters = s.leaseCounters := rfl
@[simp] theorem placeResult_livenessCounters : (s.placeResult p code r).livenessCounters = s.livenessCounters := rfl
@[simp] theorem placeResult_timeBase : (s.placeResult p code r).timeBase = s.timeBase := rfl
@[simp] theorem placeResult_sweepQueue : (s.placeResult p code r).sweepQueue = s.sweepQueue := rfl
@[simp] theorem placeResult_walk : (s.placeResult p code r).walk = s.walk := rfl
@[simp] theorem placeResult_sessionCompletions :
    (s.placeResult p code r).sessionCompletions = s.sessionCompletions := rfl
@[simp] theorem placeResult_lastTaken : (s.placeResult p code r).lastTaken = s.lastTaken := rfl
@[simp] theorem placeResult_ports :
    (s.placeResult p code r).ports = updVec s.ports p fun q => { q with command := .holding (resultRecord code r) } :=
  rfl
@[simp] theorem placeResult_settings : (s.placeResult p code r).settings = s.settings := rfl
end placeResult

end Sys2Proof.Machine
end

