-- ==== Sys2Proof/WellFormed.lean ====
section
/-! DEFINITION. Which commands describe a frame of their own row: a whole frame's bits have the class the row
names (R146). Every other operand is well formed by its type. -/

namespace Sys2Proof

open Machine

/-- The class of a whole frame with these bytes in front of the event's bits; a part of a frame has no class yet. -/
def FrameEvent.classAfter (lead : List Byte) : FrameEvent → Option FrameClass
  | .whole bits => some (classify (bytesBits lead ++ bits))
  | _ => none

/-- A whole MASK frame is well formed when it carries its mask byte on a byte boundary (R146). -/
def maskFrameOk (ev : FrameEvent) : Bool :=
  match ev.classAfter [codeMask] with
  | some .broken => false
  | _ => true

/-- The same for a whole CLEARFLAGS frame (R146). -/
def clearFlagsFrameOk (ev : FrameEvent) : Bool :=
  match ev.classAfter [codeClearFlags] with
  | some .broken => false
  | _ => true

/-- A whole broken frame is one the port discards (R146). -/
def brokenFrameOk (ev : FrameEvent) : Bool :=
  match ev.classAfter [] with
  | some c => c == .broken
  | none => true

/-- A posted frame's code is no port-local command's (R145). -/
def postedCodeOk (code : Byte) : Bool := !localCodes.contains code

/-- A whole posted frame ends on a byte boundary with its full argument list (R146). -/
def postedFrameOk (code : Byte) (ev : FrameEvent) : Bool :=
  match ev.classAfter [code] with
  | some .broken => false
  | _ => true

/-- A command describes a frame of its own row. -/
def Instr.wellFormed : Instr → Bool
  | .mask _ ev => maskFrameOk ev
  | .clearFlags _ ev => clearFlagsFrameOk ev
  | .brokenFrame _ ev => brokenFrameOk ev
  | .postedFrameEnd _ code ev => postedCodeOk code && postedFrameOk code ev
  | .hardwareReset => true
  | .status _ _ => true
  | .fetch _ _ => true
  | .notices _ _ => true
  | .ident _ _ => true
  | .livenessReload _ _ => true
  | .badCmd _ => true
  | .attach _ => true
  | .detach _ => true
  | .acquire _ => true
  | .release _ => true
  | .renew _ => true
  | .extend _ => true
  | .convert _ => true
  | .queryLease _ => true
  | .queryKey _ => true
  | .purge _ => true
  | .clearAll _ => true
  | .revokeRange _ => true
  | .readConfig _ => true
  | .writeConfig _ => true
  | .writeTickSource _ => true
  | .writeTickPeriod _ => true
  | .writeAccessLevel _ => true
  | .writeQuota _ => true
  | .writeProtectedRange _ => true
  | .writeSharedLimit _ => true
  | .writeQueueLimit _ => true
  | .writeChannelKey _ => true
  | .writeChannelCtrl _ => true
  | .freeze _ => true
  | .holdTimeOn _ => true
  | .holdTimeOff _ => true
  | .internalTick => true
  | .tick => true
  | .leaseCounterRunout _ => true
  | .livenessCounterRunout _ => true
  | .termExpiryClaim _ => true
  | .graceExpiryClaim _ => true
  | .waitExpiryClaim _ => true
  | .lapseClaim _ => true
  | .stationSweepRemoval => true
  | .rangeSweepRemoval => true
  | .stationOrderComplete => true
  | .sessionSweepCompletion _ => true
  | .rangeOrderComplete => true
  | .rangeCompletionClaim _ => true
  | .acknowledgementClaim _ => true
  | .endOfReset _ => true
  | .holdTimeInvalidSetting _ => true

end Sys2Proof
end

