-- ==== Sys2Proof/Tests/Slice0.lean ====
section
/-! SUPPORT. Tests: the checks of WellFormed, the commands against the manual's worked sequences (each test names the
section its values come from), and for each statement with hypotheses a state that meets them. -/

open Sys2Proof Sys2Proof.Machine

namespace Sys2Proof.Tests

set_option Elab.async false

/-! ### Small states -/

/-- A station with a session under epoch 1, grace 0. -/
def sess (leases : Nat) : Session :=
  { state := .attached, epoch := 1, livenessTerm := 0, grace := 0, leaseCount := leases, cause := none }

/-- A slot that is not FREE. -/
def slot (st : SlotState) (g : Generation) (p : Station) (k : Word) (m : LeaseMode) (n : Option NoticeKind) : Slot :=
  { state := st, generation := g, lease := some { station := p, key := k, mode := m, term := 50, waitLimit := 0 },
    extension := none, notice := n }

/-- The part with four stations ATTACHED, some slots in use and the directory given. -/
def world (slots : List (SlotIndex × Slot)) (directory : List Entry) : State :=
  let count := fun p : Station => (slots.map Prod.snd).countP fun sl => sl.ownedBy p
  { State.reset with
    slots := slots.foldl (fun v x => updVec v x.1 fun _ => x.2) State.reset.slots
    directory := directory
    sessions := #v[sess (count 0), sess (count 1), sess (count 2), sess (count 3)] }

def entry (k : Word) (holders : List SlotIndex) (m : HoldMode) (queue : List SlotIndex) : Entry :=
  { key := k, holders := holders, holdMode := m, queue := queue }

/-- A command passed on to its block. -/
def asking (p : Station) (code : Byte) (args : List Byte) (s : State) : State :=
  s.modifyPort p fun q => { q with command := .busy { code := code, args := args, passedOn := true } }

/-- A lease counter that has run out and raised its claim. -/
def claiming (i : SlotIndex) (g : Generation) (ph : Phase) (s : State) : State :=
  s.modifyCounter i fun _ =>
    { value := 0, running := false, generation := g, phase := ph, claim := some { generation := g, phase := ph } }

def after : Result → State
  | .next t => t
  | .fault _ => State.reset
  | .refused _ => State.reset

/-- The result record a port holds after a command. -/
def answer (r : Result) (p : Station) : List Byte :=
  match (after r).ports[p].command with
  | .holding bytes => bytes
  | _ => []

/-! ### WellFormed refuses a term that is not of its own row -/

theorem test_wf_mask : (Instr.mask 0 (.whole [true])).wellFormed = false := by decide
theorem test_wf_clearFlags : (Instr.clearFlags 0 (.whole [])).wellFormed = false := by decide
theorem test_wf_brokenFrame : (Instr.brokenFrame 0 (.whole (bytesBits [0x51]))).wellFormed = false := by decide +kernel
theorem test_wf_postedCode : (Instr.postedFrameEnd 0 0x51 .stop).wellFormed = false := by decide
theorem test_wf_postedFrame : (Instr.postedFrameEnd 0 0x21 (.whole [])).wellFormed = false := by decide +kernel
theorem test_wf_frame : (Instr.postedFrameEnd 0 0x21 (.whole (bytesBits [1]))).wellFormed = true := by decide +kernel

/-! ### Frames -/

/-- Section 12.3, step 2: status byte 0x68 and flags byte 0x04. -/
theorem test_status : (after (exec (.status 0 (.whole (bytesBits [0x00])))
    ((world [(10, slot .held 2 0 0x0300 .exclusive none), (11, slot .ended 0 0 0x0301 .shared (some .timedOut))]
      [entry 0x0300 [10] .exclusive []]).modifyPort 0 fun q =>
        { q with command := .holding [2, 0x32, 0], flags := { q.flags with frameErr := true } }))).ports[0].sdo =
      bytesBits [0x68, 0x04] := by decide +kernel

/-- R152: the identification bytes, then zeros. -/
theorem test_ident : (after (exec (.ident 2 (.whole (bytesBits (List.replicate 9 0)))) State.reset)).ports[2].sdo =
    bytesBits [0x00, 0x5B, 0x42, 0x56, 0x01, 0x04, 0x01, 0x00, 0x80, 0x00] := by decide +kernel

/-- Section 8.7, step 7: the record of an OK RENEW, read whole; the port becomes READY. -/
theorem test_fetch : let t := after (exec (.fetch 1 (.whole (bytesBits [0, 0, 0])))
      ((world [] []).modifyPort 1 fun q => { q with command := .holding [2, 0x32, 0] }))
    t.ports[1].sdo = bytesBits [0x48, 2, 0x32, 0] ∧ t.ports[1].command = .ready := by decide +kernel

/-- R151: without a result, the NONE record. -/
theorem test_fetch_none : (after (exec (.fetch 1 (.whole (bytesBits [0, 0, 0]))) State.reset)).ports[1].sdo =
    bytesBits [0x00, 2, 0, 0xFF] := by decide +kernel

/-- R151: a result placed after the command byte of a FETCH is not shown by its frame, and stays. -/
theorem test_fetch_late_result :
    let s := after (exec (.fetch 1 (.start [])) (asking 1 0x32 [1, 0, 0, 0, 0] (world [] [])))
    let t := after (exec (.fetch 1 (.more (bytesBits [0, 0, 0, 0]))) (s.placeResult 1 0x32 (.plain .ok)))
    let u := after (exec (.fetch 1 .stop) t)
    u.ports[1].sdo = bytesBits [0x88, 2, 0, 0xFF, 0] ∧ u.ports[1].command = .holding [2, 0x32, 0] := by decide +kernel

/-- The notice set of section 7.6. -/
def noticed : State :=
  world [(2, slot .ended 1 3 0x0100 .exclusive (some .revoked)), (7, slot .held 0 3 0x0101 .exclusive (some .granted)),
    (40, slot .grace 5 3 0x0102 .exclusive (some .lapsed))]
    [entry 0x0101 [7] .exclusive [], entry 0x0102 [40] .exclusive []]

/-- Section 7.6, steps 1 to 3: the count, record 1, and select raised three bits into byte 13. -/
theorem test_notices : let t := after (exec (.notices 3 (.whole (List.replicate (8 * 11 + 3) false))) noticed)
    t.ports[3].sdo.take 72 = bytesBits [0x28, 0x00, 3, 0x01, 0x02, 0x01, 0x00, 0x04, 0x04] ∧
      t.ports[3].acks = [[{ slot := 2, generation := 1, kind := .revoked }]] := by decide +kernel

/-- Section 7.6, step 5: slots 7 and 40 read to the end, with slot 2 free. -/
theorem test_notices_whole : (after (exec (.notices 3 (.whole (List.replicate (8 * 14) false)))
    (noticed.modifySlot 2 fun _ => Slot.reset))).ports[3].acks =
      [[{ slot := 7, generation := 0, kind := .granted }, { slot := 40, generation := 5, kind := .lapsed }]] := by
  decide +kernel

/-- R134, R135: the record of a slot freed after the snapshot goes out as it was, and is acknowledged as it was. -/
theorem test_notices_snapshot_kept :
    let s := after (exec (.notices 3 (.start (bytesBits [1]))) noticed)
    let t := after (exec (.notices 3 (.more (bytesBits (List.replicate 7 0)))) (s.modifySlot 2 fun _ => Slot.reset))
    let u := after (exec (.notices 3 .stop) t)
    u.ports[3].sdo = bytesBits [0x28, 0x00, 1, 0x01, 0x02, 0x01, 0x00, 0x04, 0x04] ∧
      u.ports[3].acks = [[{ slot := 2, generation := 1, kind := .revoked }]] := by decide +kernel

/-- R181: the mask byte 0x60 enables RESULT and NOTICE. -/
theorem test_mask : (after (exec (.mask 0 (.whole (bytesBits [0x60]))) State.reset)).ports[0].mask =
    { AttentionMask.reset with result := true, notice := true } := by decide +kernel

/-- R140, R181: 0x04 clears FRAME_ERR alone. -/
theorem test_clearFlags : (after (exec (.clearFlags 0 (.whole (bytesBits [0x04])))
    (State.reset.modifyPort 0 fun q => { q with flags := { q.flags with frameErr := true, lost := true } }))).ports[0].flags =
      { EventFlags.reset with lost := true } := by decide +kernel

/-- Section 12.3, step 1: 3 bits are a broken frame, and hand over no reload. -/
theorem test_broken : let t := after (exec (.brokenFrame 0 (.whole [false, true, false])) State.reset)
    t.ports[0].flags.frameErr = true ∧ t.ports[0].reloads = [] := by decide +kernel

/-- Section 8.7, step 4: a RENEW posted on a HOLDING port discards the result with LOST. -/
theorem test_posted : let t := after (exec (.postedFrameEnd 1 0x32 (.whole (bytesBits [3, 0x00, 0x11, 0, 0])))
      ((world [] []).modifyPort 1 fun q => { q with command := .holding [4, 0x30, 1, 0, 0x11] }))
    t.ports[1].command = .busy { code := 0x32, args := [3, 0x00, 0x11, 0, 0], passedOn := false } ∧
      t.ports[1].flags.lost = true := by decide +kernel

/-- Section 8.7, step 5: a QUERY LEASE on a BUSY port is refused with OVERRUN. -/
theorem test_posted_busy : let t := after (exec (.postedFrameEnd 1 0x38 (.whole (bytesBits [3, 0x00, 0x11])))
      (asking 1 0x32 [3, 0x00, 0x11, 0, 0] (world [] [])))
    t.ports[1].command = .busy { code := 0x32, args := [3, 0x00, 0x11, 0, 0], passedOn := true } ∧
      t.ports[1].flags.overrun = true ∧ t.ports[1].reloads = [.plain] := by decide +kernel

/-- A STATUS frame whose second byte has just been taken by a rising edge, on a port with OVERRUN set. -/
def parked : State := after (exec (.status 0 (.rise false)) (after (exec (.status 0 (.start (List.replicate 7 false)))
  (State.reset.modifyPort 0 fun q => { q with flags := { q.flags with overrun := true } }))))

/-- R182, R148: while the clock stands high SnSDO keeps the last bit of the flags byte, and the next status byte is read
at the falling edge, so it shows a command taken in between. -/
theorem test_falling_edge : parked.sdoPin 0 = some true ∧
    (after (exec (.status 0 .fall) parked)).sdoPin 0 = some false ∧
    (after (exec (.status 0 .fall) (asking 0 0x21 [1] parked))).sdoPin 0 = some true := by decide +kernel

/-- R182: a clock that stands high as select falls falls without taking SnSDO on from bit 7 of the status byte. -/
theorem test_clock_idle_high :
    let s := asking 1 0x21 [1] (after (exec (.status 1 (.rise true)) State.reset))
    let t := after (exec (.brokenFrame 1 (.start [])) s)
    s.sdoPin 1 = none ∧ t.sdoPin 1 = some true ∧ (after (exec (.brokenFrame 1 .fall) t)).sdoPin 1 = some true := by
  decide +kernel

/-- R157: an unknown code is answered BAD_CMD. -/
theorem test_badCmd : answer (exec (.badCmd 2) (asking 2 0x00 [] State.reset)) 2 = [2, 0x00, 0x10] := by decide +kernel

/-! ### Sessions -/

/-- Section 5.9, step 1: epoch 1, the counter loaded with 200. -/
theorem test_attach : let t := exec (.attach 2) (asking 2 0x20 [0, 200, 10, 0] State.reset)
    answer t 2 = [3, 0x20, 0, 1] ∧ (after t).livenessCounters[2].value = 200 ∧ (after t).sessions[2].grace = 10 := by
  decide +kernel

/-- Section 12.3, step 3: RECLAIM of an ATTACHED session is ACCEPTED and orders a sweep. -/
theorem test_attach_reclaim : let t := exec (.attach 0) (asking 0 0x20 [0, 0, 0, 1] (world [] []))
    answer t 0 = [2, 0x20, 3] ∧ (after t).sweepQueue = [.station 0 .reclaim] ∧ (after t).walk = some 0 := by
  decide +kernel

/-- R99: DETACH under an epoch that is not the session's is STALE_SESSION. -/
theorem test_detach_stale : answer (exec (.detach 1) (asking 1 0x21 [9] (world [] []))) 1 = [2, 0x21, 0x13] := by
  decide +kernel

/-- Section 5.9, step 3: a reload sets the counter to the liveness term. -/
theorem test_reload : (after (exec (.livenessReload 2 0)
    (((world [] []).modifySession 2 fun r => { r with livenessTerm := 200 }).modifyPort 2 fun q =>
      { q with reloads := [.plain] }))).livenessCounters[2].value = 200 := by decide +kernel

/-- Section 5.9, step 4: the lapse ends the session. -/
theorem test_lapse : let t := after (exec (.lapseClaim 2)
      (((world [] []).modifySession 2 fun r => { r with livenessTerm := 200 }).modifyLiveness 2 fun c =>
        { c with claim := true }))
    t.sessions[2].state = .sweeping ∧ t.sessions[2].cause = some .lapse ∧ t.livenessCounters[2].claim = false := by
  decide +kernel

/-- Section 5.9, step 5: DETACHED, epoch kept, SESSION_ENDED set. -/
theorem test_completion : let t := after (exec (.sessionSweepCompletion 2)
      { (world [] []).endSession 2 .lapse with
        sweepQueue := [], walk := none, sessionCompletions := #v[none, none, some .lapse, none] })
    t.sessions[2] = { sess 0 with state := .detached } ∧ t.ports[2].flags.sessionEnded = true := by decide +kernel

/-! ### ACQUIRE, RELEASE, CONVERT, the queries -/

/-- Section 2.8, step 1: GRANTED, handle 0x0000. -/
theorem test_acquire : let t := exec (.acquire 0) (asking 0 0x30 [1, 0x02, 0x07, 0x01, 0x01, 0x2C, 0, 0] (world [] []))
    answer t 0 = [4, 0x30, 1, 0, 0] ∧ (after t).directory = [entry 0x0207 [0] .shared []] ∧
      (after t).leaseCounters[0].value = 300 := by decide +kernel

/-- Section 12.1, before step 6: slot 0 at generation 1, slot 1 holds SHARED, slot 2 waits EXCLUSIVE. -/
def contended : State :=
  (world [(1, slot .held 0 1 0x0140 .shared (some .granted)), (2, slot .waiting 0 2 0x0140 .exclusive none)]
    [entry 0x0140 [1] .shared [2]]).modifySlot 0 fun _ => { Slot.reset with generation := 1 }

/-- Section 12.1, step 6: QUEUED in slot 0, handle 0x0100, position 2. -/
theorem test_acquire_queued : let t := exec (.acquire 0) (asking 0 0x30 [1, 0x01, 0x40, 0x01, 0, 50, 0, 0] contended)
    answer t 0 = [5, 0x30, 2, 0x01, 0x00, 2] ∧ (after t).directory = [entry 0x0140 [1] .shared [2, 0]] := by
  decide +kernel

/-- Section 12.1, step 7: the release frees slot 1 and grants slot 2. -/
theorem test_release : let t := exec (.release 1) (asking 1 0x31 [1, 0x00, 0x01] contended)
    answer t 1 = [2, 0x31, 0] ∧ (after t).slots[1] = { Slot.reset with generation := 1 } ∧
      (after t).directory = [entry 0x0140 [2] .exclusive []] ∧
      (after t).slots[2] = slot .held 0 2 0x0140 .exclusive (some .granted) := by decide +kernel

/-- Section 3.8, step 10: a conversion to SHARED grants the shared waiter. -/
theorem test_convert : let t := exec (.convert 3) (asking 3 0x34 [1, 0x00, 0x03, 0x01]
      (world [(3, slot .held 0 3 0x0311 .exclusive (some .granted)), (1, slot .waiting 1 1 0x0311 .shared none)]
        [entry 0x0311 [3] .exclusive [1]]))
    answer t 3 = [2, 0x34, 0] ∧ (after t).directory = [entry 0x0311 [3, 1] .shared []] := by decide +kernel

/-- Section 3.8, step 11: a conversion to EXCLUSIVE beside another holder is CONFLICT. -/
theorem test_convert_conflict : answer (exec (.convert 3) (asking 3 0x34 [1, 0x00, 0x03, 0x02]
    (world [(3, slot .held 0 3 0x0311 .shared none), (1, slot .held 1 1 0x0311 .shared none)]
      [entry 0x0311 [3, 1] .shared []]))) 3 = [2, 0x34, 0x45] := by decide +kernel

/-- Section 11.2: a HELD EXCLUSIVE lease on 0x0A10 with 40 ticks left and no extension. -/
theorem test_queryLease : answer (exec (.queryLease 1) (asking 1 0x38 [1, 0x02, 0x07]
    ((world [(7, slot .held 2 1 0x0A10 .exclusive none)] [entry 0x0A10 [7] .exclusive []]).loadCounter 7 40 .term))) 1 =
      [11, 0x38, 0x00, 0x02, 0x0A, 0x10, 0x02, 0x00, 0x28, 0x00, 0x00, 0x00] := by decide +kernel

/-- Section 11.2: a key held SHARED by S0 and S3 with one waiter, asked by S3 whose handle is 0x0209. -/
theorem test_queryKey : answer (exec (.queryKey 3) (asking 3 0x39 [1, 0x05, 0x00]
    (world [(1, slot .held 0 0 0x0500 .shared none), (9, slot .held 2 3 0x0500 .shared none),
      (20, slot .waiting 0 1 0x0500 .exclusive none)] [entry 0x0500 [1, 9] .shared [20]]))) 3 =
      [10, 0x39, 0x00, 0x01, 0x01, 0x02, 0x01, 0x01, 0x31, 0x02, 0x09] := by decide +kernel

/-! ### Terms, grace and extension -/

/-- The slot of section 4.7 with an extension of 30 pending, its TERM claim raised. -/
def extended : State :=
  claiming 7 2 .term ((world [(7, { slot .held 2 1 0x0A10 .exclusive none with extension := some 30 })]
    [entry 0x0A10 [7] .exclusive []]).modifySession 1 fun r => { r with grace := 5 })

/-- Section 4.7, step 2: the extension is applied. -/
theorem test_term_extension : let t := after (exec (.termExpiryClaim 7) extended)
    t.slots[7] = slot .held 2 1 0x0A10 .exclusive (some .extended) ∧ t.leaseCounters[7].value = 30 ∧
      t.leaseCounters[7].phase = .term := by decide +kernel

/-- Section 4.7, step 3: without one the lease lapses into grace. -/
theorem test_term_grace : let t := after (exec (.termExpiryClaim 7)
      (extended.modifySlot 7 fun sl => { sl with extension := none }))
    t.slots[7] = slot .grace 2 1 0x0A10 .exclusive (some .lapsed) ∧ t.leaseCounters[7].value = 5 ∧
      t.leaseCounters[7].phase = .grace := by decide +kernel

/-- Section 4.7, step 4: EXTEND in GRACE with term 40 renews. -/
theorem test_extend : let t := exec (.extend 1) (asking 1 0x33 [1, 0x02, 0x07, 0x00, 40]
      ((world [(7, slot .grace 2 1 0x0A10 .exclusive (some .lapsed))] [entry 0x0A10 [7] .exclusive []]).loadCounter 7 2
        .grace))
    answer t 1 = [2, 0x33, 0] ∧ (after t).slots[7].state = .held ∧ (after t).slots[7].notice = some .lapsed ∧
      (after t).leaseCounters[7].value = 40 := by decide +kernel

/-- Section 12.2, step 3: RENEW of an ENDED slot is WRONG_STATE. -/
theorem test_renew : answer (exec (.renew 1) (asking 1 0x32 [1, 0x04, 0x03, 0, 0]
    (world [(3, slot .ended 4 1 0x0220 .exclusive (some .revoked))] []))) 1 = [2, 0x32, 0x22] := by decide +kernel

/-- Section 4.7, step 5: RENEW with term 0 loads the stored term. -/
theorem test_renew_stored : (after (exec (.renew 1) (asking 1 0x32 [1, 0x02, 0x07, 0, 0]
    ((world [(7, slot .held 2 1 0x0A10 .exclusive none)] [entry 0x0A10 [7] .exclusive []]).loadCounter 7 10
      .term)))).leaseCounters[7].value = 50 := by decide +kernel

/-- Section 12.2, step 2: the GRACE claim revokes slot 3 and grants slot 8. -/
theorem test_grace : let t := after (exec (.graceExpiryClaim 3) (claiming 3 4 .grace
      (world [(3, slot .grace 4 1 0x0220 .exclusive (some .lapsed)), (8, slot .waiting 0 3 0x0220 .exclusive none)]
        [entry 0x0220 [3] .exclusive [8]])))
    t.slots[3] = slot .ended 4 1 0x0220 .exclusive (some .revoked) ∧
      t.slots[8] = slot .held 0 3 0x0220 .exclusive (some .granted) ∧ t.directory = [entry 0x0220 [8] .exclusive []] := by
  decide +kernel

/-- R11: a waiter whose wait limit runs out becomes ENDED with TIMED_OUT. -/
theorem test_wait : let t := after (exec (.waitExpiryClaim 8) (claiming 8 0 .wait
      (world [(3, slot .held 4 1 0x0220 .exclusive none), (8, slot .waiting 0 3 0x0220 .exclusive none)]
        [entry 0x0220 [3] .exclusive [8]])))
    t.slots[8] = slot .ended 0 3 0x0220 .exclusive (some .timedOut) ∧ t.directory = [entry 0x0220 [3] .exclusive []] := by
  decide +kernel

/-- R72: a counter that reached 0 raises the claim of its tags. -/
theorem test_runout : (after (exec (.leaseCounterRunout 7) ((world [] []).modifyCounter 7 fun _ =>
    { value := 0, running := true, generation := 2, phase := .term, claim := none }))).leaseCounters[7] =
      { value := 0, running := false, generation := 2, phase := .term, claim := some { generation := 2, phase := .term } } := by
  decide +kernel

/-- R72: the same for a liveness counter. -/
theorem test_liveness_runout : (after (exec (.livenessCounterRunout 1) (State.reset.modifyLiveness 1 fun _ =>
    { value := 0, running := true, claim := false }))).livenessCounters[1] =
      { value := 0, running := false, claim := true } := by decide +kernel

/-- R66, R72: a tick takes one from a running counter. -/
theorem test_internalTick : (after (exec .internalTick (State.reset.loadCounter 9 50 .term))).leaseCounters[9].value = 49 := by
  decide +kernel

/-- R66: a rising edge on TICK is ignored while the internal source is selected. -/
theorem test_tick_ignored : (after (exec .tick (State.reset.loadCounter 9 50 .term))).leaseCounters[9].value = 50 := by
  decide +kernel

/-! ### Sweeps and acknowledgements -/

def sweptSlots : List (SlotIndex × Slot) :=
  [(4, slot .held 0 1 0x0300 .exclusive none), (9, slot .held 0 2 0x0305 .exclusive none),
    (10, slot .waiting 0 1 0x0305 .shared none), (20, slot .held 0 2 0x0410 .shared none)]

/-- Section 6.8: P0 protects 0x0300 alone. -/
def swept : State :=
  (world sweptSlots [entry 0x0300 [4] .exclusive [], entry 0x0305 [9] .exclusive [10], entry 0x0410 [20] .shared []]).modifySettings
    fun t => { t with p0 := { first := 0x0300, last := 0x0300, enable := true, invert := false, level := 2 } }

def rangeOrder : RangeOrder := { first := 0x0300, last := 0x03FF, force := false, requester := 0 }

/-- Section 6.8 from step 1 on, the walk at slot `i`. -/
def sweeping (i : Option SlotIndex) : State := { swept with sweepQueue := [.range rangeOrder], walk := i }

/-- Section 6.8, step 1: ACCEPTED, active at once, the walk at slot 0. -/
theorem test_revokeRange : let t := exec (.revokeRange 0) (asking 0 0x61 [1, 0x03, 0x00, 0x03, 0xFF, 0x00] swept)
    answer t 0 = [2, 0x61, 3] ∧ (after t).sweepQueue = [.range rangeOrder] ∧ (after t).walk = some 0 ∧
      (after t).doomed 9 = true ∧ (after t).doomed 4 = false := by decide +kernel

/-- Section 6.8, step 2: an ACQUIRE in scope is SWEEPING_KEY. -/
theorem test_acquire_sweeping : answer (exec (.acquire 1)
    (asking 1 0x30 [1, 0x03, 0x07, 0x01, 0, 50, 0, 0] (sweeping (some 0)))) 1 = [2, 0x30, 0x46] := by decide +kernel

/-- Section 6.8, step 5: slot 9 ends with SWEPT; the doomed waiter is passed over. -/
theorem test_rangeRemoval : let t := after (exec .rangeSweepRemoval (sweeping (some 9)))
    t.slots[9] = slot .ended 0 2 0x0305 .exclusive (some .swept) ∧ t.slots[10].state = .waiting ∧
      entryOf t.directory 0x0305 = some (entry 0x0305 [] .unheld [10]) ∧ t.walk = some 10 := by decide +kernel

/-- Section 6.8, step 8: the order leaves the queue, SWEEP_DONE is set, the completion claim goes to the GE. -/
theorem test_rangeComplete : let t := after (exec .rangeOrderComplete (sweeping none))
    t.sweepQueue = [] ∧ t.ports[0].flags.sweepDone = true ∧
      t.rangeCompletions = [{ first := 0x0300, last := 0x03FF, requester := 0, overtaken := false }] := by decide +kernel

/-- A waiter a doom had held back, the doom gone and the completion claim outstanding. -/
def completed : State :=
  { world [(10, slot .waiting 0 1 0x0305 .shared none)] [entry 0x0305 [] .unheld [10]] with
    rangeCompletions := [{ first := 0x0300, last := 0x03FF, requester := 0, overtaken := false }] }

/-- R34: the completion claim grants it. -/
theorem test_rangeCompletionClaim : let t := after (exec (.rangeCompletionClaim 0) completed)
    t.directory = [entry 0x0305 [10] .shared []] ∧ t.rangeCompletions = [] := by decide +kernel

/-- Section 12.3, step 4: slot 10 is freed to generation 3 and slot 20 granted. -/
theorem test_stationRemoval : let t := after (exec .stationSweepRemoval
      { (world [(10, slot .held 2 0 0x0300 .exclusive none), (20, slot .waiting 0 2 0x0300 .exclusive none)]
        [entry 0x0300 [10] .exclusive [20]]).endSession 0 .reclaim with walk := some 10 })
    t.slots[10] = { Slot.reset with generation := 3 } ∧ t.slots[20].state = .held ∧ t.sessions[0].leaseCount = 0 := by
  decide +kernel

/-- R123: a completed station order hands its completion with its cause. -/
theorem test_stationComplete : let t := after (exec .stationOrderComplete
      { (world [] []).endSession 1 .detach with walk := none })
    t.sweepQueue = [] ∧ t.sessionCompletions[1] = some .detach := by decide +kernel

/-- R113: PURGE of an ATTACHED station. -/
theorem test_purge : let t := exec (.purge 0) (asking 0 0x60 [1, 3] (world [] []))
    answer t 0 = [2, 0x60, 3] ∧ (after t).sweepQueue = [.station 3 .purge] := by decide +kernel

/-- R112: a station that is not the administrator is DENIED. -/
theorem test_clearAll_denied : answer (exec (.clearAll 1) (asking 1 0x62 [1] (world [] []))) 1 = [2, 0x62, 0x30] := by
  decide +kernel

/-- R115: every ATTACHED station, in ascending order. -/
theorem test_clearAll : (after (exec (.clearAll 0) (asking 0 0x62 [1] (world [] [])))).sweepQueue =
    [.station 0 .clear, .station 1 .clear, .station 2 .clear, .station 3 .clear] := by decide +kernel

/-- Section 7.6, step 4: slot 2 becomes FREE at generation 2. -/
theorem test_acknowledge : let t := after (exec (.acknowledgementClaim 3)
      (noticed.modifyPort 3 fun q => { q with acks := [[{ slot := 2, generation := 1, kind := .revoked }]] }))
    t.slots[2] = { Slot.reset with generation := 2 } ∧ t.sessions[3].leaseCount = 2 ∧ t.ports[3].acks = [] := by
  decide +kernel

/-- Section 7.6, step 7: an entry of another kind changes nothing. -/
theorem test_acknowledge_kind : (after (exec (.acknowledgementClaim 3)
    (noticed.modifyPort 3 fun q => { q with acks := [[{ slot := 40, generation := 5, kind := .granted }]] }))).slots[40] =
      slot .grace 5 3 0x0102 .exclusive (some .lapsed) := by decide +kernel

/-! ### Configuration, reset, pins -/

/-- Section 9.9, step 1: SHARED_LIMIT on an empty directory. -/
theorem test_sharedLimit : let t := exec (.writeSharedLimit 0) (asking 0 0x69 [1, 0x30, 0, 4] (world [] []))
    answer t 0 = [2, 0x69, 0] ∧ (after t).settings.sharedLimit = 4 := by decide +kernel

/-- Section 9.9, step 6: QUEUE_LIMIT with an entry in the directory is IN_USE. -/
theorem test_queueLimit : answer (exec (.writeQueueLimit 0) (asking 0 0x69 [1, 0x31, 0, 8] noticed)) 0 =
    [2, 0x69, 0x32] := by decide +kernel

/-- Section 9.9, step 3: an access level of 4 is BAD_ARG. -/
theorem test_accessLevel : answer (exec (.writeAccessLevel 0) (asking 0 0x69 [1, 0x11, 0, 4] (world [] []))) 0 =
    [2, 0x69, 0x11] := by decide +kernel

/-- Section 9.9, steps 2 and 7: P0 CTRL with enable, invert and level 2 (bits 0, 1 and 5 to 4). -/
theorem test_protectedRange : (after (exec (.writeProtectedRange 0) (asking 0 0x69 [1, 0x22, 0, 0x23] swept))).settings.p0 =
    { first := 0x0300, last := 0x0300, enable := true, invert := true, level := 2 } := by decide +kernel

/-- Section 9.9, step 9: FROZEN for the administrator; DENIED comes first for another. -/
theorem test_quota : let s := (world [] []).modifySettings fun t => { t with frozen := true }
    answer (exec (.writeQuota 0) (asking 0 0x69 [1, 0x19, 0, 8] s)) 0 = [2, 0x69, 0x31] ∧
      answer (exec (.writeQuota 1) (asking 1 0x69 [1, 0x19, 0, 8] s)) 1 = [2, 0x69, 0x30] := by decide +kernel

/-- Section 9.9, step 10: READ CONFIG of FROZEN. -/
theorem test_readConfig : answer (exec (.readConfig 1) (asking 1 0x68 [1, 0x71]
    ((world [] []).modifySettings fun t => { t with frozen := true }))) 1 = [4, 0x68, 0, 0, 1] := by decide +kernel

/-- R161: a read-only item is BAD_ARG. -/
theorem test_writeConfig : answer (exec (.writeConfig 0) (asking 0 0x69 [1, 0x70, 0, 1] (world [] []))) 0 =
    [2, 0x69, 0x11] := by decide +kernel

/-- R68: the period 0 is out of range. -/
theorem test_tickPeriod : answer (exec (.writeTickPeriod 0) (asking 0 0x69 [1, 0x02, 0, 0] (world [] []))) 0 =
    [2, 0x69, 0x11] := by decide +kernel

/-- R68: a switch to the external source. -/
theorem test_tickSource : (after (exec (.writeTickSource 0)
    (asking 0 0x69 [1, 0x01, 0, 1] (world [] [])))).settings.tickSource = .external := by decide +kernel

/-- R172. -/
theorem test_freeze : (after (exec (.freeze 0) (asking 0 0x6A [1] (world [] [])))).settings.frozen = true := by
  decide +kernel

/-- R69: time held, and let go again. -/
theorem test_holdTimeOn : (after (exec (.holdTimeOn 0) (asking 0 0x6B [1, 1] (world [] [])))).timeBase.held = true := by
  decide +kernel
theorem test_holdTimeOff : (after (exec (.holdTimeOff 0) (asking 0 0x6B [1, 0]
    ((world [] []).modifyTimeBase fun b => { b with held := true })))).timeBase.held = false := by decide +kernel

/-- R171: any other setting is BAD_ARG. -/
theorem test_holdTime : answer (exec (.holdTimeInvalidSetting 0) (asking 0 0x6B [1, 2] (world [] []))) 0 =
    [2, 0x6B, 0x11] := by decide +kernel

/-- R3: reset empties the directory; R160: the straps then name S2. -/
theorem test_reset : (after (exec .hardwareReset noticed)).directory = [] := by decide +kernel
theorem test_endOfReset : (after (exec (.endOfReset 2) (after (exec .hardwareReset noticed)))).settings.admin = 2 := by
  decide +kernel

/-- The bound channel of section 10.4. -/
def bound : State :=
  (world [(0, slot .held 0 1 0x0140 .exclusive none)] [entry 0x0140 [0] .exclusive []]).modifySettings fun t =>
    { t with channels := t.channels.set 2 { key := 0x0140, enable := true, graceDrop := true } }

/-- Section 10.4, step 1: OHOLD2 asserted, OID2 reads 1. -/
theorem test_pins : bound.ohold 2 = true ∧ bound.oid 2 = 1 := by decide +kernel

/-- Section 10.4, step 3: in GRACE with grace-drop set the channel shows nothing. -/
theorem test_channelCtrl : let s := bound.modifySlot 0 fun sl => { sl with state := .grace }
    s.ohold 2 = false ∧ (after (exec (.writeChannelCtrl 0) (asking 0 0x69 [1, 0x4A, 0, 1] s))).ohold 2 = true := by
  decide +kernel

/-- R178: a channel bound to another key. -/
theorem test_channelKey : (after (exec (.writeChannelKey 0) (asking 0 0x69 [1, 0x42, 0x01, 0x41] bound))).ohold 2 = false := by
  decide +kernel

/-! ### Witnesses: the hypotheses of each statement of the certificate, met by a state and operands

`witness_<statement>`: one conjunct for each hypothesis, a clause's at a boundary value where it has a range. -/

theorem offers_asking (p : Station) (code : Byte) (args : List Byte) (s : State) :
    (asking p code args s).Offers p code args := by
  unfold State.Offers asking; rw [modifyPort_ports, updVec_get_self]

theorem geOffers_asking {p : Station} {code : Byte} {args : List Byte} {s : State}
    (h : (asking p code args s).geMayTake p = true) : (asking p code args s).GeOffers p code args :=
  ⟨offers_asking p code args s, h⟩

theorem release_next (p : Station) (s : State) : ∃ t, exec (.release p) s = .next t := by
  show ∃ t, geTaking _ _ _ s = .next t
  unfold geTaking; split
  · exact ⟨_, rfl⟩
  · split <;> exact ⟨_, rfl⟩

theorem placed_ne (slots : List (SlotIndex × Slot)) (v : Vector Slot 256) {i : SlotIndex}
    (h : i ∉ slots.map Prod.fst) : (slots.foldl (fun v x => updVec v x.1 fun _ => x.2) v)[i] = v[i] := by
  induction slots generalizing v with
  | nil => rfl
  | cons x xs ih =>
    simp only [List.map_cons, List.mem_cons, not_or] at h
    rw [List.foldl_cons, ih _ h.2, updVec_get_ne _ h.1]

theorem world_free (slots : List (SlotIndex × Slot)) (directory : List Entry) :
    (world slots directory).FreeOutside (slots.map Prod.fst) := fun i hi => by
  show (slots.foldl (fun v x => updVec v x.1 fun _ => x.2) State.reset.slots)[i] = _
  rw [placed_ne slots _ hi]
  show (Vector.replicate 256 Slot.reset)[i] = _
  simp

theorem free_of_slots {s : State} (slots : List (SlotIndex × Slot)) (h : s.slots = (world slots []).slots) :
    s.FreeOutside (slots.map Prod.fst) := fun i hi => by rw [h]; exact world_free slots [] i hi

theorem modifySlot_free {s : State} {used : List SlotIndex} (h : s.FreeOutside used) (j : SlotIndex) (f : Slot → Slot) :
    (s.modifySlot j f).FreeOutside (j :: used) := fun i hi => by
  simp only [List.mem_cons, not_or] at hi
  rw [modifySlot_slots, updVec_get_ne _ hi.1]; exact h i hi.2

theorem contended_free : contended.FreeOutside [0, 1, 2] := modifySlot_free (world_free _ _) 0 _
theorem noticed_free : noticed.FreeOutside [2, 7, 40] := world_free _ _
theorem swept_free : swept.FreeOutside [4, 9, 10, 20] := free_of_slots sweptSlots rfl

/-- IdleStepPassesAMicrosecond: a count before the last, the last, and a held time base. -/
theorem witness_IdleStep :
    let at998 : State := { State.reset with timeBase := { count := 998, period := 1000, held := false } }
    let at999 : State := { State.reset with timeBase := { count := 999, period := 1000, held := false } }
    at998.pending = [] ∧ at998.settings.tickSource = .internal ∧ at998.timeBase.count + 1 < at998.timeBase.period ∧
      at999.pending = [] ∧ at999.settings.tickSource = .internal ∧ at999.timeBase.period ≤ at999.timeBase.count + 1 ∧
      ({ State.reset with timeBase := { count := 0, period := 1000, held := true } } : State).timeBase.held ≠ false := by
  decide +kernel

theorem witness_EndOfReset : (after (exec .hardwareReset State.reset)).inReset = true := by decide +kernel

/-- StatusAndIdentFrames, FrameInPieces. -/
theorem witness_releasedPort : State.reset.ports[0].shifter = .released ∧ State.reset.inReset = false := by
  decide +kernel

/-- FetchFrame: a record whose last bit just goes out, one whose last bit does not, and no record. -/
theorem witness_FetchFrame : let s := (world [] []).modifyPort 1 fun q => { q with command := .holding [2, 0x32, 0] }
    s.ports[1].shifter = .released ∧ s.inReset = false ∧ s.ports[1].command = .holding [2, 0x32, 0] ∧
      8 * (1 + 3) ≤ 8 + (List.replicate 24 false).length ∧ ¬ 8 * (1 + 3) ≤ 8 + (List.replicate 23 false).length ∧
      State.reset.ports[1].command = .ready := by decide +kernel

/-- NoticesFrame: a limit byte just whole with three claims in flight, seven bits, and four claims in flight. -/
theorem witness_NoticesFrame : let s := noticed.modifyPort 3 fun q => { q with acks := [[], [], []] }
    let full := noticed.modifyPort 3 fun q => { q with acks := [[], [], [], []] }
    s.ports[3].shifter = .released ∧ s.inReset = false ∧ 8 ≤ (List.replicate 8 false).length ∧ s.ports[3].acks.length < 4 ∧
      (List.replicate 7 false).length < 8 ∧ full.ports[3].shifter = .released ∧ 4 ≤ full.ports[3].acks.length := by
  decide +kernel

theorem witness_MaskAndClearFlags :
    State.reset.ports[0].shifter = .released ∧ State.reset.inReset = false ∧ (bytesBits [0x60]).length % 8 = 0 ∧
      8 ≤ (bytesBits [0x60]).length := by decide +kernel

/-- BrokenFrame: seven bits, a MASK without its byte, and a DETACH one bit beyond its byte boundary. -/
theorem witness_BrokenFrame :
    List.replicate 7 false ≠ [] ∧ bitsByte (bytesBits [0x54]) ∉ ([0x51, 0x52, 0x53, 0x5F] : List Byte) ∧
      (bytesBits [0x54]).length / 8 < 2 ∧
      bitsByte (bytesBits [0x21, 1] ++ [true]) ∉ ([0x51, 0x52, 0x53, 0x5F] : List Byte) ∧
      (bytesBits [0x21, 1] ++ [true]).length % 8 ≠ 0 := by decide +kernel

/-- PostedFrameTakenOrRefused: a DETACH and an unknown code, on a READY, a HOLDING and a BUSY port. -/
theorem witness_PostedFrame :
    (0x21 : Byte) ∉ ([0x51, 0x52, 0x53, 0x54, 0x55, 0x5F] : List Byte) ∧ 1 + ([1] : List Byte).length = postedBytes 0x21 ∧
      (0x00 : Byte) ∉ ([0x51, 0x52, 0x53, 0x54, 0x55, 0x5F] : List Byte) ∧ 1 + ([] : List Byte).length = postedBytes 0x00 ∧
      State.reset.ports[1].shifter = .released ∧ State.reset.ports[1].command = .ready ∧
      (asking 1 0x21 [1] State.reset).ports[1].shifter = .released ∧
      (State.reset.modifyPort 1 fun q => { q with command := .holding [2, 0x21, 3] }).ports[1].shifter = .released := by
  decide +kernel

/-- Three bits into a frame. -/
def begun : Frame :=
  { received := [false, true, false], sent := [false, false, false], outByte := 0, fetched := none, snapshot := none }

/-- A frame with these bytes received. -/
def frameOf (bytes : List Byte) : Frame := { begun with received := bytesBits bytes }

/-- The stop clauses of O6 to O8 and O10 to O12: on any port state, an open STATUS and IDENT frame; a FETCH with no record,
with a record just whole and with one cut short; a NOTICES with its one record just read and with none read; a MASK and a
CLEARFLAGS; an empty and a broken frame; a DETACH with a byte beyond its list. The same bytes meet the falling-edge clauses of O14. -/
theorem witness_Stops :
    (∀ (s : State) (p : Station) (f : Frame),
      (s.modifyPort p fun q => { q with shifter := .receiving f }).ports[p].shifter = .receiving f) ∧
    8 ≤ (frameOf [0x51]).received.length ∧ bitsByte (frameOf [0x51]).received = 0x51 ∧
      bitsByte (frameOf [0x5F]).received = 0x5F ∧
    bitsByte (frameOf [0x52, 0, 0, 0]).received = 0x52 ∧ (frameOf [0x52]).fetched = none ∧
      8 * (1 + ([2, 0x32, 0] : List Byte).length) ≤ (frameOf [0x52, 0, 0, 0]).received.length ∧
      ¬ 8 * (1 + ([2, 0x32, 0] : List Byte).length) ≤ (frameOf [0x52, 0, 0]).received.length ∧
    bitsByte (frameOf [0x53, 1]).received = 0x53 ∧
      (noticed.noticesSnapshot 3 1).take (((frameOf [0x53, 1, 0, 0, 0, 0, 0, 0, 0]).received.length / 8 - 3) / 6) ≠ [] ∧
      (noticed.noticesSnapshot 3 1).take (((frameOf [0x53, 1, 0, 0, 0, 0, 0, 0]).received.length / 8 - 3) / 6) = [] ∧
    bitsByte (frameOf [0x54, 0x60]).received = 0x54 ∧ bitsByte (frameOf [0x55, 0x04]).received = 0x55 ∧
      (frameOf [0x54, 0x60]).received.length % 8 = 0 ∧ 16 ≤ (frameOf [0x54, 0x60]).received.length ∧
    (frameOf []).received = [] ∧ begun.received ≠ [] ∧ ¬ 8 ≤ begun.received.length ∧
    (frameOf [0x21, 1, 7]).received = bytesBits (0x21 :: ([1] ++ [7])) :=
  ⟨fun s p f => by rw [modifyPort_ports, updVec_get_self], by decide +kernel⟩

/-- OpenFrameCountsOn: a frame with the clock low, and with it high before the first bit, within a byte and after a
byte of a STATUS frame; and a released port with the clock low and high. -/
theorem witness_OpenFrame :
    let at' := fun (f : Frame) (high : Bool) =>
      (State.reset.modifyPort 0 fun q => { q with shifter := .receiving f, clockHigh := high }).ports[0]
    (at' begun false).shifter = .receiving begun ∧ (at' begun false).clockHigh = false ∧
      (at' begun true).clockHigh = true ∧ begun.received.length % 8 ≠ 0 ∧
      (at' { begun with received := [], sent := [] } true).clockHigh = true ∧
      parked.ports[0].clockHigh = true ∧ (∃ f, parked.ports[0].shifter = .receiving f ∧ f.received ≠ [] ∧
        f.received.length % 8 = 0 ∧ bitsByte f.received = 0x51) ∧
      State.reset.ports[0].shifter = .released ∧ State.reset.ports[0].clockHigh = false ∧ State.reset.inReset = false ∧
      (after (exec (.status 0 (.rise true)) State.reset)).ports[0].shifter = .released ∧
      (after (exec (.status 0 (.rise true)) State.reset)).ports[0].clockHigh = true :=
  ⟨by decide +kernel, by decide +kernel, by decide +kernel, by decide +kernel, by decide +kernel, by decide +kernel,
    ⟨_, rfl, by decide +kernel⟩, by decide +kernel⟩

/-- SpanBegunInResetIsNoFrame: a span begun in reset, and one that was a frame when reset began, in reset and after it. -/
theorem witness_SpanBegunInReset : let s := after (exec .hardwareReset State.reset)
    let open' := State.reset.modifyPort 0 fun q => { q with shifter := .receiving begun }
    let u := after (exec .hardwareReset open')
    s.inReset = true ∧ s.ports[0].shifter = .released ∧ open'.ports[0].shifter ≠ .released ∧
      u.ports[0].shifter = .ignoring [] ∧ u.inReset = true ∧
      (after (exec (.endOfReset 2) u)).ports[0].shifter = .ignoring [] ∧ (after (exec (.endOfReset 2) u)).inReset = false ∧
      u.ports[0].clockHigh = false ∧ (after (exec (.status 0 (.rise true)) u)).ports[0].clockHigh = true := by
  decide +kernel

theorem witness_UnknownCode : (asking 0 0x00 [] State.reset).Offers 0 0x00 [] := offers_asking _ _ _ _

/-- LivenessReloadTaken: a command's reload and, at the end of the list, a plain one. -/
theorem witness_LivenessReload :
    let s := (world [] []).modifyPort 0 fun q =>
      { q with reloads := [.ofCommand, .plain], command := .busy { code := 0x21, args := [1], passedOn := false } }
    s.ports[0].reloads[0]? = some .ofCommand ∧ s.ports[0].reloads[1]? = some .plain := by decide +kernel

/-- AttachByState: an unassigned flag, then each state, RECLAIM clear and set. -/
theorem witness_Attach :
    (asking 2 0x20 (wordBytes 200 ++ [10, 0]) State.reset).Offers 2 0x20 (wordBytes 200 ++ [10, 0]) ∧
      (0x02 : Byte) &&& 0xFE#8 ≠ 0 ∧ (0x00 : Byte) &&& 0xFE#8 = 0 ∧ (0x01 : Byte) &&& 0xFE#8 = 0 ∧
      State.reset.sessions[2].state = .detached ∧ (world [] []).sessions[2].state = .attached ∧
      ((world [] []).endSession 2 .lapse).sessions[2].state = .sweeping :=
  ⟨offers_asking _ _ _ _, by decide +kernel⟩

/-- DetachEndsTheSession: a session check that passes, and one that fails. -/
theorem witness_Detach : (asking 1 0x21 [1] (world [] [])).Offers 1 0x21 [1] ∧
    firstFailing ((asking 1 0x21 [1] (world [] [])).sessionTests 1 1) = none ∧
    firstFailing ((asking 1 0x21 [2] (world [] [])).sessionTests 1 2) = some .staleSession :=
  ⟨offers_asking _ _ _ _, by decide +kernel⟩

/-- LapseClaimTested: a liveness term of 1 that has run out, and a counter that reads 1. -/
theorem witness_Lapse :
    let s := fun v => ((world [] []).modifySession 2 fun r => { r with livenessTerm := 1 }).modifyLiveness 2 fun _ =>
      { value := v, running := false, claim := true }
    (s 0).livenessCounters[2].claim = true ∧ (s 0).sessions[2].state = .attached ∧ (s 0).livenessCounters[2].value = 0 ∧
      (s 1).livenessCounters[2].claim = true ∧ (s 1).livenessCounters[2].value ≠ 0 := by decide +kernel

theorem witness_SweepCompletion :
    ({ State.reset with sessionCompletions := #v[none, some .lapse, none, some .detach] } : State).sessionCompletions[1] =
      some .lapse := by decide +kernel

/-- SweepCommandsAccepted: PURGE of an ATTACHED and of a SWEEPING station, CLEAR ALL, and a range of one key with one
range order in the queue. -/
theorem witness_SweepAccepted :
    (asking 0 0x60 [1, BitVec.ofNat 8 (3 : Station).val] (world [] [])).Offers 0 0x60 [1, BitVec.ofNat 8 (3 : Station).val] ∧
      firstFailing ((asking 0 0x60 [1, 3] (world [] [])).adminTests 0 1) = none ∧
      ((world [] []).endSession 3 .lapse).sessions[3].state = .sweeping ∧
      (asking 0 0x62 [1] (world [] [])).Offers 0 0x62 [1] ∧
      let s := { asking 0 0x61 [1, 0x03, 0x00, 0x03, 0x00, 0x01] swept with sweepQueue := [.range rangeOrder] }
      s.geMayTake 0 = true ∧ (rangeOrders s.sweepQueue).length < 2 ∧ (0x0300 : Word) ≤ 0x0300 ∧
        (0x01 : Byte) &&& 0xFE#8 = 0 :=
  ⟨offers_asking _ _ _ _, by decide +kernel, by decide +kernel, offers_asking _ _ _ _, by decide +kernel⟩

/-- SweepCommandsRefusedInOrder: station 4, a station that is not the administrator, and two range orders queued. -/
theorem witness_SweepRefused :
    (asking 0 0x60 [1, 4] (world [] [])).Offers 0 0x60 [1, 4] ∧ decide (3#8 < (4 : Byte)) = true ∧
      firstFailing ((asking 1 0x62 [1] (world [] [])).adminTests 1 1) = some .denied ∧
      let s := { asking 0 0x61 [1, 0x03, 0x00, 0x03, 0x00, 0x01] swept with
        sweepQueue := [.range rangeOrder, .range rangeOrder] }
      s.geMayTake 0 = true ∧ firstFailing (s.adminTests 0 1) = none ∧ 2 ≤ (rangeOrders s.sweepQueue).length :=
  ⟨offers_asking _ _ _ _, by decide +kernel, by decide +kernel, by decide +kernel⟩

/-- An ACQUIRE of 0x0140 by S0 on the state of section 12.1 before step 6, with these flags. -/
def acquiring (flags : Byte) (k : Word) (s : State) : State :=
  asking 0 0x30 ([1] ++ wordBytes k ++ [flags] ++ wordBytes 50 ++ wordBytes 0) s

/-- AcquireGrantedAtOnce: an EXCLUSIVE request on a key without an entry, and a SHARED one for the last shared place. -/
theorem witness_AcquireGranted :
    (acquiring 0x02 0x0141 contended).GeOffers 0 0x30 ([1] ++ wordBytes 0x0141 ++ [0x02] ++ wordBytes 50 ++ wordBytes 0) ∧
      firstFailing ((acquiring 0x02 0x0141 contended).acquireTests 0 1 0x0141 0x02 50) = none ∧
      (0x02 : Byte) &&& 0x03#8 = LeaseMode.exclusive.code ∧ contended.slots[0].state = .free ∧
      contended.canGrantNow (contended.entryOrNew 0x0141) .exclusive = true ∧
      let s := (world [(1, slot .held 0 1 0x0140 .shared none)] [entry 0x0140 [1] .shared []]).modifySettings fun t =>
        { t with sharedLimit := 2 }
      firstFailing (s.acquireTests 0 1 0x0140 0x01 50) = none ∧ s.canGrantNow (s.entryOrNew 0x0140) .shared = true :=
  ⟨geOffers_asking (by decide +kernel), by decide +kernel⟩

/-- AcquireQueued: the last place in a wait queue of 2. -/
theorem witness_AcquireQueued : let s := contended.modifySettings fun t => { t with queueLimit := 2 }
    (acquiring 0x01 0x0140 s).GeOffers 0 0x30 ([1] ++ wordBytes 0x0140 ++ [0x01] ++ wordBytes 50 ++ wordBytes 0) ∧
      firstFailing ((acquiring 0x01 0x0140 s).acquireTests 0 1 0x0140 0x01 50) = none ∧
      (0x01 : Byte) &&& 0x03#8 = LeaseMode.shared.code ∧ s.slots[0].state = .free ∧
      s.canGrantNow (s.entryOrNew 0x0140) .shared = false ∧ (0x01 : Byte).getLsbD 7 = false ∧
      (s.entryOrNew 0x0140).queue.length < s.settings.queueLimit :=
  ⟨geOffers_asking (by decide +kernel), by decide +kernel⟩

/-- AcquireRefusedInOrder: TRY set on a key that cannot be granted, a full wait queue, and a term of 0. -/
theorem witness_AcquireRefused :
    (acquiring 0x81 0x0140 contended).geMayTake 0 = true ∧
      firstFailing (contended.acquireTests 0 1 0x0140 0x81 50) = none ∧
      contended.canGrantNow (contended.entryOrNew 0x0140) .shared = false ∧ (0x81 : Byte).getLsbD 7 = true ∧
      (contended.modifySettings fun t => { t with queueLimit := 1 }).settings.queueLimit ≤
        (contended.entryOrNew 0x0140).queue.length ∧
      firstFailing (contended.acquireTests 0 1 0x0140 0x01 0) = some .badArg := by decide +kernel

/-- HandleCommandsRefusedInOrder: a handle above the range, a foreign one, a waiter's, a mode that names none, and a
conversion beside another holder. -/
theorem witness_HandleRefused :
    (asking 1 0x31 ([1] ++ wordBytes 0x4000) contended).GeOffers 1 0x31 ([1] ++ wordBytes 0x4000) ∧
      firstFailing (contended.handleTests 1 1 0x4000 true) = some .badArg ∧
      firstFailing (contended.handleTests 1 1 0x0002 true) = some .foreign ∧
      firstFailing (contended.handleTests 2 1 0x0002 true) = none ∧
      contended.slots[handleSlot 0x0002].state = .waiting ∧
      firstFailing (contended.handleTests 1 1 0x0001 ((0x03 : Byte) == 0x01 || (0x03 : Byte) == 0x02)) = some .badArg ∧
      contended.DirectorySound :=
  ⟨geOffers_asking (by decide +kernel), by decide +kernel, by decide +kernel, by decide +kernel, by decide +kernel,
    by decide +kernel, directorySound_of_check contended_free (by decide +kernel)⟩

/-- ReleaseFreesTheSlot: a holder, and an ENDED slot. -/
theorem witness_Release :
    (asking 1 0x31 ([1] ++ wordBytes 0x0001) contended).GeOffers 1 0x31 ([1] ++ wordBytes 0x0001) ∧
      (asking 1 0x31 ([1] ++ wordBytes 0x0001) contended).DirectorySound ∧
      firstFailing ((asking 1 0x31 ([1] ++ wordBytes 0x0001) contended).handleTests 1 1 0x0001 true) = none ∧
      contended.slots[handleSlot 0x0001].state.isLive = true ∧
      (asking 3 0x31 ([1] ++ wordBytes 0x0102) noticed).GeOffers 3 0x31 ([1] ++ wordBytes 0x0102) ∧
      noticed.DirectorySound ∧ firstFailing (noticed.handleTests 3 1 0x0102 true) = none ∧
      noticed.slots[handleSlot 0x0102].state = .ended :=
  ⟨geOffers_asking (by decide +kernel), directorySound_of_check contended_free (by decide +kernel), by decide +kernel,
    by decide +kernel, geOffers_asking (by decide +kernel), directorySound_of_check noticed_free (by decide +kernel),
    by decide +kernel⟩

/-- RenewAndExtend: a HELD slot and one in GRACE, a term of 0 and a term of 1. -/
theorem witness_RenewAndExtend :
    (asking 3 0x33 ([1] ++ wordBytes 0x0528 ++ wordBytes 1) noticed).GeOffers 3 0x33
        ([1] ++ wordBytes 0x0528 ++ wordBytes 1) ∧
      firstFailing (noticed.handleTests 3 1 0x0528 true) = none ∧ noticed.slots[handleSlot 0x0528].state = .grace ∧
      noticed.doomed (handleSlot 0x0528) = false ∧
      (asking 3 0x32 ([1] ++ wordBytes 0x0007 ++ wordBytes 0) noticed).GeOffers 3 0x32
        ([1] ++ wordBytes 0x0007 ++ wordBytes 0) ∧
      firstFailing (noticed.handleTests 3 1 0x0007 true) = none ∧ noticed.slots[handleSlot 0x0007].state = .held ∧
      noticed.doomed (handleSlot 0x0007) = false :=
  ⟨geOffers_asking (by decide +kernel), by decide +kernel, by decide +kernel, by decide +kernel,
    geOffers_asking (by decide +kernel), by decide +kernel⟩

/-- ConvertChangesTheMode: an EXCLUSIVE holder with a waiter, and a sole SHARED holder. -/
theorem witness_Convert :
    let s := world [(3, slot .held 0 3 0x0311 .exclusive none), (1, slot .waiting 1 1 0x0311 .shared none)]
      [entry 0x0311 [3] .exclusive [1]]
    (asking 3 0x34 ([1] ++ wordBytes 0x0003 ++ [0x01]) s).GeOffers 3 0x34 ([1] ++ wordBytes 0x0003 ++ [0x01]) ∧
      s.DirectorySound ∧ contended.DirectorySound ∧
      firstFailing (s.handleTests 3 1 0x0003 ((0x01 : Byte) == 0x01 || (0x01 : Byte) == 0x02)) = none ∧
      s.slots[handleSlot 0x0003].state = .held ∧ s.doomed (handleSlot 0x0003) = false ∧
      entryOf s.directory 0x0311 = some (entry 0x0311 [3] .exclusive [1]) ∧
      contended.slots[handleSlot 0x0001].state = .held ∧ contended.doomed (handleSlot 0x0001) = false ∧
      entryOf contended.directory 0x0140 = some (entry 0x0140 [1] .shared [2]) :=
  ⟨geOffers_asking (by decide +kernel), directorySound_of_check (world_free _ _) (by decide +kernel),
    directorySound_of_check contended_free (by decide +kernel), by decide +kernel⟩

/-- QueriesAnswer: a waiter's handle, a key asked by its waiter, and a stale epoch. -/
theorem witness_Queries :
    (asking 2 0x38 ([1] ++ wordBytes 0x0002) contended).GeOffers 2 0x38 ([1] ++ wordBytes 0x0002) ∧
      firstFailing ((asking 2 0x38 ([1] ++ wordBytes 0x0002) contended).handleTests 2 1 0x0002 true) = none ∧
      (asking 2 0x39 ([1] ++ wordBytes 0x0140) contended).GeOffers 2 0x39 ([1] ++ wordBytes 0x0140) ∧
      (asking 2 0x39 ([1] ++ wordBytes 0x0140) contended).OneLeaseEach ∧
      firstFailing ((asking 2 0x39 ([1] ++ wordBytes 0x0140) contended).sessionTests 2 1) = none ∧
      firstFailing (contended.sessionTests 2 0) = some .staleSession :=
  ⟨geOffers_asking (by decide +kernel), by decide +kernel, geOffers_asking (by decide +kernel),
    oneLeaseEach_of_check contended_free (by decide +kernel), by decide +kernel⟩

/-- RegrantLeavesNoGrantableWaiter: an EXCLUSIVE waiter behind a SHARED holder. -/
theorem witness_Regrant : contended.DirectorySound ∧
    entryOf (contended.regrant 0x0140).directory 0x0140 = some (entry 0x0140 [1] .shared [2]) ∧
    ((entry 0x0140 [1] .shared [2]).queue.filter fun i => !(contended.regrant 0x0140).doomed i) = [2] :=
  ⟨directorySound_of_check contended_free (by decide +kernel), by decide +kernel⟩

/-- TermExpires: an extension, a grace of 5, and a grace of 0. -/
theorem witness_TermExpires :
    let none' := extended.modifySlot 7 fun sl => { sl with extension := none }
    let zero := none'.modifySession 1 fun r => { r with grace := 0 }
    extended.leaseCounters[7].claim = some { generation := extended.slots[7].generation, phase := .term } ∧
      extended.slots[7].state = .held ∧ extended.leaseCounters[7].value = 0 ∧ extended.slots[7].extension = some 30 ∧
      none'.slots[7].extension = none ∧ none'.sessions[1].grace ≠ 0 ∧ zero.sessions[1].grace = 0 ∧ zero.DirectorySound :=
  ⟨by decide +kernel, by decide +kernel, by decide +kernel, by decide +kernel, by decide +kernel, by decide +kernel,
    by decide +kernel,
    directorySound_of_check (modifySlot_free (s := extended) (free_of_slots
      [(7, { slot .held 2 1 0x0A10 .exclusive none with extension := some 30 })] rfl) 7 fun sl =>
        { sl with extension := none }) (by decide +kernel)⟩

/-- GraceAndWaitExpire: section 7.6's slot 40 in GRACE, and section 12.1's waiter. -/
theorem witness_GraceAndWait :
    (claiming 40 5 .grace noticed).DirectorySound ∧ (claiming 40 5 .grace noticed).leaseCounters[40].value = 0 ∧
      (claiming 40 5 .grace noticed).slots[40].state = .grace ∧ (claiming 2 0 .wait contended).DirectorySound ∧
      (claiming 2 0 .wait contended).leaseCounters[2].claim = some { generation := 0, phase := .wait } ∧
      (claiming 2 0 .wait contended).slots[2].state = .waiting :=
  ⟨directorySound_of_check noticed_free (by decide +kernel), by decide +kernel, by decide +kernel,
    directorySound_of_check contended_free (by decide +kernel), by decide +kernel⟩

/-- FailedExpiryClaimDiscarded: an older generation, another state, and a counter that reads 1. -/
theorem witness_FailedClaim :
    (claiming 7 1 .term extended).leaseCounters[7].claim = some { generation := 1, phase := .term } ∧
      extended.slots[7].generation ≠ 1 ∧
      (claiming 7 2 .grace extended).leaseCounters[7].claim = some { generation := 2, phase := .grace } ∧
      extended.slots[7].state ≠ .grace ∧
      ((claiming 2 0 .wait contended).modifyCounter 2 fun c => { c with value := 1 }).leaseCounters[2].value ≠ 0 := by
  decide +kernel

def reclaimSlots : List (SlotIndex × Slot) :=
  [(10, slot .held 2 0 0x0300 .exclusive none), (11, slot .ended 0 0 0x0301 .shared (some .timedOut)),
    (20, slot .waiting 0 2 0x0300 .exclusive none)]

/-- The state of section 12.3, step 4, the walk at slot `i`. -/
def reclaiming (i : SlotIndex) : State :=
  { (world reclaimSlots [entry 0x0300 [10] .exclusive [20]]).endSession 0 .reclaim with
    walk := some i }

/-- RemovalClaims: a station order at a holder, at an ENDED slot and at slot 255; a range order at a slot in scope and
at a protected one. -/
theorem witness_RemovalClaims :
    (∀ i, (reclaiming i).DirectorySound) ∧ (reclaiming 10).sweepQueue = [.station 0 .reclaim] ∧
      (reclaiming 10).slots[10].state.isLive = true ∧ (reclaiming 11).slots[11].state = .ended ∧
      (reclaiming 255).slots[255].state = .free ∧ (sweeping (some 9)).DirectorySound ∧
      (sweeping (some 9)).slots[9].state.isLive = true ∧ (sweeping (some 9)).orderCovers rangeOrder 0x0305 = true ∧
      (sweeping (some 4)).orderCovers rangeOrder 0x0300 = false :=
  ⟨fun i => directorySound_of_check (s := reclaiming i) (free_of_slots reclaimSlots rfl)
      (show (reclaiming 0).directoryCheck (reclaimSlots.map Prod.fst) = true by decide +kernel), by decide +kernel, by decide +kernel,
    by decide +kernel, by decide +kernel, directorySound_of_check swept_free (by decide +kernel), by decide +kernel⟩

/-- OrdersComplete: a station order with another behind it, and a range order alone. -/
theorem witness_OrdersComplete :
    let s := { ((world [] []).endSession 1 .detach).endSession 2 .lapse with walk := none }
    s.walk = none ∧ s.sweepQueue = [.station 1 .detach, .station 2 .lapse] ∧ (sweeping none).walk = none ∧
      (sweeping none).sweepQueue = [.range rangeOrder] := by decide +kernel

theorem witness_RangeCompletion :
    completed.DirectorySound ∧
      completed.rangeCompletions[0]? = some { first := 0x0300, last := 0x03FF, requester := 0, overtaken := false } :=
  ⟨directorySound_of_check (free_of_slots [(10, slot .waiting 0 1 0x0305 .shared none)] rfl) (by decide +kernel), by decide +kernel⟩

theorem witness_Acknowledgement :
    (noticed.modifyPort 3 fun q => { q with acks := [[{ slot := 2, generation := 1, kind := .revoked }]] }).ports[3].acks =
      [[{ slot := 2, generation := 1, kind := .revoked }]] := by decide +kernel

/-- ReadConfigShowsTheItem: the first and the last item of the table. -/
theorem witness_ReadConfig : (asking 1 0x68 [1, 0x72] (world [] [])).Offers 1 0x68 [1, 0x72] ∧
    firstFailing ((asking 1 0x68 [1, 0x72] (world [] [])).sessionTests 1 1) = none ∧
    ((0x01, 0) : Byte × Word) ∈ (asking 1 0x68 [1, 0x72] (world [] [])).itemTable ∧
    ((0x72, 0) : Byte × Word) ∈ (asking 1 0x68 [1, 0x72] (world [] [])).itemTable :=
  ⟨offers_asking _ _ _ _, by decide +kernel⟩

/-- ConfigurationRefusedInOrder: an unknown item read and written, an item refused by each of its checks, FREEZE and HOLD
TIME refused, and a setting of 2. -/
theorem witness_ConfigRefused :
    let s := noticed.modifySettings fun t => { t with frozen := true }
    (s.itemTable.map Prod.fst).all (· != (0x00 : Byte)) = true ∧ (0x00 : Byte) ∉ writableItemNumbers ∧
      (∀ row ∈ writeRows 0 0x30 9, (0x30 : Byte) ∈ row.2.1 → row.2.2.1 = false) ∧
      (∀ row ∈ writeRows 0 0x30 8, (0x30 : Byte) ∈ row.2.1 → row.2.2.1 = true ∧ row.2.2.2 = true) ∧
      firstFailing (noticed.adminTests 0 1) = none ∧ noticed.directory ≠ [] ∧ s.settings.frozen = true ∧
      firstFailing (noticed.adminTests 1 1) = some .denied ∧ (2 : Byte) ≠ 0x00 ∧ (2 : Byte) ≠ 0x01 := by decide +kernel

/-- WriteThenRead: every writable item with the largest value its check passes. -/
theorem witness_WriteThenRead :
    firstFailing ((world [] []).adminTests 0 1) = none ∧ (world [] []).settings.frozen = false ∧
      (world [] []).directory = [] ∧
      ([(0x01, 1), (0x02, 0xFFFF), (0x13, 3), (0x1B, 256), (0x26, 0x0033), (0x21, 0xFFFF), (0x30, 8), (0x31, 32),
          (0x43, 0xFFFF), (0x4B, 3)] : List (Byte × Word)).all (fun x =>
        (writeRows 0 x.1 x.2).any fun row => row.2.1.contains x.1 && row.2.2.1) = true := by decide +kernel

/-- TimeBaseWrites: both sources. -/
theorem witness_TimeBaseWrites :
    (asking 0 0x69 ([1, 0x02] ++ wordBytes 1) (world [] [])).Offers 0 0x69 ([1, 0x02] ++ wordBytes 1) ∧
      firstFailing ((world [] []).adminTests 0 1) = none ∧ (world [] []).settings.frozen = false ∧
      (world [] []).settings.tickSource = .internal ∧
      ((world [] []).modifySettings fun t => { t with tickSource := .external }).settings.tickSource = .external :=
  ⟨offers_asking _ _ _ _, by decide +kernel⟩

theorem witness_FreezeAndHoldTime : (asking 0 0x6B [1, 0x01] (world [] [])).Offers 0 0x6B [1, 0x01] ∧
    firstFailing ((asking 0 0x6B [1, 0x01] (world [] [])).adminTests 0 1) = none :=
  ⟨offers_asking _ _ _ _, by decide +kernel⟩

/-- FrozenSettingsStay: a frozen part takes a RELEASE. -/
theorem witness_FrozenSettings : let s := contended.modifySettings fun t => { t with frozen := true }
    (∃ t, exec (.release 1) s = .next t) ∧ s.inReset = false ∧ s.settings.frozen = true :=
  ⟨release_next _ _, by decide +kernel⟩

/-- TicksAndRunouts: each source selected, time held, and counters at 1 and at 0. -/
theorem witness_TicksAndRunouts :
    (State.reset.timeBase.held = false ∧ State.reset.inReset = false ∧ State.reset.settings.tickSource = .internal) ∧
      (State.reset.modifySettings fun t => { t with tickSource := .external }).settings.tickSource = .external ∧
      (State.reset.modifyTimeBase fun b => { b with held := true }).timeBase.held ≠ false ∧
      (State.reset.loadCounter 9 1 .term).leaseCounters[9].running = true ∧
      (State.reset.loadCounter 9 0 .term).leaseCounters[9].value = 0 ∧
      (State.reset.loadLiveness 1 0).livenessCounters[1].running = true := by decide +kernel

/-- OwnershipPins: the channel of section 10.4, and one that is not enabled. -/
theorem witness_OwnershipPins : bound.DirectorySound ∧ bound.inReset = false ∧ bound.settings.channels[2].enable = true ∧
    bound.slots[0].state = .held ∧ bound.settings.channels[1].enable = false :=
  ⟨directorySound_of_check (free_of_slots [(0, slot .held 0 1 0x0140 .exclusive none)] rfl) (by decide +kernel), by decide +kernel⟩

/-- GenerationsAdvanceOnFree and the invariants of the pool and the directory: a RELEASE that frees and grants. -/
theorem witness_ReleaseStep :
    let s := asking 1 0x31 [1, 0x00, 0x01] contended
    s.PoolSound ∧ s.DirectorySound ∧ s.OneLeaseEach ∧ (∃ t, step { s with pending := [.release 1] } = .next t) ∧
      (∃ t, exec (.release 1) s = .next t) ∧ s.slots[1].state ≠ .free ∧ (after (exec (.release 1) s)).slots[1].state = .free :=
  ⟨poolSound_of_check contended_free (by decide +kernel) (by decide +kernel),
    directorySound_of_check contended_free (by decide +kernel),
    oneLeaseEach_of_check contended_free (by decide +kernel), release_next _ _, release_next _ _, by decide +kernel⟩

/-- EpochsAdvanceOnAttach: an ATTACH that begins a session. -/
theorem witness_AttachStep : let s := asking 2 0x20 [0, 200, 10, 0] State.reset
    s.sessions[2].state = .detached ∧ (after (exec (.attach 2) s)).sessions[2].state = .attached := by decide +kernel

def timedSlots : List (SlotIndex × Slot) :=
  [(7, slot .held 2 1 0x0A10 .exclusive none),
    (8, { slot .waiting 3 2 0x0A10 .exclusive none with
      lease := some { station := 2, key := 0x0A10, mode := .exclusive, term := 50, waitLimit := 9 } })]

/-- A running counter of a HELD slot, and a waiter's that ran out with its claim raised. -/
def timed : State :=
  claiming 8 3 .wait ((world timedSlots [entry 0x0A10 [7] .exclusive [8]]).loadCounter 7 50 .term)

/-- EveryStepKeepsTheCounters. -/
theorem witness_Counters : timed.CountersSound ∧ ∃ t, step { timed with pending := [.release 1] } = .next t :=
  ⟨countersSound_of_check (used := [7, 8]) (free_of_slots timedSlots rfl) (fun i hi => by
      simp only [List.mem_cons, List.not_mem_nil, or_false, not_or] at hi
      unfold timed claiming State.loadCounter
      rw [modifyCounter_leaseCounters, updVec_get_ne _ hi.2, modifyCounter_leaseCounters, updVec_get_ne _ hi.1]
      show (Vector.replicate 256 LeaseCounter.reset)[i] = _
      simp) (by decide +kernel), release_next _ _⟩

/-- EveryStepKeepsTheSweeps: a SWEEPING session behind a range order, and a walk that has reached its station's first
slot. -/
theorem witness_Sweeps : let s := (sweeping (some 9)).endSession 2 .lapse
    (s.PoolSound ∧ s.SweepSound ∧ ∃ t, step { s with pending := [.rangeSweepRemoval] } = .next t) ∧
      (reclaiming 10).PoolSound ∧ (reclaiming 10).SweepSound :=
  ⟨⟨poolSound_of_check swept_free (by decide +kernel) (by decide +kernel), sweepSound_of_check swept_free (by decide +kernel),
      _, rfl⟩,
    poolSound_of_check (free_of_slots reclaimSlots rfl) (by decide +kernel) (by decide +kernel),
    sweepSound_of_check (free_of_slots reclaimSlots rfl) (by decide +kernel)⟩

/-- EveryStepKeepsThePorts: a NOTICES frame in progress with a snapshot, three claims in flight, a command on its way. -/
theorem witness_Ports : let s := noticed.modifyPort 3 fun q =>
      { q with
        acks := [[], [], []], command := .busy { code := 0x21, args := [1], passedOn := false }, reloads := [.ofCommand]
        shifter := .receiving
          { received := bytesBits [0x53, 0], sent := bytesBits [0xA8, 0], outByte := 3, fetched := none,
            snapshot := some (noticed.noticesSnapshot 3 0) } }
    s.PortsSound ∧ ∃ t, step { s with pending := [.notices 3 .stop] } = .next t :=
  ⟨portsSound_of_check (by decide +kernel), _, rfl⟩

end Sys2Proof.Tests
end

section
/-! PROOFS. The lease pool: in one command a slot keeps its generation or becomes FREE with the next one (R6, R19). -/

namespace Sys2Proof.Machine

/-! ### What a taking may do to a slot -/

/-- The slot keeps its generation and does not become FREE. -/
structure Slot.Keeps (sl sl' : Slot) : Prop where
  generation : sl'.generation = sl.generation
  free : sl'.state = .free → sl.state = .free

/-- The slot keeps its generation, or it was in use and becomes FREE by R19. -/
def Slot.Advances (sl sl' : Slot) : Prop := sl.Keeps sl' ∨ (sl.state ≠ .free ∧ sl' = sl.freed)

/-- No slot becomes FREE, and each keeps its generation. -/
def KeepsGenerations (s t : State) : Prop := ∀ i : SlotIndex, s.slots[i].Keeps t.slots[i]

/-- Each slot keeps its generation or becomes FREE by R19. -/
def AdvancesGenerations (s t : State) : Prop := ∀ i : SlotIndex, s.slots[i].Advances t.slots[i]

theorem Slot.Keeps.refl (sl : Slot) : sl.Keeps sl := ⟨rfl, id⟩

theorem Slot.Keeps.trans {a b c : Slot} (h : a.Keeps b) (h' : b.Keeps c) : a.Keeps c :=
  ⟨h'.generation.trans h.generation, fun hc => h.free (h'.free hc)⟩

/-- A slot put in a state other than FREE keeps its generation if the change does. -/
theorem Slot.Keeps.of_ne_free {sl sl' : Slot} (hg : sl'.generation = sl.generation) (hs : sl'.state ≠ .free) :
    sl.Keeps sl' := ⟨hg, fun h => absurd h hs⟩

theorem KeepsGenerations.of_slots {s t : State} (h : t.slots = s.slots) : KeepsGenerations s t :=
  fun i => by rw [h]; exact .refl _

theorem KeepsGenerations.refl (s : State) : KeepsGenerations s s := .of_slots rfl

theorem KeepsGenerations.trans {s t u : State} (h : KeepsGenerations s t) (h' : KeepsGenerations t u) :
    KeepsGenerations s u := fun i => (h i).trans (h' i)

/-- A change of one slot that keeps its generation. -/
theorem KeepsGenerations.of_updVec {s t : State} {i : SlotIndex} {f : Slot → Slot} (h : t.slots = updVec s.slots i f)
    (hf : ∀ sl : Slot, sl.Keeps (f sl)) : KeepsGenerations s t := fun j => by
  rw [h, updVec_get]
  split
  · exact hf _
  · exact .refl _

theorem KeepsGenerations.advances {s t : State} (h : KeepsGenerations s t) : AdvancesGenerations s t :=
  fun i => .inl (h i)

/-! ### Operations -/

theorem keeps_modifySlot (s : State) (i : SlotIndex) {f : Slot → Slot} (hf : ∀ sl : Slot, sl.Keeps (f sl)) :
    KeepsGenerations s (s.modifySlot i f) := .of_updVec (modifySlot_slots s i f) hf

theorem keeps_loadCounter (s : State) (i : SlotIndex) (v : Word) (ph : Phase) :
    KeepsGenerations s (s.loadCounter i v ph) := .of_slots rfl

theorem keeps_withDirectory (s : State) (d : List Entry) : KeepsGenerations s (s.withDirectory d) := .of_slots rfl

theorem keeps_editEntry (s : State) (k : Word) (f : Entry → Entry) : KeepsGenerations s (s.editEntry k f) :=
  .of_slots (editEntry_slots s k f)

theorem keeps_settleEntry (s : State) (k : Word) : KeepsGenerations s (s.settleEntry k) :=
  .of_slots (settleEntry_slots s k)

/-- A FREE slot that takes a lease keeps its generation (R9). -/
theorem keeps_occupy (s : State) (i : SlotIndex) {st : SlotState} (h : st ≠ .free) (l : Lease) :
    KeepsGenerations s (s.occupy i st l) := by
  refine (keeps_modifySlot s i fun _ => ?_).trans (.of_slots (modifySession_slots _ _ _))
  exact .of_ne_free rfl h

/-! ### Grants (R10, R54) -/

theorem keeps_grantWaiter (s : State) (k : Word) (i : SlotIndex) (l : Lease) :
    KeepsGenerations s (s.grantWaiter k i l) :=
  .of_updVec (grantWaiter_slots s k i l) fun _ => .of_ne_free rfl nofun

/-- One step of the grant policy: it passes a waiter over, stops, or grants it and stops or goes on. -/
theorem regrantOver_cons_cases (k : Word) (i : SlotIndex) (ws : List SlotIndex) (s : State) :
    regrantOver k (i :: ws) s = s ∨ regrantOver k (i :: ws) s = regrantOver k ws s ∨
      ∃ l, regrantOver k (i :: ws) s = s.grantWaiter k i l ∨
        regrantOver k (i :: ws) s = regrantOver k ws (s.grantWaiter k i l) := by
  rw [regrantOver]
  split
  · exact .inr (.inl rfl)
  · split
    · split
      · split
        · exact .inr (.inr ⟨_, .inl rfl⟩)
        · exact .inr (.inr ⟨_, .inr rfl⟩)
      · exact .inl rfl
    · exact .inl rfl

theorem keeps_regrantOver (k : Word) (ws : List SlotIndex) (s : State) :
    KeepsGenerations s (regrantOver k ws s) := by
  induction ws generalizing s with
  | nil => exact .refl s
  | cons i ws ih =>
    rcases regrantOver_cons_cases k i ws s with h | h | ⟨l, h | h⟩ <;> rw [h]
    · exact .refl s
    · exact ih s
    · exact keeps_grantWaiter s k i l
    · exact (keeps_grantWaiter s k i l).trans (ih _)

/-- The grant policy changes waiters alone. -/
theorem regrantOver_slot_of_notMem (k : Word) {ws : List SlotIndex} {j : SlotIndex} (h : j ∉ ws) (s : State) :
    (regrantOver k ws s).slots[j] = s.slots[j] := by
  induction ws generalizing s with
  | nil => rfl
  | cons i ws ih =>
    obtain ⟨hji, hj⟩ := List.ne_and_not_mem_of_not_mem_cons h
    have granted : ∀ l, (s.grantWaiter k i l).slots[j] = s.slots[j] := fun l => by
      rw [grantWaiter_slots, updVec_get_ne _ hji]
    rcases regrantOver_cons_cases k i ws s with e | e | ⟨l, e | e⟩ <;> rw [e]
    · exact ih hj s
    · exact granted l
    · rw [ih hj, granted]

theorem keeps_regrant (s : State) (k : Word) : KeepsGenerations s (s.regrant k) := by
  unfold State.regrant
  split
  · exact .refl s
  · exact keeps_regrantOver _ _ _

/-- A regrant changes members of its key's wait queue alone. -/
theorem regrant_slot_of_notQueued {s : State} {k : Word} {j : SlotIndex}
    (h : ∀ e, entryOf s.directory k = some e → j ∉ e.queue) : (s.regrant k).slots[j] = s.slots[j] := by
  unfold State.regrant
  split
  · rfl
  · rename_i e he
    exact regrantOver_slot_of_notMem k (h e he) s

theorem keeps_regrantKeys (ks : List Word) (s : State) : KeepsGenerations s (regrantKeys ks s) := by
  induction ks generalizing s with
  | nil => exact .refl s
  | cons k ks ih => exact ((keeps_regrant s k).trans (keeps_settleEntry _ k)).trans (ih _)

/-! ### Removals (R11, R17, R18, R19) -/

/-- A removal leaves the slot itself as its FREE or ENDED step does, whatever the directory holds: the slot has left the
wait queue before its key's regrant. -/
theorem removeSlot_slot_self (s : State) (i : SlotIndex) (d : Disposal) :
    (s.removeSlot i d).slots[i] = (s.dispose i d).slots[i] := by
  unfold State.removeSlot
  split
  · rename_i l _ _
    have hq : ∀ e, entryOf ((s.vacate i l.key).dispose i d).directory l.key = some e → i ∉ e.queue := by
      intro e he hi
      rw [dispose_directory, vacate_entry, Option.map_eq_some_iff] at he
      obtain ⟨e', _, rfl⟩ := he
      exact (mem_without_queue.1 hi).2 rfl
    rw [settleEntry_slots, regrant_slot_of_notQueued hq, dispose_slots, dispose_slots, vacate_slots]
  · rfl

/-- A removal keeps the generation of every other slot. -/
theorem removeSlot_keeps_ne (s : State) {i j : SlotIndex} (h : j ≠ i) (d : Disposal) :
    s.slots[j].Keeps (s.removeSlot i d).slots[j] := by
  have disposed : ∀ u : State, (u.dispose i d).slots[j] = u.slots[j] := fun u => by
    rw [dispose_slots, updVec_get_ne _ h]
  unfold State.removeSlot
  split
  · rename_i l _ _
    have hv : ((s.vacate i l.key).dispose i d).slots[j] = s.slots[j] := by rw [disposed, vacate_slots]
    rw [settleEntry_slots, ← hv]
    exact keeps_regrant _ _ j
  · rw [disposed]; exact .refl _

theorem keeps_removeSlot_ended (s : State) (i : SlotIndex) (kind : NoticeKind) :
    KeepsGenerations s (s.removeSlot i (.ended kind)) := fun j => by
  by_cases h : j = i
  · subst h
    rw [removeSlot_slot_self, dispose_slots, updVec_get_self]
    exact .of_ne_free rfl (by simp [Slot.endedWith])
  · exact removeSlot_keeps_ne s h _

theorem advances_removeSlot_free {s : State} {i : SlotIndex} (h : s.slots[i].state ≠ .free) :
    AdvancesGenerations s (s.removeSlot i .free) := fun j => by
  by_cases hj : j = i
  · subst hj
    refine .inr ⟨h, ?_⟩
    rw [removeSlot_slot_self, dispose_slots, updVec_get_self]
  · exact .inl (removeSlot_keeps_ne s hj _)

/-! ### Commands of the GE (spec/03, spec/04) -/

theorem keeps_renewSlot (s : State) (i : SlotIndex) (l : Lease) (term : Word) :
    KeepsGenerations s (s.renewSlot i l term) := by
  refine (keeps_modifySlot s i fun _ => ?_).trans (keeps_loadCounter _ _ _ _)
  exact .of_ne_free rfl nofun

theorem keeps_setExtension (s : State) (i : SlotIndex) (term : Word) : KeepsGenerations s (s.setExtension i term) := by
  refine keeps_modifySlot s i fun _ => ?_
  exact ⟨rfl, id⟩

theorem keeps_stepDown (s : State) (i : SlotIndex) (l : Lease) : KeepsGenerations s (s.stepDown i l) := by
  refine ((keeps_modifySlot s i fun _ => ?_).trans (keeps_editEntry _ _ _)).trans (keeps_regrant _ _)
  exact ⟨rfl, id⟩

theorem keeps_stepUp (s : State) (i : SlotIndex) (l : Lease) : KeepsGenerations s (s.stepUp i l) := by
  refine (keeps_modifySlot s i fun _ => ?_).trans (keeps_editEntry _ _ _)
  exact ⟨rfl, id⟩

theorem keeps_grantNow (s : State) (i : SlotIndex) (l : Lease) : KeepsGenerations s (s.grantNow i l) :=
  ((keeps_occupy s i (st := .held) nofun l).trans (keeps_loadCounter _ _ _ _)).trans (keeps_withDirectory _ _)

theorem keeps_queueUp (s : State) (i : SlotIndex) (l : Lease) : KeepsGenerations s (s.queueUp i l) := by
  have hoccupy := keeps_occupy s i (st := .waiting) nofun l
  refine hoccupy.trans (KeepsGenerations.trans ?_ (keeps_withDirectory _ _))
  split
  · exact .of_slots rfl
  · exact keeps_loadCounter _ _ _ _

theorem keeps_acquirePlace (l : Lease) (once : Bool) (s : State) : KeepsGenerations s (acquirePlace l once s).1 := by
  unfold acquirePlace
  split
  · exact .refl s
  · split
    · exact .refl s
    · split
      · exact keeps_grantNow _ _ _
      · split
        · exact .refl s
        · split
          · exact .refl s
          · exact keeps_queueUp _ _ _

theorem keeps_acquire (p : Station) (epoch : Byte) (k : Word) (flags : Byte) (term wait : Word) (s : State) :
    KeepsGenerations s (acquire p epoch k flags term wait s).1 := by
  unfold acquire
  split
  · exact .refl s
  · exact .refl s
  · exact keeps_acquirePlace _ _ s

/-- RELEASE frees the slot its handle names, which the handle check has found in use (R7, R61). -/
theorem advances_release (p : Station) (epoch : Byte) (h : Word) (s : State) :
    AdvancesGenerations s (release p epoch h s).1 := by
  unfold release
  split
  · exact (KeepsGenerations.refl s).advances
  · rename_i hnone
    rw [handleCommandRefusal_eq] at hnone
    obtain ⟨_, _, _, hused, _⟩ := handleTests_lease hnone
    exact advances_removeSlot_free hused

theorem keeps_renew (p : Station) (epoch : Byte) (h term : Word) (s : State) :
    KeepsGenerations s (renew p epoch h term s).1 := by
  unfold renew
  split
  · exact .refl s
  · split
    · split
      · exact .refl s
      · exact keeps_renewSlot _ _ _ _
    · split
      · exact .refl s
      · exact keeps_renewSlot _ _ _ _
    · exact .refl s

theorem keeps_extend (p : Station) (epoch : Byte) (h term : Word) (s : State) :
    KeepsGenerations s (extend p epoch h term s).1 := by
  unfold extend
  split
  · exact .refl s
  · split
    · split
      · exact .refl s
      · exact keeps_setExtension _ _ _
    · split
      · exact .refl s
      · split
        · exact .refl s
        · exact keeps_renewSlot _ _ _ _
    · exact .refl s

theorem keeps_convertHeld (i : SlotIndex) (l : Lease) (m : LeaseMode) (s : State) :
    KeepsGenerations s (convertHeld i l m s).1 := by
  unfold convertHeld
  split
  · exact .refl s
  · split
    · exact keeps_stepDown s i l
    · split
      · exact keeps_stepUp s i l
      · exact .refl s

theorem keeps_convert (p : Station) (epoch : Byte) (h : Word) (mode : Byte) (s : State) :
    KeepsGenerations s (convert p epoch h mode s).1 := by
  unfold convert
  split
  · exact .refl s
  · split
    · split
      · exact .refl s
      · exact keeps_convertHeld _ _ _ s
    · exact .refl s

theorem queryLease_fst (p : Station) (epoch : Byte) (h : Word) (s : State) : (queryLease p epoch h s).1 = s := by
  unfold queryLease; split <;> rfl

theorem queryKey_fst (p : Station) (epoch : Byte) (k : Word) (s : State) : (queryKey p epoch k s).1 = s := by
  unfold queryKey; split <;> rfl

theorem revokeRange_slots (p : Station) (epoch : Byte) (first last : Word) (flags : Byte) (s : State) :
    (revokeRange p epoch first last flags s).1.slots = s.slots := by
  unfold revokeRange
  split
  · rfl
  · split <;> rfl

/-- A taking of the GE does to the slots what the command's act does. -/
theorem advances_geTaking {p : Station} {code : Byte} {act : List Byte → State → State × Reply} {s t : State}
    (h : geTaking p code act s = .next t) (hact : ∀ args, AdvancesGenerations s (act args s).1) :
    AdvancesGenerations s t := by
  rcases geTaking_cases h with rfl | ⟨args, _, rfl⟩
  · exact (KeepsGenerations.refl t).advances
  · exact hact args

/-! ### Claims the GE takes (R76, R77, R119, R120, R136) -/

theorem keeps_applyExtension (s : State) (i : SlotIndex) (x : Word) : KeepsGenerations s (s.applyExtension i x) := by
  refine (keeps_modifySlot s i fun _ => ?_).trans (keeps_loadCounter _ _ _ _)
  exact ⟨rfl, id⟩

theorem keeps_lapseInto (s : State) (i : SlotIndex) (g : Byte) : KeepsGenerations s (s.lapseInto i g) := by
  refine (keeps_modifySlot s i fun _ => ?_).trans (keeps_loadCounter _ _ _ _)
  exact .of_ne_free rfl nofun

theorem keeps_termExpires (s : State) (i : SlotIndex) : KeepsGenerations s (s.termExpires i) := by
  unfold State.termExpires
  split
  · exact keeps_applyExtension _ _ _
  · split
    · exact keeps_removeSlot_ended s i .revoked
    · exact keeps_lapseInto _ _ _
  · exact keeps_removeSlot_ended s i .revoked

theorem keeps_takeExpiry (s : State) (i : SlotIndex) (ph : Phase) {act : State → State}
    (hact : ∀ u, KeepsGenerations u (act u)) : KeepsGenerations s (s.takeExpiry i ph act) := by
  unfold State.takeExpiry
  split
  · exact .refl s
  · split
    · dsimp only
      split
      · exact hact (s.modifyCounter i _)
      · exact .of_slots rfl
    · exact .refl s

theorem advances_stationVisit (s : State) (p : Station) (i : SlotIndex) :
    AdvancesGenerations s (s.stationVisit p i) := by
  unfold State.stationVisit
  split
  · rename_i h
    exact advances_removeSlot_free h.1
  · exact (KeepsGenerations.refl s).advances

theorem keeps_rangeVisit (s : State) (r : RangeOrder) (i : SlotIndex) : KeepsGenerations s (s.rangeVisit r i) := by
  unfold State.rangeVisit
  split
  · exact .refl s
  · split
    · exact keeps_removeSlot_ended s i .swept
    · exact .refl s

/-- The slot after an acknowledgement entry that passes its test: the notice is removed, an ENDED slot becomes FREE
(R136). -/
def Slot.withoutNotice (sl : Slot) : Slot := if sl.state = .ended then sl.freed else { sl with notice := none }

theorem Slot.withoutNotice_notice (sl : Slot) : sl.withoutNotice.notice = none := by
  unfold Slot.withoutNotice; split <;> rfl

theorem Slot.advances_withoutNotice (sl : Slot) : sl.Advances sl.withoutNotice := by
  unfold Slot.withoutNotice
  split
  · rename_i hended
    exact .inr ⟨by rw [hended]; decide, rfl⟩
  · exact .inl ⟨rfl, id⟩

theorem acknowledge_slots {s : State} {p : Station} {e : AckEntry} (h : s.ackPasses p e = true) :
    (s.acknowledge p e).slots = updVec s.slots e.slot Slot.withoutNotice := by
  unfold State.acknowledge updVec Slot.withoutNotice
  rw [if_pos h]
  by_cases hended : s.slots[e.slot].state = .ended
  · rw [if_pos hended, if_pos hended]
    exact dispose_slots s e.slot .free
  · rw [if_neg hended, if_neg hended]
    rfl

theorem notice_of_ackPasses {s : State} {p : Station} {e : AckEntry} (h : s.ackPasses p e = true) :
    s.slots[e.slot].notice = some e.kind := by
  simp only [State.ackPasses, Bool.and_eq_true, beq_iff_eq] at h
  exact h.1.2

/-- One entry changes a slot that carries a notice alone (R136). -/
theorem acknowledge_slot_cases (s : State) (p : Station) (e : AckEntry) (i : SlotIndex) :
    (s.acknowledge p e).slots[i] = s.slots[i] ∨
      (s.slots[i].notice ≠ none ∧ (s.acknowledge p e).slots[i] = s.slots[i].withoutNotice) := by
  by_cases hpass : s.ackPasses p e = true
  · by_cases hi : i = e.slot
    · subst hi
      refine .inr ⟨?_, ?_⟩
      · rw [notice_of_ackPasses hpass]; exact Option.some_ne_none _
      · rw [acknowledge_slots hpass, updVec_get_self]
    · exact .inl (by rw [acknowledge_slots hpass, updVec_get_ne _ hi])
  · exact .inl (by rw [State.acknowledge, if_neg hpass])

/-- The entries of one claim leave a slot alone or take its notice once: without a notice no later entry passes. -/
theorem acknowledge_foldl_cases (p : Station) (i : SlotIndex) (sl : Slot) (claim : List AckEntry) (s : State)
    (h : s.slots[i] = sl ∨ s.slots[i] = sl.withoutNotice) :
    (claim.foldl (fun t e => t.acknowledge p e) s).slots[i] = sl ∨
      (claim.foldl (fun t e => t.acknowledge p e) s).slots[i] = sl.withoutNotice := by
  induction claim generalizing s with
  | nil => exact h
  | cons e claim ih =>
    refine ih (s.acknowledge p e) ?_
    rcases acknowledge_slot_cases s p e i with hsame | ⟨hnotice, htaken⟩
    · rw [hsame]; exact h
    · rcases h with hsl | hsl
      · exact .inr (by rw [htaken, hsl])
      · exact absurd (by rw [hsl, Slot.withoutNotice_notice]) hnotice

theorem advances_acknowledgementClaim {p : Station} {s t : State} (h : execAcknowledgementClaim p s = .next t) :
    AdvancesGenerations s t := by
  unfold execAcknowledgementClaim at h
  split at h <;> cases h
  · exact (KeepsGenerations.refl _).advances
  · rename_i claim rest _
    intro i
    rcases acknowledge_foldl_cases p i s.slots[i] claim (s.modifyPort p fun q => { q with acks := rest }) (.inl rfl)
      with e | e <;> rw [e]
    · exact .inl (.refl _)
    · exact Slot.advances_withoutNotice _

/-! ### Commands that leave the pool alone -/

theorem PortOnly.slots {p : Station} {s t : State} (h : PortOnly p s t) : t.slots = s.slots := by rw [h]

theorem beginSession_slots (s : State) (p : Station) (term : Word) (grace : Byte) :
    (s.beginSession p term grace).slots = s.slots := by
  unfold State.beginSession; dsimp only; split <;> rfl

theorem attach_slots (p : Station) (term : Word) (grace flags : Byte) (s : State) :
    (attach p term grace flags s).1.slots = s.slots := by
  unfold attach
  split
  · split
    · exact beginSession_slots _ _ _ _
    · split <;> rfl
    · rfl
  · rfl

theorem detach_slots (p : Station) (epoch : Byte) (s : State) : (detach p epoch s).1.slots = s.slots := by
  unfold detach; split <;> rfl

theorem purge_slots (p : Station) (epoch station : Byte) (s : State) :
    (purge p epoch station s).1.slots = s.slots := by
  unfold purge
  split
  · rfl
  · split <;> rfl

theorem clearStation_slots (s : State) (q : Station) : (s.clearStation q).slots = s.slots := by
  unfold State.clearStation; split <;> rfl

theorem clearAll_slots (p : Station) (epoch : Byte) (s : State) : (clearAll p epoch s).1.slots = s.slots := by
  unfold clearAll
  split
  · rfl
  · simp only [clearStation_slots]

theorem readConfig_fst (p : Station) (epoch item : Byte) (s : State) : (readConfig p epoch item s).1 = s := by
  unfold readConfig
  split
  · rfl
  · split <;> rfl

/-- A WRITE CONFIG that its checks let pass stores; any other changes nothing but the result (R161). -/
theorem writeItem_fst_cases (p : Station) (epoch : Byte) (format needsEmpty : Bool) (store : State → State)
    (s : State) :
    (writeItem p epoch format needsEmpty store s).1 = s ∨
      (writeItem p epoch format needsEmpty store s).1 = store s := by
  unfold writeItem
  split
  · exact .inl rfl
  · split
    · exact .inl rfl
    · split
      · exact .inl rfl
      · exact .inr rfl

theorem storeTickSource_slots (s : State) (v : Word) : (s.storeTickSource v).slots = s.slots := by
  unfold State.storeTickSource
  by_cases h : s.settings.tickSource = if v = 0 then TickSource.internal else .external
  · simp only [h, if_true]
  · simp only [h, if_false]
    rfl

theorem freeze_slots (p : Station) (epoch : Byte) (s : State) : (freeze p epoch s).1.slots = s.slots := by
  unfold freeze; split <;> rfl

theorem holdTime_slots (p : Station) (epoch : Byte) (on : Bool) (s : State) :
    (holdTime p epoch on s).1.slots = s.slots := by
  unfold holdTime; split <;> rfl

/-- A taking of the Session Unit or the Configuration Unit whose act spares the slots spares them. -/
theorem unitTaking_slots {p : Station} {code : Byte} {about : List Byte → Bool}
    {act : List Byte → State → State × Reply} {s t : State} (h : unitTaking p code about act s = .next t)
    (hact : ∀ args, (act args s).1.slots = s.slots) : t.slots = s.slots := by
  rcases unitTaking_cases h with rfl | ⟨args, _, _, rfl⟩
  · rfl
  · exact hact args

/-- A write of an item whose store spares the slots spares them. -/
theorem writeTaking_slots {p : Station} {about : List Byte → Bool} {format : List Byte → Bool} {needsEmpty : Bool}
    {store : List Byte → State → State} {s t : State}
    (h : unitTaking p codeWriteConfig about
      (fun a => writeItem p (argByte a 0) (format a) needsEmpty (store a)) s = .next t)
    (hstore : ∀ a, (store a s).slots = s.slots) : t.slots = s.slots :=
  unitTaking_slots h fun a => by
    rcases writeItem_fst_cases p (argByte a 0) (format a) needsEmpty (store a) s with e | e <;> rw [e]
    exact hstore a

/-! ### Commands of the counters, the sessions and the Sweep Engine -/

theorem execInternalTick_slots {s t : State} (h : execInternalTick s = .next t) : t.slots = s.slots := by
  unfold execInternalTick at h; split at h <;> cases h <;> rfl

theorem execTick_slots {s t : State} (h : execTick s = .next t) : t.slots = s.slots := by
  unfold execTick at h; split at h <;> cases h <;> rfl

theorem execLeaseCounterRunout_slots {i : SlotIndex} {s t : State} (h : execLeaseCounterRunout i s = .next t) :
    t.slots = s.slots := by
  unfold execLeaseCounterRunout at h; dsimp only at h; split at h <;> cases h <;> rfl

theorem execLivenessCounterRunout_slots {p : Station} {s t : State} (h : execLivenessCounterRunout p s = .next t) :
    t.slots = s.slots := by
  unfold execLivenessCounterRunout at h; dsimp only at h; split at h <;> cases h <;> rfl

theorem execLivenessReload_slots {p : Station} {which : Nat} {s t : State}
    (h : execLivenessReload p which s = .next t) : t.slots = s.slots := by
  unfold execLivenessReload at h
  split at h
  · cases h; rfl
  · dsimp only at h; split at h <;> cases h <;> rfl

theorem execBadCmd_slots {p : Station} {s t : State} (h : execBadCmd p s = .next t) : t.slots = s.slots := by
  unfold execBadCmd at h
  split at h
  · split at h <;> cases h <;> rfl
  · cases h; rfl

theorem execLapseClaim_slots {p : Station} {s t : State} (h : execLapseClaim p s = .next t) : t.slots = s.slots := by
  unfold execLapseClaim at h
  split at h
  · dsimp only at h; split at h <;> cases h <;> rfl
  · cases h; rfl

theorem execStationOrderComplete_slots {s t : State} (h : execStationOrderComplete s = .next t) :
    t.slots = s.slots := by
  unfold execStationOrderComplete at h; split at h <;> cases h <;> rfl

theorem execRangeOrderComplete_slots {s t : State} (h : execRangeOrderComplete s = .next t) :
    t.slots = s.slots := by
  unfold execRangeOrderComplete at h; split at h <;> cases h <;> rfl

theorem execSessionSweepCompletion_slots {p : Station} {s t : State} (h : execSessionSweepCompletion p s = .next t) :
    t.slots = s.slots := by
  unfold execSessionSweepCompletion at h; split at h <;> cases h <;> rfl

theorem execEndOfReset_slots {strap : Station} {s t : State} (h : execEndOfReset strap s = .next t) :
    t.slots = s.slots := by
  unfold execEndOfReset at h; split at h <;> cases h <;> rfl

theorem advances_stationSweepRemoval {s t : State} (h : execStationSweepRemoval s = .next t) :
    AdvancesGenerations s t := by
  unfold execStationSweepRemoval at h
  split at h <;> cases h
  · exact advances_stationVisit s _ _
  · exact (KeepsGenerations.refl _).advances

theorem keeps_rangeSweepRemoval {s t : State} (h : execRangeSweepRemoval s = .next t) : KeepsGenerations s t := by
  unfold execRangeSweepRemoval at h
  split at h <;> cases h
  · exact keeps_rangeVisit s _ _
  · exact .refl _

theorem keeps_rangeCompletionClaim {which : Nat} {s t : State} (h : execRangeCompletionClaim which s = .next t) :
    KeepsGenerations s t := by
  unfold execRangeCompletionClaim at h
  split at h <;> cases h
  · exact .refl _
  · exact keeps_regrantKeys _ { s with rangeCompletions := s.rangeCompletions.eraseIdx which }

/-! ### Every command -/

/-- Each command but HARDWARE_RESET keeps a slot's generation or makes the slot FREE by R19 (R6). -/
theorem exec_advances {c : Instr} {s t : State} (hc : c ≠ .hardwareReset) (h : exec c s = .next t) :
    AdvancesGenerations s t := by
  have spared : t.slots = s.slots → AdvancesGenerations s t := fun hs => (KeepsGenerations.of_slots hs).advances
  have same : ∀ {u : State}, u = s → AdvancesGenerations s u := fun hu =>
    (KeepsGenerations.of_slots (by rw [hu])).advances
  cases c
  case hardwareReset => exact absurd rfl hc
  case status p ev | fetch p ev | notices p ev | mask p ev | clearFlags p ev | ident p ev | brokenFrame p ev |
      postedFrameEnd p _ ev =>
    obtain rfl := Host.Outcome.next.inj h
    exact spared (portOnly_frameEvent p s _ ev).slots
  case livenessReload => exact spared (execLivenessReload_slots h)
  case badCmd => exact spared (execBadCmd_slots h)
  case attach => exact spared (unitTaking_slots h fun _ => attach_slots _ _ _ _ _)
  case detach => exact spared (unitTaking_slots h fun _ => detach_slots _ _ _)
  case purge => exact spared (unitTaking_slots h fun _ => purge_slots _ _ _ _)
  case clearAll => exact spared (unitTaking_slots h fun _ => clearAll_slots _ _ _)
  case readConfig => exact spared (unitTaking_slots h fun _ => congrArg State.slots (readConfig_fst _ _ _ _))
  case writeConfig | holdTimeInvalidSetting =>
    exact spared (unitTaking_slots (act := fun _ u => (u, .plain .badArg)) h fun _ => rfl)
  case writeTickSource => exact spared (writeTaking_slots h fun _ => storeTickSource_slots _ _)
  case writeTickPeriod | writeAccessLevel | writeQuota | writeProtectedRange | writeSharedLimit | writeQueueLimit |
      writeChannelKey | writeChannelCtrl => exact spared (writeTaking_slots h fun _ => rfl)
  case freeze => exact spared (unitTaking_slots h fun _ => freeze_slots _ _ _)
  case holdTimeOn | holdTimeOff => exact spared (unitTaking_slots h fun _ => holdTime_slots _ _ _ _)
  case acquire => exact advances_geTaking h fun _ => (keeps_acquire _ _ _ _ _ _ s).advances
  case release => exact advances_geTaking h fun _ => advances_release _ _ _ s
  case renew => exact advances_geTaking h fun _ => (keeps_renew _ _ _ _ s).advances
  case extend => exact advances_geTaking h fun _ => (keeps_extend _ _ _ _ s).advances
  case convert => exact advances_geTaking h fun _ => (keeps_convert _ _ _ _ s).advances
  case queryLease => exact advances_geTaking h fun _ => same (queryLease_fst _ _ _ s)
  case queryKey => exact advances_geTaking h fun _ => same (queryKey_fst _ _ _ s)
  case revokeRange =>
    exact advances_geTaking h fun _ => (KeepsGenerations.of_slots (revokeRange_slots _ _ _ _ _ s)).advances
  case internalTick => exact spared (execInternalTick_slots h)
  case tick => exact spared (execTick_slots h)
  case leaseCounterRunout => exact spared (execLeaseCounterRunout_slots h)
  case livenessCounterRunout => exact spared (execLivenessCounterRunout_slots h)
  case termExpiryClaim i =>
    obtain rfl := Host.Outcome.next.inj h
    exact (keeps_takeExpiry s i .term fun u => keeps_termExpires u i).advances
  case graceExpiryClaim i =>
    obtain rfl := Host.Outcome.next.inj h
    exact (keeps_takeExpiry s i .grace fun u => keeps_removeSlot_ended u i .revoked).advances
  case waitExpiryClaim i =>
    obtain rfl := Host.Outcome.next.inj h
    exact (keeps_takeExpiry s i .wait fun u => keeps_removeSlot_ended u i .timedOut).advances
  case lapseClaim => exact spared (execLapseClaim_slots h)
  case stationSweepRemoval => exact advances_stationSweepRemoval h
  case rangeSweepRemoval => exact (keeps_rangeSweepRemoval h).advances
  case stationOrderComplete => exact spared (execStationOrderComplete_slots h)
  case sessionSweepCompletion => exact spared (execSessionSweepCompletion_slots h)
  case rangeOrderComplete => exact spared (execRangeOrderComplete_slots h)
  case rangeCompletionClaim => exact (keeps_rangeCompletionClaim h).advances
  case acknowledgementClaim => exact advances_acknowledgementClaim h
  case endOfReset => exact spared (execEndOfReset_slots h)

/-- HARDWARE_RESET sets every generation to 0 (R3, R6). -/
theorem execHardwareReset_generation {s t : State} (h : exec .hardwareReset s = .next t) (i : SlotIndex) :
    t.slots[i].generation = 0 := by
  obtain rfl := Host.Outcome.next.inj h
  show (Vector.replicate 256 Slot.reset)[i].generation = 0
  rw [Fin.getElem_fin, Vector.getElem_replicate]
  rfl

/-- Settles O54: one command keeps a slot's generation or frees the slot (`exec_advances`), except hardware reset, which
sets every generation to 0. -/
theorem generationsAdvanceOnFree : Obligations.GenerationsAdvanceOnFree := by
  intro c s t i h
  split
  · rename_i hc
    subst hc
    exact execHardwareReset_generation h i
  · rename_i hc
    rcases exec_advances hc h i with hkeeps | ⟨hused, hfreed⟩
    · rw [if_neg fun hf => hf.1 (hkeeps.free hf.2)]
      exact hkeeps.generation
    · rw [if_pos ⟨hused, by rw [hfreed]; rfl⟩]
      exact hfreed

end Sys2Proof.Machine
end

section
/-! PROOFS. Terms: RENEW and EXTEND of a HELD slot and of one in GRACE, and the expiry claims that fail their test
(R76, R82 to R85). -/

namespace Sys2Proof.Machine

/-! ### Expiry claims that fail their test (R76) -/

/-- The test of an expiry claim, part by part. -/
theorem claimPasses_iff (s : State) (i : SlotIndex) (c : ExpiryClaim) :
    s.claimPasses i c = true ↔
      s.slots[i].generation = c.generation ∧ s.slots[i].state = c.phase.state ∧ s.leaseCounters[i].value = 0 := by
  simp only [State.claimPasses, Bool.and_eq_true, beq_iff_eq, and_assoc]

/-- A claim of the phase asked for that fails its test leaves its counter, whatever a passing one would have done. -/
theorem takeExpiry_of_fails {s : State} {i : SlotIndex} {c : ExpiryClaim} {ph : Phase}
    (hc : s.leaseCounters[i].claim = some c) (hph : c.phase = ph)
    (hfails : ¬ (s.slots[i].generation = c.generation ∧ s.slots[i].state = ph.state ∧ s.leaseCounters[i].value = 0))
    (act : State → State) : s.takeExpiry i ph act = s.modifyCounter i fun k => { k with claim := none } := by
  subst hph
  rw [← claimPasses_iff, Bool.not_eq_true] at hfails
  simp only [State.takeExpiry, hc, hfails, if_true, Bool.false_eq_true, if_false]

/-- Settles O39: the three rows take their claims by `takeExpiry`, each with the state its phase implies. -/
theorem failedExpiryClaimDiscarded : Obligations.FailedExpiryClaimDiscarded := by
  intro s i c hc row hrow hph hfails
  simp only [List.mem_cons, List.not_mem_nil, or_false] at hrow
  rcases hrow with rfl | rfl | rfl
  · exact congrArg Host.Outcome.next (takeExpiry_of_fails hc hph hfails fun t => t.termExpires i)
  · exact congrArg Host.Outcome.next (takeExpiry_of_fails hc hph hfails fun t => t.removeSlot i (.ended .revoked))
  · exact congrArg Host.Outcome.next (takeExpiry_of_fails hc hph hfails fun t => t.removeSlot i (.ended .timedOut))

/-! ### RENEW and EXTEND past their checks (R81 to R85) -/

/-- A list of checks is passed check by check. -/
theorem firstFailing_cons_eq_none {fails : Bool} {r : ResultCode} {rest : List (Bool × ResultCode)} :
    firstFailing ((fails, r) :: rest) = none ↔ fails = false ∧ firstFailing rest = none := by
  cases fails <;> simp [firstFailing]

/-- A RENEW or EXTEND of this handle passes every check of R60, and `l` is the lease it names. -/
structure State.Renewable (s : State) (p : Station) (epoch : Byte) (h : Word) (l : Lease) : Prop where
  unrefused : s.handleCommandRefusal p epoch h true = none
  lease : s.slots[handleSlot h].lease = some l
  holding : s.slots[handleSlot h].state = .held ∨ s.slots[handleSlot h].state = .grace
  undoomed : s.doomed (handleSlot h) = false

/-- The checks of R60 in their order, the two on the slot's state last (R81). -/
theorem renewable_of_tests {s : State} {p : Station} {epoch : Byte} {h : Word}
    (hpass : firstFailing (s.handleTests p epoch h true ++
      [(s.slots[handleSlot h].state != .held && s.slots[handleSlot h].state != .grace, .wrongState),
        (s.doomed (handleSlot h), .doomed)]) = none) :
    ∃ l, s.Renewable p epoch h l := by
  rw [firstFailing_append, Option.or_eq_none_iff, firstFailing_cons_eq_none, firstFailing_cons_eq_none,
    Bool.and_eq_false_iff, bne_eq_false_iff_eq, bne_eq_false_iff_eq] at hpass
  obtain ⟨hhandle, hholding, hundoomed, -⟩ := hpass
  obtain ⟨l, hl, -⟩ := handleTests_lease hhandle
  exact ⟨l, (handleCommandRefusal_eq ..).trans hhandle, hl, hholding, hundoomed⟩

section renewable
variable {s : State} {p : Station} {epoch : Byte} {h : Word} {l : Lease}

theorem renew_of_renewable (hr : s.Renewable p epoch h l) (term : Word) :
    renew p epoch h term s = (s.renewSlot (handleSlot h) l term, .plain .ok) := by
  obtain ⟨hu, hl, hs | hs, hd⟩ := hr <;>
    simp only [renew, hu, hl, hs, hd, Bool.false_eq_true, if_false]

theorem extend_of_held (hr : s.Renewable p epoch h l) (hs : s.slots[handleSlot h].state = .held) (term : Word) :
    extend p epoch h term s = (s.setExtension (handleSlot h) term, .plain .ok) := by
  simp only [extend, hr.unrefused, hr.lease, hs, hr.undoomed, Bool.false_eq_true, if_false]

theorem extend_of_grace (hr : s.Renewable p epoch h l) (hs : s.slots[handleSlot h].state = .grace) (term : Word) :
    extend p epoch h term s =
      if term = 0 then (s, .plain .ok) else (s.renewSlot (handleSlot h) l term, .plain .ok) := by
  simp only [extend, hr.unrefused, hr.lease, hs, hr.undoomed, Bool.false_eq_true, if_false]

end renewable

/-- A renewal as one record update: the slot's generation, which the counter takes as its tag, stands. -/
theorem renewSlot_eq (s : State) (i : SlotIndex) (l : Lease) (term : Word) :
    s.renewSlot i l term =
      let t := if term = 0 then l.term else term
      { s with
        slots := s.slots.set i
          { s.slots[i] with state := .held, extension := none, lease := some { l with term := t } }
        leaseCounters := s.leaseCounters.set i
          { s.leaseCounters[i] with
            value := t, running := true, generation := s.slots[i].generation, phase := .term } } := by
  simp only [State.renewSlot, State.loadCounter, modifySlot_slots, updVec_get_self]
  rfl

/-- The GE's taking of a command whose arguments are an epoch, a handle and a term (section 11.2). -/
theorem geTaking_handleTerm {s : State} {p : Station} {code epoch : Byte} {h term : Word}
    (ho : s.GeOffers p code ([epoch] ++ wordBytes h ++ wordBytes term))
    (act : Byte → Word → Word → State → State × Reply) :
    geTaking p code (fun a => act (argByte a 0) (argWord a 1) (argWord a 3)) s =
      .next ({ (act epoch h term s).1 with lastTaken := p }.placeResult p code (act epoch h term s).2) := by
  rw [geTaking_offers ho]
  simp only [List.cons_append, List.nil_append, argByte_zero, argWord_succ, argWord_zero, argWord_wordBytes,
    argWord_zero']

/-- The taking of a RENEW (R82). -/
theorem exec_renew_offers {s : State} {p : Station} {epoch : Byte} {h term : Word}
    (ho : s.GeOffers p 0x32 ([epoch] ++ wordBytes h ++ wordBytes term)) :
    exec (.renew p) s = .next ({ (renew p epoch h term s).1 with lastTaken := p }.placeResult p 0x32
      (renew p epoch h term s).2) := geTaking_handleTerm ho (renew p)

/-- The taking of an EXTEND (R84). -/
theorem exec_extend_offers {s : State} {p : Station} {epoch : Byte} {h term : Word}
    (ho : s.GeOffers p 0x33 ([epoch] ++ wordBytes h ++ wordBytes term)) :
    exec (.extend p) s = .next ({ (extend p epoch h term s).1 with lastTaken := p }.placeResult p 0x33
      (extend p epoch h term s).2) := geTaking_handleTerm ho (extend p)

/-- Settles O33: each taking is its command's answer past the checks, and a renewal is the record update of
`renewSlot_eq`. -/
theorem renewAndExtend : Obligations.RenewAndExtend := by
  intro s p epoch h term i hpass
  obtain ⟨l, hr⟩ := renewable_of_tests hpass
  refine ⟨l, hr.lease, fun ho => ?_, fun ho => ⟨fun hs => ?_, fun hs hterm => ?_, fun hs hterm => ?_⟩⟩
  · rw [exec_renew_offers ho, renew_of_renewable hr, renewSlot_eq]
    rfl
  · rw [exec_extend_offers ho, extend_of_held hr hs]
    rfl
  · rw [exec_extend_offers ho, extend_of_grace hr hs, if_neg hterm, renewSlot_eq, if_neg hterm]
    rfl
  · rw [exec_extend_offers ho, extend_of_grace hr hs, if_pos hterm]
    rfl

end Sys2Proof.Machine
end

section
/-! PROOFS. Sessions: the takings of ATTACH, DETACH, a lapse claim and a station order's completion (R92 to R99, R102,
R106). -/

namespace Sys2Proof.Machine

/-! ### The completion of a station order (R106) -/

/-- The causes whose completion sets SESSION_ENDED, in a flag that may be set already. -/
theorem or_tellsStation (flag : Bool) (cause : SweepCause) :
    (flag || cause.tellsStation) = if cause = .lapse ∨ cause = .purge ∨ cause = .clear then true else flag := by
  cases cause <;> simp [SweepCause.tellsStation]

/-- Settles O24: the taking's three updates, with the flag by its causes. -/
theorem sweepCompletionDetaches : Obligations.SweepCompletionDetaches := by
  intro s p cause hc
  simp only [exec, execSessionSweepCompletion, hc, or_tellsStation]
  rfl

/-! ### A lapse claim (R102) -/

/-- A lapse claim that is outstanding is removed, and ends the session if it passes its tests. -/
theorem execLapseClaim_of_claim {s : State} {p : Station} (hc : s.livenessCounters[p].claim = true) :
    execLapseClaim p s =
      let taken := s.modifyLiveness p fun c => { c with claim := false }
      if s.sessions[p].state = .attached ∧ s.sessions[p].livenessTerm ≠ 0 ∧ s.livenessCounters[p].value = 0 then
        .next (taken.endSession p .lapse)
      else .next taken := if_pos hc

/-- A liveness term of 1 to 65535 is one other than 0. -/
theorem one_le_toNat_iff (w : Word) : 1 ≤ w.toNat ↔ w ≠ 0 := by
  rw [Nat.one_le_iff_ne_zero, ne_eq, ne_eq, ← BitVec.toNat_inj]
  rfl

/-- Settles O23: the claim is taken either way, and its tests decide alone. -/
theorem lapseClaimTested : Obligations.LapseClaimTested := by
  intro s p hc taken passes
  have hpasses : passes ↔
      s.sessions[p].state = .attached ∧ s.sessions[p].livenessTerm ≠ 0 ∧ s.livenessCounters[p].value = 0 := by
    rw [← one_le_toNat_iff]
  exact ⟨fun h => (execLapseClaim_of_claim hc).trans (if_pos (hpasses.1 h)),
    fun h => (execLapseClaim_of_claim hc).trans (if_neg (hpasses.not.1 h))⟩

/-! ### DETACH (R99) -/

/-- The taking of a DETACH. -/
theorem exec_detach_offers {s : State} {p : Station} {epoch : Byte} (ho : s.Offers p 0x21 [epoch]) :
    exec (.detach p) s = .next ((detach p epoch s).1.placeResult p 0x21 (detach p epoch s).2) :=
  unitTaking_offers ho rfl _

/-- Settles O22: the session check's refusal, if there is one, is the answer. -/
theorem detachEndsTheSession : Obligations.DetachEndsTheSession := by
  intro s p epoch ho
  rw [exec_detach_offers ho, ← sessionRefusal_eq]
  constructor
  · intro hpass
    rw [detach, hpass]
    rfl
  · intro r hfail
    rw [detach, hfail]
    rfl

/-! ### ATTACH (R92 to R97) -/

/-- The taking of an ATTACH (section 11.2). -/
theorem exec_attach_offers {s : State} {p : Station} {term : Word} {grace flags : Byte}
    (ho : s.Offers p 0x20 (wordBytes term ++ [grace, flags])) :
    exec (.attach p) s =
      .next ((attach p term grace flags s).1.placeResult p 0x20 (attach p term grace flags s).2) := by
  show unitTaking p 0x20 (fun _ => true) (fun a => attach p (argWord a 0) (argByte a 2) (argByte a 3)) s = _
  rw [unitTaking_offers ho rfl]
  simp only [argWord_zero, argByte_wordBytes, argByte_zero, argByte_succ]

/-- An epoch of 0 counts on to 1 like any other: the rule's two exceptions are one. -/
theorem nextEpoch_eq (e : Byte) : nextEpoch e = if e = 0 ∨ e = 255 then 1 else e + 1 := by
  unfold nextEpoch
  by_cases h0 : e = 0
  · subst h0; rfl
  · simp only [h0, false_or]

theorem oneFlagAssigned_iff (flags : Byte) : oneFlagAssigned flags = true ↔ flags &&& 0xFE#8 = 0 := beq_iff_eq

/-- The beginning of a session as one record update: a liveness term of 0 leaves the counter stopped (R94). -/
theorem beginSession_eq (s : State) (p : Station) (term : Word) (grace : Byte) :
    s.beginSession p term grace =
      { s with
        sessions := s.sessions.set p
          { s.sessions[p] with
            state := .attached, epoch := nextEpoch s.sessions[p].epoch, livenessTerm := term, grace := grace }
        livenessCounters := s.livenessCounters.set p
          { s.livenessCounters[p] with value := term, running := term != 0 } } := by
  unfold State.beginSession
  by_cases hterm : term = 0
  · subst hterm
    rfl
  · rw [bne_iff_ne.2 hterm]
    exact if_neg hterm

section attach
variable {s : State} {p : Station} {flags : Byte} (term : Word) (grace : Byte)

theorem attach_of_unassigned (hf : flags &&& 0xFE#8 ≠ 0) : attach p term grace flags s = (s, .plain .badArg) :=
  if_neg ((oneFlagAssigned_iff flags).not.2 hf)

variable (hf : flags &&& 0xFE#8 = 0)
include hf

theorem attach_of_detached (hs : s.sessions[p].state = .detached) :
    attach p term grace flags s =
      (s.beginSession p term grace, { result := .ok, body := [nextEpoch s.sessions[p].epoch] }) := by
  simp only [attach, (oneFlagAssigned_iff flags).2 hf, hs, if_true]

/-- An ATTACHED session ends only if RECLAIM is asked for (R95, R96). -/
theorem attach_of_attached (hs : s.sessions[p].state = .attached) :
    attach p term grace flags s =
      if flagBit0 flags then (s.endSession p .reclaim, .plain .accepted) else (s, .plain .attached) := by
  simp only [attach, (oneFlagAssigned_iff flags).2 hf, hs, if_true]

theorem attach_of_sweeping (hs : s.sessions[p].state = .sweeping) :
    attach p term grace flags s = (s, .plain .sessionEnded) := by
  simp only [attach, (oneFlagAssigned_iff flags).2 hf, hs, if_true]

end attach

/-- Settles O20: the format check, and then the answer of the session's state. -/
theorem attachByState : Obligations.AttachByState := by
  intro s p term grace flags ho answers epoch
  have hepoch : epoch = nextEpoch s.sessions[p].epoch := (nextEpoch_eq _).symm
  have taken : ∀ {u : State} {r : Reply}, attach p term grace flags s = (u, r) → answers u r := fun h =>
    (exec_attach_offers ho).trans (by rw [h])
  refine ⟨fun hf => taken (attach_of_unassigned term grace hf), fun hf hs => ?_, fun hf hs => ?_, fun hf hs => ?_,
    fun hf hs => taken (attach_of_sweeping term grace hf hs)⟩
  · rw [hepoch, ← beginSession_eq]
    exact taken (attach_of_detached term grace hf hs)
  · subst hf
    exact taken (attach_of_attached term grace rfl hs)
  · subst hf
    exact taken (attach_of_attached term grace rfl hs)

end Sys2Proof.Machine
end

section
/-! PROOFS. Epochs: a command leaves the epoch of a session alone, unless it begins the session or is a hardware reset
(R92). -/

namespace Sys2Proof.Machine

/-! ### What a command may do to a session -/

/-- The epoch stands, and the session does not become ATTACHED. -/
structure Session.Continues (r r' : Session) : Prop where
  epoch : r'.epoch = r.epoch
  attached : r'.state = .attached → r.state = .attached

/-- A session begins, its epoch counting on from the last (R92, R94). -/
structure Session.Begins (r r' : Session) : Prop where
  detached : r.state = .detached
  attached : r'.state = .attached
  epoch : r'.epoch = nextEpoch r.epoch

/-- No session begins, and each keeps its epoch. -/
def SessionsContinue (s t : State) : Prop := ∀ p : Station, s.sessions[p].Continues t.sessions[p]

theorem Session.Continues.refl (r : Session) : r.Continues r := ⟨rfl, id⟩

theorem SessionsContinue.of_sessions {s t : State} (h : t.sessions = s.sessions) : SessionsContinue s t :=
  fun p => by rw [h]; exact .refl _

theorem SessionsContinue.refl (s : State) : SessionsContinue s s := .of_sessions rfl

theorem SessionsContinue.trans {s t u : State} (h : SessionsContinue s t) (h' : SessionsContinue t u) :
    SessionsContinue s u :=
  fun p => ⟨(h' p).epoch.trans (h p).epoch, fun ha => (h p).attached ((h' p).attached ha)⟩

/-- A change of one session record that keeps its epoch and does not make it ATTACHED. -/
theorem SessionsContinue.of_updVec {s t : State} {p : Station} {f : Session → Session}
    (h : t.sessions = updVec s.sessions p f) (hf : ∀ r : Session, r.Continues (f r)) : SessionsContinue s t :=
  fun q => by
    rw [h, updVec_get]
    split
    · exact hf _
    · exact .refl _

/-! ### Takings of the Session Unit (R94, R98, R106) -/

theorem continues_endSession (s : State) (p : Station) (cause : SweepCause) :
    SessionsContinue s (s.endSession p cause) :=
  .of_updVec (p := p) (f := fun r => { r with state := .sweeping, cause := some cause }) rfl fun _ => ⟨rfl, nofun⟩

theorem continues_detach (p : Station) (epoch : Byte) (s : State) : SessionsContinue s (detach p epoch s).1 := by
  unfold detach
  split
  · exact .refl s
  · exact continues_endSession s p .detach

theorem continues_purge (p : Station) (epoch station : Byte) (s : State) :
    SessionsContinue s (purge p epoch station s).1 := by
  unfold purge
  split
  · exact .refl s
  · split
    · exact continues_endSession s _ .purge
    · exact .refl s
    · exact .refl s

theorem continues_clearStation (s : State) (q : Station) : SessionsContinue s (s.clearStation q) := by
  unfold State.clearStation
  split
  · exact continues_endSession s q .clear
  · exact .refl s

theorem continues_clearAll (p : Station) (epoch : Byte) (s : State) : SessionsContinue s (clearAll p epoch s).1 := by
  unfold clearAll
  split
  · exact .refl s
  · dsimp only
    exact (((continues_clearStation _ 0).trans (continues_clearStation _ 1)).trans (continues_clearStation _ 2)).trans
      (continues_clearStation _ 3)

theorem continues_lapseClaim {p : Station} {s t : State} (h : execLapseClaim p s = .next t) : SessionsContinue s t := by
  unfold execLapseClaim at h
  split at h
  · dsimp only at h
    split at h <;> cases h
    · exact continues_endSession (s.modifyLiveness p _) p .lapse
    · exact .of_sessions rfl
  · cases h; exact .refl s

theorem continues_sessionSweepCompletion {p : Station} {s t : State} (h : execSessionSweepCompletion p s = .next t) :
    SessionsContinue s t := by
  unfold execSessionSweepCompletion at h
  split at h <;> cases h
  · exact .refl _
  · refine .of_updVec (p := p)
      (f := fun r => { r with state := .detached, livenessTerm := 0, grace := 0, cause := none }) rfl fun _ => ?_
    exact ⟨rfl, nofun⟩

theorem beginSession_sessions (s : State) (p : Station) (term : Word) (grace : Byte) :
    (s.beginSession p term grace).sessions = updVec s.sessions p fun r =>
      { r with state := .attached, epoch := nextEpoch r.epoch, livenessTerm := term, grace := grace } := by
  unfold State.beginSession; dsimp only; split <;> rfl

/-- An ATTACH begins a session, ends one, or changes nothing but the result (R93 to R97). -/
theorem attach_fst_cases (p : Station) (term : Word) (grace flags : Byte) (s : State) :
    (attach p term grace flags s).1 = s ∨
      (s.sessions[p].state = .detached ∧ (attach p term grace flags s).1 = s.beginSession p term grace) ∨
      (attach p term grace flags s).1 = s.endSession p .reclaim := by
  by_cases hf : flags &&& 0xFE#8 = 0
  · cases hs : s.sessions[p].state with
    | detached => exact .inr (.inl ⟨rfl, congrArg Prod.fst (attach_of_detached term grace hf hs)⟩)
    | attached =>
      rw [attach_of_attached term grace hf hs]
      split
      · exact .inr (.inr rfl)
      · exact .inl rfl
    | sweeping => exact .inl (congrArg Prod.fst (attach_of_sweeping term grace hf hs))
  · exact .inl (congrArg Prod.fst (attach_of_unassigned term grace hf))

/-- An ATTACH begins its sender's session or none, and an epoch changes with the beginning alone. -/
theorem attach_session_cases (p : Station) (term : Word) (grace flags : Byte) (s : State) (q : Station) :
    s.sessions[q].Continues (attach p term grace flags s).1.sessions[q] ∨
      (q = p ∧ s.sessions[q].Begins (attach p term grace flags s).1.sessions[q]) := by
  rcases attach_fst_cases p term grace flags s with e | ⟨hdetached, e⟩ | e <;> rw [e]
  · exact .inl (.refl _)
  · rw [beginSession_sessions]
    by_cases hq : q = p
    · subst hq
      rw [updVec_get_self]
      exact .inr ⟨rfl, hdetached, rfl, rfl⟩
    · rw [updVec_get_ne _ hq]
      exact .inl (.refl _)
  · exact .inl (continues_endSession s p .reclaim q)

/-- The sessions after the taking of a command of the Session Unit or the Configuration Unit are those its act leaves. -/
theorem continues_unitTaking {p : Station} {code : Byte} {about : List Byte → Bool}
    {act : List Byte → State → State × Reply} {s t : State} (h : unitTaking p code about act s = .next t)
    (hact : ∀ args, SessionsContinue s (act args s).1) : SessionsContinue s t := by
  rcases unitTaking_cases h with rfl | ⟨args, _, _, rfl⟩
  · exact .refl t
  · exact hact args

theorem attach_taking_cases {p : Station} {s t : State} (h : exec (.attach p) s = .next t) (q : Station) :
    s.sessions[q].Continues t.sessions[q] ∨ (q = p ∧ s.sessions[q].Begins t.sessions[q]) := by
  rcases unitTaking_cases h with rfl | ⟨args, _, _, rfl⟩
  · exact .inl (.refl _)
  · exact attach_session_cases p _ _ _ s q

/-! ### Takings of the Configuration Unit (R161) -/

theorem storeTickSource_sessions (s : State) (v : Word) : (s.storeTickSource v).sessions = s.sessions := by
  unfold State.storeTickSource
  dsimp only
  generalize (if v = 0 then TickSource.internal else .external) = source
  split <;> rfl

/-- A write of an item whose store leaves the sessions alone leaves them alone. -/
theorem continues_writeTaking {p : Station} {about : List Byte → Bool} {format : List Byte → Bool} {needsEmpty : Bool}
    {store : List Byte → State → State} {s t : State}
    (h : unitTaking p codeWriteConfig about
      (fun a => writeItem p (argByte a 0) (format a) needsEmpty (store a)) s = .next t)
    (hstore : ∀ a, (store a s).sessions = s.sessions) : SessionsContinue s t :=
  continues_unitTaking h fun a => by
    rcases writeItem_fst_cases p (argByte a 0) (format a) needsEmpty (store a) s with e | e <;> rw [e]
    · exact .refl s
    · exact .of_sessions (hstore a)

theorem freeze_sessions (p : Station) (epoch : Byte) (s : State) : (freeze p epoch s).1.sessions = s.sessions := by
  unfold freeze; split <;> rfl

theorem holdTime_sessions (p : Station) (epoch : Byte) (on : Bool) (s : State) :
    (holdTime p epoch on s).1.sessions = s.sessions := by
  unfold holdTime; split <;> rfl

/-! ### The GE's operations: of a session they change the lease count alone (R9, R19) -/

theorem continues_occupy (s : State) (i : SlotIndex) (st : SlotState) (l : Lease) :
    SessionsContinue s (s.occupy i st l) :=
  .of_updVec (p := l.station) (f := fun r => { r with leaseCount := r.leaseCount + 1 }) rfl fun _ => ⟨rfl, id⟩

theorem continues_freeSlot (s : State) (i : SlotIndex) : SessionsContinue s (s.freeSlot i) := by
  cases hl : s.slots[i].lease with
  | none => exact .of_sessions (by unfold State.freeSlot; rw [hl]; rfl)
  | some l => exact .of_updVec (freeSlot_sessions s hl) fun _ => ⟨rfl, id⟩

theorem continues_dispose (s : State) (i : SlotIndex) (d : Disposal) : SessionsContinue s (s.dispose i d) := by
  cases d with
  | free => exact continues_freeSlot s i
  | ended kind => exact .of_sessions (endSlot_sessions s i kind)

theorem regrantOver_sessions (k : Word) (ws : List SlotIndex) (s : State) :
    (regrantOver k ws s).sessions = s.sessions := by
  induction ws generalizing s with
  | nil => rfl
  | cons i ws ih =>
    rcases regrantOver_cons_cases k i ws s with h | h | ⟨l, h | h⟩ <;> rw [h]
    · exact ih s
    · exact grantWaiter_sessions s k i l
    · rw [ih, grantWaiter_sessions]

@[simp] theorem regrant_sessions (s : State) (k : Word) : (s.regrant k).sessions = s.sessions := by
  unfold State.regrant
  split
  · rfl
  · exact regrantOver_sessions _ _ _

theorem regrantKeys_sessions (ks : List Word) (s : State) : (regrantKeys ks s).sessions = s.sessions := by
  induction ks generalizing s with
  | nil => rfl
  | cons k ks ih => rw [regrantKeys, ih, settleEntry_sessions, regrant_sessions]

theorem continues_removeSlot (s : State) (i : SlotIndex) (d : Disposal) : SessionsContinue s (s.removeSlot i d) := by
  unfold State.removeSlot
  split
  · rename_i l _ _
    have hvacated : SessionsContinue s (s.vacate i l.key) := .of_sessions (vacate_sessions s i l.key)
    refine (hvacated.trans (continues_dispose _ i d)).trans (.of_sessions ?_)
    rw [settleEntry_sessions, regrant_sessions]
  · exact continues_dispose s i d

theorem continues_queueUp (s : State) (i : SlotIndex) (l : Lease) : SessionsContinue s (s.queueUp i l) := by
  refine (continues_occupy s i .waiting l).trans (.of_sessions ?_)
  unfold State.queueUp
  dsimp only
  split <;> rfl

theorem stepDown_sessions (s : State) (i : SlotIndex) (l : Lease) : (s.stepDown i l).sessions = s.sessions := by
  rw [State.stepDown, regrant_sessions, editEntry_sessions, modifySlot_sessions]

theorem stepUp_sessions (s : State) (i : SlotIndex) (l : Lease) : (s.stepUp i l).sessions = s.sessions := by
  rw [State.stepUp, editEntry_sessions, modifySlot_sessions]

/-! ### Commands of the GE (spec/03, spec/04) -/

theorem continues_acquirePlace (l : Lease) (once : Bool) (s : State) :
    SessionsContinue s (acquirePlace l once s).1 := by
  unfold acquirePlace
  split
  · exact .refl s
  · rename_i i _
    split
    · exact .refl s
    · split
      · exact continues_occupy s i .held l
      · split
        · exact .refl s
        · split
          · exact .refl s
          · exact continues_queueUp s i l

theorem continues_acquire (p : Station) (epoch : Byte) (k : Word) (flags : Byte) (term wait : Word) (s : State) :
    SessionsContinue s (acquire p epoch k flags term wait s).1 := by
  unfold acquire
  split
  · exact .refl s
  · exact .refl s
  · exact continues_acquirePlace _ _ s

theorem continues_release (p : Station) (epoch : Byte) (h : Word) (s : State) :
    SessionsContinue s (release p epoch h s).1 := by
  unfold release
  split
  · exact .refl s
  · exact continues_removeSlot s _ .free

theorem renew_sessions (p : Station) (epoch : Byte) (h term : Word) (s : State) :
    (renew p epoch h term s).1.sessions = s.sessions := by
  unfold renew
  split
  · rfl
  · split
    · split <;> rfl
    · split <;> rfl
    · rfl

theorem extend_sessions (p : Station) (epoch : Byte) (h term : Word) (s : State) :
    (extend p epoch h term s).1.sessions = s.sessions := by
  unfold extend
  split
  · rfl
  · split
    · split <;> rfl
    · split
      · rfl
      · split <;> rfl
    · rfl

theorem convertHeld_sessions (i : SlotIndex) (l : Lease) (m : LeaseMode) (s : State) :
    (convertHeld i l m s).1.sessions = s.sessions := by
  unfold convertHeld
  split
  · rfl
  · split
    · exact stepDown_sessions s i l
    · split
      · exact stepUp_sessions s i l
      · rfl

theorem convert_sessions (p : Station) (epoch : Byte) (h : Word) (mode : Byte) (s : State) :
    (convert p epoch h mode s).1.sessions = s.sessions := by
  unfold convert
  split
  · rfl
  · split
    · split
      · rfl
      · exact convertHeld_sessions _ _ _ s
    · rfl

theorem revokeRange_sessions (p : Station) (epoch : Byte) (first last : Word) (flags : Byte) (s : State) :
    (revokeRange p epoch first last flags s).1.sessions = s.sessions := by
  unfold revokeRange
  split
  · rfl
  · split <;> rfl

/-- The sessions after a taking of the GE are those its act leaves. -/
theorem continues_geTaking {p : Station} {code : Byte} {act : List Byte → State → State × Reply} {s t : State}
    (h : geTaking p code act s = .next t) (hact : ∀ args, SessionsContinue s (act args s).1) :
    SessionsContinue s t := by
  rcases geTaking_cases h with rfl | ⟨args, _, rfl⟩
  · exact .refl t
  · exact hact args

/-! ### Claims the GE takes (R34, R76, R77, R119, R120, R136) -/

theorem continues_termExpires (s : State) (i : SlotIndex) : SessionsContinue s (s.termExpires i) := by
  unfold State.termExpires
  split
  · exact .of_sessions rfl
  · split
    · exact continues_removeSlot s i _
    · exact .of_sessions rfl
  · exact continues_removeSlot s i _

theorem continues_takeExpiry (s : State) (i : SlotIndex) (ph : Phase) {act : State → State}
    (hact : ∀ u, SessionsContinue u (act u)) : SessionsContinue s (s.takeExpiry i ph act) := by
  unfold State.takeExpiry
  split
  · exact .refl s
  · split
    · dsimp only
      split
      · exact hact (s.modifyCounter i _)
      · exact .of_sessions rfl
    · exact .refl s

theorem continues_stationVisit (s : State) (p : Station) (i : SlotIndex) :
    SessionsContinue s (s.stationVisit p i) := by
  unfold State.stationVisit
  split
  · exact continues_removeSlot s i .free
  · exact .refl s

theorem continues_rangeVisit (s : State) (r : RangeOrder) (i : SlotIndex) : SessionsContinue s (s.rangeVisit r i) := by
  unfold State.rangeVisit
  split
  · exact .refl s
  · split
    · exact continues_removeSlot s i _
    · exact .refl s

theorem continues_stationSweepRemoval {s t : State} (h : execStationSweepRemoval s = .next t) :
    SessionsContinue s t := by
  unfold execStationSweepRemoval at h
  split at h <;> cases h
  · exact continues_stationVisit s _ _
  · exact .refl _

theorem continues_rangeSweepRemoval {s t : State} (h : execRangeSweepRemoval s = .next t) : SessionsContinue s t := by
  unfold execRangeSweepRemoval at h
  split at h <;> cases h
  · exact continues_rangeVisit s _ _
  · exact .refl _

theorem execRangeCompletionClaim_sessions {which : Nat} {s t : State}
    (h : execRangeCompletionClaim which s = .next t) : t.sessions = s.sessions := by
  unfold execRangeCompletionClaim at h
  split at h <;> cases h
  · rfl
  · exact regrantKeys_sessions _ _

theorem continues_acknowledge (s : State) (p : Station) (e : AckEntry) : SessionsContinue s (s.acknowledge p e) := by
  unfold State.acknowledge
  split
  · split
    · exact continues_freeSlot s e.slot
    · exact .of_sessions rfl
  · exact .refl s

theorem continues_acknowledge_foldl (p : Station) (claim : List AckEntry) (s : State) :
    SessionsContinue s (claim.foldl (fun t e => t.acknowledge p e) s) := by
  induction claim generalizing s with
  | nil => exact .refl s
  | cons e claim ih => exact (continues_acknowledge s p e).trans (ih _)

theorem continues_acknowledgementClaim {p : Station} {s t : State} (h : execAcknowledgementClaim p s = .next t) :
    SessionsContinue s t := by
  unfold execAcknowledgementClaim at h
  split at h <;> cases h
  · exact .refl _
  · rename_i claim rest _
    exact continues_acknowledge_foldl p claim (s.modifyPort p fun q => { q with acks := rest })

/-! ### Commands that leave the sessions alone -/

theorem PortOnly.sessions {p : Station} {s t : State} (h : PortOnly p s t) : t.sessions = s.sessions := by rw [h]

theorem execInternalTick_sessions {s t : State} (h : execInternalTick s = .next t) : t.sessions = s.sessions := by
  unfold execInternalTick at h; split at h <;> cases h <;> rfl

theorem execTick_sessions {s t : State} (h : execTick s = .next t) : t.sessions = s.sessions := by
  unfold execTick at h; split at h <;> cases h <;> rfl

theorem execLeaseCounterRunout_sessions {i : SlotIndex} {s t : State} (h : execLeaseCounterRunout i s = .next t) :
    t.sessions = s.sessions := by
  unfold execLeaseCounterRunout at h; dsimp only at h; split at h <;> cases h <;> rfl

theorem execLivenessCounterRunout_sessions {p : Station} {s t : State}
    (h : execLivenessCounterRunout p s = .next t) : t.sessions = s.sessions := by
  unfold execLivenessCounterRunout at h; dsimp only at h; split at h <;> cases h <;> rfl

theorem execLivenessReload_sessions {p : Station} {which : Nat} {s t : State}
    (h : execLivenessReload p which s = .next t) : t.sessions = s.sessions := by
  unfold execLivenessReload at h
  split at h
  · cases h; rfl
  · dsimp only at h; split at h <;> cases h <;> rfl

theorem execBadCmd_sessions {p : Station} {s t : State} (h : execBadCmd p s = .next t) :
    t.sessions = s.sessions := by
  unfold execBadCmd at h
  split at h
  · split at h <;> cases h <;> rfl
  · cases h; rfl

theorem execStationOrderComplete_sessions {s t : State} (h : execStationOrderComplete s = .next t) :
    t.sessions = s.sessions := by
  unfold execStationOrderComplete at h; split at h <;> cases h <;> rfl

theorem execRangeOrderComplete_sessions {s t : State} (h : execRangeOrderComplete s = .next t) :
    t.sessions = s.sessions := by
  unfold execRangeOrderComplete at h; split at h <;> cases h <;> rfl

theorem execEndOfReset_sessions {strap : Station} {s t : State} (h : execEndOfReset strap s = .next t) :
    t.sessions = s.sessions := by
  unfold execEndOfReset at h; split at h <;> cases h <;> rfl

/-! ### Every command -/

/-- HARDWARE_RESET and ATTACH aside, no command begins a session or changes an epoch (R92). -/
theorem exec_continues {c : Instr} {s t : State} (hreset : c ≠ .hardwareReset) (hattach : ∀ p, c ≠ .attach p)
    (h : exec c s = .next t) : SessionsContinue s t := by
  cases c
  case hardwareReset => exact absurd rfl hreset
  case attach p => exact absurd rfl (hattach p)
  case status p ev | fetch p ev | notices p ev | mask p ev | clearFlags p ev | ident p ev | brokenFrame p ev |
      postedFrameEnd p _ ev =>
    obtain rfl := Host.Outcome.next.inj h
    exact .of_sessions (portOnly_frameEvent p s _ ev).sessions
  case livenessReload => exact .of_sessions (execLivenessReload_sessions h)
  case badCmd => exact .of_sessions (execBadCmd_sessions h)
  case detach => exact continues_unitTaking h fun _ => continues_detach _ _ s
  case purge => exact continues_unitTaking h fun _ => continues_purge _ _ _ s
  case clearAll => exact continues_unitTaking h fun _ => continues_clearAll _ _ s
  case readConfig =>
    exact continues_unitTaking h fun _ => .of_sessions (congrArg State.sessions (readConfig_fst _ _ _ s))
  case writeConfig | holdTimeInvalidSetting =>
    exact continues_unitTaking (act := fun _ u => (u, .plain .badArg)) h fun _ => .refl s
  case writeTickSource => exact continues_writeTaking h fun _ => storeTickSource_sessions s _
  case writeTickPeriod | writeAccessLevel | writeQuota | writeProtectedRange | writeSharedLimit | writeQueueLimit |
      writeChannelKey | writeChannelCtrl => exact continues_writeTaking h fun _ => rfl
  case freeze => exact continues_unitTaking h fun _ => .of_sessions (freeze_sessions _ _ s)
  case holdTimeOn | holdTimeOff => exact continues_unitTaking h fun _ => .of_sessions (holdTime_sessions _ _ _ s)
  case acquire => exact continues_geTaking h fun _ => continues_acquire _ _ _ _ _ _ s
  case release => exact continues_geTaking h fun _ => continues_release _ _ _ s
  case renew => exact continues_geTaking h fun _ => .of_sessions (renew_sessions _ _ _ _ s)
  case extend => exact continues_geTaking h fun _ => .of_sessions (extend_sessions _ _ _ _ s)
  case convert => exact continues_geTaking h fun _ => .of_sessions (convert_sessions _ _ _ _ s)
  case queryLease => exact continues_geTaking h fun _ => .of_sessions (congrArg State.sessions (queryLease_fst _ _ _ s))
  case queryKey => exact continues_geTaking h fun _ => .of_sessions (congrArg State.sessions (queryKey_fst _ _ _ s))
  case revokeRange => exact continues_geTaking h fun _ => .of_sessions (revokeRange_sessions _ _ _ _ _ s)
  case internalTick => exact .of_sessions (execInternalTick_sessions h)
  case tick => exact .of_sessions (execTick_sessions h)
  case leaseCounterRunout => exact .of_sessions (execLeaseCounterRunout_sessions h)
  case livenessCounterRunout => exact .of_sessions (execLivenessCounterRunout_sessions h)
  case termExpiryClaim i =>
    obtain rfl := Host.Outcome.next.inj h
    exact continues_takeExpiry s i .term fun u => continues_termExpires u i
  case graceExpiryClaim i =>
    obtain rfl := Host.Outcome.next.inj h
    exact continues_takeExpiry s i .grace fun u => continues_removeSlot u i _
  case waitExpiryClaim i =>
    obtain rfl := Host.Outcome.next.inj h
    exact continues_takeExpiry s i .wait fun u => continues_removeSlot u i _
  case lapseClaim => exact continues_lapseClaim h
  case stationSweepRemoval => exact continues_stationSweepRemoval h
  case rangeSweepRemoval => exact continues_rangeSweepRemoval h
  case stationOrderComplete => exact .of_sessions (execStationOrderComplete_sessions h)
  case sessionSweepCompletion => exact continues_sessionSweepCompletion h
  case rangeOrderComplete => exact .of_sessions (execRangeOrderComplete_sessions h)
  case rangeCompletionClaim => exact .of_sessions (execRangeCompletionClaim_sessions h)
  case acknowledgementClaim => exact continues_acknowledgementClaim h
  case endOfReset => exact .of_sessions (execEndOfReset_sessions h)

/-- HARDWARE_RESET aside, one command leaves a session's epoch alone or is the ATTACH that begins the session. -/
theorem exec_session_cases {c : Instr} {s t : State} (hreset : c ≠ .hardwareReset) (h : exec c s = .next t)
    (p : Station) :
    s.sessions[p].Continues t.sessions[p] ∨ (c = .attach p ∧ s.sessions[p].Begins t.sessions[p]) := by
  by_cases hattach : ∃ q, c = .attach q
  · obtain ⟨q, rfl⟩ := hattach
    rcases attach_taking_cases h p with hcontinues | ⟨rfl, hbegins⟩
    · exact .inl hcontinues
    · exact .inr ⟨rfl, hbegins⟩
  · exact .inl (exec_continues hreset (not_exists.1 hattach) h p)

/-- HARDWARE_RESET sets every epoch to 0 (R91, R92). -/
theorem execHardwareReset_epoch {s t : State} (h : exec .hardwareReset s = .next t) (p : Station) :
    t.sessions[p].epoch = 0 := by
  obtain rfl := Host.Outcome.next.inj h
  show (Vector.replicate 4 Session.reset)[p].epoch = 0
  rw [Fin.getElem_fin, Vector.getElem_replicate]
  rfl

/-- Settles O55: a session that begins has the epoch of its beginning, and any other keeps its own
(`exec_session_cases`). -/
theorem epochsAdvanceOnAttach : Obligations.EpochsAdvanceOnAttach := by
  intro c s t p h
  split
  · rename_i hc
    subst hc
    exact execHardwareReset_epoch h p
  · rename_i hc
    rcases exec_session_cases hc h p with hcontinues | ⟨hattach, hbegins⟩
    · have hkept : ¬(s.sessions[p].state = .detached ∧ t.sessions[p].state = .attached) := fun hmoved =>
        absurd (hmoved.1.symm.trans (hcontinues.attached hmoved.2)) nofun
      rw [if_neg hkept]
      exact hcontinues.epoch
    · rw [if_pos ⟨hbegins.detached, hbegins.attached⟩]
      exact ⟨hattach, hbegins.epoch.trans (nextEpoch_eq _)⟩

end Sys2Proof.Machine
end

section
/-! PROOFS. Attention: what the RESULT and NOTICE inputs say of the state, and when a port's attention line is asserted
(R131, R142). -/

namespace Sys2Proof.Machine

/-! ### The two inputs that are conditions and not flags -/

/-- RESULT is true while the port holds a result not yet fetched (R144). -/
theorem CommandState.isHolding_iff (c : CommandState) : c.isHolding = true ↔ ∃ r, c = .holding r := by
  cases c with
  | ready => exact ⟨nofun, nofun⟩
  | busy _ => exact ⟨nofun, nofun⟩
  | holding r => exact ⟨fun _ => ⟨r, rfl⟩, fun _ => rfl⟩

/-- The notice set of a station, slot by slot: leased to the station and carrying a notice (R131). -/
theorem Slot.inNoticeSet_iff (sl : Slot) (p : Station) :
    sl.inNoticeSet p = true ↔ ∃ l, sl.lease = some l ∧ l.station = p ∧ sl.notice ≠ none := by
  simp only [Slot.inNoticeSet, Bool.and_eq_true, Option.isSome_iff_ne_none, beq_iff_eq, Option.map_eq_some_iff]
  constructor
  · rintro ⟨hnotice, l, hlease, hstation⟩
    exact ⟨l, hlease, hstation, hnotice⟩
  · rintro ⟨l, hlease, hstation, hnotice⟩
    exact ⟨hnotice, l, hlease, hstation⟩

/-- NOTICE is true while the station's notice set is not empty (R131). -/
theorem State.noticeCondition_iff (s : State) (p : Station) :
    s.noticeCondition p = true ↔
      ∃ (i : SlotIndex) (l : Lease), s.slots[i].lease = some l ∧ l.station = p ∧ s.slots[i].notice ≠ none := by
  have hany : s.noticeCondition p = true ↔ ∃ i : SlotIndex, s.slots[i].inNoticeSet p = true :=
    List.any_eq_true.trans (exists_congr fun i => and_iff_right (List.mem_finRange i))
  exact hany.trans (exists_congr fun i => s.slots[i].inNoticeSet_iff p)

/-! ### The line -/

/-- Settles O52: each of the seven inputs stands in the line beside its own enable, and RESULT and NOTICE are read by
`CommandState.isHolding_iff` and `State.noticeCondition_iff`. -/
theorem attentionLine : Obligations.AttentionLine := by
  intro s p f m
  rw [← CommandState.isHolding_iff, ← State.noticeCondition_iff]
  simp only [State.attention, Bool.or_eq_true, Bool.and_eq_true, or_assoc, f, m]

end Sys2Proof.Machine
end

section
/-! PROOFS. Frames of a station port: the bits of the status and flags bytes, what STATUS, IDENT and posted frames shift
out, and how each ends (R145 to R154, R181). -/

namespace Sys2Proof.Machine

/-! ### The bits of the status and flags bytes (R148, R150, R181) -/

/-- BUSY is true while the port has a command in flight (R144). -/
theorem CommandState.isBusy_iff (c : CommandState) : c.isBusy = true ↔ ∃ d, c = .busy d := by
  cases c with
  | ready => exact ⟨nofun, nofun⟩
  | busy d => exact ⟨fun _ => ⟨d, rfl⟩, fun _ => rfl⟩
  | holding _ => exact ⟨nofun, nofun⟩

/-- The place of each field in the status byte. -/
theorem statusByte_fields (s : State) (p : Station) :
    (s.statusByte p).getLsbD 7 = s.ports[p].command.isBusy ∧
      (s.statusByte p).getLsbD 6 = s.ports[p].command.isHolding ∧
      (s.statusByte p).getLsbD 5 = s.noticeCondition p ∧
      (s.statusByte p).extractLsb' 3 2 = s.sessions[p].state.code ∧
      (s.statusByte p).getLsbD 2 = s.timeBase.held ∧ (s.statusByte p).extractLsb' 0 2 = 0b00#2 := by
  have places : ∀ (busy holding notice held : Bool) (session : BitVec 2),
      let b : Byte := (BitVec.ofBool busy ++ BitVec.ofBool holding ++ BitVec.ofBool notice) ++ session ++
        (BitVec.ofBool held ++ 0#2)
      b.getLsbD 7 = busy ∧ b.getLsbD 6 = holding ∧ b.getLsbD 5 = notice ∧ b.extractLsb' 3 2 = session ∧
        b.getLsbD 2 = held ∧ b.extractLsb' 0 2 = 0b00#2 := by decide
  exact places _ _ _ _ _

/-- The place of each flag in the flags byte. -/
theorem EventFlags.byte_fields (f : EventFlags) :
    f.byte.extractLsb' 5 3 = 0b000#3 ∧ f.byte.getLsbD 4 = f.sweepDone ∧ f.byte.getLsbD 3 = f.sessionEnded ∧
      f.byte.getLsbD 2 = f.frameErr ∧ f.byte.getLsbD 1 = f.lost ∧ f.byte.getLsbD 0 = f.overrun := by
  have places : ∀ sweepDone sessionEnded frameErr lost overrun : Bool,
      let b : Byte := 0#3 ++ (BitVec.ofBool sweepDone ++ BitVec.ofBool sessionEnded ++ BitVec.ofBool frameErr ++
        BitVec.ofBool lost ++ BitVec.ofBool overrun)
      b.extractLsb' 5 3 = 0b000#3 ∧ b.getLsbD 4 = sweepDone ∧ b.getLsbD 3 = sessionEnded ∧ b.getLsbD 2 = frameErr ∧
        b.getLsbD 1 = lost ∧ b.getLsbD 0 = overrun := by decide
  exact places _ _ _ _ _

/-! ### Whole frames -/

/-- A change of a port is what it does to that port as it stands. -/
theorem modifyPort_congr {s : State} {p : Station} {f g : Port → Port} (h : f s.ports[p] = g s.ports[p]) :
    s.modifyPort p f = s.modifyPort p g := by
  rw [modifyPort_of_eq s p f h, modifyPort_of_eq s p g rfl]

/-- A whole frame ends with its port changed as the frame's end says, released, with its bits recorded. -/
theorem frameEvent_whole_of_endFrame {s : State} {p : Station} (hr : s.ports[p].shifter = .released)
    (hi : s.inReset = false) {lead : List Byte} {bits : List Bool} (hb : bytesBits lead ++ bits ≠ []) {g : Frame}
    (hg : (bytesBits lead ++ bits).foldl (s.clockFrame p)
      { received := [], sent := [], outByte := s.statusByte p, fetched := none, snapshot := none } = g)
    {ends : Port → Port} (hends : ∀ t : State, t.endFrame p g = t.modifyPort p ends) :
    s.frameEvent p lead (.whole bits) =
      { s with
        ports := s.ports.set p
          { ends { s.ports[p] with clockHigh := false, shifter := .receiving g } with
            shifter := .released, sdo := g.sent } } := by
  rw [frameEvent_whole hr hi lead bits hb g hg, hends, modifyPort_modifyPort, modifyPort_modifyPort]
  exact modifyPort_of_eq _ _ _ rfl

/-! ### Whole frames whose command fixes no reply -/

/-- Only FETCH and NOTICES fix something for the rest of their frame (R133, R151). -/
theorem fixReply_of_code (s : State) (p : Station) {f : Frame} (hfetch : frameByte f.received 0 ≠ codeFetch)
    (hnotices : frameByte f.received 0 ≠ codeNotices) : s.fixReply p f = f := by
  unfold State.fixReply
  dsimp only
  rw [if_neg fun h => hfetch h.2, if_neg fun h => hnotices h.2]

/-- The bytes a frame with this command byte shows in the state as it stands: the status byte, and after each byte
received the byte then read (R145, R148). -/
structure State.Shows (s : State) (p : Station) (code : Byte) (out : Nat → Byte) : Prop where
  first : out 0 = s.statusByte p
  next : ∀ (f : Frame) (m : Nat), frameByte f.received 0 = code → f.received.length / 8 = m + 1 →
    s.nextOutByte p f = out (m + 1)

/-- The bytes a frame shows go out in turn over a run of clocks that opens with a code that fixes no reply. -/
theorem clock_run_unfixed {s : State} {p : Station} {code : Byte} (hfetch : code ≠ codeFetch)
    (hnotices : code ≠ codeNotices) {out : Nat → Byte} (hout : s.Shows p code out) (bits : List Bool) :
    (bytesBits [code] ++ bits).foldl (s.clockFrame p)
        { received := [], sent := [], outByte := s.statusByte p, fetched := none, snapshot := none } =
      runningFrame (bytesBits [code] ++ bits) out (fun _ => none) fun _ => none := by
  have hstart : runningFrame [] out (fun _ => none) (fun _ => none) =
      { received := [], sent := [], outByte := s.statusByte p, fetched := none, snapshot := none } := by
    rw [← hout.first]
    rfl
  rw [← hstart]
  refine clock_run s p out _ _ (bytesBits [code] ++ bits) (fun received m hprefix hlength => ?_) _ List.prefix_rfl
  have hcode : frameByte received 0 = code := code_of_prefix hprefix hlength
  have hbytes : received.length / 8 = m + 1 := by omega
  exact ⟨fixReply_of_code s p (hcode.trans_ne hfetch) (hcode.trans_ne hnotices), hout.next _ m hcode hbytes⟩

/-- A whole frame of a command that fixes no reply: the bytes `out` went out, and the frame ends as its class says. -/
theorem frameEvent_whole_unfixed {s : State} {p : Station} (hr : s.ports[p].shifter = .released)
    (hi : s.inReset = false) {code : Byte} (hfetch : code ≠ codeFetch) (hnotices : code ≠ codeNotices)
    {out : Nat → Byte} (hout : s.Shows p code out) (bits : List Bool) {ends : Port → Port}
    (hends : ∀ (t : State) (f : Frame), f.received = bytesBits [code] ++ bits → t.endFrame p f = t.modifyPort p ends) :
    s.frameEvent p [code] (.whole bits) =
      { s with
        ports := s.ports.set p
          { ends
              { s.ports[p] with
                clockHigh := false
                shifter :=
                  .receiving (runningFrame (bytesBits [code] ++ bits) out (fun _ => none) fun _ => none) } with
            shifter := .released, sdo := wireBits out (8 + bits.length) } } := by
  have hlength : (bytesBits [code] ++ bits).length = 8 + bits.length := by simp
  rw [← hlength]
  exact frameEvent_whole_of_endFrame hr hi (List.cons_ne_nil _ _) (clock_run_unfixed hfetch hnotices hout bits)
    fun t => hends t _ rfl

/-! ### STATUS and IDENT (R150, R152) -/

theorem statusIdent_read_unfixed {code : Byte} (h : code = codeStatus ∨ code = codeIdent) :
    code ∈ readCodes ∧ code ≠ codeFetch ∧ code ≠ codeNotices := by
  rcases h with rfl | rfl <;> decide

/-- The end of a STATUS or IDENT frame hands over its reload and does nothing else (R100, R150, R152). -/
theorem endFrame_statusIdent {f : Frame} (hlength : 8 ≤ f.received.length)
    (hcode : bitsByte f.received = codeStatus ∨ bitsByte f.received = codeIdent) (s : State) (p : Station) :
    s.endFrame p f = s.modifyPort p fun q => { q with reloads := q.reloads ++ [.plain] } := by
  obtain ⟨hread, hfetch, hnotices⟩ := statusIdent_read_unfixed hcode
  unfold State.endFrame
  rw [classify_of_code hlength hread]
  dsimp only [State.endRead]
  rw [if_neg hfetch, if_neg hnotices]
  rfl

/-- A whole STATUS or IDENT frame: its bytes go out, and the reload is all that changes beside. -/
theorem frameEvent_whole_statusIdent {s : State} {p : Station} (hr : s.ports[p].shifter = .released)
    (hi : s.inReset = false) {code : Byte} (hcode : code = codeStatus ∨ code = codeIdent) {out : Nat → Byte}
    (hout : s.Shows p code out) (bits : List Bool) :
    s.frameEvent p [code] (.whole bits) =
      { s with ports := s.ports.set p (s.ports[p].afterFrame [.plain] (wireBits out (8 + bits.length))) } := by
  obtain ⟨_, hfetch, hnotices⟩ := statusIdent_read_unfixed hcode
  refine frameEvent_whole_unfixed hr hi hfetch hnotices hout bits
    (ends := fun q => { q with reloads := q.reloads ++ [.plain] }) fun t f hreceived => ?_
  refine endFrame_statusIdent (by simp [hreceived]) ?_ t p
  rw [hreceived, bytesBits_cons, List.append_assoc, bitsByte_byteBits]
  exact hcode

/-- A STATUS frame shows the status and the flags byte in turn (R150). -/
theorem shows_status (s : State) (p : Station) :
    s.Shows p codeStatus fun n => if n % 2 = 0 then s.statusByte p else s.ports[p].flags.byte where
  first := rfl
  next f m hcode hbytes := by
    unfold State.nextOutByte
    dsimp only
    rw [if_pos hcode, hbytes]

/-- An IDENT frame shows the status byte and then the identification bytes (R152). -/
theorem shows_ident (s : State) (p : Station) :
    s.Shows p codeIdent fun n => if n = 0 then s.statusByte p else Config.identification.getD (n - 1) 0 where
  first := rfl
  next f m hcode hbytes := by
    unfold State.nextOutByte
    dsimp only
    rw [hcode, hbytes, if_neg (by decide), if_neg (by decide), if_pos rfl, if_neg (Nat.succ_ne_zero m)]

/-- Settles O6: the bytes' fields by their places, the frames by the end of a read that fixes no reply. -/
theorem statusAndIdentFrames : Obligations.StatusAndIdentFrames := by
  intro s p status flags
  refine ⟨?_, s.ports[p].flags.byte_fields, ?_, fun bits hr hi => ⟨?_, ?_⟩⟩
  · obtain ⟨hbusy, hholding, hnotice, hsession, hheld, hzero⟩ := statusByte_fields s p
    refine ⟨?_, ?_, ?_, hsession.trans ?_, hheld, hzero⟩
    · rw [hbusy, CommandState.isBusy_iff]
    · rw [hholding, CommandState.isHolding_iff]
    · rw [hnotice, State.noticeCondition_iff]
    · cases s.sessions[p].state <;> rfl
  · intro f hf hlength hcode
    exact stopsAs_of_endFrame hf _ (endFrame_statusIdent hlength hcode s p) rfl
  · exact congrArg Host.Outcome.next (frameEvent_whole_statusIdent hr hi (.inl rfl) (shows_status s p) bits)
  · exact congrArg Host.Outcome.next (frameEvent_whole_statusIdent hr hi (.inr rfl) (shows_ident s p) bits)

/-! ### Posted frames (R146, R147, R153, R154) -/

theorem readCodes_subset_localCodes : readCodes ⊆ localCodes := by decide

/-- A code that is no port-local one is a posted command's, known or not (R145, R146). -/
theorem classify_posted {code : Byte} {args : List Byte} (hcode : code ∉ localCodes)
    (hargs : args.length = argumentLength code) (extra : List Byte) :
    classify (bytesBits (code :: (args ++ extra))) = .posted code args := by
  have hfirst : frameByte (bytesBits (code :: (args ++ extra))) 0 = code := frameByte_zero code _
  have hrest : frameBytes (bytesBits (code :: (args ++ extra))) 1 args.length = args :=
    frameBytes_bytesBits code args extra
  have hlength : (bytesBits (code :: (args ++ extra))).length = 8 * (1 + args.length + extra.length) := by
    rw [bytesBits_length, List.length_cons, List.length_append]; omega
  have hread : code ∉ readCodes := fun h => hcode (readCodes_subset_localCodes h)
  have hmask : code ≠ codeMask := (ne_of_mem_of_not_mem (by decide) hcode).symm
  have hclear : code ≠ codeClearFlags := (ne_of_mem_of_not_mem (by decide) hcode).symm
  have hwhole : ((8 * (1 + args.length + extra.length)) % 8 == 0 &&
      decide (argumentLength code + 1 ≤ 8 * (1 + args.length + extra.length) / 8)) = true := by
    rw [Bool.and_eq_true, beq_iff_eq, decide_eq_true_iff]; omega
  unfold classify classifyCommand
  dsimp only
  rw [hfirst, hlength, if_neg (by omega), if_neg (by omega), if_neg hread, if_neg hmask, if_neg hclear, if_pos hwhole,
    ← hargs, hrest]

/-- The end of a posted frame as one change of its port: the command is taken, a held result being lost, or refused. -/
def Port.endsPosted (command : PostedCommand) (q : Port) : Port :=
  match q.command with
  | .ready => { q with command := .busy command, reloads := q.reloads ++ [.ofCommand] }
  | .holding _ =>
    { q with command := .busy command, flags := { q.flags with lost := true }, reloads := q.reloads ++ [.ofCommand] }
  | .busy _ => { q with flags := { q.flags with overrun := true }, reloads := q.reloads ++ [.plain] }

/-- What the end of a posted frame leaves of its port, select released and the frame's bits recorded. -/
theorem Port.endsPosted_released (q : Port) (command : PostedCommand) (out : List Bool) :
    { q.endsPosted command with shifter := .released, sdo := out } =
      match q.command with
      | .ready => { q.afterStop [.ofCommand] out with command := .busy command }
      | .holding _ =>
        { q.afterStop [.ofCommand] out with command := .busy command, flags := { q.flags with lost := true } }
      | .busy _ => { q.afterStop [.plain] out with flags := { q.flags with overrun := true } } := by
  obtain ⟨state, _, _, _, _, _, _, _, _⟩ := q
  cases state <;> rfl

/-- The command state as select rises decides between taking and refusing (R153, R154). -/
theorem endPosted_eq (s : State) (p : Station) (code : Byte) (args : List Byte) :
    s.endPosted p code args = s.modifyPort p (Port.endsPosted { code := code, args := args, passedOn := false }) := by
  unfold State.endPosted State.handReload
  split <;> rename_i hstate <;> rw [modifyPort_modifyPort] <;>
    exact modifyPort_congr (by rw [Port.endsPosted, hstate])

/-- A well-formed posted frame ends as its command says, bytes beyond the argument list dropped (R146, R147). -/
theorem endFrame_posted {f : Frame} {code : Byte} {args extra : List Byte} (hcode : code ∉ localCodes)
    (hargs : args.length = argumentLength code) (hreceived : f.received = bytesBits (code :: (args ++ extra)))
    (s : State) (p : Station) :
    s.endFrame p f = s.modifyPort p (Port.endsPosted { code := code, args := args, passedOn := false }) := by
  unfold State.endFrame
  rw [hreceived, classify_posted hcode hargs]
  exact endPosted_eq s p code args

/-- A frame that is no read shows nothing but zeros after the status byte (R145). -/
theorem shows_zeros (s : State) (p : Station) {code : Byte} (hcode : code ∉ readCodes) :
    s.Shows p code (statusThenZeros (s.statusByte p)) where
  first := rfl
  next f m hf _ := by
    simp only [readCodes, List.mem_cons, List.not_mem_nil, or_false, not_or] at hcode
    obtain ⟨hstatus, hfetch, hnotices, hident⟩ := hcode
    unfold State.nextOutByte
    dsimp only
    rw [hf, if_neg hstatus, if_neg hfetch, if_neg hident, if_neg hnotices]
    rfl

/-- The table of frame lengths, code by code (R146, section 11.2). -/
theorem postedBytes_eq : ∀ code : Byte, postedBytes code = 1 + argumentLength code := by decide +kernel

/-- Settles O12: the frame's class gives its end, which the command state as select rises decides. -/
theorem postedFrameTakenOrRefused : Obligations.PostedFrameTakenOrRefused := by
  intro s p code args extra hcode hbytes command ended
  have hlocal : code ∉ localCodes := hcode
  have hargs : args.length = argumentLength code := by
    rw [postedBytes_eq] at hbytes
    omega
  refine ⟨fun f hf hreceived => ?_, fun hr hi => ?_⟩
  · exact stopsAs_of_endFrame hf _ (endFrame_posted hlocal hargs hreceived s p) (Port.endsPosted_released _ _ _)
  · intro out
    have hunread : code ∉ readCodes := fun h => hlocal (readCodes_subset_localCodes h)
    have hlength : 8 * (1 + args.length + extra.length) = 8 + (bytesBits (args ++ extra)).length := by
      rw [bytesBits_length, List.length_append]
      omega
    have hframe := frameEvent_whole_unfixed hr hi (ne_of_mem_of_not_mem (by decide) hlocal).symm
      (ne_of_mem_of_not_mem (by decide) hlocal).symm (shows_zeros s p hunread) (bytesBits (args ++ extra))
      fun t f hreceived => endFrame_posted hlocal hargs hreceived t p
    rw [← hlength, Port.endsPosted_released] at hframe
    exact congrArg Host.Outcome.next hframe

end Sys2Proof.Machine
end

section
/-! PROOFS. The ownership pins: which holder a channel shows, and what OHOLDn and OIDn read for it (R174, R175). -/

namespace Sys2Proof.Machine

/-! ### The holder of an exclusive entry -/

/-- The directory search finds the entry of a key and no other (R24). -/
theorem Rising.entryOf_eq_some_iff {d : List Entry} (h : Rising d) {k : Word} {e : Entry} :
    entryOf d k = some e ↔ e ∈ d ∧ e.key = k := by
  constructor
  · intro he
    exact ⟨entryOf_mem he, entryOf_key he⟩
  · rintro ⟨hmem, rfl⟩
    exact entryOf_of_mem h hmem

/-- The first holder of an exclusive entry is its only one (R25). -/
theorem Entry.Sound.holders_of_exclusive {s : State} {e : Entry} (h : e.Sound s) (hmode : e.holdMode = .exclusive)
    {i : SlotIndex} {rest : List SlotIndex} (hholders : e.holders = i :: rest) : e.holders = [i] := by
  have halone : (i :: rest).length ≤ 1 := hholders ▸ h.alone hmode
  rw [hholders, List.eq_nil_of_length_eq_zero (Nat.le_zero.mp (Nat.le_of_succ_le_succ halone))]

/-! ### The holder a channel shows -/

/-- A channel shows a HELD slot, and one in GRACE while its grace-drop is clear. -/
theorem Slot.showsOn_iff (sl : Slot) (c : Channel) :
    sl.showsOn c = true ↔ sl.state = .held ∨ (sl.state = .grace ∧ c.graceDrop = false) := by
  cases hstate : sl.state <;> simp [Slot.showsOn, hstate]

/-- Channel `c` is enabled and its bound key has an exclusive holder of station `p` that the channel shows (R175). -/
def State.ShowsStation (s : State) (c : Channel) (p : Station) : Prop :=
  c.enable = true ∧
    ∃ e i l, e ∈ s.directory ∧ e.key = c.key ∧ e.holdMode = .exclusive ∧ e.holders = [i] ∧
      s.slots[i].lease = some l ∧ l.station = p ∧
      (s.slots[i].state = .held ∨ (s.slots[i].state = .grace ∧ c.graceDrop = false))

/-- A channel that names a station is enabled and found it at the head of its key's exclusive entry. -/
theorem State.channelHolder_cases {s : State} {n : ChannelNumber} {p : Station} (h : s.channelHolder n = some p) :
    s.settings.channels[n].enable = true ∧
      ∃ e i rest l, entryOf s.directory s.settings.channels[n].key = some e ∧ e.holdMode = .exclusive ∧
        e.holders = i :: rest ∧ s.slots[i].showsOn s.settings.channels[n] = true ∧
        s.slots[i].lease = some l ∧ l.station = p := by
  unfold State.channelHolder at h
  dsimp only at h
  split at h
  case isFalse => cases h
  case isTrue henable =>
    split at h
    case h_1 => cases h
    case h_2 e hentry =>
      split at h
      case h_2 => cases h
      case h_1 i rest hmode hholders =>
        split at h
        case isFalse => cases h
        case isTrue hshows =>
          obtain ⟨l, hlease, hstation⟩ := Option.map_eq_some_iff.mp h
          exact ⟨henable, e, i, rest, l, hentry, hmode, hholders, hshows, hlease, hstation⟩

/-- On a sound directory a channel names exactly the station R175 names. -/
theorem State.DirectorySound.channelHolder_eq_some_iff {s : State} (h : s.DirectorySound) (n : ChannelNumber)
    (p : Station) : s.channelHolder n = some p ↔ s.ShowsStation s.settings.channels[n] p := by
  constructor
  · intro hholder
    obtain ⟨henable, e, i, rest, l, hentry, hmode, hholders, hshows, hlease, hstation⟩ :=
      State.channelHolder_cases hholder
    obtain ⟨hmem, hkey⟩ := h.rising.entryOf_eq_some_iff.mp hentry
    exact ⟨henable, e, i, l, hmem, hkey, hmode, (h.entries e hmem).holders_of_exclusive hmode hholders, hlease,
      hstation, (Slot.showsOn_iff _ _).mp hshows⟩
  · rintro ⟨henable, e, i, l, hmem, hkey, hmode, hholders, hlease, hstation, hstate⟩
    have hentry := h.rising.entryOf_eq_some_iff.mpr ⟨hmem, hkey⟩
    have hshows := (Slot.showsOn_iff _ _).mpr hstate
    simp only [State.channelHolder, henable, hentry, hmode, hholders, hshows, hlease, if_true, Option.map_some,
      hstation]

/-! ### The pins -/

/-- A channel that names a station asserts OHOLDn and shows it on OIDn. -/
theorem State.pins_of_channelHolder_some {s : State} {n : ChannelNumber} {p : Station} (hreset : s.inReset = false)
    (h : s.channelHolder n = some p) : s.ohold n = true ∧ s.oid n = BitVec.ofNat 2 p.val := by
  have hohold : s.ohold n = true := by rw [State.ohold, hreset, h]; rfl
  refine ⟨hohold, ?_⟩
  rw [State.oid, if_pos hohold, h]
  exact BitVec.ofFin_eq_ofNat

/-- A channel that names no station leaves its pins deasserted. -/
theorem State.pins_of_channelHolder_none {s : State} {n : ChannelNumber} (h : s.channelHolder n = none) :
    s.ohold n = false ∧ s.oid n = 0 := by
  have hohold : s.ohold n = false := by rw [State.ohold, h]; exact Bool.and_false _
  exact ⟨hohold, by rw [State.oid, hohold]; rfl⟩

/-- Settles O51: the channel's holder is R175's by `State.DirectorySound.channelHolder_eq_some_iff`, and the pins are
read from it. -/
theorem ownershipPins : Obligations.OwnershipPins := by
  intro s n hsound hreset c shows
  have hholder : ∀ p, s.channelHolder n = some p ↔ shows p := hsound.channelHolder_eq_some_iff n
  constructor
  · intro p hshows
    exact State.pins_of_channelHolder_some hreset ((hholder p).mpr hshows)
  · intro hnone
    exact State.pins_of_channelHolder_none
      (Option.eq_none_iff_forall_ne_some.mpr fun p hp => hnone p ((hholder p).mp hp))

end Sys2Proof.Machine
end

section
/-! PROOFS. Moves: what one command does to the records of the pool, the directory, the counters, the sessions and the
sweeps, said once for every invariant. Each command is a chain of moves, and an invariant holds along a run if every
move keeps it. -/

namespace Sys2Proof.Machine

/-! ### The moves -/

/-- Two states with the same pool, directory, counters, sessions, sweeps and limits; time, ports and the other settings
may differ. -/
structure SameRecords (s t : State) : Prop where
  slots : t.slots = s.slots
  directory : t.directory = s.directory
  sessions : t.sessions = s.sessions
  leaseCounters : t.leaseCounters = s.leaseCounters
  livenessCounters : t.livenessCounters = s.livenessCounters
  sweepQueue : t.sweepQueue = s.sweepQueue
  walk : t.walk = s.walk
  sessionCompletions : t.sessionCompletions = s.sessionCompletions
  sharedLimit : t.settings.sharedLimit = s.settings.sharedLimit
  queueLimit : t.settings.queueLimit = s.settings.queueLimit

theorem SameRecords.refl (s : State) : SameRecords s s := ⟨rfl, rfl, rfl, rfl, rfl, rfl, rfl, rfl, rfl, rfl⟩

/-- An ACQUIRE of lease `l` into slot `i` has passed the checks of R45 that guard the pool and the directory. -/
structure State.Admits (s : State) (i : SlotIndex) (l : Lease) : Prop where
  free : s.slots[i].state = .free
  attached : s.sessions[l.station].state = .attached
  first : s.liveLeaseOn l.station l.key = none
  capacity : entryOf s.directory l.key = none → s.directory.length < Config.directoryCapacity

/-- One move of the part's records. A move of the GE on an expiry claim comes with a change `f` of the slot's own
counter, which the taking of the claim makes first. -/
inductive Move (s : State) : State → Prop
  | aside {t : State} (same : SameRecords s t) : Move s t
  | reset {t : State} (h : execHardwareReset s = .next t) : Move s t
  | tick : Move s s.deliverTick
  | leaseRunout (i : SlotIndex) (due : s.leaseCounters[i].running = true ∧ s.leaseCounters[i].value = 0) :
      Move s (s.modifyCounter i fun k =>
        { k with running := false, claim := some { generation := k.generation, phase := k.phase } })
  | dropClaim (i : SlotIndex) (c : ExpiryClaim) (claim : s.leaseCounters[i].claim = some c)
      (fails : s.claimPasses i c = false) : Move s (s.modifyCounter i fun k => { k with claim := none })
  | livenessRunout (p : Station) (due : s.livenessCounters[p].running = true ∧ s.livenessCounters[p].value = 0) :
      Move s (s.modifyLiveness p fun k => { k with running := false, claim := true })
  | dropLapse (p : Station) (fails : ¬ (s.sessions[p].state = .attached ∧ s.sessions[p].livenessTerm ≠ 0 ∧
      s.livenessCounters[p].value = 0)) : Move s (s.modifyLiveness p fun c => { c with claim := false })
  | reload (p : Station) (attached : s.sessions[p].state = .attached) (timed : s.sessions[p].livenessTerm ≠ 0) :
      Move s (s.loadLiveness p s.sessions[p].livenessTerm)
  | beginSession (p : Station) (term : Word) (grace : Byte) (detached : s.sessions[p].state = .detached) :
      Move s (s.beginSession p term grace)
  | endSession (p : Station) (cause : SweepCause) (attached : s.sessions[p].state = .attached) :
      Move s (s.endSession p cause)
  | detached (p : Station) (cause : SweepCause) (complete : s.sessionCompletions[p] = some cause) :
      Move s ({ s with sessionCompletions := updVec s.sessionCompletions p fun _ => none }.modifySession p fun r =>
        { r with state := .detached, livenessTerm := 0, grace := 0, cause := none })
  | enterRange (r : RangeOrder) (room : s.sweepQueue.countP Order.isRange < Config.rangeOrderCapacity) :
      Move s (s.enterOrder (.range r))
  | advance (i : SlotIndex) (walk : s.walk = some i)
      (cleared : ∀ p cause rest, s.sweepQueue = .station p cause :: rest →
        s.slots[i].state = .free ∨ s.slots[i].ownedBy p = false) : Move s (s.advanceWalk i)
  | stationDone (p : Station) (cause : SweepCause) (rest : List Order) (queue : s.sweepQueue = .station p cause :: rest)
      (walk : s.walk = none) :
      Move s { s with sessionCompletions := updVec s.sessionCompletions p fun _ => some cause }.nextOrder
  | rangeDone (r : RangeOrder) (rest : List Order) (queue : s.sweepQueue = .range r :: rest) (walk : s.walk = none) :
      Move s s.nextOrder
  | limits (settings : Settings) (empty : s.directory = [])
      (shared : (1 ≤ settings.sharedLimit ∧ settings.sharedLimit ≤ 8) ∨ settings.sharedLimit = s.settings.sharedLimit)
      (queue : (1 ≤ settings.queueLimit ∧ settings.queueLimit ≤ 32) ∨ settings.queueLimit = s.settings.queueLimit) :
      Move s { s with settings := settings }
  | grantNow (i : SlotIndex) (l : Lease) (admits : s.Admits i l)
      (grants : s.immediateGrant (s.entryOrNew l.key) l.mode = true) : Move s (s.grantNow i l)
  | queueUp (i : SlotIndex) (l : Lease) (admits : s.Admits i l)
      (room : (s.entryOrNew l.key).queue.length < s.settings.queueLimit) : Move s (s.queueUp i l)
  | renew (i : SlotIndex) (l : Lease) (term : Word)
      (holding : s.slots[i].state = .held ∨ s.slots[i].state = .grace) (lease : s.slots[i].lease = some l) :
      Move s (s.renewSlot i l term)
  | setExtension (i : SlotIndex) (term : Word) (held : s.slots[i].state = .held) : Move s (s.setExtension i term)
  | stepDown (i : SlotIndex) (l : Lease) (held : s.slots[i].state = .held) (lease : s.slots[i].lease = some l)
      (mode : l.mode = .exclusive) : Move s (s.stepDown i l)
  | stepUp (i : SlotIndex) (l : Lease) (held : s.slots[i].state = .held) (lease : s.slots[i].lease = some l)
      (sole : s.soleHolder i l.key = true) : Move s (s.stepUp i l)
  | applyExtension (i : SlotIndex) (x : Word) (f : LeaseCounter → LeaseCounter) (held : s.slots[i].state = .held) :
      Move s ((s.modifyCounter i f).applyExtension i x)
  | lapseInto (i : SlotIndex) (g : Byte) (f : LeaseCounter → LeaseCounter) (held : s.slots[i].state = .held)
      (unextended : s.slots[i].extension = none) : Move s ((s.modifyCounter i f).lapseInto i g)
  | removeFree (i : SlotIndex) (used : s.slots[i].state ≠ .free) : Move s (s.removeSlot i .free)
  | removeEnded (i : SlotIndex) (kind : NoticeKind) (f : LeaseCounter → LeaseCounter)
      (live : s.slots[i].state.isLive = true) (ends : kind = .timedOut ∨ kind = .revoked ∨ kind = .swept) :
      Move s ((s.modifyCounter i f).removeSlot i (.ended kind))
  | dropNotice (i : SlotIndex) (unended : s.slots[i].state ≠ .ended) :
      Move s (s.modifySlot i fun sl => { sl with notice := none })
  | regrant (k : Word) : Move s ((s.regrant k).settleEntry k)

/-- A chain of moves. -/
def Moves (s t : State) : Prop := Relation.ReflTransGen Move s t

theorem Moves.refl (s : State) : Moves s s := Relation.ReflTransGen.refl

theorem Moves.single {s t : State} (h : Move s t) : Moves s t := Relation.ReflTransGen.single h

theorem Moves.tail {s t u : State} (h : Moves s t) (h' : Move t u) : Moves s u := Relation.ReflTransGen.tail h h'

theorem Moves.trans {s t u : State} (h : Moves s t) (h' : Moves t u) : Moves s u := Relation.ReflTransGen.trans h h'

/-- What every move keeps, every chain of moves keeps. -/
theorem Moves.keeps {P : State → Prop} (hmove : ∀ s t, P s → Move s t → P t) {s t : State} (hs : P s)
    (h : Moves s t) : P t := by
  induction h with
  | refl => exact hs
  | tail _ hm ih => exact hmove _ _ ih hm

theorem Moves.aside {s t : State} (h : SameRecords s t) : Moves s t := .single (.aside h)

theorem Moves.of_eq {s t : State} (h : t = s) : Moves s t := h ▸ .refl s

/-- A move between states that the records do not tell apart from the given ones. -/
theorem Moves.then_aside {s t u : State} (h : Moves s t) (h' : SameRecords t u) : Moves s u := h.tail (.aside h')

/-! ### Changes aside -/

theorem sameRecords_placeResult (s : State) (p : Station) (code : Byte) (r : Reply) :
    SameRecords s (s.placeResult p code r) := ⟨rfl, rfl, rfl, rfl, rfl, rfl, rfl, rfl, rfl, rfl⟩

theorem PortOnly.sameRecords {p : Station} {s t : State} (h : PortOnly p s t) : SameRecords s t := by
  rw [h]; exact ⟨rfl, rfl, rfl, rfl, rfl, rfl, rfl, rfl, rfl, rfl⟩

theorem sameRecords_modifyPort (s : State) (p : Station) (f : Port → Port) : SameRecords s (s.modifyPort p f) :=
  (portOnly_modifyPort p s f).sameRecords

/-- A taking of the Session Unit or the Configuration Unit makes the moves of its command's act. -/
theorem moves_unitTaking {p : Station} {code : Byte} {about : List Byte → Bool}
    {act : List Byte → State → State × Reply} {s t : State} (h : unitTaking p code about act s = .next t)
    (hact : ∀ args, about args = true → Moves s (act args s).1) : Moves s t := by
  rcases unitTaking_cases h with rfl | ⟨args, _, habout, rfl⟩
  · exact .refl _
  · exact (hact args habout).then_aside (sameRecords_placeResult _ _ _ _)

/-- A taking of the GE makes the moves of its command's act. -/
theorem moves_geTaking {p : Station} {code : Byte} {act : List Byte → State → State × Reply} {s t : State}
    (h : geTaking p code act s = .next t) (hact : ∀ args, Moves s (act args s).1) : Moves s t := by
  rcases geTaking_cases h with rfl | ⟨args, _, rfl⟩
  · exact .refl _
  · exact (hact args).then_aside ⟨rfl, rfl, rfl, rfl, rfl, rfl, rfl, rfl, rfl, rfl⟩

/-! ### The Session Unit -/

/-- The session check lets an ATTACHED session pass alone (R46). -/
theorem attached_of_sessionRefusal {s : State} {p : Station} {epoch : Byte} (h : s.sessionRefusal p epoch = none) :
    s.sessions[p].state = .attached := by
  unfold State.sessionRefusal at h
  split at h
  · cases h
  · cases h
  · assumption

theorem moves_attach (p : Station) (term : Word) (grace flags : Byte) (s : State) :
    Moves s (attach p term grace flags s).1 := by
  unfold attach
  split
  · split
    case h_1 hdetached => exact .single (.beginSession p term grace hdetached)
    case h_2 hattached =>
      split
      · exact .single (.endSession p .reclaim hattached)
      · exact .refl _
    case h_3 => exact .refl _
  · exact .refl _

theorem moves_detach (p : Station) (epoch : Byte) (s : State) : Moves s (detach p epoch s).1 := by
  unfold detach
  split
  · exact .refl _
  · rename_i hpass
    exact .single (.endSession p .detach (attached_of_sessionRefusal hpass))

theorem moves_purge (p : Station) (epoch station : Byte) (s : State) : Moves s (purge p epoch station s).1 := by
  unfold purge
  split
  · exact .refl _
  · split
    case h_1 hattached => exact .single (.endSession _ .purge hattached)
    case h_2 => exact .refl _
    case h_3 => exact .refl _

theorem moves_clearStation (s : State) (q : Station) : Moves s (s.clearStation q) := by
  unfold State.clearStation
  split
  · rename_i hattached
    exact .single (.endSession q .clear hattached)
  · exact .refl _

theorem moves_clearAll (p : Station) (epoch : Byte) (s : State) : Moves s (clearAll p epoch s).1 := by
  unfold clearAll
  split
  · exact .refl _
  · dsimp only
    exact (((moves_clearStation _ 0).trans (moves_clearStation _ 1)).trans (moves_clearStation _ 2)).trans
        (moves_clearStation _ 3)

theorem moves_livenessReload {p : Station} {which : Nat} {s t : State} (h : execLivenessReload p which s = .next t) :
    Moves s t := by
  unfold execLivenessReload at h
  split at h
  · cases h; exact .refl _
  · dsimp only at h
    split at h <;> rename_i hsession <;> cases h
    · exact (Moves.aside (sameRecords_modifyPort s p _)).tail (.reload p hsession.1 hsession.2)
    · exact .aside (sameRecords_modifyPort s p _)

/-- A lapse claim taken and the session's end do not meet: the claim may as well be dropped last. -/
theorem endSession_modifyLiveness (s : State) (p : Station) (cause : SweepCause) :
    (s.modifyLiveness p fun c => { c with claim := false }).endSession p cause =
      (s.endSession p cause).modifyLiveness p fun c => { c with claim := false } := by
  simp only [State.endSession, State.stopLiveness, State.modifyLiveness, State.modifySession, State.enterOrder,
    updVec_updVec]
  rfl

theorem endSession_sessions (s : State) (p : Station) (cause : SweepCause) :
    (s.endSession p cause).sessions = updVec s.sessions p fun r =>
      { r with state := .sweeping, cause := some cause } := rfl

theorem moves_lapseClaim {p : Station} {s t : State} (h : execLapseClaim p s = .next t) : Moves s t := by
  unfold execLapseClaim at h
  split at h
  · dsimp only at h
    split at h <;> rename_i htests <;> cases h
    · rw [endSession_modifyLiveness]
      refine (Moves.single (.endSession p .lapse htests.1)).tail (.dropLapse p ?_)
      rw [endSession_sessions, updVec_get_self]
      exact fun hc => by cases hc.1
    · exact .single (.dropLapse p htests)
  · cases h; exact .refl _

theorem moves_sessionSweepCompletion {p : Station} {s t : State} (h : execSessionSweepCompletion p s = .next t) :
    Moves s t := by
  unfold execSessionSweepCompletion at h
  split at h <;> cases h
  · exact .refl _
  · rename_i cause hcomplete
    exact (Moves.single (.detached p cause hcomplete)).then_aside (sameRecords_modifyPort _ p _)

/-! ### The Configuration Unit and the time base -/

/-- A write of an item that leaves the two limits alone is aside. -/
theorem moves_writeItem {p : Station} {epoch : Byte} {format needsEmpty : Bool} {store : State → State} {s : State}
    (hstore : SameRecords s (store s)) : Moves s (writeItem p epoch format needsEmpty store s).1 := by
  rcases writeItem_fst_cases p epoch format needsEmpty store s with e | e <;> rw [e]
  · exact .refl _
  · exact .aside hstore

/-- A change of the settings that leaves the limits alone is aside. -/
theorem sameRecords_modifySettings (s : State) {f : Settings → Settings}
    (hs : (f s.settings).sharedLimit = s.settings.sharedLimit)
    (hq : (f s.settings).queueLimit = s.settings.queueLimit) :
    SameRecords s (s.modifySettings f) := ⟨rfl, rfl, rfl, rfl, rfl, rfl, rfl, rfl, hs, hq⟩

theorem sameRecords_storeTickSource (s : State) (v : Word) : SameRecords s (s.storeTickSource v) := by
  unfold State.storeTickSource
  dsimp only
  generalize (if v = 0 then TickSource.internal else .external) = source
  split
  · exact .refl s
  · exact ⟨rfl, rfl, rfl, rfl, rfl, rfl, rfl, rfl, rfl, rfl⟩

theorem sameRecords_storeProtectedRange (s : State) (item : Byte) (v : Word) :
    SameRecords s (s.storeProtectedRange item v) := by
  refine sameRecords_modifySettings s ?_ ?_ <;> dsimp only <;> repeat' split
  all_goals rfl

/-- A write of a limit finds its value in range and the directory empty (R162, R169). -/
theorem writeItem_limit_cases (p : Station) (epoch : Byte) (format : Bool) (store : State → State) (s : State) :
    (writeItem p epoch format true store s).1 = s ∨
      (format = true ∧ s.directory = [] ∧ (writeItem p epoch format true store s).1 = store s) := by
  unfold writeItem
  split
  case h_1 => exact .inl rfl
  case h_2 hpass =>
    split
    · exact .inl rfl
    · split
      · exact .inl rfl
      · rename_i hempty
        refine .inr ⟨?_, by simpa using hempty, rfl⟩
        cases format
        · cases hpass
        · rfl

theorem moves_freeze (p : Station) (epoch : Byte) (s : State) : Moves s (freeze p epoch s).1 := by
  unfold freeze
  split
  · exact .refl _
  · exact .aside ⟨rfl, rfl, rfl, rfl, rfl, rfl, rfl, rfl, rfl, rfl⟩

theorem moves_holdTime (p : Station) (epoch : Byte) (on : Bool) (s : State) : Moves s (holdTime p epoch on s).1 := by
  unfold holdTime
  split
  · exact .refl _
  · exact .aside ⟨rfl, rfl, rfl, rfl, rfl, rfl, rfl, rfl, rfl, rfl⟩

theorem sameRecords_beginInterval (s : State) : SameRecords s s.beginInterval :=
  ⟨rfl, rfl, rfl, rfl, rfl, rfl, rfl, rfl, rfl, rfl⟩

/-- A completed internal interval delivers its tick (R66). -/
theorem moves_interval (s : State) : Moves s s.deliverTick.beginInterval :=
  (Moves.single .tick).then_aside (sameRecords_beginInterval _)

theorem moves_microsecond (s : State) : Moves s s.microsecond := by
  unfold State.microsecond
  split
  · split
    · exact moves_interval s
    · exact .aside ⟨rfl, rfl, rfl, rfl, rfl, rfl, rfl, rfl, rfl, rfl⟩
  · exact .refl _

theorem moves_internalTick {s t : State} (h : execInternalTick s = .next t) : Moves s t := by
  unfold execInternalTick at h
  split at h <;> cases h
  · exact moves_interval s
  · exact .refl _

theorem moves_tick {s t : State} (h : execTick s = .next t) : Moves s t := by
  unfold execTick at h
  split at h <;> cases h
  · exact .single .tick
  · exact .refl _

theorem moves_leaseCounterRunout {i : SlotIndex} {s t : State} (h : execLeaseCounterRunout i s = .next t) :
    Moves s t := by
  unfold execLeaseCounterRunout at h
  dsimp only at h
  split at h <;> cases h
  · rename_i hdue
    exact .single (.leaseRunout i hdue)
  · exact .refl _

theorem moves_livenessCounterRunout {p : Station} {s t : State} (h : execLivenessCounterRunout p s = .next t) :
    Moves s t := by
  unfold execLivenessCounterRunout at h
  dsimp only at h
  split at h <;> cases h
  · rename_i hdue
    exact .single (.livenessRunout p hdue)
  · exact .refl _

/-! ### The GE's commands -/

/-- A request that has passed steps 1 to 6 of R45 comes from an ATTACHED station with no live lease on the key. -/
theorem acquireRefusal_eq_none {s : State} {p : Station} {epoch flags : Byte} {k term : Word}
    (h : s.acquireRefusal p epoch k flags term = none) :
    s.sessions[p].state = .attached ∧ s.liveLeaseOn p k = none := by
  unfold State.acquireRefusal at h
  split at h
  · cases h
  · split at h
    · cases h
    · rename_i hsession
      refine ⟨attached_of_sessionRefusal hsession, ?_⟩
      split at h
      · cases h
      · split at h
        · cases h
        · split at h
          · cases h
          · rename_i hfirst
            simpa using hfirst

theorem lowestFree_free {s : State} {i : SlotIndex} (h : s.lowestFree = some i) : s.slots[i].state = .free := by
  simpa using List.find?_some h

theorem moves_acquirePlace {l : Lease} (once : Bool) {s : State} (hattached : s.sessions[l.station].state = .attached)
    (hfirst : s.liveLeaseOn l.station l.key = none) : Moves s (acquirePlace l once s).1 := by
  unfold acquirePlace
  split
  · exact .refl _
  · rename_i i hfree
    split
    · exact .refl _
    · rename_i hcapacity
      have hadmits : s.Admits i l := by
        refine ⟨lowestFree_free hfree, hattached, hfirst, fun hnone => ?_⟩
        rw [hnone] at hcapacity
        simpa using hcapacity
      split
      · rename_i hgrants
        exact .single (.grantNow i l hadmits hgrants)
      · split
        · exact .refl _
        · split
          · exact .refl _
          · rename_i hroom
            exact .single (.queueUp i l hadmits (not_le.1 hroom))

theorem moves_acquire (p : Station) (epoch : Byte) (k : Word) (flags : Byte) (term wait : Word) (s : State) :
    Moves s (acquire p epoch k flags term wait s).1 := by
  unfold acquire
  split
  · exact .refl _
  · exact .refl _
  · rename_i hpass _
    obtain ⟨hattached, hfirst⟩ := acquireRefusal_eq_none hpass
    exact moves_acquirePlace _ hattached hfirst

theorem moves_release (p : Station) (epoch : Byte) (h : Word) (s : State) : Moves s (release p epoch h s).1 := by
  unfold release
  split
  · exact .refl _
  · rename_i hpass
    rw [handleCommandRefusal_eq] at hpass
    obtain ⟨_, _, _, hused, _⟩ := handleTests_lease hpass
    exact .single (.removeFree _ hused)

theorem moves_renew (p : Station) (epoch : Byte) (h term : Word) (s : State) : Moves s (renew p epoch h term s).1 := by
  unfold renew
  split
  · exact .refl _
  · split
    case h_1 hheld hlease =>
      split
      · exact .refl _
      · exact .single (.renew _ _ term (.inl hheld) hlease)
    case h_2 hgrace hlease =>
      split
      · exact .refl _
      · exact .single (.renew _ _ term (.inr hgrace) hlease)
    case h_3 => exact .refl _

theorem moves_extend (p : Station) (epoch : Byte) (h term : Word) (s : State) :
    Moves s (extend p epoch h term s).1 := by
  unfold extend
  split
  · exact .refl _
  · split
    case h_1 hheld _ =>
      split
      · exact .refl _
      · exact .single (.setExtension _ term hheld)
    case h_2 hgrace hlease =>
      split
      · exact .refl _
      · split
        · exact .refl _
        · exact .single (.renew _ _ term (.inr hgrace) hlease)
    case h_3 => exact .refl _

theorem moves_convertHeld {i : SlotIndex} {l : Lease} (m : LeaseMode) {s : State} (hheld : s.slots[i].state = .held)
    (hlease : s.slots[i].lease = some l) : Moves s (convertHeld i l m s).1 := by
  unfold convertHeld
  split
  · exact .refl _
  · rename_i hother
    split
    · refine .single (.stepDown i l hheld hlease ?_)
      cases hmode : l.mode with
      | shared => exact absurd hmode hother
      | exclusive => rfl
    · split
      · rename_i hsole
        exact .single (.stepUp i l hheld hlease hsole)
      · exact .refl _

theorem moves_convert (p : Station) (epoch : Byte) (h : Word) (mode : Byte) (s : State) :
    Moves s (convert p epoch h mode s).1 := by
  unfold convert
  split
  · exact .refl _
  · split
    case h_1 hheld hlease _ =>
      split
      · exact .refl _
      · exact moves_convertHeld _ hheld hlease
    case h_2 => exact .refl _

theorem moves_revokeRange (p : Station) (epoch : Byte) (first last : Word) (flags : Byte) (s : State) :
    Moves s (revokeRange p epoch first last flags s).1 := by
  unfold revokeRange
  split
  · exact .refl _
  · split
    · exact .refl _
    · rename_i hroom
      exact .single (.enterRange _ (not_le.1 hroom))

/-! ### The GE's claims -/

/-- The taking of an expiry claim: none there, one that fails its test and is dropped, or one that passes (R76). -/
theorem takeExpiry_cases (s : State) (i : SlotIndex) (ph : Phase) (act : State → State) :
    s.takeExpiry i ph act = s ∨
      (∃ c, s.leaseCounters[i].claim = some c ∧ s.claimPasses i c = false ∧
        s.takeExpiry i ph act = s.modifyCounter i fun k => { k with claim := none }) ∨
      (s.slots[i].state = ph.state ∧
        s.takeExpiry i ph act = act (s.modifyCounter i fun k => { k with claim := none })) := by
  unfold State.takeExpiry
  split
  · exact .inl rfl
  · rename_i c hclaim
    split
    · rename_i hphase
      dsimp only
      split
      · rename_i hpass
        exact .inr (.inr ⟨hphase ▸ ((claimPasses_iff s i c).1 hpass).2.1, rfl⟩)
      · rename_i hfails
        exact .inr (.inl ⟨c, hclaim, by simpa using hfails, rfl⟩)
    · exact .inl rfl

/-- An expiry claim makes the moves of what it does once it passes its test. -/
theorem moves_takeExpiry (s : State) (i : SlotIndex) (ph : Phase) {act : State → State}
    (hact : s.slots[i].state = ph.state → Moves s (act (s.modifyCounter i fun k => { k with claim := none }))) :
    Moves s (s.takeExpiry i ph act) := by
  rcases takeExpiry_cases s i ph act with e | ⟨c, hclaim, hfails, e⟩ | ⟨hstate, e⟩ <;> rw [e]
  · exact .refl s
  · exact .single (.dropClaim i c hclaim hfails)
  · exact hact hstate

theorem moves_termExpires {s : State} {i : SlotIndex} (f : LeaseCounter → LeaseCounter)
    (hheld : s.slots[i].state = .held) : Moves s ((s.modifyCounter i f).termExpires i) := by
  have hlive : s.slots[i].state.isLive = true := by rw [hheld]; rfl
  unfold State.termExpires
  split
  · exact .single (.applyExtension i _ f hheld)
  · rename_i hextension _
    split
    · exact .single (.removeEnded i .revoked f hlive (.inr (.inl rfl)))
    · exact .single (.lapseInto i _ f hheld hextension)
  · exact .single (.removeEnded i .revoked f hlive (.inr (.inl rfl)))

theorem modifyCounter_id (s : State) (i : SlotIndex) : (s.modifyCounter i fun k => k) = s := by
  unfold State.modifyCounter
  rw [updVec_id]

theorem moves_stationSweepRemoval {s t : State} (h : execStationSweepRemoval s = .next t) : Moves s t := by
  unfold execStationSweepRemoval at h
  split at h <;> cases h
  · rename_i p cause rest i hqueue hwalk
    unfold State.stationVisit
    split
    · rename_i hvisited
      refine (Moves.single (.removeFree i hvisited.1)).tail (.advance i ?_ fun _ _ _ _ => .inl ?_)
      · rw [(poolOnly_removeSlot s i .free).walk, hwalk]
      · rw [removeSlot_slot_self, dispose_slots, updVec_get_self]
        rfl
    · rename_i hpassed
      refine .single (.advance i hwalk fun q _ _ hq => ?_)
      obtain ⟨rfl, -⟩ := Order.station.inj (List.cons.inj (hqueue.symm.trans hq)).1
      by_cases hfree : s.slots[i].state = .free
      · exact .inl hfree
      · exact .inr (beq_eq_false_iff_ne.2 fun howned => hpassed ⟨hfree, howned⟩)
  · exact .refl _

theorem moves_rangeSweepRemoval {s t : State} (h : execRangeSweepRemoval s = .next t) : Moves s t := by
  unfold execRangeSweepRemoval at h
  split at h <;> cases h
  · rename_i r rest i hqueue hwalk
    have hadvance : ∀ u : State, u.sweepQueue = s.sweepQueue → u.walk = s.walk → Move u (u.advanceWalk i) :=
      fun u hu hw => .advance i (hw.trans hwalk) fun p cause tail hq => by
        rw [hu, hqueue] at hq
        cases hq
    unfold State.rangeVisit
    split
    · exact .single (hadvance s rfl rfl)
    · split
      · rename_i hvisited
        have hmove := Move.removeEnded (s := s) i .swept (fun k => k) (Bool.and_eq_true_iff.1 hvisited).1
            (.inr (.inr rfl))
        rw [modifyCounter_id] at hmove
        have hpool := poolOnly_removeSlot s i (.ended .swept)
        exact (Moves.single hmove).tail (hadvance _ hpool.sweepQueue hpool.walk)
      · exact .single (hadvance s rfl rfl)
  · exact .refl _

theorem moves_stationOrderComplete {s t : State} (h : execStationOrderComplete s = .next t) : Moves s t := by
  unfold execStationOrderComplete at h
  split at h <;> cases h
  · rename_i p cause rest hqueue hwalk
    exact .single (.stationDone p cause rest hqueue hwalk)
  · exact .refl _

theorem moves_rangeOrderComplete {s t : State} (h : execRangeOrderComplete s = .next t) : Moves s t := by
  unfold execRangeOrderComplete at h
  split at h <;> cases h
  · rename_i r rest hqueue hwalk
    exact (Moves.single (.rangeDone r rest hqueue hwalk)).then_aside
      ⟨rfl, rfl, rfl, rfl, rfl, rfl, rfl, rfl, rfl, rfl⟩
  · exact .refl _

theorem moves_regrantKeys (ks : List Word) (s : State) : Moves s (regrantKeys ks s) := by
  induction ks generalizing s with
  | nil => exact .refl _
  | cons k ks ih => exact (Moves.single (.regrant k)).trans (ih _)

theorem moves_rangeCompletionClaim {which : Nat} {s t : State} (h : execRangeCompletionClaim which s = .next t) :
    Moves s t := by
  unfold execRangeCompletionClaim at h
  split at h <;> cases h
  · exact .refl _
  · refine .trans (.aside ?_) (moves_regrantKeys _ _)
    exact ⟨rfl, rfl, rfl, rfl, rfl, rfl, rfl, rfl, rfl, rfl⟩

theorem moves_acknowledge (s : State) (p : Station) (e : AckEntry) : Moves s (s.acknowledge p e) := by
  unfold State.acknowledge
  split
  · split
    · rename_i hended
      have hmove := Move.removeFree (s := s) e.slot (by rw [hended]; nofun)
      rw [removeSlot_notLive (by rw [hended]; rfl)] at hmove
      exact .single hmove
    · rename_i hunended
      exact .single (.dropNotice e.slot hunended)
  · exact .refl _

theorem moves_acknowledgementClaim {p : Station} {s t : State} (h : execAcknowledgementClaim p s = .next t) :
    Moves s t := by
  have hentries : ∀ (claim : List AckEntry) (u : State), Moves u (claim.foldl (fun t e => t.acknowledge p e) u) := by
    intro claim
    induction claim with
    | nil => exact fun u => .refl u
    | cons e claim ih => exact fun u => (moves_acknowledge u p e).trans (ih _)
  unfold execAcknowledgementClaim at h
  split at h <;> cases h
  · exact .refl _
  · exact (Moves.aside (sameRecords_modifyPort s p _)).trans (hentries _ _)

theorem moves_badCmd {p : Station} {s t : State} (h : execBadCmd p s = .next t) : Moves s t := by
  unfold execBadCmd at h
  split at h
  · split at h <;> cases h
    · exact .aside (sameRecords_placeResult _ _ _ _)
    · exact .refl _
  · cases h; exact .refl _

theorem moves_endOfReset {strap : Station} {s t : State} (h : execEndOfReset strap s = .next t) : Moves s t := by
  unfold execEndOfReset at h
  split at h <;> cases h
  · exact .aside ⟨rfl, rfl, rfl, rfl, rfl, rfl, rfl, rfl, rfl, rfl⟩
  · exact .refl _

/-! ### Every command, every step -/

theorem moves_writeSharedLimit {p : Station} {s t : State} (h : execWriteSharedLimit p s = .next t) : Moves s t :=
  moves_unitTaking h fun a _ => by
    rcases writeItem_limit_cases p (argByte a 0) _ _ s with e | ⟨hrange, hempty, e⟩ <;> rw [e]
    · exact .refl s
    rw [Bool.and_eq_true, decide_eq_true_iff, decide_eq_true_iff] at hrange
    exact .single (.limits _ hempty (.inl hrange) (.inr rfl))

theorem moves_writeQueueLimit {p : Station} {s t : State} (h : execWriteQueueLimit p s = .next t) : Moves s t :=
  moves_unitTaking h fun a _ => by
    rcases writeItem_limit_cases p (argByte a 0) _ _ s with e | ⟨hrange, hempty, e⟩ <;> rw [e]
    · exact .refl s
    rw [Bool.and_eq_true, decide_eq_true_iff, decide_eq_true_iff] at hrange
    exact .single (.limits _ hempty (.inr rfl) (.inl hrange))

/-- Every command is a chain of moves. -/
theorem exec_moves {c : Instr} {s t : State} (h : exec c s = .next t) : Moves s t := by
  cases c
  case hardwareReset => exact .single (.reset h)
  case status p ev | fetch p ev | notices p ev | mask p ev | clearFlags p ev | ident p ev | brokenFrame p ev |
      postedFrameEnd p _ ev =>
    obtain rfl := Host.Outcome.next.inj h
    exact .aside (portOnly_frameEvent p s _ ev).sameRecords
  case livenessReload => exact moves_livenessReload h
  case badCmd => exact moves_badCmd h
  case attach => exact moves_unitTaking h fun _ _ => moves_attach _ _ _ _ s
  case detach => exact moves_unitTaking h fun _ _ => moves_detach _ _ s
  case purge => exact moves_unitTaking h fun _ _ => moves_purge _ _ _ s
  case clearAll => exact moves_unitTaking h fun _ _ => moves_clearAll _ _ s
  case readConfig => exact moves_unitTaking h fun _ _ => .of_eq (readConfig_fst _ _ _ s)
  case writeConfig | holdTimeInvalidSetting =>
    exact moves_unitTaking (act := fun _ u => (u, .plain .badArg)) h fun _ _ => .refl s
  case writeTickSource => exact moves_unitTaking h fun _ _ => moves_writeItem (sameRecords_storeTickSource s _)
  case writeProtectedRange =>
    exact moves_unitTaking h fun _ _ => moves_writeItem (sameRecords_storeProtectedRange s _ _)
  case writeTickPeriod | writeAccessLevel | writeQuota | writeChannelKey | writeChannelCtrl =>
    exact moves_unitTaking h fun _ _ => moves_writeItem (sameRecords_modifySettings s rfl rfl)
  case writeSharedLimit => exact moves_writeSharedLimit h
  case writeQueueLimit => exact moves_writeQueueLimit h
  case freeze => exact moves_unitTaking h fun _ _ => moves_freeze _ _ s
  case holdTimeOn | holdTimeOff => exact moves_unitTaking h fun _ _ => moves_holdTime _ _ _ s
  case acquire => exact moves_geTaking h fun _ => moves_acquire _ _ _ _ _ _ s
  case release => exact moves_geTaking h fun _ => moves_release _ _ _ s
  case renew => exact moves_geTaking h fun _ => moves_renew _ _ _ _ s
  case extend => exact moves_geTaking h fun _ => moves_extend _ _ _ _ s
  case convert => exact moves_geTaking h fun _ => moves_convert _ _ _ _ s
  case queryLease => exact moves_geTaking h fun _ => .of_eq (queryLease_fst _ _ _ s)
  case queryKey => exact moves_geTaking h fun _ => .of_eq (queryKey_fst _ _ _ s)
  case revokeRange => exact moves_geTaking h fun _ => moves_revokeRange _ _ _ _ _ s
  case internalTick => exact moves_internalTick h
  case tick => exact moves_tick h
  case leaseCounterRunout => exact moves_leaseCounterRunout h
  case livenessCounterRunout => exact moves_livenessCounterRunout h
  case termExpiryClaim i =>
    obtain rfl := Host.Outcome.next.inj h
    exact moves_takeExpiry s i .term (moves_termExpires _)
  case graceExpiryClaim i =>
    obtain rfl := Host.Outcome.next.inj h
    exact moves_takeExpiry s i .grace fun hstate =>
      .single (.removeEnded i .revoked _ (by rw [hstate]; rfl) (.inr (.inl rfl)))
  case waitExpiryClaim i =>
    obtain rfl := Host.Outcome.next.inj h
    exact moves_takeExpiry s i .wait fun hstate => .single (.removeEnded i .timedOut _ (by rw [hstate]; rfl) (.inl rfl))
  case lapseClaim => exact moves_lapseClaim h
  case stationSweepRemoval => exact moves_stationSweepRemoval h
  case rangeSweepRemoval => exact moves_rangeSweepRemoval h
  case stationOrderComplete => exact moves_stationOrderComplete h
  case sessionSweepCompletion => exact moves_sessionSweepCompletion h
  case rangeOrderComplete => exact moves_rangeOrderComplete h
  case rangeCompletionClaim => exact moves_rangeCompletionClaim h
  case acknowledgementClaim => exact moves_acknowledgementClaim h
  case endOfReset => exact moves_endOfReset h

/-- A step runs one command or lets a microsecond pass. -/
theorem step_cases {s t : State} (h : step s = .next t) :
    t = s.microsecond ∨ ∃ c rest, exec c { s with pending := rest } = .next t := by
  unfold step at h
  split at h
  · cases h; exact .inl rfl
  · exact .inr ⟨_, _, h⟩

/-- Every step is a chain of moves. -/
theorem step_moves {s t : State} (h : step s = .next t) : Moves s t := by
  rcases step_cases h with rfl | ⟨c, rest, hexec⟩
  · exact moves_microsecond s
  · refine .trans (.aside ?_) (exec_moves hexec)
    exact ⟨rfl, rfl, rfl, rfl, rfl, rfl, rfl, rfl, rfl, rfl⟩

end Sys2Proof.Machine
end

section
/-! PROOFS. The pool keeps its shape (R2, R20) and its lease counts (R21) in every move. -/

namespace Sys2Proof.Machine

/-! ### Shapes (R2, R20) -/

theorem Slot.shaped.of_free {sl : Slot} (h : sl.shaped) (hs : sl.state = .free) :
    sl.lease = none ∧ sl.extension = none ∧ sl.notice = none := by
  unfold Slot.shaped at h
  rwa [hs] at h

theorem Slot.shaped.lease_isSome {sl : Slot} (h : sl.shaped) (hs : sl.state ≠ .free) : sl.lease.isSome = true := by
  unfold Slot.shaped at h
  split at h
  case h_1 hfree => exact absurd hfree hs
  case h_3 => exact h
  case h_2 | h_4 | h_5 => exact h.1

/-- A slot that is not ENDED may lose its notice. -/
theorem Slot.shaped.without_notice {sl : Slot} (h : sl.shaped) (hs : sl.state ≠ .ended) :
    Slot.shaped { sl with notice := none } := by
  unfold Slot.shaped at h ⊢
  dsimp only
  split
  case h_1 hstate => rw [hstate] at h; exact ⟨h.1, h.2.1, rfl⟩
  case h_2 hstate => rw [hstate] at h; exact ⟨h.1, h.2.1, rfl⟩
  case h_3 hstate => rw [hstate] at h; exact h
  case h_4 hstate => rw [hstate] at h; exact h
  case h_5 hstate => exact absurd hstate hs

theorem Slot.shaped_freed (sl : Slot) : sl.freed.shaped := ⟨rfl, rfl, rfl⟩

/-! ### Counting a station's slots (R21) -/

/-- One slot changed: its old owner counts one less, its new owner one more. -/
theorem slotsOf_updVec {s t : State} {i : SlotIndex} {f : Slot → Slot} (h : t.slots = updVec s.slots i f)
    (p : Station) :
    t.slotsOf p = s.slotsOf p - (if s.slots[i].ownedBy p then 1 else 0) +
      (if (f s.slots[i]).ownedBy p then 1 else 0) := by
  unfold State.slotsOf
  rw [h, updVec, Vector.toList_set, List.countP_set (by simp)]
  simp only [Vector.getElem_toList, Fin.getElem_fin]

theorem slotsOf_pos_of_owned {s : State} {i : SlotIndex} {p : Station} (h : s.slots[i].ownedBy p = true) :
    1 ≤ s.slotsOf p :=
  List.countP_pos_iff.2 ⟨s.slots[i], by simp, h⟩

theorem ownedBy_eq_of_lease {sl : Slot} {l : Lease} (h : sl.lease = some l) (p : Station) :
    sl.ownedBy p = (l.station == p) := by
  unfold Slot.ownedBy
  rw [h]
  rfl

theorem ownedBy_of_no_lease {sl : Slot} (h : sl.lease = none) (p : Station) : sl.ownedBy p = false := by
  unfold Slot.ownedBy
  rw [h]
  rfl

theorem ownedBy_congr {sl sl' : Slot} (h : sl'.lease.map Lease.station = sl.lease.map Lease.station) (p : Station) :
    sl'.ownedBy p = sl.ownedBy p := by
  unfold Slot.ownedBy
  rw [h]

theorem slotsOf_updVec_same {s t : State} {i : SlotIndex} {f : Slot → Slot} (h : t.slots = updVec s.slots i f)
    (hf : (f s.slots[i]).lease.map Lease.station = s.slots[i].lease.map Lease.station) (p : Station) :
    t.slotsOf p = s.slotsOf p := by
  rw [slotsOf_updVec h, ownedBy_congr hf]
  split
  · rename_i howned
    exact Nat.sub_add_cancel (slotsOf_pos_of_owned howned)
  · rfl

/-! ### Changes the pool's soundness does not see -/

theorem State.PoolSound.congr {s t : State} (h : s.PoolSound) (hs : t.slots = s.slots)
    (hc : ∀ p : Station, t.sessions[p].leaseCount = s.sessions[p].leaseCount) : t.PoolSound := by
  refine ⟨fun i => by rw [hs]; exact h.1 i, fun p => ?_⟩
  rw [hc, h.2 p]
  unfold State.slotsOf
  rw [hs]

theorem State.PoolSound.of_same {s t : State} (h : s.PoolSound) (hs : t.slots = s.slots)
    (hc : t.sessions = s.sessions) : t.PoolSound := h.congr hs fun p => by rw [hc]

/-- A change of a session record that spares the lease count. -/
theorem leaseCount_updVec (v : Vector Session 4) (p q : Station) {f : Session → Session}
    (hf : ∀ r, (f r).leaseCount = r.leaseCount) : (updVec v p f)[q].leaseCount = v[q].leaseCount := by
  rw [updVec_get]
  split
  · exact hf _
  · rfl

/-! ### Changes of one slot -/

/-- A slot that keeps its owner and takes a shape its state allows. -/
theorem State.PoolSound.of_updVec {s t : State} (h : s.PoolSound) {i : SlotIndex} {f : Slot → Slot}
    (hs : t.slots = updVec s.slots i f) (hc : t.sessions = s.sessions) (hshape : (f s.slots[i]).shaped)
    (howner : (f s.slots[i]).lease.map Lease.station = s.slots[i].lease.map Lease.station) : t.PoolSound := by
  refine ⟨fun j => ?_, fun p => ?_⟩
  · rw [hs, updVec_get]
    split
    · rename_i hj; rw [hj]; exact hshape
    · exact h.1 j
  · rw [hc, h.2 p, slotsOf_updVec_same hs howner]

/-- A slot becomes FREE, and its owner's lease count is one less (R19). -/
theorem poolSound_freeSlot {s : State} (h : s.PoolSound) (i : SlotIndex) : (s.freeSlot i).PoolSound := by
  have hslots : (s.freeSlot i).slots = updVec s.slots i Slot.freed := dispose_slots s i .free
  have hshapes : ∀ j : SlotIndex, (s.freeSlot i).slots[j].shaped := fun j => by
    rw [hslots, updVec_get]
    split
    · exact Slot.shaped_freed _
    · exact h.1 j
  refine ⟨hshapes, fun p => ?_⟩
  rw [slotsOf_updVec hslots, ownedBy_of_no_lease (sl := s.slots[i].freed) rfl]
  cases hl : s.slots[i].lease with
  | none =>
    rw [ownedBy_of_no_lease hl, show (s.freeSlot i).sessions = s.sessions by unfold State.freeSlot; rw [hl]; rfl, h.2 p]
    rfl
  | some l =>
    rw [freeSlot_sessions s hl, updVec_get, ownedBy_eq_of_lease hl, ← h.2 p]
    by_cases hp : p = l.station
    · subst hp
      simp
    · simp [hp, Ne.symm hp]

/-- A FREE slot takes a lease, and the lease count of its station is one more (R9). -/
theorem poolSound_occupy {s : State} (h : s.PoolSound) {i : SlotIndex} (hfree : s.slots[i].state = .free) (l : Lease)
    {st : SlotState} (hst : st = .held ∨ st = .waiting) : (s.occupy i st l).PoolSound := by
  have hslots : (s.occupy i st l).slots = updVec s.slots i fun sl =>
      { sl with state := st, lease := some l, extension := none, notice := none } := rfl
  have hsessions : (s.occupy i st l).sessions = updVec s.sessions l.station fun r =>
      { r with leaseCount := r.leaseCount + 1 } := rfl
  refine ⟨fun j => ?_, fun p => ?_⟩
  · rw [hslots, updVec_get]
    split
    · rcases hst with rfl | rfl
      · exact rfl
      · exact ⟨rfl, rfl, rfl⟩
    · exact h.1 j
  · rw [slotsOf_updVec hslots, ownedBy_of_no_lease ((h.1 i).of_free hfree).1, ownedBy_eq_of_lease (l := l) rfl,
      hsessions, updVec_get, ← h.2 p]
    by_cases hp : p = l.station
    · subst hp
      simp
    · simp [hp, Ne.symm hp]

/-! ### Grants and removals -/

/-- The grant policy is one grant after another: what holds of the state with the waiters still to be looked at, and is
kept by passing one over and by each grant the policy makes, holds in the end. -/
theorem regrantOver_keeps {k : Word} {P : List SlotIndex → State → Prop}
    (pass : ∀ i ws s, P (i :: ws) s → P ws s)
    (grant : ∀ i ws s l e, P (i :: ws) s → s.slots[i].lease = some l → entryOf s.directory k = some e →
      s.compatible e l.mode = true → P ws (s.grantWaiter k i l)) :
    ∀ ws s, P ws s → ∃ rest, P rest (regrantOver k ws s) := by
  intro ws
  induction ws with
  | nil => exact fun s h => ⟨[], h⟩
  | cons i ws ih =>
    intro s h
    rw [regrantOver]
    split
    · exact ih s (pass i ws s h)
    · split
      case h_1 l e hlease hentry =>
        split
        · rename_i hcompatible
          have hgranted := grant i ws s l e h hlease hentry hcompatible
          split
          · exact ⟨ws, hgranted⟩
          · exact ih _ hgranted
        · exact ⟨i :: ws, h⟩
      case h_2 => exact ⟨i :: ws, h⟩

/-- What every grant to a slot with a lease keeps, a regrant keeps. -/
theorem regrant_keeps {P : State → Prop} (grant : ∀ s k i l, P s → s.slots[i].lease = some l → P (s.grantWaiter k i l))
    {s : State} (h : P s) (k : Word) : P (s.regrant k) := by
  unfold State.regrant
  split
  · exact h
  · rename_i e _
    obtain ⟨_, hend⟩ := regrantOver_keeps (k := k) (P := fun _ u => P u) (fun _ _ _ hu => hu)
      (fun i _ u l _ hu hl _ _ => grant u k i l hu hl) e.queue s h
    exact hend

theorem poolSound_grantWaiter {s : State} (h : s.PoolSound) (k : Word) {i : SlotIndex} {l : Lease}
    (hl : s.slots[i].lease = some l) : (s.grantWaiter k i l).PoolSound :=
  h.of_updVec (grantWaiter_slots s k i l) (grantWaiter_sessions s k i l) (Option.isSome_of_eq_some hl) rfl

theorem poolSound_regrant {s : State} (h : s.PoolSound) (k : Word) : (s.regrant k).PoolSound :=
  regrant_keeps (fun _ k _ _ hu hl => poolSound_grantWaiter hu k hl) h k

theorem poolSound_settleEntry {s : State} (h : s.PoolSound) (k : Word) : (s.settleEntry k).PoolSound :=
  h.of_same (settleEntry_slots s k) (settleEntry_sessions s k)

/-- A slot becomes ENDED with a notice R20 allows, its lease kept. -/
theorem poolSound_endSlot {s : State} (h : s.PoolSound) {i : SlotIndex} {kind : NoticeKind}
    (hl : s.slots[i].lease.isSome = true) (hk : kind = .timedOut ∨ kind = .revoked ∨ kind = .swept) :
    (s.endSlot i kind).PoolSound := by
  refine h.of_updVec (dispose_slots s i (.ended kind)) (endSlot_sessions s i kind) ⟨hl, rfl, ?_⟩ rfl
  rcases hk with rfl | rfl | rfl
  · exact .inl rfl
  · exact .inr (.inl rfl)
  · exact .inr (.inr rfl)

/-- A removal keeps the pool if its FREE or ENDED step does. -/
theorem poolSound_removeSlot {s : State} (h : s.PoolSound) {i : SlotIndex} {d : Disposal}
    (hd : ∀ u : State, u.PoolSound → u.slots = s.slots → (u.dispose i d).PoolSound) : (s.removeSlot i d).PoolSound := by
  unfold State.removeSlot
  split
  · rename_i l _ _
    have hvacated := h.of_same (vacate_slots s i l.key) (vacate_sessions s i l.key)
    exact poolSound_settleEntry (poolSound_regrant (hd _ hvacated (vacate_slots s i l.key)) _) _
  · exact hd s h rfl

/-! ### Every move -/

theorem poolSound_hardwareReset {s t : State} (h : execHardwareReset s = .next t) : t.PoolSound := by
  have hslots : t.slots = Vector.replicate 256 .reset := by cases h; rfl
  have hsessions : t.sessions = Vector.replicate 4 .reset := by cases h; rfl
  refine ⟨fun i => ?_, fun p => ?_⟩
  · rw [hslots, Fin.getElem_fin, Vector.getElem_replicate]
    exact ⟨rfl, rfl, rfl⟩
  · unfold State.slotsOf
    rw [hslots, hsessions, Fin.getElem_fin, Vector.getElem_replicate, Vector.toList_replicate,
      List.countP_replicate]
    rfl

/-- Every move keeps the pool. -/
theorem poolSound_move {s t : State} (h : s.PoolSound) (hm : Move s t) : t.PoolSound := by
  have hcounter : ∀ i f, (s.modifyCounter i f).PoolSound := fun i f => h.of_same rfl rfl
  cases hm
  case aside same => exact h.of_same same.slots same.sessions
  case reset hreset => exact poolSound_hardwareReset hreset
  case tick | leaseRunout | dropClaim | livenessRunout | dropLapse | reload | enterRange | advance | stationDone |
      rangeDone | limits => exact h.of_same rfl rfl
  case beginSession p term grace _ =>
    refine h.congr (beginSession_slots s p term grace) fun q => ?_
    rw [beginSession_sessions]
    exact leaseCount_updVec _ _ _ fun _ => rfl
  case endSession p cause _ => exact h.congr rfl fun q => leaseCount_updVec _ p q fun _ => rfl
  case detached p cause _ => exact h.congr rfl fun q => leaseCount_updVec _ p q fun _ => rfl
  case grantNow i l hadmits _ => exact (poolSound_occupy h hadmits.free l (.inl rfl)).of_same rfl rfl
  case queueUp i l hadmits _ =>
    refine (poolSound_occupy h hadmits.free l (.inr rfl)).of_same ?_ ?_ <;>
      (unfold State.queueUp; dsimp only; split <;> rfl)
  case renew i l term _ hlease =>
    exact h.of_updVec (f := fun sl => { sl with state := .held, extension := none, lease := some { l with term := _ } })
      rfl rfl rfl (by rw [hlease]; rfl)
  case setExtension i term hheld =>
    refine h.of_updVec (f := fun sl => { sl with extension := if term = 0 then none else some term }) rfl rfl ?_ rfl
    have hlease := (h.1 i).lease_isSome (by rw [hheld]; nofun)
    unfold Slot.shaped
    dsimp only
    rw [hheld]
    exact hlease
  case stepDown i l hheld hlease _ =>
    refine poolSound_regrant (s := (s.modifySlot i _).editEntry l.key _)
      (.of_same ?_ (editEntry_slots _ _ _) (editEntry_sessions _ _ _)) _
    refine h.of_updVec (modifySlot_slots _ _ _) rfl ?_ (by rw [hlease]; rfl)
    unfold Slot.shaped
    dsimp only
    rw [hheld]
    rfl
  case stepUp i l hheld hlease _ =>
    refine .of_same (s := s.modifySlot i _) ?_ (editEntry_slots _ _ _) (editEntry_sessions _ _ _)
    refine h.of_updVec (modifySlot_slots _ _ _) rfl ?_ (by rw [hlease]; rfl)
    unfold Slot.shaped
    dsimp only
    rw [hheld]
    rfl
  case applyExtension i x f hheld =>
    refine h.of_updVec (f := fun sl => { sl with extension := none, notice := some .extended }) rfl rfl ?_ rfl
    have hlease := (h.1 i).lease_isSome (by rw [hheld]; nofun)
    unfold Slot.shaped
    dsimp only
    rw [hheld]
    exact hlease
  case lapseInto i g f hheld hext =>
    exact h.of_updVec (f := fun sl => { sl with state := .grace, notice := some .lapsed }) rfl rfl
      ⟨(h.1 i).lease_isSome (by rw [hheld]; nofun), hext⟩ rfl
  case removeFree i _ => exact poolSound_removeSlot h fun u hu _ => poolSound_freeSlot hu i
  case removeEnded i kind f hlive hends =>
    refine poolSound_removeSlot (hcounter i f) fun u hu hslots => poolSound_endSlot hu ?_ hends
    rw [hslots]
    exact (h.1 i).lease_isSome fun hfree => by rw [hfree] at hlive; cases hlive
  case dropNotice i hunended =>
    exact h.of_updVec (modifySlot_slots _ _ _) rfl ((h.1 i).without_notice hunended) rfl
  case regrant k => exact poolSound_settleEntry (poolSound_regrant h k) k

/-- Settles O56: a step is a chain of moves, and each keeps the pool. -/
theorem everyStepKeepsThePool : Obligations.EveryStepKeepsThePool :=
  fun _ _ h hstep => (step_moves hstep).keeps (fun _ _ => poolSound_move) h

end Sys2Proof.Machine
end

section
/-! PROOFS. The counter bank agrees with the slots in every move (R71, R73). -/

namespace Sys2Proof.Machine

/-! ### One counter and its slot -/

/-- A slot is timed for one phase at most (R73). -/
theorem Slot.timedFor.unique {sl : Slot} {a b : Phase} (ha : sl.timedFor a) (hb : sl.timedFor b) : a = b := by
  have hstate : ∀ {ph : Phase}, sl.timedFor ph → sl.state = ph.state := fun {ph} h => by
    cases ph with
    | term => exact h
    | grace => exact h
    | wait => exact h.1
  have hinj : ∀ a b : Phase, a.state = b.state → a = b := by
    intro a b
    cases a <;> cases b <;> simp [Phase.state]
  exact hinj a b ((hstate ha).symm.trans (hstate hb))

/-- What times a slot is its state, and its wait limit if it is WAITING. -/
theorem Slot.timedFor_congr {sl sl' : Slot} (hs : sl'.state = sl.state)
    (hl : sl'.lease.map Lease.waitLimit = sl.lease.map Lease.waitLimit) (ph : Phase) :
    sl'.timedFor ph ↔ sl.timedFor ph := by
  cases ph with
  | term => unfold Slot.timedFor; dsimp only; rw [hs]
  | grace => unfold Slot.timedFor; dsimp only; rw [hs]
  | wait =>
    have hlimit : ∀ x : Slot, (∃ l, x.lease = some l ∧ l.waitLimit ≠ 0) ↔
        ∃ w, x.lease.map Lease.waitLimit = some w ∧ w ≠ 0 := fun x => by cases x.lease <;> simp
    unfold Slot.timedFor
    dsimp only
    rw [hs, hlimit, hlimit, hl]

/-- A slot that is FREE or ENDED is not timed. -/
theorem Slot.not_timedFor_of_notLive {sl : Slot} (h : sl.state.isLive = false) (ph : Phase) : ¬ sl.timedFor ph := by
  intro ht
  cases ph with
  | term => rw [show sl.state = .held from ht] at h; cases h
  | grace => rw [show sl.state = .grace from ht] at h; cases h
  | wait => rw [ht.1] at h; cases h

theorem CounterSound.congr {c : LeaseCounter} {sl sl' : Slot} (h : CounterSound c sl)
    (hg : sl'.generation = sl.generation) (ht : ∀ ph, sl'.timedFor ph ↔ sl.timedFor ph) : CounterSound c sl' := by
  refine ⟨h.stopped, fun hr => ?_, fun ph hph => ?_⟩
  · rw [hg, ht]; exact h.runs hr
  · rw [hg]; exact h.timed ph ((ht ph).1 hph)

/-- A counter loaded for a phase its slot is timed for. -/
theorem counterSound_loaded {c : LeaseCounter} {sl : Slot} (hr : c.running = true) (hg : c.generation = sl.generation)
    (ht : sl.timedFor c.phase) : CounterSound c sl :=
  ⟨fun h => (by rw [hr] at h; cases h), fun _ => ⟨hg, ht⟩, fun _ _ => .inl hr⟩

/-- A counter stopped at 0 whose slot is not timed. -/
theorem counterSound_stopped {c : LeaseCounter} {sl : Slot} (hr : c.running = false) (hv : c.value = 0)
    (ht : ∀ ph, ¬ sl.timedFor ph) : CounterSound c sl :=
  ⟨fun _ => hv, fun h => (by rw [hr] at h; cases h), fun ph hph => absurd hph (ht ph)⟩

theorem CounterSound.ticked {c : LeaseCounter} {sl : Slot} (h : CounterSound c sl) : CounterSound c.ticked sl := by
  unfold LeaseCounter.ticked
  split
  · rename_i hruns
    exact counterSound_loaded hruns.1 (h.runs hruns.1).1 (h.runs hruns.1).2
  · exact h

/-- A run-out leaves the claim of the slot's generation and phase outstanding (R72). -/
theorem CounterSound.runout {c : LeaseCounter} {sl : Slot} (h : CounterSound c sl)
    (hdue : c.running = true ∧ c.value = 0) :
    CounterSound { c with running := false, claim := some { generation := c.generation, phase := c.phase } } sl := by
  obtain ⟨hg, ht⟩ := h.runs hdue.1
  exact ⟨fun _ => hdue.2, nofun, fun ph hph => .inr ⟨hdue.2, by rw [hg, ht.unique hph]⟩⟩

/-- A claim that fails its test is not the one a stopped counter of a timed slot has outstanding (R76). -/
theorem counterSound_dropClaim {s : State} {i : SlotIndex} (h : CounterSound s.leaseCounters[i] s.slots[i])
    {c : ExpiryClaim} (hc : s.leaseCounters[i].claim = some c) (hfails : s.claimPasses i c = false) :
    CounterSound { s.leaseCounters[i] with claim := none } s.slots[i] := by
  refine ⟨h.stopped, h.runs, fun ph hph => ?_⟩
  rcases h.timed ph hph with hruns | ⟨hvalue, hclaim⟩
  · exact .inl hruns
  · have hstate : s.slots[i].state = ph.state := by
      cases ph with
      | term => exact hph
      | grace => exact hph
      | wait => exact hph.1
    rw [hc] at hclaim
    cases hclaim
    rw [(claimPasses_iff s i _).2 ⟨rfl, hstate, hvalue⟩] at hfails
    cases hfails

/-! ### The bank -/

/-- Every counter but that of slot `i` agrees with its slot. -/
def State.CountersSoundBut (s : State) (i : SlotIndex) : Prop :=
  ∀ j : SlotIndex, j ≠ i → CounterSound s.leaseCounters[j] s.slots[j]

theorem State.CountersSound.but {s : State} (h : s.CountersSound) (i : SlotIndex) : s.CountersSoundBut i :=
  fun j _ => h j

theorem State.CountersSound.of_same {s t : State} (h : s.CountersSound) (hc : t.leaseCounters = s.leaseCounters)
    (hs : t.slots = s.slots) : t.CountersSound := fun i => by rw [hc, hs]; exact h i

theorem State.CountersSoundBut.of_same {s t : State} {i : SlotIndex} (h : s.CountersSoundBut i)
    (hc : t.leaseCounters = s.leaseCounters) (hs : t.slots = s.slots) : t.CountersSoundBut i :=
  fun j hj => by rw [hc, hs]; exact h j hj

/-- A move of one slot and its counter that leaves the two in agreement. -/
theorem State.CountersSoundBut.of_move {s t : State} {i : SlotIndex} (h : s.CountersSoundBut i)
    (hothers : ∀ j, j ≠ i → Untouched j s t) (hself : CounterSound t.leaseCounters[i] t.slots[i]) :
    t.CountersSound := fun j => by
  by_cases hj : j = i
  · rw [hj]; exact hself
  · rw [(hothers j hj).1, (hothers j hj).2]; exact h j hj

/-- Changes of one slot and of its counter touch no other. -/
theorem untouched_of_updVec {s t : State} {i : SlotIndex} {f : Slot → Slot} {g : LeaseCounter → LeaseCounter}
    (hs : t.slots = updVec s.slots i f) (hc : t.leaseCounters = updVec s.leaseCounters i g) :
    ∀ j, j ≠ i → Untouched j s t :=
  fun j hj => ⟨by rw [hs, updVec_get_ne _ hj], by rw [hc, updVec_get_ne _ hj]⟩

/-- A change of one slot that leaves its generation and what times it. -/
theorem countersSound_modifySlot {s : State} (h : s.CountersSound) (i : SlotIndex) {f : Slot → Slot}
    (hg : (f s.slots[i]).generation = s.slots[i].generation)
    (ht : ∀ ph, (f s.slots[i]).timedFor ph ↔ s.slots[i].timedFor ph) : (s.modifySlot i f).CountersSound := by
  refine (h.but i).of_move (t := s.modifySlot i f)
    (fun j hj => ⟨by rw [modifySlot_slots, updVec_get_ne _ hj], rfl⟩) ?_
  rw [modifySlot_slots, modifySlot_leaseCounters, updVec_get_self]
  exact (h i).congr hg ht

/-- A change of one counter that agrees with its slot. -/
theorem countersSound_modifyCounter {s : State} (h : s.CountersSound) (i : SlotIndex)
    {f : LeaseCounter → LeaseCounter} (hself : CounterSound (f s.leaseCounters[i]) s.slots[i]) :
    (s.modifyCounter i f).CountersSound := by
  refine (h.but i).of_move (t := s.modifyCounter i f)
    (fun j hj => ⟨rfl, by rw [modifyCounter_leaseCounters, updVec_get_ne _ hj]⟩) ?_
  rw [modifyCounter_leaseCounters, modifyCounter_slots, updVec_get_self]
  exact hself

theorem countersSoundBut_modifyCounter {s : State} (h : s.CountersSound) (i : SlotIndex)
    (f : LeaseCounter → LeaseCounter) : (s.modifyCounter i f).CountersSoundBut i := fun j hj => by
  rw [modifyCounter_leaseCounters, modifyCounter_slots, updVec_get_ne _ hj]
  exact h j

/-- A slot moved and its counter loaded with the slot's generation for a phase the moved slot is timed for (R73). -/
theorem State.CountersSoundBut.of_load {s t : State} {i : SlotIndex} (h : s.CountersSoundBut i) {f : Slot → Slot}
    {v : Word} {ph : Phase} (hs : t.slots = updVec s.slots i f)
    (hc : t.leaseCounters = updVec s.leaseCounters i fun c =>
      { c with value := v, running := true, generation := (f s.slots[i]).generation, phase := ph })
    (ht : (f s.slots[i]).timedFor ph) : t.CountersSound := by
  refine h.of_move (untouched_of_updVec hs hc) ?_
  rw [hs, hc, updVec_get_self, updVec_get_self]
  exact counterSound_loaded rfl rfl ht

/-- A slot moved and its counter stopped, the moved slot not being timed (R73). -/
theorem State.CountersSoundBut.of_stop {s t : State} {i : SlotIndex} (h : s.CountersSoundBut i) {f : Slot → Slot}
    (hs : t.slots = updVec s.slots i f)
    (hc : t.leaseCounters = updVec s.leaseCounters i fun c => { c with value := 0, running := false })
    (ht : ∀ ph, ¬ (f s.slots[i]).timedFor ph) : t.CountersSound := by
  refine h.of_move (untouched_of_updVec hs hc) ?_
  rw [hs, hc, updVec_get_self, updVec_get_self]
  exact counterSound_stopped rfl rfl ht

/-- The counter loaded after a change of its slot. -/
theorem modifySlot_loadCounter_leaseCounters (s : State) (i : SlotIndex) (f : Slot → Slot) (v : Word) (ph : Phase) :
    ((s.modifySlot i f).loadCounter i v ph).leaseCounters = updVec s.leaseCounters i fun c =>
      { c with value := v, running := true, generation := (f s.slots[i]).generation, phase := ph } := by
  unfold State.loadCounter
  rw [modifyCounter_leaseCounters, modifySlot_leaseCounters, modifySlot_slots, updVec_get_self]

/-! ### Grants and removals -/

theorem countersSound_grantWaiter {s : State} (h : s.CountersSound) (k : Word) (i : SlotIndex) (l : Lease) :
    (s.grantWaiter k i l).CountersSound :=
  (h.but i).of_load (grantWaiter_slots s k i l) (grantWaiter_leaseCounters s k i l) rfl

theorem countersSound_regrant {s : State} (h : s.CountersSound) (k : Word) : (s.regrant k).CountersSound :=
  regrant_keeps (P := State.CountersSound) (fun _ k i l hu _ => countersSound_grantWaiter hu k i l) h k

theorem countersSound_settleEntry {s : State} (h : s.CountersSound) (k : Word) : (s.settleEntry k).CountersSound :=
  h.of_same (settleEntry_leaseCounters s k) (settleEntry_slots s k)

theorem State.CountersSoundBut.dispose {s : State} {i : SlotIndex} (h : s.CountersSoundBut i) (d : Disposal) :
    (s.dispose i d).CountersSound := by
  refine h.of_stop (dispose_slots s i d) (dispose_leaseCounters s i d) (Slot.not_timedFor_of_notLive ?_)
  cases d <;> rfl

theorem State.CountersSoundBut.removeSlot {s : State} {i : SlotIndex} (h : s.CountersSoundBut i) (d : Disposal) :
    (s.removeSlot i d).CountersSound := by
  unfold State.removeSlot
  split
  · rename_i l _ _
    have hvacated := h.of_same (vacate_leaseCounters s i l.key) (vacate_slots s i l.key)
    exact countersSound_settleEntry (countersSound_regrant (hvacated.dispose d) _) _
  · exact h.dispose d

/-! ### Every move -/

theorem countersSound_hardwareReset {s t : State} (h : execHardwareReset s = .next t) : t.CountersSound := by
  have hslots : t.slots = Vector.replicate 256 .reset := by cases h; rfl
  have hcounters : t.leaseCounters = Vector.replicate 256 .reset := by cases h; rfl
  intro i
  rw [hslots, hcounters, Fin.getElem_fin, Fin.getElem_fin, Vector.getElem_replicate, Vector.getElem_replicate]
  exact counterSound_stopped rfl rfl (Slot.not_timedFor_of_notLive rfl)

/-- A WAITING slot without a wait limit is not timed (R73). -/
theorem not_timedFor_waiting {sl : Slot} {l : Lease} (hs : sl.state = .waiting) (hl : sl.lease = some l)
    (hw : l.waitLimit = 0) (ph : Phase) : ¬ sl.timedFor ph := by
  intro ht
  cases ph with
  | term => exact absurd (hs.symm.trans ht) nofun
  | grace => exact absurd (hs.symm.trans ht) nofun
  | wait =>
    obtain ⟨_, l', hl', hlimit⟩ := ht
    rw [hl] at hl'
    cases hl'
    exact hlimit hw

theorem countersSound_queueUp {s : State} (h : s.CountersSound) (i : SlotIndex) (l : Lease) :
    (s.queueUp i l).CountersSound := by
  unfold State.queueUp
  dsimp only
  by_cases hw : l.waitLimit = 0
  · rw [if_pos hw]
    exact (h.but i).of_stop
      (f := fun sl => { sl with state := .waiting, lease := some l, extension := none, notice := none }) rfl rfl
      (not_timedFor_waiting rfl rfl hw)
  · rw [if_neg hw]
    refine (h.but i).of_load
      (f := fun sl => { sl with state := .waiting, lease := some l, extension := none, notice := none }) rfl
      (modifySlot_loadCounter_leaseCounters s i _ l.waitLimit .wait) ⟨rfl, l, rfl, hw⟩

/-- Every move keeps the counter bank. -/
theorem countersSound_move {s t : State} (h : s.CountersSound) (hm : Move s t) : t.CountersSound := by
  cases hm
  case aside same => exact h.of_same same.leaseCounters same.slots
  case reset hreset => exact countersSound_hardwareReset hreset
  case tick =>
    intro i
    show CounterSound (mapVec s.leaseCounters LeaseCounter.ticked)[i] s.slots[i]
    rw [mapVec_get]
    exact (h i).ticked
  case leaseRunout i hdue => exact countersSound_modifyCounter h i ((h i).runout hdue)
  case dropClaim i c hc hfails => exact countersSound_modifyCounter h i (counterSound_dropClaim (h i) hc hfails)
  case livenessRunout | dropLapse | reload | endSession | detached | enterRange | advance | stationDone | rangeDone |
      limits => exact h.of_same rfl rfl
  case beginSession p term grace _ =>
    refine h.of_same ?_ (beginSession_slots s p term grace)
    unfold State.beginSession; dsimp only; split <;> rfl
  case grantNow i l _ _ =>
    exact (h.but i).of_load
      (f := fun sl => { sl with state := .held, lease := some l, extension := none, notice := none }) rfl
      (modifySlot_loadCounter_leaseCounters s i _ l.term .term) rfl
  case queueUp i l _ _ => exact countersSound_queueUp h i l
  case renew i l term _ _ =>
    exact (h.but i).of_load
      (f := fun sl => { sl with state := .held, extension := none, lease := some { l with term := _ } }) rfl
      (modifySlot_loadCounter_leaseCounters s i _ _ .term) rfl
  case setExtension i term _ => exact countersSound_modifySlot h i rfl (Slot.timedFor_congr rfl rfl)
  case stepDown i l _ hlease _ =>
    refine countersSound_regrant (s := (s.modifySlot i _).editEntry l.key _)
      (.of_same ?_ (editEntry_leaseCounters _ _ _) (editEntry_slots _ _ _)) _
    exact countersSound_modifySlot h i rfl (Slot.timedFor_congr rfl (by rw [hlease]; rfl))
  case stepUp i l _ hlease _ =>
    refine .of_same (s := s.modifySlot i _) ?_ (editEntry_leaseCounters _ _ _) (editEntry_slots _ _ _)
    exact countersSound_modifySlot h i rfl (Slot.timedFor_congr rfl (by rw [hlease]; rfl))
  case applyExtension i x f hheld =>
    exact (countersSoundBut_modifyCounter h i f).of_load
      (f := fun sl => { sl with extension := none, notice := some .extended }) rfl
      (modifySlot_loadCounter_leaseCounters _ i _ x .term) hheld
  case lapseInto i g f _ _ =>
    exact (countersSoundBut_modifyCounter h i f).of_load
      (f := fun sl => { sl with state := .grace, notice := some .lapsed }) rfl
      (modifySlot_loadCounter_leaseCounters _ i _ _ .grace) rfl
  case removeFree i _ => exact (h.but i).removeSlot .free
  case removeEnded i kind f _ _ => exact (countersSoundBut_modifyCounter h i f).removeSlot _
  case dropNotice i _ => exact countersSound_modifySlot h i rfl (Slot.timedFor_congr rfl rfl)
  case regrant k => exact countersSound_settleEntry (countersSound_regrant h k) k

/-- Settles O57: a step is a chain of moves, and each keeps every counter in agreement with its slot. -/
theorem everyStepKeepsTheCounters : Obligations.EveryStepKeepsTheCounters :=
  fun _ _ h hstep => (step_moves hstep).keeps (fun _ _ => countersSound_move) h

end Sys2Proof.Machine
end

section
/-! PROOFS. The Sweep Queue, the sessions and the liveness counters agree in every move (R74, R90, R98, R106, R109,
R119, R123). -/

namespace Sys2Proof.Machine

/-! ### The orders of a station -/

theorem stationOrders_append (q r : List Order) (p : Station) :
    stationOrders (q ++ r) p = stationOrders q p ++ stationOrders r p := List.filter_append ..

theorem stationOrders_cons_self (p : Station) (cause : SweepCause) (q : List Order) :
    stationOrders (.station p cause :: q) p = .station p cause :: stationOrders q p :=
  List.filter_cons_of_pos (beq_self_eq_true p)

theorem stationOrders_cons_ne {p r : Station} (h : r ≠ p) (cause : SweepCause) (q : List Order) :
    stationOrders (.station r cause :: q) p = stationOrders q p :=
  List.filter_cons_of_neg (fun he => h (beq_iff_eq.1 he))

theorem stationOrders_cons_range (r : RangeOrder) (q : List Order) (p : Station) :
    stationOrders (.range r :: q) p = stationOrders q p := List.filter_cons_of_neg Bool.false_ne_true

theorem rangeOrders_cons_station (p : Station) (cause : SweepCause) (q : List Order) :
    rangeOrders (.station p cause :: q) = rangeOrders q := List.filter_cons_of_neg Bool.false_ne_true

theorem rangeOrders_cons_range (r : RangeOrder) (q : List Order) :
    rangeOrders (.range r :: q) = .range r :: rangeOrders q := List.filter_cons_of_pos rfl

/-- The range orders, counted (R109). -/
theorem rangeOrders_length (q : List Order) : (rangeOrders q).length = q.countP Order.isRange := by
  rw [List.countP_eq_length_filter]
  refine congrArg List.length (List.filter_congr fun o _ => ?_)
  cases o <;> rfl

/-! ### A session's sweep -/

/-- A session that is not SWEEPING has no cause, no order and no completion. -/
theorem State.SweepOf.of_not_sweeping {s : State} {p : Station} (h : s.SweepOf p)
    (hs : s.sessions[p].state ≠ .sweeping) :
    s.sessions[p].cause = none ∧ stationOrders s.sweepQueue p = [] ∧ s.sessionCompletions[p] = none := by
  unfold State.SweepOf at h
  split at h
  case h_1 hstate _ => exact absurd hstate hs
  case h_2 hstate _ => exact absurd hstate hs
  case h_3 => exact h.elim
  case h_4 hcause _ => exact ⟨hcause, h⟩

/-- A SWEEPING session has a cause, and with it its order or its completion. -/
theorem State.SweepOf.of_sweeping {s : State} {p : Station} (h : s.SweepOf p) (hs : s.sessions[p].state = .sweeping) :
    ∃ c, s.sessions[p].cause = some c ∧
      ((stationOrders s.sweepQueue p = [.station p c] ∧ s.sessionCompletions[p] = none) ∨
        (stationOrders s.sweepQueue p = [] ∧ s.sessionCompletions[p] = some c)) := by
  unfold State.SweepOf at h
  split at h
  case h_1 c _ hcause => exact ⟨c, hcause, h⟩
  case h_2 => exact h.elim
  case h_3 => exact h.elim
  case h_4 _ hother => exact absurd hs hother

theorem sweepOf_of_sweeping {s : State} {p : Station} {c : SweepCause} (hs : s.sessions[p].state = .sweeping)
    (hc : s.sessions[p].cause = some c)
    (h : (stationOrders s.sweepQueue p = [.station p c] ∧ s.sessionCompletions[p] = none) ∨
      (stationOrders s.sweepQueue p = [] ∧ s.sessionCompletions[p] = some c)) : s.SweepOf p := by
  unfold State.SweepOf
  rw [hs, hc]
  exact h

theorem sweepOf_of_not_sweeping {s : State} {p : Station} (hs : s.sessions[p].state ≠ .sweeping)
    (hc : s.sessions[p].cause = none) (hq : stationOrders s.sweepQueue p = []) (hd : s.sessionCompletions[p] = none) :
    s.SweepOf p := by
  unfold State.SweepOf
  rw [hc]
  cases hstate : s.sessions[p].state with
  | sweeping => exact absurd hstate hs
  | detached => exact ⟨hq, hd⟩
  | attached => exact ⟨hq, hd⟩

/-- What a session's sweep is read from. -/
theorem State.SweepOf.congr {s t : State} {p : Station} (h : s.SweepOf p)
    (hstate : t.sessions[p].state = s.sessions[p].state) (hcause : t.sessions[p].cause = s.sessions[p].cause)
    (hq : stationOrders t.sweepQueue p = stationOrders s.sweepQueue p)
    (hd : t.sessionCompletions[p] = s.sessionCompletions[p]) : t.SweepOf p := by
  unfold State.SweepOf at h ⊢
  rw [hstate, hcause, hq, hd]
  exact h

/-- A station with an order in the queue is SWEEPING, with that order's cause, and its completion is not on its way. -/
theorem State.SweepOf.of_head {s : State} {p : Station} {cause : SweepCause} {rest : List Order} (h : s.SweepOf p)
    (hq : s.sweepQueue = .station p cause :: rest) :
    s.sessions[p].state = .sweeping ∧ s.sessions[p].cause = some cause ∧ stationOrders rest p = [] ∧
      s.sessionCompletions[p] = none := by
  have hsweeping : s.sessions[p].state = .sweeping := by
    by_contra hs
    have horders := (h.of_not_sweeping hs).2.1
    rw [hq, stationOrders_cons_self] at horders
    cases horders
  obtain ⟨c, hcause, ⟨horders, hnone⟩ | ⟨horders, _⟩⟩ := h.of_sweeping hsweeping
  · rw [hq, stationOrders_cons_self, List.cons.injEq, Order.station.injEq] at horders
    obtain ⟨⟨-, rfl⟩, hrest⟩ := horders
    exact ⟨hsweeping, hcause, hrest, hnone⟩
  · rw [hq, stationOrders_cons_self] at horders
    cases horders

/-! ### A session and its liveness counter (R74, R90) -/

theorem SessionSound.of_detached {r : Session} {c : LivenessCounter} (h : SessionSound r c) (hs : r.state = .detached) :
    r.livenessTerm = 0 ∧ r.grace = 0 ∧ r.leaseCount = 0 ∧ r.cause = none ∧ c.running = false ∧ c.value = 0 := by
  unfold SessionSound at h
  rwa [hs] at h

theorem SessionSound.of_attached {r : Session} {c : LivenessCounter} (h : SessionSound r c) (hs : r.state = .attached) :
    r.epoch ≠ 0 ∧ r.cause = none ∧ (c.running = false → c.value = 0) ∧
      (r.livenessTerm = 0 → c.running = false) ∧ (r.livenessTerm ≠ 0 → c.running = true ∨ c.claim = true) := by
  unfold SessionSound at h
  rwa [hs] at h

theorem SessionSound.of_sweeping {r : Session} {c : LivenessCounter} (h : SessionSound r c) (hs : r.state = .sweeping) :
    r.epoch ≠ 0 ∧ r.cause.isSome ∧ c.running = false ∧ c.value = 0 := by
  unfold SessionSound at h
  rwa [hs] at h

/-- A lease count may change while the session is not DETACHED. -/
theorem SessionSound.of_leaseCount {r r' : Session} {c : LivenessCounter} (h : SessionSound r c)
    (hr : { r' with leaseCount := 0 } = { r with leaseCount := 0 }) (hcount : r.state = .detached → r'.leaseCount = 0) :
    SessionSound r' c := by
  obtain ⟨state, epoch, livenessTerm, grace, leaseCount, cause⟩ := r
  obtain ⟨state', epoch', livenessTerm', grace', leaseCount', cause'⟩ := r'
  simp only [Session.mk.injEq] at hr
  obtain ⟨rfl, rfl, rfl, rfl, -, rfl⟩ := hr
  unfold SessionSound at h ⊢
  cases state' with
  | detached => exact ⟨h.1, h.2.1, hcount rfl, h.2.2.2⟩
  | attached => exact h
  | sweeping => exact h

/-- A change of the liveness counter that a stopped counter at 0 does not show. -/
theorem SessionSound.of_counter {r : Session} {c c' : LivenessCounter} (h : SessionSound r c)
    (hstop : c.running = false → c.value = 0 → c'.running = false ∧ c'.value = 0)
    (hattached : r.state = .attached → (c'.running = false → c'.value = 0) ∧
      (r.livenessTerm = 0 → c'.running = false) ∧ (r.livenessTerm ≠ 0 → c'.running = true ∨ c'.claim = true)) :
    SessionSound r c' := by
  unfold SessionSound at h ⊢
  split at h
  case h_1 =>
    obtain ⟨hterm, hgrace, hcount, hcause, hrunning, hvalue⟩ := h
    exact ⟨hterm, hgrace, hcount, hcause, hstop hrunning hvalue⟩
  case h_2 hs => exact ⟨h.1, h.2.1, hattached hs⟩
  case h_3 =>
    obtain ⟨hepoch, hcause, hrunning, hvalue⟩ := h
    exact ⟨hepoch, hcause, hstop hrunning hvalue⟩

theorem SessionSound.ticked {r : Session} {c : LivenessCounter} (h : SessionSound r c) : SessionSound r c.ticked := by
  unfold LivenessCounter.ticked
  split
  · rename_i hruns
    refine h.of_counter (fun hstopped => ?_) fun hs => ⟨fun hstopped => ?_, (h.of_attached hs).2.2.2⟩
    · rw [hruns.1] at hstopped; cases hstopped
    · rw [show c.running = false from hstopped] at hruns; cases hruns.1
  · exact h

/-- A run-out leaves the lapse claim outstanding (R72, R102). -/
theorem SessionSound.runout {r : Session} {c : LivenessCounter} (h : SessionSound r c) (hvalue : c.value = 0) :
    SessionSound r { c with running := false, claim := true } :=
  h.of_counter (fun _ _ => ⟨rfl, hvalue⟩) fun _ => ⟨fun _ => hvalue, fun _ => rfl, fun _ => .inr rfl⟩

/-- A lapse claim is dropped where the counter runs or none is due (R102). -/
theorem SessionSound.dropLapse {r : Session} {c : LivenessCounter} (h : SessionSound r c)
    (hfails : ¬ (r.state = .attached ∧ r.livenessTerm ≠ 0 ∧ c.value = 0)) :
    SessionSound r { c with claim := false } := by
  refine h.of_counter (fun hr hv => ⟨hr, hv⟩) fun hs => ?_
  obtain ⟨-, -, hstopped, huntimed, -⟩ := h.of_attached hs
  refine ⟨hstopped, huntimed, fun hterm => .inl ?_⟩
  cases hrunning : c.running with
  | true => rfl
  | false => exact absurd ⟨hs, hterm, hstopped hrunning⟩ hfails

theorem SessionSound.reload {r : Session} {c : LivenessCounter} (h : SessionSound r c) (hs : r.state = .attached)
    (hterm : r.livenessTerm ≠ 0) (v : Word) : SessionSound r { c with value := v, running := true } := by
  obtain ⟨hepoch, hcause, -⟩ := h.of_attached hs
  unfold SessionSound
  rw [hs]
  exact ⟨hepoch, hcause, nofun, fun h0 => absurd h0 hterm, fun _ => .inl rfl⟩

theorem nextEpoch_ne_zero (e : Byte) : nextEpoch e ≠ 0 := by
  unfold nextEpoch
  split
  · decide
  · rename_i he
    intro h0
    have : e.toNat ≠ 255 := fun h => he (BitVec.eq_of_toNat_eq h)
    bv_omega

/-! ### What a sweep has cleared (R118, R119, R123) -/

/-- The cleared slots are read from the queue, the walk, the completion and the owners of the slots. -/
theorem State.SweepCleared.congr {s t : State} {p : Station} (h : s.SweepCleared p) (hq : t.sweepQueue = s.sweepQueue)
    (hw : t.walk = s.walk) (hd : t.sessionCompletions[p] = s.sessionCompletions[p])
    (ho : ∀ i : SlotIndex, s.slots[i].ownedBy p = false → t.slots[i].ownedBy p = false) : t.SweepCleared p := by
  refine ⟨fun cause rest hqueue i hi => ?_, fun hcomplete i => ?_⟩
  · rw [hq] at hqueue
    rw [hw] at hi
    exact ho i (h.visited cause rest hqueue i hi)
  · rw [hd] at hcomplete
    exact ho i (h.completed hcomplete i)

/-- An order at the tail of the queue: the walk stands, or begins at slot 0 (R111). -/
theorem State.SweepCleared.enterOrder {s t : State} {p : Station} (h : s.SweepCleared p) (o : Order)
    (hq : t.sweepQueue = s.sweepQueue ++ [o]) (hw : t.walk = if s.sweepQueue.isEmpty then some 0 else s.walk)
    (hd : t.sessionCompletions[p] = s.sessionCompletions[p]) (hs : t.slots = s.slots) : t.SweepCleared p := by
  refine ⟨fun cause rest hqueue i hi => ?_, fun hcomplete i => ?_⟩
  · rw [hs]
    rw [hw] at hi
    cases hold : s.sweepQueue with
    | nil =>
      rw [hold] at hi
      exact absurd (hi 0 rfl) (Fin.not_lt_zero i)
    | cons o' rest' =>
      rw [hold] at hi hq
      rw [hq, List.cons_append, List.cons.injEq] at hqueue
      obtain ⟨rfl, -⟩ := hqueue
      exact h.visited cause rest' hold i hi
  · rw [hd] at hcomplete
    rw [hs]
    exact h.completed hcomplete i

/-- The next order begins at slot 0, so it has visited no slot (R125). -/
theorem State.SweepCleared.nextOrder {s t : State} {p : Station} (hq : t.sweepQueue = s.sweepQueue.tail)
    (hw : t.walk = if s.sweepQueue.tail.isEmpty then none else some 0)
    (hd : t.sessionCompletions[p] ≠ none → ∀ i : SlotIndex, t.slots[i].ownedBy p = false) : t.SweepCleared p := by
  refine ⟨fun cause rest hqueue i hi => ?_, hd⟩
  rw [hqueue] at hq
  rw [hw, ← hq] at hi
  exact absurd (hi 0 rfl) (Fin.not_lt_zero i)

/-- The walk moves on from a slot that is not the swept station's (R118). -/
theorem State.SweepCleared.advanceWalk {s : State} {p : Station} (h : s.SweepCleared p) {i : SlotIndex}
    (hw : s.walk = some i)
    (hi : ∀ cause rest, s.sweepQueue = .station p cause :: rest → s.slots[i].ownedBy p = false) :
    (s.advanceWalk i).SweepCleared p := by
  refine ⟨fun cause rest hqueue j hj => ?_, h.completed⟩
  by_cases hij : j = i
  · subst hij
    exact hi cause rest hqueue
  · refine h.visited cause rest hqueue j fun w hw' => ?_
    obtain rfl := Option.some.inj (hw.symm.trans hw')
    by_cases hlast : i = 255
    · subst hlast
      exact Fin.lt_last_iff_ne_last.2 hij
    · have hnext : j.val < (i + 1).val := hj (i + 1) (if_neg hlast)
      rw [Fin.val_add_one_of_lt (Fin.lt_last_iff_ne_last.2 hlast)] at hnext
      exact Fin.lt_def.2 (lt_of_le_of_ne (Nat.le_of_lt_succ hnext) fun h => hij (Fin.ext h))

theorem slotsOf_eq_zero {s : State} {p : Station} (h : ∀ i : SlotIndex, s.slots[i].ownedBy p = false) :
    s.slotsOf p = 0 := by
  refine List.countP_eq_zero.2 fun sl hsl => ?_
  obtain ⟨i, hi, rfl⟩ := Vector.mem_iff_getElem.1 (Vector.mem_toList_iff.1 hsl)
  rw [Bool.not_eq_true]
  exact h ⟨i, hi⟩

theorem not_owned_of_slotsOf {s : State} {p : Station} (h : s.slotsOf p = 0) (i : SlotIndex) :
    s.slots[i].ownedBy p = false := by
  cases howned : s.slots[i].ownedBy p with
  | false => rfl
  | true => exact absurd (slotsOf_pos_of_owned howned) (by omega)

/-! ### Moves of the GE: no slot comes to a station that is not ATTACHED -/

/-- A move that leaves the queue, the walk, the completions, the liveness counters and, but for its lease count, each
session, and gives a slot to an ATTACHED station alone. -/
structure SweepsAside (s t : State) : Prop where
  queue : t.sweepQueue = s.sweepQueue
  walk : t.walk = s.walk
  completions : t.sessionCompletions = s.sessionCompletions
  liveness : t.livenessCounters = s.livenessCounters
  sessions : SessionsKept s t
  owners : ∀ (i : SlotIndex) (p : Station), t.slots[i].ownedBy p = true →
    s.slots[i].ownedBy p = true ∨ s.sessions[p].state = .attached

theorem SessionsKept.state {s t : State} (h : SessionsKept s t) (p : Station) :
    t.sessions[p].state = s.sessions[p].state := by
  have hr := congrArg Session.state (h p)
  exact hr

theorem SessionsKept.cause {s t : State} (h : SessionsKept s t) (p : Station) :
    t.sessions[p].cause = s.sessions[p].cause := by
  have hr := congrArg Session.cause (h p)
  exact hr

theorem SessionsKept.refl (s : State) : SessionsKept s s := fun _ => rfl

theorem SessionsKept.of_sessions {s t : State} (h : t.sessions = s.sessions) : SessionsKept s t := fun p => by rw [h]

theorem SessionsKept.of_updVec {s t : State} {p : Station} {f : Session → Session}
    (h : t.sessions = updVec s.sessions p f)
    (hf : ∀ r : Session, { f r with leaseCount := 0 } = { r with leaseCount := 0 }) : SessionsKept s t := fun q => by
  rw [h, updVec_get]
  split
  · exact hf _
  · rfl

theorem SessionsKept.trans {s t u : State} (h : SessionsKept s t) (h' : SessionsKept t u) : SessionsKept s u :=
  fun p => (h' p).trans (h p)

/-- A move of the GE keeps the sweeps: a swept station has no session ATTACHED, and no slot comes to it. -/
theorem SweepsAside.keeps {s t : State} (h : SweepsAside s t) (hpool : s.PoolSound) (hpool' : t.PoolSound)
    (hs : s.SweepSound) : t.SweepSound := by
  have hspared : ∀ p : Station, s.sessions[p].state ≠ .attached →
      ∀ i : SlotIndex, s.slots[i].ownedBy p = false → t.slots[i].ownedBy p = false := by
    intro p hp i hi
    cases howned : t.slots[i].ownedBy p with
    | false => rfl
    | true =>
      rcases h.owners i p howned with hold | hattached
      · rw [hi] at hold; cases hold
      · exact absurd hattached hp
  refine ⟨fun p => ?_, fun p => ?_, fun p => ?_, by rw [h.queue]; exact hs.atMostTwo, ?_⟩
  · exact (hs.orders p).congr (h.sessions.state p) (h.sessions.cause p) (by rw [h.queue]) (by rw [h.completions])
  · rw [h.liveness]
    refine (hs.sessions p).of_leaseCount (h.sessions p) fun hdetached => ?_
    have hzero : s.slotsOf p = 0 := by rw [← hpool.2 p]; exact ((hs.sessions p).of_detached hdetached).2.2.1
    rw [hpool'.2 p]
    exact slotsOf_eq_zero fun i => hspared p (by rw [hdetached]; nofun) i (not_owned_of_slotsOf hzero i)
  · by_cases hattached : s.sessions[p].state = .attached
    · obtain ⟨-, -, hnone⟩ := (hs.orders p).of_not_sweeping (by rw [hattached]; nofun)
      refine ⟨fun cause rest hqueue => ?_, fun hcomplete => ?_⟩
      · have hsweeping := ((hs.orders p).of_head (h.queue.symm.trans hqueue)).1
        rw [hattached] at hsweeping
        cases hsweeping
      · rw [h.completions] at hcomplete
        exact absurd hnone hcomplete
    · exact (hs.cleared p).congr h.queue h.walk (by rw [h.completions]) (hspared p hattached)
  · rw [h.queue, h.walk]
    exact hs.idle

/-- The records the sweeps are read from, unchanged. -/
theorem SweepsAside.of_same {s t : State} (hq : t.sweepQueue = s.sweepQueue) (hw : t.walk = s.walk)
    (hd : t.sessionCompletions = s.sessionCompletions) (hl : t.livenessCounters = s.livenessCounters)
    (hse : t.sessions = s.sessions) (hs : t.slots = s.slots) : SweepsAside s t :=
  ⟨hq, hw, hd, hl, .of_sessions hse, fun i p h => .inl (by rwa [hs] at h)⟩

/-- No slot changes its owner but by being freed. -/
def OwnersKept (s t : State) : Prop :=
  ∀ (i : SlotIndex) (p : Station), t.slots[i].ownedBy p = true → s.slots[i].ownedBy p = true

theorem OwnersKept.refl (s : State) : OwnersKept s s := fun _ _ => id

theorem OwnersKept.of_slots {s t : State} (h : t.slots = s.slots) : OwnersKept s t := fun i p => by rw [h]; exact id

theorem OwnersKept.trans {s t u : State} (h : OwnersKept s t) (h' : OwnersKept t u) : OwnersKept s u :=
  fun i p hu => h i p (h' i p hu)

theorem OwnersKept.of_updVec {s t : State} {i : SlotIndex} {f : Slot → Slot} (h : t.slots = updVec s.slots i f)
    (hf : ∀ p, (f s.slots[i]).ownedBy p = true → s.slots[i].ownedBy p = true) : OwnersKept s t := fun j p hj => by
  rw [h, updVec_get] at hj
  split at hj
  · rename_i hji
    rw [hji] at hj ⊢
    exact hf p hj
  · exact hj

theorem SweepsAside.of_poolOnly {s t : State} (h : PoolOnly s t) (hse : SessionsKept s t) (ho : OwnersKept s t) :
    SweepsAside s t :=
  ⟨h.sweepQueue, h.walk, h.sessionCompletions, h.livenessCounters, hse, fun i p hi => .inl (ho i p hi)⟩

theorem ownersKept_grantWaiter (s : State) (k : Word) (i : SlotIndex) (l : Lease) :
    OwnersKept s (s.grantWaiter k i l) := .of_updVec (grantWaiter_slots s k i l) fun _ => id

theorem ownersKept_regrant (s : State) (k : Word) : OwnersKept s (s.regrant k) :=
  regrant_keeps (P := OwnersKept s) (fun u k i l hu _ => hu.trans (ownersKept_grantWaiter u k i l)) (.refl s) k

theorem ownersKept_dispose (s : State) (i : SlotIndex) (d : Disposal) : OwnersKept s (s.dispose i d) := by
  refine .of_updVec (dispose_slots s i d) fun p h => ?_
  cases d with
  | free => exact absurd h Bool.false_ne_true
  | ended kind => exact h

theorem ownersKept_removeSlot (s : State) (i : SlotIndex) (d : Disposal) : OwnersKept s (s.removeSlot i d) := by
  unfold State.removeSlot
  split
  · rename_i l _ _
    have hvacated : OwnersKept s (s.vacate i l.key) := .of_slots (vacate_slots s i l.key)
    exact ((hvacated.trans (ownersKept_dispose _ i d)).trans (ownersKept_regrant _ _)).trans
      (.of_slots (settleEntry_slots _ _))
  · exact ownersKept_dispose s i d

theorem sessionsKept_dispose (s : State) (i : SlotIndex) (d : Disposal) : SessionsKept s (s.dispose i d) := by
  cases d with
  | free =>
    cases hl : s.slots[i].lease with
    | none => exact .of_sessions (by show (s.freeSlot i).sessions = _; unfold State.freeSlot; rw [hl]; rfl)
    | some l => exact .of_updVec (freeSlot_sessions s hl) fun _ => rfl
  | ended kind => exact .of_sessions (endSlot_sessions s i kind)

theorem sessionsKept_removeSlot (s : State) (i : SlotIndex) (d : Disposal) : SessionsKept s (s.removeSlot i d) := by
  unfold State.removeSlot
  split
  · rename_i l _ _
    have hvacated : SessionsKept s (s.vacate i l.key) := .of_sessions (vacate_sessions s i l.key)
    refine (hvacated.trans (sessionsKept_dispose _ i d)).trans (.of_sessions ?_)
    rw [settleEntry_sessions, regrant_sessions]
  · exact sessionsKept_dispose s i d

theorem sweepsAside_removeSlot (s : State) (i : SlotIndex) (d : Disposal) : SweepsAside s (s.removeSlot i d) :=
  .of_poolOnly (poolOnly_removeSlot s i d) (sessionsKept_removeSlot s i d) (ownersKept_removeSlot s i d)

/-- A slot of the pool changed, its owner kept. -/
theorem sweepsAside_of_slot {s t : State} (h : PoolOnly s t) (hse : t.sessions = s.sessions) {i : SlotIndex}
    {f : Slot → Slot} (hs : t.slots = updVec s.slots i f)
    (hf : (f s.slots[i]).lease.map Lease.station = s.slots[i].lease.map Lease.station) : SweepsAside s t :=
  .of_poolOnly h (.of_sessions hse) (.of_updVec hs fun p hp => by rwa [ownedBy_congr hf] at hp)

/-- An ACQUIRE gives its slot to its own, ATTACHED station. -/
theorem sweepsAside_of_occupy {s t : State} {i : SlotIndex} {l : Lease} {st : SlotState} (h : PoolOnly s t)
    (hattached : s.sessions[l.station].state = .attached) (hse : t.sessions = (s.occupy i st l).sessions)
    (hs : t.slots = (s.occupy i st l).slots) : SweepsAside s t := by
  refine ⟨h.sweepQueue, h.walk, h.sessionCompletions, h.livenessCounters,
    .of_updVec (p := l.station) (f := fun r => { r with leaseCount := r.leaseCount + 1 }) hse fun _ => rfl,
    fun j p hj => ?_⟩
  rw [hs, show (s.occupy i st l).slots = updVec s.slots i fun sl =>
    { sl with state := st, lease := some l, extension := none, notice := none } from rfl, updVec_get] at hj
  split at hj
  · rw [ownedBy_eq_of_lease (l := l) rfl, beq_iff_eq] at hj
    exact .inr (hj ▸ hattached)
  · exact .inl hj

/-! ### Moves of the Session Unit and the Sweep Engine -/

/-- The end of a session (R98): its order enters at the tail. -/
theorem sweepSound_endSession {s : State} (hs : s.SweepSound) {p : Station} (cause : SweepCause)
    (hattached : s.sessions[p].state = .attached) : (s.endSession p cause).SweepSound := by
  obtain ⟨hcause, horders, hnone⟩ := (hs.orders p).of_not_sweeping (by rw [hattached]; nofun)
  have hsessions : (s.endSession p cause).sessions = updVec s.sessions p fun r =>
      { r with state := .sweeping, cause := some cause } := rfl
  have hliveness : (s.endSession p cause).livenessCounters = updVec s.livenessCounters p fun c =>
      { c with value := 0, running := false } := rfl
  have hqueue : (s.endSession p cause).sweepQueue = s.sweepQueue ++ [.station p cause] := rfl
  refine ⟨fun q => ?_, fun q => ?_, fun q => (hs.cleared q).enterOrder (.station p cause) rfl rfl rfl rfl, ?_, ?_⟩
  · by_cases hq : q = p
    · subst hq
      refine sweepOf_of_sweeping (c := cause) ?_ ?_ (.inl ⟨?_, hnone⟩)
      · rw [hsessions, updVec_get_self]
      · rw [hsessions, updVec_get_self]
      · rw [hqueue, stationOrders_append, horders, stationOrders_cons_self]
        rfl
    · refine (hs.orders q).congr ?_ ?_ ?_ rfl
      · rw [hsessions, updVec_get_ne _ hq]
      · rw [hsessions, updVec_get_ne _ hq]
      · rw [hqueue, stationOrders_append, stationOrders_cons_ne (Ne.symm hq)]
        exact List.append_nil _
  · by_cases hq : q = p
    · subst hq
      rw [hsessions, hliveness, updVec_get_self, updVec_get_self]
      exact ⟨((hs.sessions q).of_attached hattached).1, rfl, rfl, rfl⟩
    · rw [hsessions, hliveness, updVec_get_ne _ hq, updVec_get_ne _ hq]
      exact hs.sessions q
  · rw [hqueue, rangeOrders, List.filter_append]
    exact (List.append_nil (rangeOrders s.sweepQueue)).symm ▸ hs.atMostTwo
  · rw [hqueue]
    exact fun h => absurd h (List.append_ne_nil_of_right_ne_nil _ (List.cons_ne_nil _ _))

/-- The beginning of a session (R94). -/
theorem sweepSound_beginSession {s : State} (hs : s.SweepSound) {p : Station} (term : Word) (grace : Byte)
    (hdetached : s.sessions[p].state = .detached) : (s.beginSession p term grace).SweepSound := by
  obtain ⟨hcause, horders, hnone⟩ := (hs.orders p).of_not_sweeping (by rw [hdetached]; nofun)
  have hsessions := beginSession_sessions s p term grace
  have hliveness : (s.beginSession p term grace).livenessCounters = updVec s.livenessCounters p fun c =>
      { c with value := term, running := term != 0 } := by rw [beginSession_eq]; rfl
  have hslots := beginSession_slots s p term grace
  have hqueue : (s.beginSession p term grace).sweepQueue = s.sweepQueue := by rw [beginSession_eq]
  have hwalk : (s.beginSession p term grace).walk = s.walk := by rw [beginSession_eq]
  have hcompletions : (s.beginSession p term grace).sessionCompletions = s.sessionCompletions := by rw [beginSession_eq]
  refine ⟨fun q => ?_, fun q => ?_, fun q => (hs.cleared q).congr hqueue hwalk (by rw [hcompletions]) fun i h => ?_,
    by rw [hqueue]; exact hs.atMostTwo, by rw [hqueue, hwalk]; exact hs.idle⟩
  · by_cases hq : q = p
    · subst hq
      refine sweepOf_of_not_sweeping ?_ ?_ (by rw [hqueue]; exact horders) (by rw [hcompletions]; exact hnone)
      · rw [hsessions, updVec_get_self]; nofun
      · rw [hsessions, updVec_get_self]; exact hcause
    · refine (hs.orders q).congr ?_ ?_ (by rw [hqueue]) (by rw [hcompletions])
      · rw [hsessions, updVec_get_ne _ hq]
      · rw [hsessions, updVec_get_ne _ hq]
  · rw [hsessions, hliveness]
    by_cases hq : q = p
    · subst hq
      rw [updVec_get_self, updVec_get_self]
      refine ⟨nextEpoch_ne_zero _, hcause, fun hstopped => ?_, fun hterm => ?_, fun hterm => .inl ?_⟩
      · exact bne_eq_false_iff_eq.1 hstopped
      · exact bne_eq_false_iff_eq.2 hterm
      · exact bne_iff_ne.2 hterm
    · rw [updVec_get_ne _ hq, updVec_get_ne _ hq]
      exact hs.sessions q
  · rwa [hslots]

/-- The completion of a station order taken by the Session Unit (R106): no slot is left to the station. -/
theorem sweepSound_detached {s t : State} (hpool : s.PoolSound) (hs : s.SweepSound) {p : Station} {cause : SweepCause}
    (hcomplete : s.sessionCompletions[p] = some cause)
    (hq : t.sweepQueue = s.sweepQueue) (hw : t.walk = s.walk) (hslots : t.slots = s.slots)
    (hl : t.livenessCounters = s.livenessCounters)
    (hd : t.sessionCompletions = updVec s.sessionCompletions p fun _ => none)
    (hse : t.sessions = updVec s.sessions p fun r =>
      { r with state := .detached, livenessTerm := 0, grace := 0, cause := none }) : t.SweepSound := by
  have hsome : s.sessionCompletions[p] ≠ none := by rw [hcomplete]; nofun
  have hsweeping : s.sessions[p].state = .sweeping := by
    by_contra hne
    exact hsome ((hs.orders p).of_not_sweeping hne).2.2
  have horders : stationOrders s.sweepQueue p = [] := by
    obtain ⟨c, -, ⟨-, hnone⟩ | ⟨horders, -⟩⟩ := (hs.orders p).of_sweeping hsweeping
    · exact absurd hnone hsome
    · exact horders
  refine ⟨fun q => ?_, fun q => ?_, fun q => ?_, by rw [hq]; exact hs.atMostTwo, by rw [hq, hw]; exact hs.idle⟩
  · by_cases hqp : q = p
    · subst hqp
      refine sweepOf_of_not_sweeping ?_ ?_ (by rw [hq]; exact horders) ?_
      · rw [hse, updVec_get_self]; nofun
      · rw [hse, updVec_get_self]
      · rw [hd, updVec_get_self]
    · refine (hs.orders q).congr ?_ ?_ (by rw [hq]) ?_
      · rw [hse, updVec_get_ne _ hqp]
      · rw [hse, updVec_get_ne _ hqp]
      · rw [hd, updVec_get_ne _ hqp]
  · rw [hl, hse]
    by_cases hqp : q = p
    · subst hqp
      rw [updVec_get_self]
      obtain ⟨-, -, hrunning, hvalue⟩ := (hs.sessions q).of_sweeping hsweeping
      have hcount : s.sessions[q].leaseCount = 0 := by
        rw [hpool.2 q]; exact slotsOf_eq_zero ((hs.cleared q).completed hsome)
      exact ⟨rfl, rfl, hcount, rfl, hrunning, hvalue⟩
    · rw [updVec_get_ne _ hqp]
      exact hs.sessions q
  · refine ⟨fun cause' rest hqueue i hi => ?_, fun hcomplete' i => ?_⟩
    · rw [hw] at hi
      rw [hslots]
      exact (hs.cleared q).visited cause' rest (hq.symm.trans hqueue) i hi
    · rw [hslots]
      rw [hd, updVec_get] at hcomplete'
      split at hcomplete'
      · exact absurd rfl hcomplete'
      · exact (hs.cleared q).completed hcomplete' i

/-- A range order enters the queue (R116). -/
theorem sweepSound_enterRange {s : State} (hs : s.SweepSound) (r : RangeOrder)
    (hroom : s.sweepQueue.countP Order.isRange < Config.rangeOrderCapacity) : (s.enterOrder (.range r)).SweepSound := by
  have hqueue : (s.enterOrder (.range r)).sweepQueue = s.sweepQueue ++ [.range r] := rfl
  refine ⟨fun q => ?_, hs.sessions, fun q => (hs.cleared q).enterOrder (.range r) rfl rfl rfl rfl, ?_, ?_⟩
  · refine (hs.orders q).congr rfl rfl ?_ rfl
    rw [hqueue, stationOrders_append, stationOrders_cons_range]
    exact List.append_nil _
  · rw [hqueue, rangeOrders_length, List.countP_append]
    exact Nat.succ_le_of_lt hroom
  · rw [hqueue]
    exact fun h => absurd h (List.append_ne_nil_of_right_ne_nil _ (List.cons_ne_nil _ _))

/-- The walk visits a slot that is FREE or not the swept station's (R118, R119). -/
theorem sweepSound_advance {s : State} (hpool : s.PoolSound) (hs : s.SweepSound) {i : SlotIndex} (hw : s.walk = some i)
    (hcleared : ∀ p cause rest, s.sweepQueue = .station p cause :: rest →
      s.slots[i].state = .free ∨ s.slots[i].ownedBy p = false) : (s.advanceWalk i).SweepSound := by
  refine ⟨fun p => (hs.orders p).congr rfl rfl rfl rfl, hs.sessions, fun p => ?_, hs.atMostTwo, fun hempty => ?_⟩
  · refine (hs.cleared p).advanceWalk hw fun cause rest hqueue => ?_
    rcases hcleared p cause rest hqueue with hfree | hother
    · exact ownedBy_of_no_lease ((hpool.1 i).of_free hfree).1 p
    · exact hother
  · rw [hs.idle hempty] at hw
    cases hw

/-- A station order leaves the queue, its completion on the way (R123): the walk has cleared its station's slots. -/
theorem sweepSound_stationDone {s t : State} (hs : s.SweepSound) {p : Station} {cause : SweepCause} {rest : List Order}
    (hqueue : s.sweepQueue = .station p cause :: rest) (hwalk : s.walk = none) (hslots : t.slots = s.slots)
    (hq : t.sweepQueue = s.sweepQueue.tail) (hw : t.walk = if s.sweepQueue.tail.isEmpty then none else some 0)
    (hse : t.sessions = s.sessions) (hl : t.livenessCounters = s.livenessCounters)
    (hd : t.sessionCompletions = updVec s.sessionCompletions p fun _ => some cause) : t.SweepSound := by
  obtain ⟨hsweeping, hcause, hrest, hnone⟩ := (hs.orders p).of_head hqueue
  have htail : t.sweepQueue = rest := by rw [hq, hqueue]; rfl
  refine ⟨fun q => ?_, by rw [hse, hl]; exact hs.sessions, fun q => .nextOrder hq hw fun hcomplete i => ?_, ?_, ?_⟩
  · by_cases hqp : q = p
    · subst hqp
      refine sweepOf_of_sweeping (c := cause) (by rw [hse]; exact hsweeping) (by rw [hse]; exact hcause)
        (.inr ⟨by rw [htail]; exact hrest, ?_⟩)
      rw [hd, updVec_get_self]
    · refine (hs.orders q).congr (by rw [hse]) (by rw [hse]) ?_ ?_
      · rw [htail, hqueue, stationOrders_cons_ne (Ne.symm hqp)]
      · rw [hd, updVec_get_ne _ hqp]
  · rw [hslots]
    rw [hd, updVec_get] at hcomplete
    split at hcomplete
    · rename_i hqp
      subst hqp
      exact (hs.cleared q).visited cause rest hqueue i fun w hw' => by rw [hwalk] at hw'; cases hw'
    · exact (hs.cleared q).completed hcomplete i
  · have htwo := hs.atMostTwo
    rw [hqueue, rangeOrders_cons_station] at htwo
    rwa [htail]
  · intro hempty
    rw [hw, ← hq, hempty]
    rfl

/-- A range order leaves the queue (R124, R125). -/
theorem sweepSound_rangeDone {s : State} (hs : s.SweepSound) {r : RangeOrder} {rest : List Order}
    (hqueue : s.sweepQueue = .range r :: rest) : s.nextOrder.SweepSound := by
  have htail : s.nextOrder.sweepQueue = rest := by rw [State.nextOrder, hqueue]; rfl
  refine ⟨fun p => ?_, hs.sessions, fun p => .nextOrder (s := s) rfl rfl (hs.cleared p).completed, ?_, fun hempty => ?_⟩
  · refine (hs.orders p).congr rfl rfl ?_ rfl
    rw [htail, hqueue, stationOrders_cons_range]
  · have htwo := hs.atMostTwo
    rw [hqueue, rangeOrders_cons_range, List.length_cons] at htwo
    rw [htail]
    omega
  · show (if s.sweepQueue.tail.isEmpty then none else some 0) = none
    rw [show s.sweepQueue.tail = [] from hempty]
    rfl

/-- A change of one liveness counter that agrees with its session. -/
theorem sweepSound_modifyLiveness {s : State} (hs : s.SweepSound) (p : Station) {f : LivenessCounter → LivenessCounter}
    (hf : SessionSound s.sessions[p] (f s.livenessCounters[p])) : (s.modifyLiveness p f).SweepSound := by
  refine ⟨fun q => (hs.orders q).congr rfl rfl rfl rfl, fun q => ?_,
    fun q => (hs.cleared q).congr rfl rfl rfl fun _ => id, hs.atMostTwo, hs.idle⟩
  rw [modifyLiveness_livenessCounters, modifyLiveness_sessions, updVec_get]
  split
  · rename_i hq
    rw [hq]
    exact hf
  · exact hs.sessions q

theorem sweepSound_hardwareReset {s t : State} (h : execHardwareReset s = .next t) : t.SweepSound := by
  have hsessions : ∀ p : Station, t.sessions[p] = .reset := fun p => by
    cases h
    exact Vector.getElem_replicate ..
  have hliveness : ∀ p : Station, t.livenessCounters[p] = .reset := fun p => by
    cases h
    exact Vector.getElem_replicate ..
  have hcompletions : ∀ p : Station, t.sessionCompletions[p] = none := fun p => by
    cases h
    exact Vector.getElem_replicate ..
  have hqueue : t.sweepQueue = [] := by cases h; rfl
  have hwalk : t.walk = none := by cases h; rfl
  refine ⟨fun p => ?_, fun p => ?_, fun p => ⟨fun cause rest hq => ?_, fun hc => absurd (hcompletions p) hc⟩, ?_,
    fun _ => hwalk⟩
  · exact sweepOf_of_not_sweeping (by rw [hsessions]; nofun) (by rw [hsessions]; rfl) (by rw [hqueue]; rfl)
      (hcompletions p)
  · rw [hsessions, hliveness]
    exact ⟨rfl, rfl, rfl, rfl, rfl, rfl⟩
  · rw [hqueue] at hq
    cases hq
  · rw [hqueue]
    exact Nat.zero_le 2

/-! ### Every move -/

/-- Every move keeps the sweeps and the sessions, the pool's soundness given. -/
theorem sweepSound_move {s t : State} (hpool : s.PoolSound) (hs : s.SweepSound) (hm : Move s t) : t.SweepSound := by
  have hpool' : t.PoolSound := poolSound_move hpool hm
  have haside : SweepsAside s t → t.SweepSound := fun h => h.keeps hpool hpool' hs
  cases hm
  case aside same =>
    exact haside (.of_same same.sweepQueue same.walk same.sessionCompletions same.livenessCounters same.sessions
      same.slots)
  case reset hreset => exact sweepSound_hardwareReset hreset
  case tick =>
    refine ⟨fun p => (hs.orders p).congr rfl rfl rfl rfl, fun p => ?_,
      fun p => (hs.cleared p).congr rfl rfl rfl fun _ => id, hs.atMostTwo, hs.idle⟩
    show SessionSound s.sessions[p] (mapVec s.livenessCounters LivenessCounter.ticked)[p]
    rw [mapVec_get]
    exact (hs.sessions p).ticked
  case leaseRunout | dropClaim | limits => exact haside (.of_same rfl rfl rfl rfl rfl rfl)
  case livenessRunout p hdue => exact sweepSound_modifyLiveness hs p ((hs.sessions p).runout hdue.2)
  case dropLapse p hfails => exact sweepSound_modifyLiveness hs p ((hs.sessions p).dropLapse hfails)
  case reload p hattached htimed =>
    exact sweepSound_modifyLiveness hs p ((hs.sessions p).reload hattached htimed _)
  case beginSession p term grace hdetached => exact sweepSound_beginSession hs term grace hdetached
  case endSession p cause hattached => exact sweepSound_endSession hs cause hattached
  case detached p cause hcomplete => exact sweepSound_detached hpool hs hcomplete rfl rfl rfl rfl rfl rfl
  case enterRange r hroom => exact sweepSound_enterRange hs r hroom
  case advance i hwalk hcleared => exact sweepSound_advance hpool hs hwalk hcleared
  case stationDone p cause rest hqueue hwalk =>
    exact sweepSound_stationDone hs hqueue hwalk rfl rfl rfl rfl rfl rfl
  case rangeDone r rest hqueue _ => exact sweepSound_rangeDone hs hqueue
  case grantNow i l hadmits _ => exact haside (sweepsAside_of_occupy (st := .held) rfl hadmits.attached rfl rfl)
  case queueUp i l hadmits _ =>
    refine haside (sweepsAside_of_occupy (i := i) (st := .waiting) ?_ hadmits.attached ?_ ?_) <;>
      (unfold State.queueUp; dsimp only; split <;> rfl)
  case renew i l term _ hlease =>
    exact haside (sweepsAside_of_slot rfl rfl
      (f := fun sl => { sl with state := .held, extension := none, lease := some { l with term := _ } }) rfl
      (by rw [hlease]; rfl))
  case setExtension i term _ => exact haside (sweepsAside_of_slot rfl rfl (modifySlot_slots s i _) rfl)
  case stepDown i l _ hlease _ =>
    refine haside (.of_poolOnly (((poolOnly_modifySlot _ _ _).trans (poolOnly_editEntry _ _ _)).trans
      (poolOnly_regrant _ _)) (.of_sessions (stepDown_sessions s i l)) ?_)
    refine OwnersKept.trans (t := (s.modifySlot i _).editEntry l.key _) ?_ (ownersKept_regrant _ _)
    refine .trans (.of_updVec (modifySlot_slots s i _) fun p hp => ?_) (.of_slots (editEntry_slots _ _ _))
    rwa [ownedBy_congr (by rw [hlease]; rfl)] at hp
  case stepUp i l _ hlease _ =>
    refine haside (.of_poolOnly ((poolOnly_modifySlot _ _ _).trans (poolOnly_editEntry _ _ _))
      (.of_sessions (stepUp_sessions s i l)) ?_)
    refine .trans (.of_updVec (modifySlot_slots s i _) fun p hp => ?_) (.of_slots (editEntry_slots _ _ _))
    rwa [ownedBy_congr (by rw [hlease]; rfl)] at hp
  case applyExtension i x f _ =>
    exact haside (sweepsAside_of_slot rfl rfl (f := fun sl => { sl with extension := none, notice := some .extended })
      rfl rfl)
  case lapseInto i g f _ _ =>
    exact haside (sweepsAside_of_slot rfl rfl (f := fun sl => { sl with state := .grace, notice := some .lapsed })
      rfl rfl)
  case removeFree i _ => exact haside (sweepsAside_removeSlot s i .free)
  case removeEnded i kind f _ _ =>
    obtain ⟨hq, hw, hd, hl, hse, ho⟩ := sweepsAside_removeSlot (s.modifyCounter i f) i (.ended kind)
    exact haside ⟨hq, hw, hd, hl, hse, ho⟩
  case dropNotice i _ => exact haside (sweepsAside_of_slot rfl rfl (modifySlot_slots s i _) rfl)
  case regrant k =>
    refine haside (.of_poolOnly ((poolOnly_regrant s k).trans (poolOnly_settleEntry _ k)) (.of_sessions ?_) ?_)
    · rw [settleEntry_sessions, regrant_sessions]
    · exact (ownersKept_regrant s k).trans (.of_slots (settleEntry_slots _ k))

/-- Settles O58: a step is a chain of moves, and each keeps the sweeps with the pool. -/
theorem everyStepKeepsTheSweeps : Obligations.EveryStepKeepsTheSweeps := fun _ _ hpool hs hstep =>
  ((step_moves hstep).keeps (P := fun u => u.PoolSound ∧ u.SweepSound)
    (fun _ _ h hm => ⟨poolSound_move h.1 hm, sweepSound_move h.1 h.2 hm⟩) ⟨hpool, hs⟩).2

end Sys2Proof.Machine
end

section
/-! PROOFS. The ports keep their bounds and their one reload in every step (R132, R138, R155). -/

namespace Sys2Proof.Machine

/-! ### What leaves the ports and the settings alone -/

/-- The ports and the settings are as they were. -/
structure EdgeKept (s t : State) : Prop where
  ports : t.ports = s.ports
  settings : t.settings = s.settings

theorem EdgeKept.refl (s : State) : EdgeKept s s := ⟨rfl, rfl⟩

theorem EdgeKept.of_eq {s t : State} (h : t = s) : EdgeKept s t := h ▸ .refl s

theorem EdgeKept.trans {s t u : State} (h : EdgeKept s t) (h' : EdgeKept t u) : EdgeKept s u :=
  ⟨h'.ports.trans h.ports, h'.settings.trans h.settings⟩

theorem PoolOnly.edgeKept {s t : State} (h : PoolOnly s t) : EdgeKept s t := ⟨h.ports, h.settings⟩

theorem edgeKept_beginSession (s : State) (p : Station) (term : Word) (grace : Byte) :
    EdgeKept s (s.beginSession p term grace) := by
  rw [beginSession_eq]; exact ⟨rfl, rfl⟩

theorem edgeKept_attach (p : Station) (term : Word) (grace flags : Byte) (s : State) :
    EdgeKept s (attach p term grace flags s).1 := by
  rcases attach_fst_cases p term grace flags s with e | ⟨_, e⟩ | e <;> rw [e]
  · exact .refl s
  · exact edgeKept_beginSession s p term grace
  · exact ⟨rfl, rfl⟩

theorem edgeKept_detach (p : Station) (epoch : Byte) (s : State) : EdgeKept s (detach p epoch s).1 := by
  unfold detach; split <;> exact ⟨rfl, rfl⟩

theorem edgeKept_purge (p : Station) (epoch station : Byte) (s : State) : EdgeKept s (purge p epoch station s).1 := by
  unfold purge
  split
  · exact .refl s
  · split <;> exact ⟨rfl, rfl⟩

theorem edgeKept_clearStation (s : State) (q : Station) : EdgeKept s (s.clearStation q) := by
  unfold State.clearStation; split <;> exact ⟨rfl, rfl⟩

theorem edgeKept_clearAll (p : Station) (epoch : Byte) (s : State) : EdgeKept s (clearAll p epoch s).1 := by
  unfold clearAll
  split
  · exact .refl s
  · dsimp only
    exact (((edgeKept_clearStation _ 0).trans (edgeKept_clearStation _ 1)).trans (edgeKept_clearStation _ 2)).trans
      (edgeKept_clearStation _ 3)

theorem edgeKept_revokeRange (p : Station) (epoch : Byte) (first last : Word) (flags : Byte) (s : State) :
    EdgeKept s (revokeRange p epoch first last flags s).1 := by
  unfold revokeRange
  split
  · exact .refl s
  · split <;> exact ⟨rfl, rfl⟩

theorem edgeKept_holdTime (p : Station) (epoch : Byte) (on : Bool) (s : State) :
    EdgeKept s (holdTime p epoch on s).1 := by
  unfold holdTime; split <;> exact ⟨rfl, rfl⟩

theorem poolOnly_grantNow (s : State) (i : SlotIndex) (l : Lease) : PoolOnly s (s.grantNow i l) := rfl

theorem poolOnly_queueUp (s : State) (i : SlotIndex) (l : Lease) : PoolOnly s (s.queueUp i l) := by
  unfold State.queueUp; dsimp only; split <;> rfl

theorem poolOnly_acquire (p : Station) (epoch : Byte) (k : Word) (flags : Byte) (term wait : Word) (s : State) :
    PoolOnly s (acquire p epoch k flags term wait s).1 := by
  unfold acquire
  split
  · exact .refl s
  · exact .refl s
  · unfold acquirePlace
    split
    · exact .refl s
    · split
      · exact .refl s
      · split
        · exact poolOnly_grantNow _ _ _
        · split
          · exact .refl s
          · split
            · exact .refl s
            · exact poolOnly_queueUp _ _ _

theorem poolOnly_release (p : Station) (epoch : Byte) (h : Word) (s : State) : PoolOnly s (release p epoch h s).1 := by
  unfold release
  split
  · exact .refl s
  · exact poolOnly_removeSlot _ _ _

theorem poolOnly_renew (p : Station) (epoch : Byte) (h term : Word) (s : State) :
    PoolOnly s (renew p epoch h term s).1 := by
  unfold renew
  split
  · exact .refl s
  · split
    · split <;> rfl
    · split <;> rfl
    · exact .refl s

theorem poolOnly_extend (p : Station) (epoch : Byte) (h term : Word) (s : State) :
    PoolOnly s (extend p epoch h term s).1 := by
  unfold extend
  split
  · exact .refl s
  · split
    · split <;> rfl
    · split
      · exact .refl s
      · split <;> rfl
    · exact .refl s

theorem poolOnly_stepDown (s : State) (i : SlotIndex) (l : Lease) : PoolOnly s (s.stepDown i l) :=
  ((poolOnly_modifySlot _ _ _).trans (poolOnly_editEntry _ _ _)).trans (poolOnly_regrant _ _)

theorem poolOnly_stepUp (s : State) (i : SlotIndex) (l : Lease) : PoolOnly s (s.stepUp i l) :=
  (poolOnly_modifySlot _ _ _).trans (poolOnly_editEntry _ _ _)

theorem poolOnly_convert (p : Station) (epoch : Byte) (h : Word) (mode : Byte) (s : State) :
    PoolOnly s (convert p epoch h mode s).1 := by
  unfold convert
  split
  · exact .refl s
  · split
    · split
      · exact .refl s
      · unfold convertHeld
        split
        · exact .refl s
        · split
          · exact poolOnly_stepDown _ _ _
          · split
            · exact poolOnly_stepUp _ _ _
            · exact .refl s
    · exact .refl s

theorem poolOnly_termExpires (s : State) (i : SlotIndex) : PoolOnly s (s.termExpires i) := by
  unfold State.termExpires
  split
  · rfl
  · split
    · exact poolOnly_removeSlot _ _ _
    · rfl
  · exact poolOnly_removeSlot _ _ _

theorem poolOnly_takeExpiry (s : State) (i : SlotIndex) (ph : Phase) {act : State → State}
    (hact : ∀ u, PoolOnly u (act u)) : PoolOnly s (s.takeExpiry i ph act) := by
  rcases takeExpiry_cases s i ph act with e | ⟨_, _, _, e⟩ | ⟨_, e⟩ <;> rw [e]
  · exact .refl s
  · exact poolOnly_modifyCounter s i _
  · exact (poolOnly_modifyCounter s i _).trans (hact _)

theorem poolOnly_stationVisit (s : State) (p : Station) (i : SlotIndex) : PoolOnly s (s.stationVisit p i) := by
  unfold State.stationVisit
  split
  · exact poolOnly_removeSlot _ _ _
  · exact .refl s

theorem poolOnly_rangeVisit (s : State) (r : RangeOrder) (i : SlotIndex) : PoolOnly s (s.rangeVisit r i) := by
  unfold State.rangeVisit
  split
  · exact .refl s
  · split
    · exact poolOnly_removeSlot _ _ _
    · exact .refl s

theorem poolOnly_regrantKeys (ks : List Word) (s : State) : PoolOnly s (regrantKeys ks s) := by
  induction ks generalizing s with
  | nil => exact .refl s
  | cons k ks ih => exact ((poolOnly_regrant s k).trans (poolOnly_settleEntry _ k)).trans (ih _)

theorem poolOnly_acknowledge (s : State) (p : Station) (e : AckEntry) : PoolOnly s (s.acknowledge p e) := by
  unfold State.acknowledge
  split
  · split
    · exact poolOnly_freeSlot _ _
    · exact poolOnly_modifySlot _ _ _
  · exact .refl s

theorem poolOnly_acknowledge_foldl (p : Station) (claim : List AckEntry) (s : State) :
    PoolOnly s (claim.foldl (fun t e => t.acknowledge p e) s) := by
  induction claim generalizing s with
  | nil => exact .refl s
  | cons e claim ih => exact (poolOnly_acknowledge s p e).trans (ih _)

/-! ### A port and a frame -/

/-- The bounds of a port that do not speak of a frame in progress (R138, R155). -/
structure Port.Bounded (q : Port) : Prop where
  acks : q.acks.length ≤ Config.acknowledgementCapacity
  reload : q.reloads.count .ofCommand =
    match q.command with
    | .busy c => if c.passedOn then 0 else 1
    | _ => 0

/-- A frame in progress at a port: what it has fixed keeps R132, R138 and R151. -/
structure Port.Carries (q : Port) (f : Frame) : Prop where
  room : f.snapshot.isSome → q.acks.length < Config.acknowledgementCapacity
  records : ∀ rs, f.snapshot = some rs → rs.length ≤ Config.noticesLimit
  fetched : ∀ r, f.fetched = some r → q.command = .holding r

theorem Port.sound_iff (q : Port) : q.Sound ↔ q.Bounded ∧ ∀ f, q.shifter = .receiving f → q.Carries f :=
  ⟨fun h => ⟨⟨h.acks, h.reload⟩, fun f hf => ⟨h.room f hf, fun rs => h.records f rs hf, fun r => h.fetched f r hf⟩⟩,
    fun ⟨hb, hc⟩ => ⟨hb.acks, fun f hf => (hc f hf).room, fun f rs hf => (hc f hf).records rs,
      fun f r hf => (hc f hf).fetched r, hb.reload⟩⟩

theorem Port.Sound.bounded {q : Port} (h : q.Sound) : q.Bounded := (q.sound_iff.1 h).1

theorem Port.Sound.carries {q : Port} (h : q.Sound) {f : Frame} (hf : q.shifter = .receiving f) : q.Carries f :=
  (q.sound_iff.1 h).2 f hf

theorem Port.Bounded.congr {q q' : Port} (h : q.Bounded) (ha : q'.acks = q.acks) (hr : q'.reloads = q.reloads)
    (hc : q'.command = q.command) : q'.Bounded := by
  refine ⟨by rw [ha]; exact h.acks, ?_⟩
  rw [hr, hc]
  exact h.reload

theorem Port.Carries.congr {q q' : Port} {f : Frame} (h : q.Carries f) (ha : q'.acks = q.acks)
    (hc : q'.command = q.command) : q'.Carries f :=
  ⟨fun hs => by rw [ha]; exact h.room hs, h.records, fun r hr => by rw [hc]; exact h.fetched r hr⟩

/-- A port whose bounded records stand, with a frame it carries or none. -/
theorem Port.Sound.of_frame {q q' : Port} (h : q.Sound) (ha : q'.acks = q.acks) (hr : q'.reloads = q.reloads)
    (hc : q'.command = q.command) (hf : ∀ f, q'.shifter = .receiving f → q.Carries f) : q'.Sound :=
  q'.sound_iff.2 ⟨h.bounded.congr ha hr hc, fun f hs => (hf f hs).congr ha hc⟩

/-- A port whose frame, claims, reloads and command stand. -/
theorem Port.Sound.congr {q q' : Port} (h : q.Sound) (ha : q'.acks = q.acks) (hr : q'.reloads = q.reloads)
    (hc : q'.command = q.command) (hs : q'.shifter = q.shifter) : q'.Sound :=
  h.of_frame ha hr hc fun _ hf => h.carries (hs.symm.trans hf)

/-- A port with no frame in progress. -/
theorem Port.Bounded.sound {q : Port} (h : q.Bounded) (hs : ∀ f, q.shifter ≠ .receiving f) : q.Sound :=
  q.sound_iff.2 ⟨h, fun f hf => absurd hf (hs f)⟩

/-! ### One port changed -/

theorem State.PortsSound.congr {s t : State} (h : s.PortsSound) (hp : t.ports = s.ports) : t.PortsSound :=
  fun p => by rw [hp]; exact h p

theorem State.PortsSound.of_updVec {s t : State} (h : s.PortsSound) {p : Station} {f : Port → Port}
    (hp : t.ports = updVec s.ports p f) (hf : (f s.ports[p]).Sound) : t.PortsSound := fun q => by
  rw [hp, updVec_get]
  split
  · rename_i hq
    rw [hq]
    exact hf
  · exact h q

theorem State.PortsSound.modifyPort {s : State} (h : s.PortsSound) {p : Station} {f : Port → Port}
    (hf : (f s.ports[p]).Sound) : (s.modifyPort p f).PortsSound := h.of_updVec (modifyPort_ports s p f) hf

theorem State.PortsSound.of_portOnly {s t : State} (h : s.PortsSound) {p : Station} (hp : PortOnly p s t)
    (hf : t.ports[p].Sound) : t.PortsSound := by
  unfold PortOnly at hp
  exact h.of_updVec (p := p) (f := fun _ => t.ports[p]) (by conv_lhs => rw [hp]) hf

/-! ### Select and clock -/

theorem portsSound_selectFalls {s : State} (h : s.PortsSound) (p : Station) : (s.selectFalls p).PortsSound := by
  unfold State.selectFalls
  split
  · refine h.modifyPort ((h p).of_frame rfl rfl rfl fun f hf => ?_)
    dsimp only at hf
    split at hf
    · cases hf
    · cases hf
      exact ⟨nofun, nofun, nofun⟩
  · exact h

theorem noticesSnapshot_length (s : State) (p : Station) (limit : Byte) :
    (s.noticesSnapshot p limit).length ≤ Config.noticesLimit := by
  have hlimit : limitOf limit ≤ Config.noticesLimit := by
    unfold limitOf
    split
    · rename_i h
      rw [Bool.and_eq_true, decide_eq_true_iff, decide_eq_true_iff] at h
      exact h.2
    · exact le_rfl
  exact (List.length_take_le _ _).trans hlimit

/-- What a completed byte fixes, the port can carry (R133, R138, R151). -/
theorem carries_fixReply {s : State} {p : Station} {f : Frame} (h : s.ports[p].Carries f) :
    s.ports[p].Carries (s.fixReply p f) := by
  unfold State.fixReply
  dsimp only
  split
  · split
    · rename_i r hcommand
      exact ⟨h.room, h.records, fun r' hr => hcommand.trans (congrArg CommandState.holding (Option.some.inj hr))⟩
    · exact h
  · split
    · split
      · rename_i hroom
        exact ⟨fun _ => hroom, fun rs hrs => Option.some.inj hrs ▸ noticesSnapshot_length _ _ _, h.fetched⟩
      · exact h
    · exact h

theorem carries_sampleBit {s : State} {p : Station} {f : Frame} (h : s.ports[p].Carries f) (b : Bool) :
    s.ports[p].Carries (s.sampleBit p f b) := by
  unfold State.sampleBit
  dsimp only
  split
  · exact carries_fixReply ⟨h.room, h.records, h.fetched⟩
  · exact ⟨h.room, h.records, h.fetched⟩

theorem carries_shiftOut {s : State} {p : Station} {f : Frame} (h : s.ports[p].Carries f) :
    s.ports[p].Carries (s.shiftOut p f) := by
  unfold State.shiftOut
  split
  · exact ⟨h.room, h.records, h.fetched⟩
  · exact h

theorem portsSound_clockRises {s : State} (h : s.PortsSound) (p : Station) (b : Bool) :
    (s.clockRises p b).PortsSound := by
  refine h.modifyPort ?_
  unfold Port.rises
  split
  · exact h p
  · refine (h p).of_frame rfl rfl rfl fun f hf => ?_
    dsimp only at hf
    split at hf
    · cases hf
    · cases hf
    · rename_i g hg
      cases hf
      exact carries_sampleBit ((h p).carries hg) b

theorem portsSound_clockFalls {s : State} (h : s.PortsSound) (p : Station) : (s.clockFalls p).PortsSound := by
  refine h.modifyPort ?_
  unfold Port.falls
  split
  · split
    · exact (h p).congr rfl rfl rfl rfl
    · exact (h p).congr rfl rfl rfl rfl
    · rename_i g hg
      refine (h p).of_frame rfl rfl rfl fun f hf => ?_
      cases hf
      exact carries_shiftOut ((h p).carries hg)
  · exact h p

/-- A run of clocks is its edges in turn. -/
theorem portsSound_clockBits {s : State} (h : s.PortsSound) (p : Station) (bits : List Bool) :
    (s.clockBits p bits).PortsSound := by
  induction bits generalizing s with
  | nil => exact h
  | cons b bits ih =>
    rw [clockBits_cons]
    exact ih (portsSound_clockFalls (portsSound_clockRises (portsSound_clockFalls h p) p b) p)

/-! ### The end of a frame -/

/-- A reload of a frame without a taken command is on its way beside the others (R100). -/
theorem bounded_handPlain {q : Port} (h : q.Bounded) : Port.Bounded { q with reloads := q.reloads ++ [.plain] } := by
  refine ⟨h.acks, ?_⟩
  rw [List.count_append]
  exact h.reload

/-- The reload of a taken command is its port's one (R155). -/
theorem bounded_handCommand {q : Port} (h : q.Bounded) (hidle : ∀ c, q.command ≠ .busy c) (command : PostedCommand)
    (hnew : command.passedOn = false) (flags : EventFlags) :
    Port.Bounded { q with command := .busy command, flags := flags, reloads := q.reloads ++ [.ofCommand] } := by
  refine ⟨h.acks, ?_⟩
  have hnone : q.reloads.count .ofCommand = 0 := by
    have hr := h.reload
    cases hc : q.command with
    | ready => rw [hc] at hr; exact hr
    | holding r => rw [hc] at hr; exact hr
    | busy c => exact absurd hc (hidle c)
  dsimp only
  rw [List.count_append, hnone, hnew]
  rfl

theorem modifyPort_id (s : State) (p : Station) : (s.modifyPort p fun q => q) = s := by
  unfold State.modifyPort
  rw [updVec_id]

/-- The end of a FETCH frame as a change of its port (R151). -/
def Port.endsFetch (f : Frame) (q : Port) : Port :=
  match f.fetched with
  | none => q
  | some r => if 8 * (1 + r.length) ≤ f.received.length then { q with command := .ready } else q

theorem endFetch_eq (s : State) (p : Station) (f : Frame) : s.endFetch p f = s.modifyPort p (Port.endsFetch f) := by
  have hkept : s = s.modifyPort p fun q => q := (modifyPort_id s p).symm
  unfold State.endFetch
  split
  · rename_i hf
    exact hkept.trans (modifyPort_congr (by rw [Port.endsFetch, hf]))
  · rename_i r hf
    split <;> rename_i hlength
    · exact modifyPort_congr (by rw [Port.endsFetch, hf]; exact (if_pos hlength).symm)
    · exact hkept.trans (modifyPort_congr (by rw [Port.endsFetch, hf]; exact (if_neg hlength).symm))

/-- The end of a NOTICES frame as a change of its port (R135). -/
def Port.endsNotices (f : Frame) (q : Port) : Port :=
  if f.recordsRead.isEmpty then q else { q with acks := q.acks ++ [f.recordsRead.map NoticeRecord.ack] }

theorem endNotices_eq (s : State) (p : Station) (f : Frame) :
    s.endNotices p f = s.modifyPort p (Port.endsNotices f) := by
  unfold State.endNotices
  split <;> rename_i hread
  · exact (modifyPort_id s p).symm.trans (modifyPort_congr (if_pos hread).symm)
  · exact modifyPort_congr (if_neg hread).symm

theorem bounded_endsFetch {q : Port} {f : Frame} (h : q.Bounded) (hf : q.Carries f) : (q.endsFetch f).Bounded := by
  unfold Port.endsFetch
  split
  · exact h
  · rename_i r hr
    split
    · have hreload := h.reload
      rw [hf.fetched r hr] at hreload
      exact ⟨h.acks, hreload⟩
    · exact h

theorem bounded_endsNotices {q : Port} {f : Frame} (h : q.Bounded) (hf : q.Carries f) : (q.endsNotices f).Bounded := by
  unfold Port.endsNotices
  split
  · exact h
  · rename_i hread
    refine ⟨?_, h.reload⟩
    have hsnapshot : f.snapshot.isSome := by
      unfold Frame.recordsRead at hread
      split at hread
      · exact absurd rfl hread
      · rename_i hs
        rw [hs]
        rfl
    rw [List.length_append]
    exact hf.room hsnapshot

theorem bounded_endRead {s : State} {p : Station} {f : Frame} (h : s.ports[p].Bounded) (hf : s.ports[p].Carries f)
    (code : Byte) : ((s.endRead p code f).ports[p]).Bounded := by
  unfold State.endRead
  by_cases hfetch : code = codeFetch
  · simp only [if_pos hfetch, endFetch_eq, modifyPort_ports, updVec_get_self]
    exact bounded_endsFetch h hf
  · by_cases hnotices : code = codeNotices
    · simp only [if_neg hfetch, if_pos hnotices, endNotices_eq, modifyPort_ports, updVec_get_self]
      exact bounded_endsNotices h hf
    · simp only [if_neg hfetch, if_neg hnotices]
      exact h

/-- The end of a frame keeps the port's bounds (R135, R146, R151, R153, R154). -/
theorem bounded_endFrame {s : State} {p : Station} {f : Frame} (h : s.ports[p].Bounded) (hf : s.ports[p].Carries f) :
    ((s.endFrame p f).ports[p]).Bounded := by
  unfold State.endFrame State.handReload
  split
  case h_1 => exact h
  case h_2 =>
    rw [modifyPort_ports, updVec_get_self]
    exact h.congr rfl rfl rfl
  case h_3 code _ =>
    rw [modifyPort_ports, updVec_get_self]
    exact bounded_handPlain (bounded_endRead h hf code)
  case h_4 | h_5 =>
    rw [modifyPort_modifyPort, modifyPort_ports, updVec_get_self]
    exact bounded_handPlain (h.congr rfl rfl rfl)
  case h_6 =>
    rw [endPosted_eq, modifyPort_ports, updVec_get_self]
    unfold Port.endsPosted
    split
    case h_1 hc => exact bounded_handCommand h (by rw [hc]; nofun) _ rfl _
    case h_2 hc => exact bounded_handCommand h (by rw [hc]; nofun) _ rfl _
    case h_3 => exact (bounded_handPlain h).congr rfl rfl rfl

theorem portsSound_selectRises {s : State} (h : s.PortsSound) (p : Station) : (s.selectRises p).PortsSound := by
  refine h.of_portOnly (portOnly_selectRises p s) ?_
  unfold State.selectRises
  split
  · exact h p
  · rw [modifyPort_ports, updVec_get_self]
    exact (h p).of_frame rfl rfl rfl nofun
  · rename_i f hf
    rw [modifyPort_ports, updVec_get_self]
    exact Port.Bounded.sound ((bounded_endFrame (h p).bounded ((h p).carries hf)).congr rfl rfl rfl) nofun

/-- A station's event on its port keeps the ports. -/
theorem portsSound_frameEvent {s : State} (h : s.PortsSound) (p : Station) (lead : List Byte) (ev : FrameEvent) :
    (s.frameEvent p lead ev).PortsSound := by
  cases ev with
  | whole bits => exact portsSound_selectRises (portsSound_clockBits (portsSound_selectFalls h p) p _) p
  | start bits => exact portsSound_clockBits (portsSound_selectFalls h p) p _
  | more bits => exact portsSound_clockBits h p bits
  | rise b => exact portsSound_clockRises h p b
  | fall => exact portsSound_clockFalls h p
  | stop => exact portsSound_selectRises h p

/-! ### Commands in flight -/

/-- An answer takes the place of a command that was passed on, whose reload was taken before (R155, R156). -/
theorem portSound_answered {q : Port} (h : q.Sound) {c : PostedCommand} (hc : q.command = .busy c)
    (hp : c.passedOn = true) (record : List Byte) : Port.Sound { q with command := .holding record } := by
  rw [Port.sound_iff]
  refine ⟨⟨h.acks, ?_⟩, fun f hf => ?_⟩
  · have hreload := h.reload
    rw [hc] at hreload
    dsimp only at hreload
    rw [hp] at hreload
    exact hreload
  · have hcarries := h.carries hf
    exact ⟨hcarries.room, hcarries.records, fun r hr => by
      have hholding := hcarries.fetched r hr
      rw [hc] at hholding
      cases hholding⟩

theorem portsSound_unitTaking {p : Station} {code : Byte} {about : List Byte → Bool}
    {act : List Byte → State → State × Reply} {s t : State} (hs : s.PortsSound)
    (h : unitTaking p code about act s = .next t) (hact : ∀ args, (act args s).1.ports = s.ports) : t.PortsSound := by
  rcases unitTaking_cases h with rfl | ⟨args, hoffers, _, rfl⟩
  · exact hs
  · refine hs.of_updVec (p := p) (f := fun q => { q with command := .holding (resultRecord code (act args s).2) }) ?_
      (portSound_answered (hs p) hoffers rfl _)
    rw [placeResult_ports, hact args]

theorem portsSound_geTaking {p : Station} {code : Byte} {act : List Byte → State → State × Reply} {s t : State}
    (hs : s.PortsSound) (h : geTaking p code act s = .next t) (hact : ∀ args, EdgeKept s (act args s).1) :
    t.PortsSound := by
  rcases geTaking_cases h with rfl | ⟨args, hoffers, rfl⟩
  · exact hs
  · refine hs.of_updVec (p := p) (f := fun q => { q with command := .holding (resultRecord code (act args s).2) }) ?_
      (portSound_answered (hs p) hoffers.1 rfl _)
    rw [placeResult_ports]
    exact congrArg (fun v => updVec v p _) (hact args).ports

theorem portsSound_badCmd {p : Station} {s t : State} (hs : s.PortsSound) (h : execBadCmd p s = .next t) :
    t.PortsSound := by
  unfold execBadCmd at h
  split at h
  · rename_i c hc
    split at h <;> cases h
    · rename_i hpassed
      exact hs.of_updVec (placeResult_ports _ _ _ _)
        (portSound_answered (hs p) hc (Bool.and_eq_true_iff.1 hpassed).1 _)
    · exact hs
  · cases h; exact hs

/-- A port whose reload at position `which` is taken: the one of a command in flight passes the command on (R101,
R155). -/
def Port.reloadTaken (q : Port) (which : Nat) (r : Reload) : Port :=
  { q with
    reloads := q.reloads.eraseIdx which
    command := match r with | .plain => q.command | .ofCommand => q.command.passOn }

theorem portSound_reloadTaken {q : Port} (h : q.Sound) {which : Nat} {r : Reload} (hr : q.reloads[which]? = some r) :
    (q.reloadTaken which r).Sound := by
  obtain ⟨hlt, rfl⟩ := List.getElem?_eq_some_iff.1 hr
  have hcount := (List.getElem_cons_eraseIdx_perm hlt).count_eq Reload.ofCommand
  rw [List.count_cons] at hcount
  have hreload := h.reload
  rw [Port.sound_iff]
  unfold Port.reloadTaken
  generalize q.reloads[which] = r at hcount
  cases r with
  | plain =>
    refine ⟨⟨h.acks, ?_⟩, fun f hf => ?_⟩
    · rw [← hcount] at hreload
      exact hreload
    · exact (h.carries (f := f) hf).congr rfl rfl
  | ofCommand =>
    rw [beq_self_eq_true, if_pos rfl] at hcount
    cases hc : q.command with
    | ready => rw [hc] at hreload; dsimp only at hreload; omega
    | holding r => rw [hc] at hreload; dsimp only at hreload; omega
    | busy c =>
      rw [hc] at hreload
      dsimp only at hreload
      refine ⟨⟨h.acks, ?_⟩, fun f hf => ?_⟩
      · split at hreload
        · omega
        · dsimp only [CommandState.passOn]
          rw [if_pos rfl]
          omega
      · have hcarries := h.carries (f := f) hf
        exact ⟨hcarries.room, hcarries.records, fun r hr => by
          have hholding := hcarries.fetched r hr
          rw [hc] at hholding
          cases hholding⟩

theorem portsSound_livenessReload {p : Station} {which : Nat} {s t : State} (hs : s.PortsSound)
    (h : execLivenessReload p which s = .next t) : t.PortsSound := by
  unfold execLivenessReload at h
  split at h
  · cases h; exact hs
  · rename_i r hr
    dsimp only at h
    have htaken : (s.modifyPort p fun q => q.reloadTaken which r).PortsSound :=
      hs.modifyPort (portSound_reloadTaken (hs p) hr)
    split at h <;> cases h
    · exact htaken.congr rfl
    · exact htaken

theorem portsSound_acknowledgementClaim {p : Station} {s t : State} (hs : s.PortsSound)
    (h : execAcknowledgementClaim p s = .next t) : t.PortsSound := by
  unfold execAcknowledgementClaim at h
  split at h <;> cases h
  · exact hs
  · rename_i claim rest hacks
    refine (hs.modifyPort ?_).congr (poolOnly_acknowledge_foldl p claim _).ports
    have hlength : rest.length < s.ports[p].acks.length := by rw [hacks]; exact Nat.lt_succ_self _
    refine (Port.sound_iff _).2 ⟨⟨hlength.le.trans (hs p).acks, (hs p).reload⟩, fun f hf => ?_⟩
    have hcarries := (hs p).carries (f := f) hf
    exact ⟨fun h => hlength.trans (hcarries.room h), hcarries.records, hcarries.fetched⟩

theorem portsSound_hardwareReset {s t : State} (h : execHardwareReset s = .next t) : t.PortsSound := by
  obtain rfl := Host.Outcome.next.inj h
  intro p
  dsimp only
  rw [mapVec_get]
  refine Port.Bounded.sound ⟨Nat.zero_le _, rfl⟩ fun f hf => ?_
  dsimp only at hf
  cases hshifter : s.ports[p].shifter <;> rw [hshifter] at hf <;> cases hf

/-! ### Every step -/

theorem writeItem_ports {p : Station} {epoch : Byte} {format needsEmpty : Bool} {store : State → State} {s : State}
    (hstore : (store s).ports = s.ports) : (writeItem p epoch format needsEmpty store s).1.ports = s.ports := by
  rcases writeItem_fst_cases p epoch format needsEmpty store s with e | e <;> rw [e]
  exact hstore

theorem storeTickSource_ports (s : State) (v : Word) : (s.storeTickSource v).ports = s.ports := by
  unfold State.storeTickSource
  dsimp only
  generalize (if v = 0 then TickSource.internal else .external) = source
  split <;> rfl

theorem freeze_ports (p : Station) (epoch : Byte) (s : State) : (freeze p epoch s).1.ports = s.ports := by
  unfold freeze; split <;> rfl

theorem microsecond_ports (s : State) : s.microsecond.ports = s.ports := by
  unfold State.microsecond
  split
  · split <;> rfl
  · rfl

theorem exec_portsSound {c : Instr} {s t : State} (hs : s.PortsSound) (h : exec c s = .next t) : t.PortsSound := by
  cases c
  case hardwareReset => exact portsSound_hardwareReset h
  case status p ev | fetch p ev | notices p ev | mask p ev | clearFlags p ev | ident p ev | brokenFrame p ev |
      postedFrameEnd p _ ev =>
    obtain rfl := Host.Outcome.next.inj h
    exact portsSound_frameEvent hs p _ ev
  case livenessReload => exact portsSound_livenessReload hs h
  case badCmd => exact portsSound_badCmd hs h
  case attach => exact portsSound_unitTaking hs h fun _ => (edgeKept_attach _ _ _ _ s).ports
  case detach => exact portsSound_unitTaking hs h fun _ => (edgeKept_detach _ _ s).ports
  case purge => exact portsSound_unitTaking hs h fun _ => (edgeKept_purge _ _ _ s).ports
  case clearAll => exact portsSound_unitTaking hs h fun _ => (edgeKept_clearAll _ _ s).ports
  case readConfig => exact portsSound_unitTaking hs h fun _ => congrArg State.ports (readConfig_fst _ _ _ s)
  case writeConfig | holdTimeInvalidSetting =>
    exact portsSound_unitTaking (act := fun _ u => (u, .plain .badArg)) hs h fun _ => rfl
  case writeTickSource => exact portsSound_unitTaking hs h fun _ => writeItem_ports (storeTickSource_ports s _)
  case writeTickPeriod | writeAccessLevel | writeQuota | writeProtectedRange | writeSharedLimit | writeQueueLimit |
      writeChannelKey | writeChannelCtrl => exact portsSound_unitTaking hs h fun _ => writeItem_ports rfl
  case freeze => exact portsSound_unitTaking hs h fun _ => freeze_ports _ _ s
  case holdTimeOn | holdTimeOff => exact portsSound_unitTaking hs h fun _ => (edgeKept_holdTime _ _ _ s).ports
  case acquire => exact portsSound_geTaking hs h fun _ => (poolOnly_acquire _ _ _ _ _ _ s).edgeKept
  case release => exact portsSound_geTaking hs h fun _ => (poolOnly_release _ _ _ s).edgeKept
  case renew => exact portsSound_geTaking hs h fun _ => (poolOnly_renew _ _ _ _ s).edgeKept
  case extend => exact portsSound_geTaking hs h fun _ => (poolOnly_extend _ _ _ _ s).edgeKept
  case convert => exact portsSound_geTaking hs h fun _ => (poolOnly_convert _ _ _ _ s).edgeKept
  case queryLease => exact portsSound_geTaking hs h fun _ => .of_eq (queryLease_fst _ _ _ s)
  case queryKey => exact portsSound_geTaking hs h fun _ => .of_eq (queryKey_fst _ _ _ s)
  case revokeRange => exact portsSound_geTaking hs h fun _ => edgeKept_revokeRange _ _ _ _ _ s
  case internalTick | tick =>
    refine hs.congr ?_
    dsimp only [exec, execInternalTick, execTick] at h
    split at h <;> cases h <;> rfl
  case leaseCounterRunout | livenessCounterRunout =>
    refine hs.congr ?_
    dsimp only [exec, execLeaseCounterRunout, execLivenessCounterRunout] at h
    split at h <;> cases h <;> rfl
  case termExpiryClaim i =>
    obtain rfl := Host.Outcome.next.inj h
    exact hs.congr (poolOnly_takeExpiry s i .term fun u => poolOnly_termExpires u i).ports
  case graceExpiryClaim i =>
    obtain rfl := Host.Outcome.next.inj h
    exact hs.congr (poolOnly_takeExpiry s i .grace fun u => poolOnly_removeSlot u i _).ports
  case waitExpiryClaim i =>
    obtain rfl := Host.Outcome.next.inj h
    exact hs.congr (poolOnly_takeExpiry s i .wait fun u => poolOnly_removeSlot u i _).ports
  case lapseClaim =>
    refine hs.congr ?_
    dsimp only [exec, execLapseClaim] at h
    split at h
    · split at h <;> cases h <;> rfl
    · cases h; rfl
  case stationSweepRemoval =>
    refine hs.congr ?_
    dsimp only [exec, execStationSweepRemoval] at h
    split at h <;> cases h
    · exact (poolOnly_stationVisit s _ _).ports
    · rfl
  case rangeSweepRemoval =>
    refine hs.congr ?_
    dsimp only [exec, execRangeSweepRemoval] at h
    split at h <;> cases h
    · exact (poolOnly_rangeVisit s _ _).ports
    · rfl
  case stationOrderComplete =>
    refine hs.congr ?_
    dsimp only [exec, execStationOrderComplete] at h
    split at h <;> cases h <;> rfl
  case sessionSweepCompletion p =>
    dsimp only [exec, execSessionSweepCompletion] at h
    split at h <;> cases h
    · exact hs
    · exact State.PortsSound.modifyPort (hs.congr rfl) ((hs p).congr rfl rfl rfl rfl)
  case rangeOrderComplete =>
    dsimp only [exec, execRangeOrderComplete] at h
    split at h <;> cases h
    · exact hs.of_updVec (f := fun q => { q with flags := { q.flags with sweepDone := true } }) rfl
        ((hs _).congr rfl rfl rfl rfl)
    · exact hs
  case rangeCompletionClaim =>
    refine hs.congr ?_
    dsimp only [exec, execRangeCompletionClaim] at h
    split at h <;> cases h
    · rfl
    · exact (poolOnly_regrantKeys _ _).ports
  case acknowledgementClaim => exact portsSound_acknowledgementClaim hs h
  case endOfReset =>
    refine hs.congr ?_
    dsimp only [exec, execEndOfReset] at h
    split at h <;> cases h <;> rfl

/-- Settles O59: each command keeps the ports, and a microsecond leaves them alone. -/
theorem everyStepKeepsThePorts : Obligations.EveryStepKeepsThePorts := by
  intro s t hs hstep
  rcases step_cases hstep with rfl | ⟨c, rest, hexec⟩
  · exact hs.congr (microsecond_ports s)
  · exact exec_portsSound (s := { s with pending := rest }) hs hexec

end Sys2Proof.Machine
end

section
/-! PROOFS. The directory agrees with the pool in every move (R4, R24 to R27, R49). -/

namespace Sys2Proof.Machine

/-! ### An entry and the pool -/

/-- An entry agrees with the pool, in use or not: between the taking of a slot and the removal of an emptied entry (R32)
it may have neither holder nor waiter. -/
structure Entry.Agrees (e : Entry) (s : State) : Prop where
  holdersOnce : e.holders.Nodup
  queueOnce : e.queue.Nodup
  holders : ∀ i, i ∈ e.holders ↔ s.slots[i].leases SlotState.isHolding e.key
  waiters : ∀ i, i ∈ e.queue ↔ s.slots[i].leases SlotState.isWaiting e.key
  unheld : e.holders = [] → e.holdMode = .unheld
  mode : ∀ i ∈ e.holders, ∀ l, s.slots[i].lease = some l → l.mode.hold = e.holdMode
  alone : e.holdMode = .exclusive → e.holders.length ≤ 1
  shared : e.holders.length ≤ s.settings.sharedLimit
  queued : e.queue.length ≤ s.settings.queueLimit

/-- An entry has a holder or a waiter. -/
def Entry.InUse (e : Entry) : Prop := e.holders ≠ [] ∨ e.queue ≠ []

theorem Entry.Sound.agrees {e : Entry} {s : State} (h : e.Sound s) : e.Agrees s :=
  ⟨h.holdersOnce, h.queueOnce, h.holders, h.waiters, h.unheld, h.mode, h.alone, h.shared, h.queued⟩

theorem Entry.Agrees.sound {e : Entry} {s : State} (h : e.Agrees s) (hu : e.InUse) : e.Sound s :=
  ⟨hu, h.holdersOnce, h.queueOnce, h.holders, h.waiters, h.unheld, h.mode, h.alone, h.shared, h.queued⟩

theorem Slot.leases_iff {sl : Slot} {l : Lease} (h : sl.lease = some l) (states : SlotState → Bool) (k : Word) :
    sl.leases states k ↔ states sl.state = true ∧ l.key = k := by
  unfold Slot.leases
  rw [h]
  simp only [Option.some.injEq, exists_eq_left']

theorem Slot.not_leases {sl : Slot} {states : SlotState → Bool} (h : states sl.state = false) (k : Word) :
    ¬ sl.leases states k := fun hl => by rw [hl.1] at h; cases h

theorem SlotState.isLive_eq (st : SlotState) : st.isLive = (st.isHolding || st.isWaiting) := by cases st <;> rfl

theorem SlotState.isLive_of_isHolding {st : SlotState} (h : st.isHolding = true) : st.isLive = true := by
  rw [SlotState.isLive_eq, h]; rfl

theorem SlotState.isLive_of_isWaiting {st : SlotState} (h : st.isWaiting = true) : st.isLive = true := by
  rw [SlotState.isLive_eq, h, Bool.or_true]

theorem SlotState.notLive_iff {st : SlotState} : st.isLive = false ↔ st.isHolding = false ∧ st.isWaiting = false := by
  rw [SlotState.isLive_eq, Bool.or_eq_false_iff]

theorem SlotState.not_isWaiting_of_isHolding {st : SlotState} (h : st.isHolding = true) : st.isWaiting = false := by
  cases st with
  | held | grace => rfl
  | free | waiting | ended => cases h

/-- A live slot's lease is on a key no other entry names. -/
theorem Slot.not_leases_of_key {sl : Slot} {k k' : Word}
    (hk : ∀ l, sl.state.isLive = true → sl.lease = some l → l.key = k)
    (hne : k' ≠ k) {states : SlotState → Bool} (hstates : ∀ st, states st = true → st.isLive = true) :
    ¬ sl.leases states k' := by
  rintro ⟨hst, l, hl, rfl⟩
  exact hne (hk l (hstates _ hst) hl)

/-- An entry agrees with a pool whose leases on its key are the same. -/
theorem Entry.Agrees.congr {e : Entry} {s t : State} (h : e.Agrees s)
    (hh : ∀ j : SlotIndex, t.slots[j].leases SlotState.isHolding e.key ↔ s.slots[j].leases SlotState.isHolding e.key)
    (hw : ∀ j : SlotIndex, t.slots[j].leases SlotState.isWaiting e.key ↔ s.slots[j].leases SlotState.isWaiting e.key)
    (hm : ∀ j ∈ e.holders, t.slots[j].lease.map Lease.mode = s.slots[j].lease.map Lease.mode)
    (hsl : t.settings.sharedLimit = s.settings.sharedLimit) (hql : t.settings.queueLimit = s.settings.queueLimit) :
    e.Agrees t := by
  refine ⟨h.holdersOnce, h.queueOnce, fun j => (h.holders j).trans (hh j).symm,
    fun j => (h.waiters j).trans (hw j).symm, h.unheld, fun j hj l hl => ?_, h.alone, by rw [hsl]; exact h.shared,
    by rw [hql]; exact h.queued⟩
  have hmode := hm j hj
  rw [hl] at hmode
  obtain ⟨l', hl', hmode'⟩ := Option.map_eq_some_iff.1 hmode.symm
  rw [← hmode']
  exact h.mode j hj l' hl'

/-! ### The directory and the pool, one entry perhaps emptied -/

/-- As DirectorySound and OneLeaseEach, but that the entry of the key `loose`, if there is one, may be empty: the state
of the directory inside a taking. -/
structure State.DirectoryAgrees (s : State) (loose : Option Word) : Prop where
  rising : Rising s.directory
  entries : ∀ k e, entryOf s.directory k = some e → e.Agrees s
  used : ∀ k e, some k ≠ loose → entryOf s.directory k = some e → e.InUse
  listed : ∀ (i : SlotIndex) (l : Lease), s.slots[i].state.isLive = true → s.slots[i].lease = some l →
    ∃ e, entryOf s.directory l.key = some e
  capacity : s.directory.length ≤ Config.directoryCapacity
  sharedLimit : 1 ≤ s.settings.sharedLimit ∧ s.settings.sharedLimit ≤ 8
  queueLimit : 1 ≤ s.settings.queueLimit ∧ s.settings.queueLimit ≤ 32
  once : s.OneLeaseEach

theorem directoryAgrees_of_sound {s : State} (h : s.DirectorySound) (ho : s.OneLeaseEach) : s.DirectoryAgrees none :=
  ⟨h.rising, fun _ e he => (h.entries e (entryOf_mem he)).agrees, fun _ e _ he => (h.entries e (entryOf_mem he)).inUse,
    fun i l hlive hl => by
      obtain ⟨e, he, _⟩ := h.entry_of_live hlive hl
      exact ⟨e, he⟩,
    h.capacity, h.sharedLimit, h.queueLimit, ho⟩

theorem State.DirectoryAgrees.sound {s : State} (h : s.DirectoryAgrees none) : s.DirectorySound := by
  refine ⟨h.rising, fun e he => ?_, fun i l hlive hl => ?_, h.capacity, h.sharedLimit, h.queueLimit⟩
  · have hentry := entryOf_of_mem h.rising he
    exact (h.entries _ e hentry).sound (h.used _ e (Option.some_ne_none _) hentry)
  · obtain ⟨e, he⟩ := h.listed i l hlive hl
    exact ⟨e, entryOf_mem he, entryOf_key he⟩

theorem State.DirectoryAgrees.loosen {s : State} (h : s.DirectoryAgrees none) (k : Word) : s.DirectoryAgrees (some k) :=
  { h with used := fun k' e _ he => h.used k' e (Option.some_ne_none _) he }

/-- The removal of an emptied entry ends the taking (R32). -/
theorem State.DirectoryAgrees.settle {s : State} {k : Word} (h : s.DirectoryAgrees (some k)) :
    (s.settleEntry k).DirectoryAgrees none := by
  rcases settleEntry_cases s k with ⟨e, hused⟩ | ⟨e, x, hx, hholders, hqueue⟩
  · rw [e]
    refine { h with used := fun k' e' _ he' => ?_ }
    by_cases hk : k' = k
    · exact hused e' (hk ▸ he')
    · exact h.used k' e' (fun hc => hk (Option.some.inj hc)) he'
  · have hentry : ∀ k' e', entryOf (s.settleEntry k).directory k' = some e' →
        k' ≠ k ∧ entryOf s.directory k' = some e' := by
      intro k' e' he'
      rw [e, withDirectory_directory] at he'
      by_cases hk : k' = k
      · rw [hk, entryOf_filter_self] at he'
        cases he'
      · rw [entryOf_filter_ne _ hk] at he'
        exact ⟨hk, he'⟩
    refine ⟨settleEntry_rising s k h.rising, fun k' e' he' => ?_, fun k' e' _ he' => ?_, fun i l hlive hl => ?_, ?_, ?_,
      ?_, ?_⟩
    · rw [e]
      obtain ⟨_, he⟩ := hentry k' e' he'
      exact (h.entries k' e' he).congr (fun _ => Iff.rfl) (fun _ => Iff.rfl) (fun _ _ => rfl) rfl rfl
    · obtain ⟨hk, he⟩ := hentry k' e' he'
      exact h.used k' e' (fun hc => hk (Option.some.inj hc)) he
    · rw [settleEntry_slots] at hlive hl
      have hkey : l.key ≠ k := by
        rintro rfl
        have hagrees := h.entries _ x hx
        rw [SlotState.isLive_eq, Bool.or_eq_true] at hlive
        rcases hlive with hst | hst
        · have hmem := (hagrees.holders i).2 ((Slot.leases_iff hl _ _).2 ⟨hst, (entryOf_key hx).symm⟩)
          rw [hholders] at hmem
          cases hmem
        · have hmem := (hagrees.waiters i).2 ((Slot.leases_iff hl _ _).2 ⟨hst, (entryOf_key hx).symm⟩)
          rw [hqueue] at hmem
          cases hmem
      rw [settleEntry_ne s hkey]
      exact h.listed i l hlive hl
    · rw [e]
      exact (List.length_filter_le _ _).trans h.capacity
    · rw [e]; exact h.sharedLimit
    · rw [e]; exact h.queueLimit
    · rw [e]; exact h.once

/-! ### Leases that stand -/

/-- A slot holds or waits as before, with a lease of the same station, key and mode. -/
structure Slot.Stands (sl sl' : Slot) : Prop where
  holding : sl'.state.isHolding = sl.state.isHolding
  waiting : sl'.state.isWaiting = sl.state.isWaiting
  lease : sl.state.isLive = true →
    sl'.lease.map (fun l => (l.station, l.key, l.mode)) = sl.lease.map fun l => (l.station, l.key, l.mode)

theorem Slot.Stands.refl (sl : Slot) : sl.Stands sl := ⟨rfl, rfl, fun _ => rfl⟩

theorem Slot.Stands.live {sl sl' : Slot} (h : sl.Stands sl') : sl'.state.isLive = sl.state.isLive := by
  rw [SlotState.isLive_eq, SlotState.isLive_eq, h.holding, h.waiting]

theorem Slot.Stands.lease_eq {sl sl' : Slot} (h : sl.Stands sl') (hlive : sl.state.isLive = true) {l' : Lease}
    (hl' : sl'.lease = some l') :
    ∃ l, sl.lease = some l ∧ l.station = l'.station ∧ l.key = l'.key ∧ l.mode = l'.mode := by
  have hlease := h.lease hlive
  rw [hl'] at hlease
  obtain ⟨l, hl, heq⟩ := Option.map_eq_some_iff.1 hlease.symm
  rw [Prod.mk.injEq, Prod.mk.injEq] at heq
  exact ⟨l, hl, heq⟩

theorem Slot.Stands.map_key {sl sl' : Slot} (h : sl.Stands sl') (hlive : sl.state.isLive = true) :
    sl'.lease.map Lease.key = sl.lease.map Lease.key := by
  have hlease := congrArg (Option.map fun x : Station × Word × LeaseMode => x.2.1) (h.lease hlive)
  rwa [Option.map_map, Option.map_map] at hlease

theorem Slot.Stands.map_mode {sl sl' : Slot} (h : sl.Stands sl') (hlive : sl.state.isLive = true) :
    sl'.lease.map Lease.mode = sl.lease.map Lease.mode := by
  have hlease := congrArg (Option.map fun x : Station × Word × LeaseMode => x.2.2) (h.lease hlive)
  rwa [Option.map_map, Option.map_map] at hlease

theorem Slot.Stands.leases_iff {sl sl' : Slot} (h : sl.Stands sl') {states : SlotState → Bool}
    (hstates : ∀ st, states st = true → st.isLive = true) (hst : states sl'.state = states sl.state) (k : Word) :
    sl'.leases states k ↔ sl.leases states k := by
  have hkeys : ∀ x : Slot, (∃ l, x.lease = some l ∧ l.key = k) ↔ x.lease.map Lease.key = some k := fun x => by
    rw [Option.map_eq_some_iff]
  unfold Slot.leases
  rw [hst, hkeys, hkeys]
  exact and_congr_right fun hs => by rw [h.map_key (hstates _ hs)]

/-- A move after which every slot's lease stands keeps the directory's agreement. -/
theorem State.DirectoryAgrees.of_stands {s t : State} {loose : Option Word} (h : s.DirectoryAgrees loose)
    (hs : ∀ j : SlotIndex, s.slots[j].Stands t.slots[j]) (hd : t.directory = s.directory)
    (hsl : t.settings.sharedLimit = s.settings.sharedLimit) (hql : t.settings.queueLimit = s.settings.queueLimit) :
    t.DirectoryAgrees loose := by
  refine ⟨by rw [hd]; exact h.rising, fun k e he => ?_, by rw [hd]; exact h.used, fun i l' hlive hl' => ?_,
    by rw [hd]; exact h.capacity, by rw [hsl]; exact h.sharedLimit, by rw [hql]; exact h.queueLimit,
    fun i j l' m' hi hj hl' hm' hst hk => ?_⟩
  · rw [hd] at he
    have hagrees := h.entries k e he
    exact hagrees.congr
      (fun j => (hs j).leases_iff (fun _ => SlotState.isLive_of_isHolding) (hs j).holding _)
      (fun j => (hs j).leases_iff (fun _ => SlotState.isLive_of_isWaiting) (hs j).waiting _)
      (fun j hj => (hs j).map_mode (SlotState.isLive_of_isHolding ((hagrees.holders j).1 hj).1)) hsl hql
  · rw [(hs i).live] at hlive
    obtain ⟨l, hl, -, hk, -⟩ := (hs i).lease_eq hlive hl'
    rw [hd, ← hk]
    exact h.listed i l hlive hl
  · rw [(hs i).live] at hi
    rw [(hs j).live] at hj
    obtain ⟨l, hl, hls, hlk, -⟩ := (hs i).lease_eq hi hl'
    obtain ⟨m, hm, hms, hmk, -⟩ := (hs j).lease_eq hj hm'
    exact h.once i j l m hi hj hl hm (by rw [hls, hst, hms]) (by rw [hlk, hk, hmk])

theorem State.DirectoryAgrees.of_same {s t : State} {loose : Option Word} (h : s.DirectoryAgrees loose)
    (hs : t.slots = s.slots) (hd : t.directory = s.directory)
    (hsl : t.settings.sharedLimit = s.settings.sharedLimit) (hql : t.settings.queueLimit = s.settings.queueLimit) :
    t.DirectoryAgrees loose := h.of_stands (fun j => by rw [hs]; exact .refl _) hd hsl hql

theorem stands_of_updVec {s t : State} {i : SlotIndex} {f : Slot → Slot} (hs : t.slots = updVec s.slots i f)
    (hf : s.slots[i].Stands (f s.slots[i])) (j : SlotIndex) : s.slots[j].Stands t.slots[j] := by
  rw [hs, updVec_get]
  split
  · rename_i hj
    rw [hj]
    exact hf
  · exact .refl _

/-- One slot changed whose lease stands. -/
theorem State.DirectoryAgrees.of_slot {s t : State} {loose : Option Word} (h : s.DirectoryAgrees loose) (i : SlotIndex)
    {f : Slot → Slot} (hp : PoolOnly s t) (hd : t.directory = s.directory) (hs : t.slots = updVec s.slots i f)
    (hf : s.slots[i].Stands (f s.slots[i])) : t.DirectoryAgrees loose :=
  h.of_stands (stands_of_updVec hs hf) hd (by rw [hp.settings]) (by rw [hp.settings])

/-! ### One slot and its key's entry changed -/

/-- Slot `i` and the entry of `k` changed, the slot's live lease, before and after, being on `k`. -/
theorem State.DirectoryAgrees.of_edit {s t : State} {loose loose' : Option Word} (h : s.DirectoryAgrees loose)
    {i : SlotIndex} {k : Word} {e' : Entry} (hloose : loose = none ∨ loose = some k) (hset : t.settings = s.settings)
    (hothers : ∀ j : SlotIndex, j ≠ i → t.slots[j] = s.slots[j])
    (hbefore : ∀ l, s.slots[i].state.isLive = true → s.slots[i].lease = some l → l.key = k)
    (hafter : ∀ l, t.slots[i].state.isLive = true → t.slots[i].lease = some l → l.key = k)
    (hentry : entryOf t.directory k = some e') (hrest : ∀ k', k' ≠ k → entryOf t.directory k' = entryOf s.directory k')
    (hrising : Rising t.directory) (hcapacity : t.directory.length ≤ Config.directoryCapacity) (hagrees : e'.Agrees t)
    (hused : some k ≠ loose' → e'.InUse) (honce : t.OneLeaseEach) : t.DirectoryAgrees loose' := by
  refine ⟨hrising, fun k' e he => ?_, fun k' e hk' he => ?_, fun j l hlive hl => ?_, hcapacity,
    by rw [hset]; exact h.sharedLimit, by rw [hset]; exact h.queueLimit, honce⟩
  · by_cases hk : k' = k
    · subst hk
      obtain rfl := Option.some.inj (hentry.symm.trans he)
      exact hagrees
    · rw [hrest k' hk] at he
      have hek : e.key ≠ k := fun hc => hk ((entryOf_key he).symm.trans hc)
      have hold := h.entries k' e he
      have hiff : ∀ (states : SlotState → Bool), (∀ st, states st = true → st.isLive = true) → ∀ j : SlotIndex,
          (t.slots[j].leases states e.key ↔ s.slots[j].leases states e.key) := by
        intro states hstates j
        by_cases hj : j = i
        · subst hj
          exact iff_of_false (Slot.not_leases_of_key hafter hek hstates) (Slot.not_leases_of_key hbefore hek hstates)
        · rw [hothers j hj]
      refine hold.congr (hiff _ fun _ => SlotState.isLive_of_isHolding) (hiff _ fun _ => SlotState.isLive_of_isWaiting)
        (fun j hj => ?_) (by rw [hset]) (by rw [hset])
      have hji : j ≠ i := by
        rintro rfl
        exact Slot.not_leases_of_key hbefore hek (fun _ => SlotState.isLive_of_isHolding) ((hold.holders j).1 hj)
      rw [hothers j hji]
  · by_cases hk : k' = k
    · subst hk
      obtain rfl := Option.some.inj (hentry.symm.trans he)
      exact hused hk'
    · rw [hrest k' hk] at he
      refine h.used k' e ?_ he
      rcases hloose with rfl | rfl
      · nofun
      · exact fun hc => hk (Option.some.inj hc)
  · by_cases hk : l.key = k
    · exact ⟨e', hk ▸ hentry⟩
    · rw [hrest l.key hk]
      have hji : j ≠ i := by
        rintro rfl
        exact hk (hafter l hlive hl)
      rw [hothers j hji] at hlive hl
      exact h.listed j l hlive hl

/-- A slot's live lease is one it had before, of the same station and key. -/
theorem oneLeaseEach_of_slot {s t : State} (h : s.OneLeaseEach) {i : SlotIndex}
    (hothers : ∀ j : SlotIndex, j ≠ i → t.slots[j] = s.slots[j])
    (hself : ∀ m, t.slots[i].state.isLive = true → t.slots[i].lease = some m →
      s.slots[i].state.isLive = true ∧ ∃ l, s.slots[i].lease = some l ∧ l.station = m.station ∧ l.key = m.key) :
    t.OneLeaseEach := by
  have hback : ∀ (j : SlotIndex) (m : Lease), t.slots[j].state.isLive = true → t.slots[j].lease = some m →
      s.slots[j].state.isLive = true ∧ ∃ l, s.slots[j].lease = some l ∧ l.station = m.station ∧ l.key = m.key := by
    intro j m hlive hm
    by_cases hj : j = i
    · subst hj
      exact hself m hlive hm
    · rw [hothers j hj] at hlive hm
      exact ⟨hlive, m, hm, rfl, rfl⟩
  intro a b l m ha hb hl hm hst hk
  obtain ⟨ha', l', hl', hls, hlk⟩ := hback a l ha hl
  obtain ⟨hb', m', hm', hms, hmk⟩ := hback b m hb hm
  exact h a b l' m' ha' hb' hl' hm' (by rw [hls, hst, hms]) (by rw [hlk, hk, hmk])

/-! ### The directory's length -/

theorem putEntry_length_of_some {e x : Entry} {d : List Entry} (hr : Rising d) (h : entryOf d e.key = some x) :
    (putEntry e d).length = d.length := by
  induction d with
  | nil => cases h
  | cons y ys ih =>
    obtain ⟨hy, hys⟩ := List.pairwise_cons.1 hr
    simp only [putEntry]
    split
    · rename_i hlt
      have hkey := entryOf_key h
      rcases List.mem_cons.1 (entryOf_mem h) with hx | hx
      · rw [← hkey, hx] at hlt
        exact absurd hlt (BitVec.lt_irrefl _)
      · have hlt' := hy x hx
        rw [hkey] at hlt'
        exact absurd (BitVec.lt_trans hlt hlt') (BitVec.lt_irrefl _)
    · split
      · rfl
      · rename_i hne
        rw [entryOf_cons, if_neg fun hc => hne hc.symm] at h
        rw [List.length_cons, ih hys h, List.length_cons]

theorem putEntry_length_le (e : Entry) (d : List Entry) : (putEntry e d).length ≤ d.length + 1 := by
  induction d with
  | nil => exact le_rfl
  | cons y ys ih =>
    simp only [putEntry]
    split
    · exact le_rfl
    · split
      · exact Nat.le_succ _
      · exact Nat.succ_le_succ ih

theorem editEntry_length {s : State} (hr : Rising s.directory) (k : Word) {f : Entry → Entry}
    (hf : ∀ e, (f e).key = e.key) : (s.editEntry k f).directory.length = s.directory.length := by
  rcases editEntry_cases s k f with ⟨_, e⟩ | ⟨x, hx, e⟩
  · rw [e]
  · rw [e]
    exact putEntry_length_of_some (x := x) hr (by rw [hf, entryOf_key hx]; exact hx)

/-! ### A slot leaves its key's lists -/

/-- The entry of a slot that is no longer live, without the slot (R25, R26, R28). -/
theorem agrees_without {s t : State} {e : Entry} {i : SlotIndex} (h : e.Agrees s) (hset : t.settings = s.settings)
    (hothers : ∀ j : SlotIndex, j ≠ i → t.slots[j] = s.slots[j]) (hend : t.slots[i].state.isLive = false) :
    (e.without i).Agrees t := by
  obtain ⟨hhold, hwait⟩ := SlotState.notLive_iff.1 hend
  have hmem : ∀ (states : SlotState → Bool) (list : List SlotIndex), states t.slots[i].state = false →
      (∀ j, j ∈ list ↔ s.slots[j].leases states e.key) →
        ∀ j, j ∈ list.filter (· != i) ↔ t.slots[j].leases states e.key := by
    intro states list hst hlist j
    rw [List.mem_filter, bne_iff_ne]
    by_cases hj : j = i
    · subst hj
      exact iff_of_false (fun hc => hc.2 rfl) (Slot.not_leases hst _)
    · rw [hothers j hj, hlist j]
      exact and_iff_left hj
  refine ⟨h.holdersOnce.filter _, h.queueOnce.filter _, hmem _ _ hhold h.holders, hmem _ _ hwait h.waiters, ?_, ?_, ?_,
    ?_, ?_⟩
  · exact fun hempty => if_pos hempty
  · intro j hj l hl
    obtain ⟨hje, hji⟩ := mem_without_holders.1 hj
    rw [hothers j hji] at hl
    rw [h.mode j hje l hl]
    exact (if_neg (List.ne_nil_of_mem hj)).symm
  · intro hexclusive
    have hmode : (if (e.without i).holders = [] then HoldMode.unheld else e.holdMode) = .exclusive := hexclusive
    split at hmode
    · cases hmode
    · exact (List.length_filter_le _ _).trans (h.alone hmode)
  · rw [hset]; exact (List.length_filter_le _ _).trans h.shared
  · rw [hset]; exact (List.length_filter_le _ _).trans h.queued

/-- A live slot has left its key's lists and become FREE or ENDED: its key's entry may be left empty. -/
theorem directoryAgrees_vacated {s : State} (h : s.DirectoryAgrees none) {i : SlotIndex} {l : Lease}
    (hlive : s.slots[i].state.isLive = true) (hl : s.slots[i].lease = some l) (d : Disposal) :
    ((s.vacate i l.key).dispose i d).DirectoryAgrees (some l.key) := by
  obtain ⟨e, he⟩ := h.listed i l hlive hl
  have hpool : PoolOnly s ((s.vacate i l.key).dispose i d) := (poolOnly_vacate _ _ _).trans (poolOnly_dispose _ _ _)
  have hothers : ∀ j : SlotIndex, j ≠ i → ((s.vacate i l.key).dispose i d).slots[j] = s.slots[j] := fun j hj => by
    rw [dispose_slots, updVec_get_ne _ hj, vacate_slots]
  have hend : ((s.vacate i l.key).dispose i d).slots[i].state.isLive = false := by
    rw [dispose_slots, updVec_get_self]
    cases d <;> rfl
  have hnot : ∀ {P : Prop}, ((s.vacate i l.key).dispose i d).slots[i].state.isLive = true → P := fun hc => by
    rw [hend] at hc; cases hc
  refine h.of_edit (e' := e.without i) (.inl rfl) hpool.settings hothers
    (fun l' _ hl' => by rw [hl] at hl'; cases hl'; rfl) (fun _ hc _ => hnot hc) ?_ (fun k' hk' => ?_) ?_ ?_
    (agrees_without (h.entries _ e he) hpool.settings hothers hend) (fun hc => absurd rfl hc)
    (oneLeaseEach_of_slot h.once hothers fun _ hc _ => hnot hc)
  · rw [dispose_directory, vacate_entry, he]; rfl
  · rw [dispose_directory, vacate_otherKeys s i hk']
  · rw [dispose_directory]; exact vacate_rising s i l.key h.rising
  · rw [dispose_directory]
    exact (editEntry_length h.rising l.key fun _ => by rfl).trans_le h.capacity

/-! ### A slot joins its key's holders -/

theorem LeaseMode.hold_ne_unheld (m : LeaseMode) : m.hold ≠ .unheld := by cases m <;> nofun

/-- A holder of a compatible mode joins the end of the holder list (R25, R26, R54). -/
theorem agrees_addHolder {s t : State} {e : Entry} {i : SlotIndex} {l : Lease} (h : e.Agrees s)
    (hlimit : 1 ≤ s.settings.sharedLimit) (hset : t.settings = s.settings)
    (hothers : ∀ j : SlotIndex, j ≠ i → t.slots[j] = s.slots[j]) (hout : s.slots[i].state.isHolding = false)
    (hheld : t.slots[i].state = .held) (hl : t.slots[i].lease = some l) (hkey : l.key = e.key)
    (hc : s.compatible e l.mode = true) : ((e.dropWaiter i).addHolder i l.mode).Agrees t := by
  have hni : i ∉ e.holders := fun hmem => Slot.not_leases hout _ ((h.holders i).1 hmem)
  have hexclusive : l.mode = .exclusive → e.holders = [] := fun hm => by
    rw [hm] at hc
    exact List.isEmpty_iff.1 hc
  have hshared : l.mode = .shared → e.holdMode ≠ .exclusive ∧ e.holders.length < s.settings.sharedLimit := fun hm => by
    rw [hm, State.compatible, Bool.and_eq_true, bne_iff_ne, decide_eq_true_iff] at hc
    exact hc
  refine ⟨?_, h.queueOnce.filter _, fun j => ?_, fun j => ?_, ?_, fun j hj l' hl' => ?_, fun hmode => ?_, ?_, ?_⟩
  · exact List.nodup_append.2 ⟨h.holdersOnce, List.nodup_singleton i, fun a ha b hb hab =>
      hni (by rw [← List.mem_singleton.1 hb, ← hab]; exact ha)⟩
  · show j ∈ e.holders ++ [i] ↔ _
    rw [List.mem_append, List.mem_singleton]
    by_cases hj : j = i
    · subst hj
      rw [Slot.leases_iff hl, hheld]
      exact iff_of_true (.inr rfl) ⟨rfl, hkey⟩
    · rw [hothers j hj, h.holders j]
      exact or_iff_left hj
  · show j ∈ e.queue.filter (· != i) ↔ _
    rw [List.mem_filter, bne_iff_ne]
    by_cases hj : j = i
    · subst hj
      exact iff_of_false (fun hc => hc.2 rfl) (Slot.not_leases (by rw [hheld]; rfl) _)
    · rw [hothers j hj, h.waiters j]
      exact and_iff_left hj
  · exact fun hempty => absurd hempty (List.append_ne_nil_of_right_ne_nil _ (List.cons_ne_nil _ _))
  · show l'.mode.hold = l.mode.hold
    by_cases hji : j = i
    · subst hji
      rw [hl] at hl'
      cases hl'
      rfl
    · have hje : j ∈ e.holders := (List.mem_append.1 hj).resolve_right fun hc => hji (List.mem_singleton.1 hc)
      rw [hothers j hji] at hl'
      have hmode := h.mode j hje l' hl'
      cases hm : l.mode with
      | exclusive =>
        rw [hexclusive hm] at hje
        cases hje
      | shared =>
        cases hm' : l'.mode with
        | shared => rfl
        | exclusive =>
          rw [hm'] at hmode
          exact absurd hmode.symm (hshared hm).1
  · have hm : l.mode = .exclusive := by
      cases hm : l.mode with
      | exclusive => rfl
      | shared => rw [addHolder_holdMode, hm] at hmode; cases hmode
    rw [addHolder_holders, dropWaiter_holders, hexclusive hm]
    exact le_rfl
  · rw [addHolder_holders, dropWaiter_holders, List.length_append, hset]
    cases hm : l.mode with
    | exclusive => rw [hexclusive hm]; exact hlimit
    | shared => exact (hshared hm).2
  · rw [hset]
    exact (List.length_filter_le _ _).trans h.queued

/-- A grant to a waiter of the entry keeps the directory's agreement (R10, R54, R57). -/
theorem directoryAgrees_grantWaiter {s : State} {k : Word} {loose : Option Word}
    (hloose : loose = none ∨ loose = some k)
    (h : s.DirectoryAgrees loose) {e : Entry} (he : entryOf s.directory k = some e) {i : SlotIndex} (hi : i ∈ e.queue)
    {l : Lease} (hl : s.slots[i].lease = some l) (hc : s.compatible e l.mode = true) :
    (s.grantWaiter k i l).DirectoryAgrees loose := by
  have hagrees := h.entries k e he
  have hek : e.key = k := entryOf_key he
  obtain ⟨hwaiting, hkey⟩ := (Slot.leases_iff hl _ _).1 ((hagrees.waiters i).1 hi)
  have hlive := SlotState.isLive_of_isWaiting hwaiting
  have hout : s.slots[i].state.isHolding = false := by
    cases hst : s.slots[i].state with
    | waiting => rfl
    | free | held | grace | ended => rw [hst] at hwaiting; cases hwaiting
  have hpool := poolOnly_grantWaiter s k i l
  have hothers : ∀ j : SlotIndex, j ≠ i → (s.grantWaiter k i l).slots[j] = s.slots[j] := fun j hj =>
    (grantWaiter_untouched s k l hj).1
  have hself : (s.grantWaiter k i l).slots[i] = { s.slots[i] with state := .held, notice := some .granted } := by
    rw [grantWaiter_slots, updVec_get_self]
  have hleaseSelf : (s.grantWaiter k i l).slots[i].lease = some l := by rw [hself]; exact hl
  refine h.of_edit (i := i) hloose hpool.settings hothers (fun l' _ hl' => ?_) (fun l' _ hl' => ?_)
    (by rw [grantWaiter_entry, he]; rfl) (fun k' hk' => grantWaiter_otherKeys s i l hk')
    (grantWaiter_rising s k i l h.rising) ?_
    (agrees_addHolder hagrees h.sharedLimit.1 hpool.settings hothers hout (by rw [hself]) hleaseSelf hkey hc)
    (fun _ => .inl (List.append_ne_nil_of_right_ne_nil _ (List.cons_ne_nil _ _)))
    (oneLeaseEach_of_slot h.once hothers fun m _ hm => ?_)
  · rw [hl] at hl'
    cases hl'
    exact hkey.trans hek
  · rw [hleaseSelf] at hl'
    cases hl'
    exact hkey.trans hek
  · exact (editEntry_length (s := (s.modifySlot i _).loadCounter i l.term .term) h.rising k fun _ => by rfl).trans_le
      h.capacity
  · rw [hleaseSelf] at hm
    cases hm
    exact ⟨hlive, l, hl, rfl, rfl⟩

/-- Inside a regrant of `k`: the waiters still to be looked at stand in the entry's queue. -/
structure State.RegrantAgrees (s : State) (loose : Option Word) (k : Word) (ws : List SlotIndex) : Prop where
  agrees : s.DirectoryAgrees loose
  once : ws.Nodup
  queued : ∀ e, entryOf s.directory k = some e → ∀ j ∈ ws, j ∈ e.queue

theorem State.RegrantAgrees.pass {s : State} {loose : Option Word} {k : Word} {i : SlotIndex} {ws : List SlotIndex}
    (h : s.RegrantAgrees loose k (i :: ws)) : s.RegrantAgrees loose k ws :=
  ⟨h.agrees, (List.nodup_cons.1 h.once).2, fun e he j hj => h.queued e he j (List.mem_cons_of_mem _ hj)⟩

theorem State.RegrantAgrees.grant {s : State} {loose : Option Word} {k : Word} {i : SlotIndex} {ws : List SlotIndex}
    (hloose : loose = none ∨ loose = some k) (h : s.RegrantAgrees loose k (i :: ws)) {l : Lease} {e : Entry}
    (hl : s.slots[i].lease = some l) (he : entryOf s.directory k = some e) (hc : s.compatible e l.mode = true) :
    (s.grantWaiter k i l).RegrantAgrees loose k ws := by
  obtain ⟨hi, hnd⟩ := List.nodup_cons.1 h.once
  refine ⟨directoryAgrees_grantWaiter hloose h.agrees he (h.queued e he i List.mem_cons_self) hl hc, hnd,
    fun e' he' j hj => ?_⟩
  rw [grantWaiter_entry, he] at he'
  cases he'
  exact List.mem_filter.2 ⟨h.queued e he j (List.mem_cons_of_mem _ hj), bne_iff_ne.2 (ne_of_mem_of_not_mem hj hi)⟩

/-- A regrant keeps the directory's agreement: the waiters still to be looked at stay in the queue. -/
theorem directoryAgrees_regrant {s : State} {k : Word} {loose : Option Word} (hloose : loose = none ∨ loose = some k)
    (h : s.DirectoryAgrees loose) : (s.regrant k).DirectoryAgrees loose := by
  unfold State.regrant
  split
  · exact h
  · rename_i e he
    have hstart : s.RegrantAgrees loose k e.queue := ⟨h, (h.entries k e he).queueOnce, fun e' he' j hj => by
      obtain rfl := Option.some.inj (he.symm.trans he')
      exact hj⟩
    obtain ⟨_, hend⟩ := regrantOver_keeps (k := k) (P := fun ws u => u.RegrantAgrees loose k ws)
      (fun _ _ _ hu => hu.pass) (fun _ _ _ _ _ hu hl he' hc => hu.grant hloose hl he' hc) e.queue s hstart
    exact hend.agrees

/-- The removal of a slot, live or ENDED, keeps the directory (R4, R18, R32, R56). -/
theorem directoryAgrees_removeSlot {s : State} (h : s.DirectoryAgrees none) {i : SlotIndex} (d : Disposal)
    (hlease : s.slots[i].state.isLive = true → s.slots[i].lease.isSome = true) :
    (s.removeSlot i d).DirectoryAgrees none := by
  cases hlive : s.slots[i].state.isLive with
  | true =>
    obtain ⟨l, hl⟩ := Option.isSome_iff_exists.1 (hlease hlive)
    rw [removeSlot_live hlive hl]
    exact (directoryAgrees_regrant (.inr rfl) (directoryAgrees_vacated h hlive hl d)).settle
  | false =>
    rw [removeSlot_notLive hlive]
    refine h.of_slot i (poolOnly_dispose _ _ _) (dispose_directory _ _ _) (dispose_slots s i d) ?_
    obtain ⟨hhold, hwait⟩ := SlotState.notLive_iff.1 hlive
    refine ⟨?_, ?_, fun hc => by rw [hlive] at hc; cases hc⟩
    · rw [hhold]; cases d <;> rfl
    · rw [hwait]; cases d <;> rfl

/-! ### An ACQUIRE accepted -/

/-- The entry an accepted ACQUIRE finds or creates agrees with the pool (R30). -/
theorem agrees_entryOrNew {s : State} (h : s.DirectoryAgrees none) (k : Word) :
    (s.entryOrNew k).Agrees s ∧ (s.entryOrNew k).key = k := by
  unfold State.entryOrNew
  cases he : entryOf s.directory k with
  | some e => exact ⟨h.entries k e he, entryOf_key he⟩
  | none =>
    have hnone : ∀ (states : SlotState → Bool), (∀ st, states st = true → st.isLive = true) → ∀ j : SlotIndex,
        ¬ s.slots[j].leases states k := by
      rintro states hstates j ⟨hst, l, hl, rfl⟩
      obtain ⟨e, he'⟩ := h.listed j l (hstates _ hst) hl
      rw [he] at he'
      cases he'
    exact ⟨⟨List.nodup_nil, List.nodup_nil,
      fun j => iff_of_false List.not_mem_nil (hnone _ (fun _ => SlotState.isLive_of_isHolding) j),
      fun j => iff_of_false List.not_mem_nil (hnone _ (fun _ => SlotState.isLive_of_isWaiting) j),
      fun _ => rfl, nofun, nofun, Nat.zero_le _, Nat.zero_le _⟩, rfl⟩

/-- A waiter joins the end of the wait queue (R27). -/
theorem agrees_addWaiter {s t : State} {e : Entry} {i : SlotIndex} {l : Lease} (h : e.Agrees s)
    (hset : t.settings = s.settings) (hothers : ∀ j : SlotIndex, j ≠ i → t.slots[j] = s.slots[j])
    (hout : s.slots[i].state.isLive = false) (hwaiting : t.slots[i].state = .waiting)
    (hl : t.slots[i].lease = some l) (hkey : l.key = e.key) (hroom : e.queue.length < s.settings.queueLimit) :
    (e.addWaiter i).Agrees t := by
  obtain ⟨houth, houtw⟩ := SlotState.notLive_iff.1 hout
  have hnh : i ∉ e.holders := fun hmem => Slot.not_leases houth _ ((h.holders i).1 hmem)
  have hnq : i ∉ e.queue := fun hmem => Slot.not_leases houtw _ ((h.waiters i).1 hmem)
  refine ⟨h.holdersOnce, ?_, fun j => ?_, fun j => ?_, h.unheld, fun j hj l' hl' => ?_, h.alone,
    by rw [hset]; exact h.shared, ?_⟩
  · exact List.nodup_append.2 ⟨h.queueOnce, List.nodup_singleton i, fun a ha b hb hab =>
      hnq (by rw [← List.mem_singleton.1 hb, ← hab]; exact ha)⟩
  · show j ∈ e.holders ↔ _
    by_cases hj : j = i
    · subst hj
      exact iff_of_false hnh (Slot.not_leases (by rw [hwaiting]; rfl) _)
    · rw [hothers j hj]
      exact h.holders j
  · show j ∈ e.queue ++ [i] ↔ _
    rw [List.mem_append, List.mem_singleton]
    by_cases hj : j = i
    · subst hj
      rw [Slot.leases_iff hl, hwaiting]
      exact iff_of_true (.inr rfl) ⟨rfl, hkey⟩
    · rw [hothers j hj, h.waiters j]
      exact or_iff_left hj
  · rw [hothers j (ne_of_mem_of_not_mem hj hnh)] at hl'
    exact h.mode j hj l' hl'
  · rw [addWaiter_queue, List.length_append, hset]
    exact hroom

/-- A slot that takes a lease its station has no live lease beside (R49). -/
theorem oneLeaseEach_of_first {s t : State} (h : s.OneLeaseEach) {i : SlotIndex} {l : Lease}
    (hothers : ∀ j : SlotIndex, j ≠ i → t.slots[j] = s.slots[j]) (hl : t.slots[i].lease = some l)
    (hfirst : s.liveLeaseOn l.station l.key = none) : t.OneLeaseEach := by
  have hnone : ∀ (j : SlotIndex) (m : Lease), j ≠ i → t.slots[j].state.isLive = true → t.slots[j].lease = some m →
      ¬ (m.station = l.station ∧ m.key = l.key) := by
    intro j m hj hlive hm ⟨hst, hk⟩
    rw [hothers j hj] at hlive hm
    have hnot := List.find?_eq_none.1 hfirst j (List.mem_finRange j)
    rw [hlive, hm, Bool.true_and] at hnot
    exact hnot (Bool.and_eq_true_iff.2 ⟨beq_iff_eq.2 hst, beq_iff_eq.2 hk⟩)
  intro a b la lb ha hb hla hlb hst hk
  by_cases hai : a = i
  · by_cases hbi : b = i
    · rw [hai, hbi]
    · subst hai
      rw [hl] at hla
      cases hla
      exact absurd ⟨hst.symm, hk.symm⟩ (hnone b lb hbi hb hlb)
  · by_cases hbi : b = i
    · subst hbi
      rw [hl] at hlb
      cases hlb
      exact absurd ⟨hst, hk⟩ (hnone a la hai ha hla)
    · rw [hothers a hai] at ha hla
      rw [hothers b hbi] at hb hlb
      exact h a b la lb ha hb hla hlb hst hk

/-- The place an ACQUIRE takes in the directory: the entry of its key put back with it, the pool changed in its slot. -/
theorem directoryAgrees_admitted {s t : State} (h : s.DirectoryAgrees none) {i : SlotIndex} {l : Lease}
    (hadmits : s.Admits i l) {e' : Entry} (hkey : e'.key = l.key) (hset : t.settings = s.settings)
    (hothers : ∀ j : SlotIndex, j ≠ i → t.slots[j] = s.slots[j]) (hl : t.slots[i].lease = some l)
    (hd : t.directory = putEntry e' s.directory) (hagrees : e'.Agrees t) (hused : e'.InUse) :
    t.DirectoryAgrees none := by
  refine h.of_edit (i := i) (k := l.key) (e' := e') (.inl rfl) hset hothers (fun l' hlive _ => ?_)
    (fun l' _ hl' => ?_) ?_
    (fun k' hk' => ?_) (by rw [hd]; exact putEntry_rising h.rising) ?_ hagrees (fun _ => hused)
    (oneLeaseEach_of_first h.once hothers hl hadmits.first)
  · rw [hadmits.free] at hlive
    cases hlive
  · rw [hl] at hl'
    cases hl'
    rfl
  · rw [hd, ← hkey]
    exact entryOf_putEntry_self _ _
  · rw [hd]
    exact entryOf_putEntry_ne (by rw [hkey]; exact hk') _
  · rw [hd]
    cases he : entryOf s.directory l.key with
    | none => exact (putEntry_length_le _ _).trans (hadmits.capacity he)
    | some x => exact (putEntry_length_of_some h.rising (by rw [hkey]; exact he)).trans_le h.capacity

theorem occupied_others {s t : State} {i : SlotIndex} {f : Slot → Slot} (hs : t.slots = updVec s.slots i f)
    (j : SlotIndex) (hj : j ≠ i) : t.slots[j] = s.slots[j] := by rw [hs, updVec_get_ne _ hj]

theorem grantNow_slots (s : State) (i : SlotIndex) (l : Lease) :
    (s.grantNow i l).slots = updVec s.slots i fun sl =>
      { sl with state := .held, lease := some l, extension := none, notice := none } := rfl

theorem queueUp_slots (s : State) (i : SlotIndex) (l : Lease) :
    (s.queueUp i l).slots = updVec s.slots i fun sl =>
      { sl with state := .waiting, lease := some l, extension := none, notice := none } := by
  unfold State.queueUp; dsimp only; split <;> rfl

theorem queueUp_directory (s : State) (i : SlotIndex) (l : Lease) :
    (s.queueUp i l).directory = putEntry ((s.entryOrNew l.key).addWaiter i) s.directory := rfl

theorem directoryAgrees_grantNow {s : State} (h : s.DirectoryAgrees none) {i : SlotIndex} {l : Lease}
    (hadmits : s.Admits i l) (hgrants : s.immediateGrant (s.entryOrNew l.key) l.mode = true) :
    (s.grantNow i l).DirectoryAgrees none := by
  obtain ⟨hagrees, hkey⟩ := agrees_entryOrNew h l.key
  have hothers := occupied_others (grantNow_slots s i l)
  have hself : (s.grantNow i l).slots[i].lease = some l := by rw [grantNow_slots, updVec_get_self]
  have hfree : s.slots[i].state.isLive = false := by rw [hadmits.free]; rfl
  have hnq : i ∉ (s.entryOrNew l.key).queue := fun hmem =>
    Slot.not_leases (SlotState.notLive_iff.1 hfree).2 _ ((hagrees.waiters i).1 hmem)
  have hdrop : (s.entryOrNew l.key).dropWaiter i = s.entryOrNew l.key := by
    unfold Entry.dropWaiter
    rw [List.filter_eq_self.2 fun j hj => bne_iff_ne.2 (ne_of_mem_of_not_mem hj hnq)]
  have hjoined := agrees_addHolder (t := s.grantNow i l) hagrees h.sharedLimit.1 rfl hothers
    (SlotState.notLive_iff.1 hfree).1 (by rw [grantNow_slots, updVec_get_self]) hself hkey.symm
    (Bool.and_eq_true_iff.1 hgrants).2
  rw [hdrop] at hjoined
  exact directoryAgrees_admitted (e' := (s.entryOrNew l.key).addHolder i l.mode) h hadmits hkey rfl hothers hself rfl
    hjoined
    (.inl (List.append_ne_nil_of_right_ne_nil _ (List.cons_ne_nil _ _)))

theorem directoryAgrees_queueUp {s : State} (h : s.DirectoryAgrees none) {i : SlotIndex} {l : Lease}
    (hadmits : s.Admits i l) (hroom : (s.entryOrNew l.key).queue.length < s.settings.queueLimit) :
    (s.queueUp i l).DirectoryAgrees none := by
  obtain ⟨hagrees, hkey⟩ := agrees_entryOrNew h l.key
  have hset := (poolOnly_queueUp s i l).settings
  have hothers := occupied_others (queueUp_slots s i l)
  have hself : (s.queueUp i l).slots[i].lease = some l := by rw [queueUp_slots, updVec_get_self]
  have hjoined := agrees_addWaiter (t := s.queueUp i l) hagrees hset hothers (by rw [hadmits.free]; rfl)
    (by rw [queueUp_slots, updVec_get_self]) hself hkey.symm hroom
  exact directoryAgrees_admitted (e' := (s.entryOrNew l.key).addWaiter i) h hadmits hkey hset hothers hself
    (queueUp_directory s i l) hjoined
    (.inr (List.append_ne_nil_of_right_ne_nil _ (List.cons_ne_nil _ _)))

/-! ### CONVERT -/

/-- The sole holder of an entry changes its mode, and with it the entry's hold mode (R26, R64, R65). -/
theorem directoryAgrees_setMode {s : State} (h : s.DirectoryAgrees none) {i : SlotIndex} {l : Lease} {e : Entry}
    (hheld : s.slots[i].state = .held) (hl : s.slots[i].lease = some l) (he : entryOf s.directory l.key = some e)
    (hsole : e.holders = [i]) (m : LeaseMode) :
    ((s.modifySlot i fun sl => { sl with lease := some { l with mode := m } }).editEntry l.key fun x =>
      { x with holdMode := m.hold }).DirectoryAgrees none := by
  generalize ht : ((s.modifySlot i fun sl => { sl with lease := some { l with mode := m } }).editEntry l.key fun x =>
    { x with holdMode := m.hold }) = t
  have hpool : PoolOnly s t := ht ▸ (poolOnly_modifySlot _ _ _).trans (poolOnly_editEntry _ _ _)
  have hslots : t.slots = updVec s.slots i fun sl => { sl with lease := some { l with mode := m } } := by
    rw [← ht, editEntry_slots, modifySlot_slots]
  have hothers := occupied_others hslots
  have hself : t.slots[i] = { s.slots[i] with lease := some { l with mode := m } } := by rw [hslots, updVec_get_self]
  have hleases : ∀ (states : SlotState → Bool) (k : Word) (j : SlotIndex),
      t.slots[j].leases states k ↔ s.slots[j].leases states k := by
    intro states k j
    by_cases hj : j = i
    · subst hj
      rw [hself, Slot.leases_iff (l := { l with mode := m }) rfl, Slot.leases_iff hl]
    · rw [hothers j hj]
  have hagrees := h.entries _ e he
  refine h.of_edit (i := i) (k := l.key) (e' := { e with holdMode := m.hold }) (.inl rfl) hpool.settings hothers
    (fun l' _ hl' => by rw [hl] at hl'; cases hl'; rfl) (fun l' _ hl' => by rw [hself] at hl'; cases hl'; rfl) ?_
    (fun k' hk' => ?_) (ht ▸ editEntry_rising _ _ _ h.rising) ?_ ?_ (fun _ => h.used _ e nofun he)
    (oneLeaseEach_of_slot h.once hothers fun m' _ hm' => ?_)
  · rw [← ht, editEntry_self _ _ _ fun _ => by rfl, modifySlot_directory, he]
    rfl
  · rw [← ht, editEntry_ne _ _ (fun _ => by rfl) hk', modifySlot_directory]
  · rw [← ht]
    exact (editEntry_length (s := s.modifySlot i _) h.rising _ fun _ => by rfl).trans_le h.capacity
  · refine ⟨hagrees.holdersOnce, hagrees.queueOnce, fun j => (hagrees.holders j).trans (hleases _ _ j).symm,
      fun j => (hagrees.waiters j).trans (hleases _ _ j).symm, fun hempty => ?_, fun j hj l' hl' => ?_, fun _ => ?_,
      by rw [hpool.settings]; exact hagrees.shared, by rw [hpool.settings]; exact hagrees.queued⟩
    · rw [show e.holders = [] from hempty] at hsole
      cases hsole
    · have hji : j = i := by
        rw [show j ∈ e.holders ↔ j ∈ [i] by rw [hsole]] at hj
        exact List.mem_singleton.1 hj
      subst hji
      rw [hself] at hl'
      cases hl'
      rfl
    · show e.holders.length ≤ 1
      rw [hsole]
      exact le_rfl
  · rw [hself] at hm'
    cases hm'
    exact ⟨by rw [hheld]; rfl, l, hl, rfl, rfl⟩

/-- The holder of an EXCLUSIVE lease is its entry's only one (R25). -/
theorem holders_of_exclusive {s : State} (h : s.DirectoryAgrees none) {i : SlotIndex} {l : Lease} {e : Entry}
    (hheld : s.slots[i].state = .held) (hl : s.slots[i].lease = some l) (he : entryOf s.directory l.key = some e)
    (hm : l.mode = .exclusive) : e.holders = [i] := by
  have hagrees := h.entries _ e he
  have hi : i ∈ e.holders :=
      (hagrees.holders i).2 ((Slot.leases_iff hl _ _).2 ⟨by rw [hheld]; rfl, (entryOf_key he).symm⟩)
  have halone := hagrees.alone (by rw [← hagrees.mode i hi l hl, hm]; rfl)
  obtain ⟨x, hx⟩ := List.length_eq_one_iff.1 (Nat.le_antisymm halone (List.length_pos_of_mem hi))
  rw [hx] at hi ⊢
  rw [List.mem_singleton.1 hi]

theorem soleHolder_iff {s : State} {i : SlotIndex} {k : Word} :
    s.soleHolder i k = true ↔ ∃ e, entryOf s.directory k = some e ∧ e.holders = [i] := by
  unfold State.soleHolder
  cases entryOf s.directory k with
  | none => exact ⟨nofun, fun ⟨_, he, _⟩ => by cases he⟩
  | some e => simp

/-! ### Every move -/

theorem directoryAgrees_hardwareReset {s t : State} (h : execHardwareReset s = .next t) : t.DirectoryAgrees none := by
  have hd : t.directory = [] := by cases h; rfl
  have hset : t.settings = .reset 0 := by cases h; rfl
  have hslots : ∀ i : SlotIndex, t.slots[i] = .reset := fun i => by
    cases h
    exact Vector.getElem_replicate ..
  refine ⟨by rw [hd]; exact List.Pairwise.nil, fun k e he => ?_, fun k e _ he => ?_, fun i l hlive _ => ?_,
    by rw [hd]; exact Nat.zero_le _, by rw [hset]; decide, by rw [hset]; decide, fun i j _ _ hi => ?_⟩
  · rw [hd] at he; cases he
  · rw [hd] at he; cases he
  · rw [hslots] at hlive; cases hlive
  · rw [hslots] at hi; cases hi

/-- A limit written while the directory is empty, when there is no live lease (R169). -/
theorem directoryAgrees_limits {s : State} (h : s.DirectoryAgrees none) {settings : Settings}
    (hempty : s.directory = []) (hsl : 1 ≤ settings.sharedLimit ∧ settings.sharedLimit ≤ 8)
    (hql : 1 ≤ settings.queueLimit ∧ settings.queueLimit ≤ 32) :
    ({ s with settings := settings }).DirectoryAgrees none := by
  refine ⟨h.rising, fun k e he => ?_, h.used, h.listed, h.capacity, hsl, hql, h.once⟩
  rw [show entryOf s.directory k = none by rw [hempty]; rfl] at he
  cases he

/-- Every move keeps the directory in agreement with the pool. -/
theorem directoryAgrees_move {s t : State} (hpool : s.PoolSound) (h : s.DirectoryAgrees none) (hm : Move s t) :
    t.DirectoryAgrees none := by
  have hlease : ∀ i : SlotIndex, s.slots[i].state.isLive = true → s.slots[i].lease.isSome = true := fun i hlive =>
    (hpool.1 i).lease_isSome fun hfree => by rw [hfree] at hlive; cases hlive
  cases hm
  case aside same => exact h.of_same same.slots same.directory same.sharedLimit same.queueLimit
  case reset hreset => exact directoryAgrees_hardwareReset hreset
  case tick | leaseRunout | dropClaim | livenessRunout | dropLapse | reload | endSession | detached | enterRange |
      advance | stationDone | rangeDone => exact h.of_same rfl rfl rfl rfl
  case beginSession p term grace _ =>
    rw [beginSession_eq]
    exact h.of_same rfl rfl rfl rfl
  case limits settings hempty hsl hql =>
    refine directoryAgrees_limits h hempty ?_ ?_
    · rcases hsl with hsl | hsl
      · exact hsl
      · rw [hsl]; exact h.sharedLimit
    · rcases hql with hql | hql
      · exact hql
      · rw [hql]; exact h.queueLimit
  case grantNow i l hadmits hgrants => exact directoryAgrees_grantNow h hadmits hgrants
  case queueUp i l hadmits hroom => exact directoryAgrees_queueUp h hadmits hroom
  case renew i l term hholding hl =>
    refine h.of_slot i
      (f := fun sl => { sl with state := .held, extension := none, lease := some { l with term := _ } }) rfl rfl rfl ?_
    refine ⟨?_, ?_, fun _ => by rw [hl]; rfl⟩ <;> rcases hholding with hs | hs <;> rw [hs] <;> rfl
  case setExtension i term _ =>
    exact h.of_slot i (f := fun sl => { sl with extension := if term = 0 then none else some term }) rfl rfl rfl
      ⟨rfl, rfl, fun _ => rfl⟩
  case stepDown i l hheld hl hmode =>
    obtain ⟨e, he⟩ := h.listed i l (by rw [hheld]; rfl) hl
    exact directoryAgrees_regrant (.inl rfl)
      (directoryAgrees_setMode h hheld hl he (holders_of_exclusive h hheld hl he hmode) .shared)
  case stepUp i l hheld hl hsole =>
    obtain ⟨e, he, hholders⟩ := soleHolder_iff.1 hsole
    exact directoryAgrees_setMode h hheld hl he hholders .exclusive
  case applyExtension i x f _ =>
    exact h.of_slot i (f := fun sl => { sl with extension := none, notice := some .extended }) rfl rfl rfl
      ⟨rfl, rfl, fun _ => rfl⟩
  case lapseInto i g f hheld _ =>
    refine h.of_slot i (f := fun sl => { sl with state := .grace, notice := some .lapsed }) rfl rfl rfl ?_
    exact ⟨by rw [hheld]; rfl, by rw [hheld]; rfl, fun _ => rfl⟩
  case removeFree i _ => exact directoryAgrees_removeSlot h .free (hlease i)
  case removeEnded i kind f _ _ =>
    exact directoryAgrees_removeSlot (s := s.modifyCounter i f) (h.of_same rfl rfl rfl rfl) _ (hlease i)
  case dropNotice i _ =>
    exact h.of_slot i (f := fun sl => { sl with notice := none }) rfl rfl rfl ⟨rfl, rfl, fun _ => rfl⟩
  case regrant k => exact ((directoryAgrees_regrant (.inl rfl) h).loosen k).settle

/-- Settles O60: a step is a chain of moves, and each keeps the directory with the pool. -/
theorem everyStepKeepsTheDirectory : Obligations.EveryStepKeepsTheDirectory := by
  intro s t hpool hsound honce hstep
  have hend := (step_moves hstep).keeps (P := fun u => u.PoolSound ∧ u.DirectoryAgrees none)
    (fun _ _ h hm => ⟨poolSound_move h.1 hm, directoryAgrees_move h.1 h.2 hm⟩)
    ⟨hpool, directoryAgrees_of_sound hsound honce⟩
  exact ⟨hend.2.sound, hend.2.once⟩

end Sys2Proof.Machine
end

section
/-! PROOFS. One step, reset and its end, the formats, reloads and the end of a session (chapters 1, 4, 5, 8, 11). -/

namespace Sys2Proof.Machine

/-! ### One step (log entry 1) -/

/-- Settles O1: `step` runs `exec` on the queue's rest. -/
theorem stepTakesTheFrontCommand : Obligations.StepTakesTheFrontCommand := fun _ _ => rfl

theorem internalRuns_iff (s : State) : s.internalRuns = true ↔
    s.settings.tickSource = .internal ∧ s.timeBase.held = false ∧ s.inReset = false := by
  simp only [State.internalRuns, Bool.and_eq_true, beq_iff_eq, Bool.not_eq_true', and_assoc]

theorem step_of_idle {s : State} (h : s.pending = []) : step s = .next s.microsecond := by
  unfold step
  rw [h]

/-- The microsecond that completes an interval is the internal tick (log entry 2). -/
theorem execInternalTick_of_runs {s : State} (h : s.internalRuns = true) :
    execInternalTick s = .next s.deliverTick.beginInterval := if_pos h

/-- Settles O2: by whether the internal source runs, and then by whether the interval completes. -/
theorem idleStepPassesAMicrosecond : Obligations.IdleStepPassesAMicrosecond := by
  intro s hidle runs
  rw [step_of_idle hidle]
  refine ⟨fun ⟨hruns, hcount⟩ => ?_, fun ⟨hruns, hcount⟩ => ?_, fun hruns => ?_⟩
  · rw [State.microsecond, if_pos ((internalRuns_iff s).2 hruns), if_neg (BitVec.not_le.2 hcount)]
    rfl
  · have hinternal := (internalRuns_iff s).2 hruns
    rw [State.microsecond, if_pos hinternal, if_pos hcount]
    exact (execInternalTick_of_runs hinternal).symm
  · rw [State.microsecond, if_neg fun hinternal => hruns ((internalRuns_iff s).1 hinternal)]

/-! ### Reset -/

theorem noticeCondition_of_noNotices {s : State} (h : ∀ i : SlotIndex, s.slots[i].notice = none) (p : Station) :
    s.noticeCondition p = false := by
  rw [State.noticeCondition, List.any_eq_false]
  intro i _
  rw [Slot.inNoticeSet, h i]
  exact Bool.false_ne_true

theorem ohold_of_inReset {s : State} (h : s.inReset = true) (n : ChannelNumber) : s.ohold n = false := by
  rw [State.ohold, h]
  rfl

theorem oid_of_inReset {s : State} (h : s.inReset = true) (n : ChannelNumber) : s.oid n = 0 := by
  rw [State.oid, ohold_of_inReset h n]
  rfl

theorem Shifter.atReset_ne_receiving (sh : Shifter) (f : Frame) : sh.atReset ≠ .receiving f := by
  cases sh <;> exact nofun

/-- The state hardware reset leads to. -/
def State.inHardwareReset (s : State) : State :=
  { State.reset with
    pending := s.pending, inReset := true,
    ports := mapVec s.ports fun q =>
      { Port.reset with shifter := q.shifter.atReset, clockHigh := q.clockHigh, freeIndex := q.freeIndex } }

theorem exec_hardwareReset (s : State) : exec .hardwareReset s = .next s.inHardwareReset := rfl

section inHardwareReset
variable (s : State)

theorem inHardwareReset_slot (i : SlotIndex) : s.inHardwareReset.slots[i] = .reset := Vector.getElem_replicate ..
theorem inHardwareReset_leaseCounter (i : SlotIndex) : s.inHardwareReset.leaseCounters[i] = .reset :=
  Vector.getElem_replicate ..
theorem inHardwareReset_session (p : Station) : s.inHardwareReset.sessions[p] = .reset := Vector.getElem_replicate ..
theorem inHardwareReset_livenessCounter (p : Station) : s.inHardwareReset.livenessCounters[p] = .reset :=
  Vector.getElem_replicate ..
theorem inHardwareReset_sessionCompletion (p : Station) : s.inHardwareReset.sessionCompletions[p] = none :=
  Vector.getElem_replicate ..
theorem inHardwareReset_port (p : Station) : s.inHardwareReset.ports[p] =
    { Port.reset with
      shifter := s.ports[p].shifter.atReset, clockHigh := s.ports[p].clockHigh, freeIndex := s.ports[p].freeIndex } :=
  mapVec_get ..

theorem inHardwareReset_noticeCondition (p : Station) : s.inHardwareReset.noticeCondition p = false :=
  noticeCondition_of_noNotices (fun i => by rw [inHardwareReset_slot]; rfl) p

theorem inHardwareReset_statusByte (p : Station) : s.inHardwareReset.statusByte p = 0x00 := by
  rw [State.statusByte, inHardwareReset_noticeCondition, inHardwareReset_port, inHardwareReset_session]
  show (BitVec.ofBool false ++ BitVec.ofBool false ++ BitVec.ofBool false) ++ 0b00#2 ++
    (BitVec.ofBool false ++ 0#2) = 0x00#8
  decide

theorem inHardwareReset_attention (p : Station) : s.inHardwareReset.attention p = false := by
  rw [State.attention, inHardwareReset_noticeCondition, inHardwareReset_port]
  rfl

end inHardwareReset

/-- Settles O3: every record of the state that reset leads to, read off. -/
theorem hardwareResetClearsThePart : Obligations.HardwareResetClearsThePart := by
  intro s
  refine ⟨_, exec_hardwareReset s, rfl,
    fun i => ⟨inHardwareReset_slot s i, inHardwareReset_leaseCounter s i⟩, rfl, fun p => ?_, rfl, rfl, rfl, rfl, rfl,
      rfl,
    rfl, fun p => Vector.getElem_replicate .., rfl, rfl, rfl, rfl, rfl,
    fun n => ⟨Vector.getElem_replicate .., ohold_of_inReset rfl n, oid_of_inReset rfl n⟩⟩
  refine ⟨inHardwareReset_session s p, inHardwareReset_livenessCounter s p, inHardwareReset_sessionCompletion s p, ?_⟩
  rw [inHardwareReset_port]
  exact ⟨rfl, rfl, rfl, rfl, rfl, Shifter.atReset_ne_receiving _, inHardwareReset_statusByte s p,
    inHardwareReset_attention s p⟩

/-- Settles O4: the end of reset is one record update. -/
theorem endOfResetReadsTheStraps : Obligations.EndOfResetReadsTheStraps := by
  intro s strap hreset
  show execEndOfReset strap s = _
  rw [execEndOfReset, if_pos hreset]
  rfl

theorem Port.sound_reset : Port.reset.Sound where
  acks := Nat.zero_le _
  room := nofun
  records := nofun
  fetched := nofun
  reload := rfl

/-- Settles O5: the pool, the counters, the sweeps and the directory are those hardware reset leaves, which keep their
invariants from any state; each port is as reset has it. -/
theorem resetKeepsEveryInvariant : Obligations.ResetKeepsEveryInvariant := by
  have hreset := exec_hardwareReset State.reset
  have hdirectory := directoryAgrees_hardwareReset hreset
  have hagrees : State.reset.DirectoryAgrees none := hdirectory.of_same rfl rfl rfl rfl
  have hpool : State.reset.inHardwareReset.PoolSound := poolSound_hardwareReset hreset
  have hcounters : State.reset.inHardwareReset.CountersSound := countersSound_hardwareReset hreset
  refine ⟨hpool, hcounters, ?_, fun p => ?_, hagrees.sound, hagrees.once⟩
  · obtain ⟨orders, sessions, cleared, atMostTwo, idle⟩ := sweepSound_hardwareReset hreset
    exact ⟨orders, sessions, fun p => ⟨(cleared p).visited, (cleared p).completed⟩, atMostTwo, idle⟩
  · rw [show State.reset.ports[p] = Port.reset from Vector.getElem_replicate ..]
    exact Port.sound_reset

/-! ### Handles, words and bytes (R5, section 11.1) -/

theorem handleOf_toNat (g : Generation) (i : SlotIndex) : (handleOf g i).toNat = g.toNat * 256 + i.val := by
  rw [handleOf, BitVec.toNat_append, BitVec.toNat_append, BitVec.toNat_ofFin, ← Nat.shiftLeft_add_eq_or_of_lt i.isLt,
    Nat.shiftLeft_eq]
  simp

theorem handleGeneration_toNat (h : Word) : (handleGeneration h).toNat = h.toNat / 256 % 64 := by
  rw [handleGeneration, BitVec.extractLsb'_toNat, Nat.shiftRight_eq_div_pow]

theorem handleSlot_val (h : Word) : (handleSlot h).val = h.toNat % 256 := by
  show (h.extractLsb' 0 8).toNat = _
  rw [BitVec.extractLsb'_toNat, Nat.shiftRight_zero]

theorem handleGeneration_handleOf (g : Generation) (i : SlotIndex) : handleGeneration (handleOf g i) = g := by
  apply BitVec.eq_of_toNat_eq
  rw [handleGeneration_toNat, handleOf_toNat]
  omega

theorem handleSlot_handleOf (g : Generation) (i : SlotIndex) : handleSlot (handleOf g i) = i := by
  apply Fin.ext
  rw [handleSlot_val, handleOf_toNat]
  omega

/-- A well-formed handle is the handle of its generation and slot (R5, R7). -/
theorem handleOf_generation_slot {h : Word} (hw : h < 0x4000#16) :
    handleOf (handleGeneration h) (handleSlot h) = h := by
  apply BitVec.eq_of_toNat_eq
  have hlt : h.toNat < 0x4000 := hw
  rw [handleOf_toNat, handleGeneration_toNat, handleSlot_val]
  omega

theorem wordBytes_toNat (w : Word) : (wordBytes w).map BitVec.toNat = [w.toNat / 256, w.toNat % 256] := by
  have hhigh : (w.extractLsb' 8 8).toNat = w.toNat / 256 := by
    rw [BitVec.extractLsb'_toNat, Nat.shiftRight_eq_div_pow]
    omega
  have hlow : (w.extractLsb' 0 8).toNat = w.toNat % 256 := by
    rw [BitVec.extractLsb'_toNat, Nat.shiftRight_zero]
  rw [wordBytes, List.map_cons, List.map_cons, List.map_nil, hhigh, hlow]

theorem byteBits_getElem? (b : Byte) {n : Nat} (h : n < 8) : (byteBits b)[n]? = some (b.getLsbD (7 - n)) := by
  interval_cases n <;> rfl

/-- Settles O17: the result record by its definition, the codes by evaluation, handles, words and bytes by the lemmas
above. -/
theorem resultPlaced : Obligations.ResultPlaced :=
  ⟨fun _ _ _ _ => rfl, rfl, rfl, rfl, rfl, rfl,
    fun g i => ⟨handleOf_toNat g i, handleGeneration_handleOf g i, handleSlot_handleOf g i⟩,
    fun _ h => handleOf_generation_slot h, wordBytes_toNat,
    fun b rest => ⟨byteBits_length b, fun _ h => byteBits_getElem? b h, bitsByte_byteBits b rest⟩⟩

/-! ### Unknown codes (R157) -/

theorem ownerOf_eq_port {code : Byte} (hge : code ∉ grantEngineCodes) (hsu : code ∉ sessionUnitCodes)
    (hcu : code ∉ configurationUnitCodes) : ownerOf code = .port := by
  rw [ownerOf, if_neg hge, if_neg hsu, if_neg hcu]

/-- The posted commands of section 11.2. -/
def postedCodes : List Byte :=
  [0x20, 0x21, 0x30, 0x31, 0x32, 0x33, 0x34, 0x38, 0x39, 0x60, 0x61, 0x62, 0x68, 0x69, 0x6A, 0x6B]

theorem grantEngineCodes_subset : grantEngineCodes ⊆ postedCodes := by decide
theorem sessionUnitCodes_subset : sessionUnitCodes ⊆ postedCodes := by decide
theorem configurationUnitCodes_subset : configurationUnitCodes ⊆ postedCodes := by decide

/-- Settles O18: a code outside the table has no owning block but the port. -/
theorem unknownCodeAnswered : Obligations.UnknownCodeAnswered := by
  intro s p code args hoffers hcode
  have howner : ownerOf code = .port :=
    ownerOf_eq_port (fun h => hcode (grantEngineCodes_subset h)) (fun h => hcode (sessionUnitCodes_subset h))
      (fun h => hcode (configurationUnitCodes_subset h))
  show execBadCmd p s = _
  unfold execBadCmd
  rw [show s.ports[p].command = _ from hoffers]
  simp only [howner, Bool.true_and, beq_self_eq_true, if_true]
  rfl

/-! ### Reloads (R100, R101, R155) -/

theorem exec_livenessReload_of_some {s : State} {p : Station} {which : Nat} {r : Reload}
    (hr : s.ports[p].reloads[which]? = some r) :
    exec (.livenessReload p which) s =
      let taken := s.modifyPort p fun q => q.reloadTaken which r
      if s.sessions[p].state = .attached ∧ s.sessions[p].livenessTerm ≠ 0 then
        .next (taken.loadLiveness p s.sessions[p].livenessTerm)
      else .next taken := by
  show execLivenessReload p which s = _
  unfold execLivenessReload
  rw [hr]
  rfl

/-- Settles O19: what the reload does to the counter, and to the port by the kind of reload and the command state. -/
theorem livenessReloadTaken : Obligations.LivenessReloadTaken := by
  intro s p which r hr q port' counter
  rw [exec_livenessReload_of_some hr]
  have hport : s.ports[p].reloadTaken which r = port' := by
    unfold port' Port.reloadTaken
    cases r with
    | plain => rfl
    | ofCommand => cases hc : s.ports[p].command <;> simp only [q, CommandState.passOn, hc]
  rw [modifyPort_of_eq s p (fun q => q.reloadTaken which r) hport]
  split
  · rfl
  · rw [show s.livenessCounters.set p counter = s.livenessCounters from Vector.set_getElem_self ..]

/-! ### The end of a session (R98, R111) -/

/-- Settles O21: the three records that the end of a session changes. -/
theorem sessionEndOrdersASweep : Obligations.SessionEndOrdersASweep := by
  intro s p cause
  simp only [← List.isEmpty_iff]
  rfl

end Sys2Proof.Machine
end

section
/-! PROOFS. The Configuration Unit and time (chapters 4 and 9). -/

namespace Sys2Proof.Machine

/-! ### The items (R162, R164, section 11.4) -/

theorem rangeCtrlWord_eq (r : KeyRange) : rangeCtrlWord r = r.ctrlShown := by
  have hbits : ∀ (level : BitVec 2) (invert enable : Bool),
      ((0#10 ++ level) ++ 0#2) ++ (BitVec.ofBool invert ++ BitVec.ofBool enable) =
        BitVec.ofNat 16 (enable.toNat + 2 * invert.toNat + 16 * level.toNat) := by decide
  exact hbits r.level r.invert r.enable

theorem channelCtrlWord_eq (c : Channel) : channelCtrlWord c = c.ctrlShown := by
  have hbits : ∀ graceDrop enable : Bool, 0#14 ++ (BitVec.ofBool graceDrop ++ BitVec.ofBool enable) =
      BitVec.ofNat 16 (enable.toNat + 2 * graceDrop.toNat) := by decide
  exact hbits c.graceDrop c.enable

/-- The numbers of the items, in the order of the table. -/
def itemNumbers : List Byte :=
  [0x01, 0x02, 0x10, 0x11, 0x12, 0x13, 0x18, 0x19, 0x1A, 0x1B, 0x20, 0x21, 0x22, 0x24, 0x25, 0x26, 0x30, 0x31,
    0x40, 0x41, 0x42, 0x43, 0x48, 0x49, 0x4A, 0x4B, 0x70, 0x71, 0x72]

theorem itemTable_numbers (s : State) : s.itemTable.map Prod.fst = itemNumbers := rfl

theorem mem_four {item a b c d : Byte} : item ∈ [a, b, c, d] ↔ item = a ∨ item = b ∨ item = c ∨ item = d := by
  simp only [List.mem_cons, List.not_mem_nil, or_false]

section groups
variable (s : State) {item : Byte}

theorem readItem_accessLevel (h : item ∈ accessLevelItems) :
    s.readItem item = some (s.settings.accessLevel[itemIndex item].setWidth 16) := by
  rcases mem_four.1 h with rfl | rfl | rfl | rfl <;> rfl

theorem readItem_quota (h : item ∈ quotaItems) :
    s.readItem item = some (BitVec.ofNat 16 s.settings.quota[itemIndex item]) := by
  rcases mem_four.1 h with rfl | rfl | rfl | rfl <;> rfl

theorem readItem_channelKey (h : item ∈ channelKeyItems) :
    s.readItem item = some s.settings.channels[itemIndex item].key := by
  rcases mem_four.1 h with rfl | rfl | rfl | rfl <;> rfl

theorem readItem_channelCtrl (h : item ∈ channelCtrlItems) :
    s.readItem item = some s.settings.channels[itemIndex item].ctrlShown := by
  rw [← channelCtrlWord_eq]
  rcases mem_four.1 h with rfl | rfl | rfl | rfl <;> rfl

end groups

/-- READ CONFIG reads the table's value. -/
theorem readItem_of_mem {s : State} {item : Byte} {v : Word} (h : (item, v) ∈ s.itemTable) :
    s.readItem item = some v := by
  have hsource : (match s.settings.tickSource with | .internal => (0 : Word) | .external => 1) =
      if s.settings.tickSource = .external then 1 else 0 := by
    cases s.settings.tickSource <;> rfl
  have hall : s.itemTable.Forall fun row => s.readItem row.1 = some row.2 :=
    ⟨congrArg some hsource, rfl,
      readItem_accessLevel s (item := 0x10) (by decide), readItem_accessLevel s (item := 0x11) (by decide),
      readItem_accessLevel s (item := 0x12) (by decide), readItem_accessLevel s (item := 0x13) (by decide),
      readItem_quota s (item := 0x18) (by decide), readItem_quota s (item := 0x19) (by decide),
      readItem_quota s (item := 0x1A) (by decide), readItem_quota s (item := 0x1B) (by decide),
      rfl, rfl, congrArg some (rangeCtrlWord_eq _), rfl, rfl, congrArg some (rangeCtrlWord_eq _), rfl, rfl,
      readItem_channelKey s (item := 0x40) (by decide), readItem_channelKey s (item := 0x41) (by decide),
      readItem_channelKey s (item := 0x42) (by decide), readItem_channelKey s (item := 0x43) (by decide),
      readItem_channelCtrl s (item := 0x48) (by decide), readItem_channelCtrl s (item := 0x49) (by decide),
      readItem_channelCtrl s (item := 0x4A) (by decide), readItem_channelCtrl s (item := 0x4B) (by decide), rfl, rfl,
        rfl⟩
  exact List.forall_iff_forall_mem.1 hall _ h

/-- An item outside the table is unknown. -/
theorem readItem_eq_none {s : State} {item : Byte} (h : item ∉ itemNumbers) : s.readItem item = none := by
  simp only [itemNumbers, List.mem_cons, List.not_mem_nil, or_false, not_or] at h
  simp only [State.readItem, itemTickSource, itemTickPeriod, accessLevelItems, quotaItems, itemSharedLimit,
    itemQueueLimit, channelKeyItems, channelCtrlItems, itemAdminStation, itemFrozen, itemTimeHeld, List.mem_cons,
    List.not_mem_nil, or_false, h, if_false]

theorem readItem_iff {s : State} {item : Byte} {v : Word} : s.readItem item = some v ↔ (item, v) ∈ s.itemTable := by
  refine ⟨fun h => ?_, readItem_of_mem⟩
  have hknown : item ∈ s.itemTable.map Prod.fst := by
    rw [itemTable_numbers]
    by_contra hunknown
    rw [readItem_eq_none hunknown] at h
    cases h
  obtain ⟨⟨number, w⟩, hmem, rfl⟩ := List.mem_map.1 hknown
  rw [readItem_of_mem hmem] at h
  cases h
  exact hmem

theorem readItem_isNone_iff {s : State} {item : Byte} : s.readItem item = none ↔ item ∉ itemNumbers := by
  refine ⟨fun h hmem => ?_, readItem_eq_none⟩
  rw [← itemTable_numbers s] at hmem
  obtain ⟨⟨number, w⟩, hrow, rfl⟩ := List.mem_map.1 hmem
  rw [readItem_of_mem hrow] at h
  cases h

/-! ### READ CONFIG (R161, R164) -/

theorem exec_readConfig_offers {s : State} {p : Station} {epoch item : Byte} (ho : s.Offers p 0x68 [epoch, item]) :
    exec (.readConfig p) s =
      .next ((readConfig p epoch item s).1.placeResult p 0x68 (readConfig p epoch item s).2) :=
  unitTaking_offers ho rfl _

/-- Settles O44: the item is known and the session check passes. -/
theorem readConfigShowsTheItem : Obligations.ReadConfigShowsTheItem := by
  intro s p epoch item v ho hsession hitem
  have hread : readConfig p epoch item s = (s, { result := .ok, body := wordBytes v }) := by
    simp only [readConfig, readItem_of_mem hitem, sessionRefusal_eq, hsession]
  rw [exec_readConfig_offers ho, hread]

theorem readConfig_refused {s : State} {p : Station} {epoch item : Byte} {r : ResultCode}
    (h : firstFailing ([((s.itemTable.map Prod.fst).all (· != item), .badArg)] ++ s.sessionTests p epoch) = some r) :
    readConfig p epoch item s = (s, .plain r) := by
  rw [itemTable_numbers] at h
  unfold readConfig
  cases hread : s.readItem item with
  | none =>
    have hunknown : itemNumbers.all (· != item) = true := List.all_eq_true.2 fun x hx =>
      bne_iff_ne.2 (ne_of_mem_of_not_mem hx (readItem_isNone_iff.1 hread))
    rw [hunknown] at h
    cases h
    rfl
  | some v =>
    have hknown : itemNumbers.all (· != item) = false := by
      rw [List.all_eq_false]
      refine ⟨item, ?_, by rw [bne_self_eq_false]; exact Bool.false_ne_true⟩
      by_contra hunknown
      rw [readItem_eq_none hunknown] at hread
      cases hread
    rw [hknown, firstFailing_append, ← sessionRefusal_eq] at h
    have hsession : s.sessionRefusal p epoch = some r := h
    simp only [hsession]

/-! ### FREEZE and HOLD TIME (R69, R172) -/

theorem adminRefusal_of_format (s : State) (p : Station) (epoch : Byte) :
    s.adminRefusal p epoch true = firstFailing (s.adminTests p epoch) := by
  rw [adminRefusal_eq]
  rfl

theorem exec_freeze_offers {s : State} {p : Station} {epoch : Byte} (ho : s.Offers p 0x6A [epoch]) :
    exec (.freeze p) s = .next ((freeze p epoch s).1.placeResult p 0x6A (freeze p epoch s).2) :=
  unitTaking_offers ho rfl _

theorem exec_holdTimeOn_offers {s : State} {p : Station} {epoch : Byte} (ho : s.Offers p 0x6B [epoch, 0x01]) :
    exec (.holdTimeOn p) s =
      .next ((holdTime p epoch true s).1.placeResult p 0x6B (holdTime p epoch true s).2) :=
  unitTaking_offers ho rfl _

theorem exec_holdTimeOff_offers {s : State} {p : Station} {epoch : Byte} (ho : s.Offers p 0x6B [epoch, 0x00]) :
    exec (.holdTimeOff p) s =
      .next ((holdTime p epoch false s).1.placeResult p 0x6B (holdTime p epoch false s).2) :=
  unitTaking_offers ho rfl _

section admin
variable {s : State} {p : Station} {epoch : Byte}

theorem freeze_accepted (h : firstFailing (s.adminTests p epoch) = none) :
    freeze p epoch s = (s.modifySettings fun t => { t with frozen := true }, .plain .ok) := by
  simp only [freeze, adminRefusal_of_format, h]

theorem freeze_refused {r : ResultCode} (h : firstFailing (s.adminTests p epoch) = some r) :
    freeze p epoch s = (s, .plain r) := by
  simp only [freeze, adminRefusal_of_format, h]

theorem holdTime_accepted (h : firstFailing (s.adminTests p epoch) = none) (on : Bool) :
    holdTime p epoch on s = (s.modifyTimeBase fun t => { t with held := on }, .plain .ok) := by
  simp only [holdTime, adminRefusal_of_format, h]

theorem holdTime_refused {r : ResultCode} (h : firstFailing (s.adminTests p epoch) = some r) (on : Bool) :
    holdTime p epoch on s = (s, .plain r) := by
  simp only [holdTime, adminRefusal_of_format, h]

end admin

/-- Settles O48: each accepted command is one record update. -/
theorem freezeAndHoldTime : Obligations.FreezeAndHoldTime := by
  intro s p epoch hadmin ok
  refine ⟨fun ho => ?_, fun ho => ?_, fun ho => ?_⟩
  · rw [exec_freeze_offers ho, freeze_accepted hadmin]
    rfl
  · rw [exec_holdTimeOn_offers ho, holdTime_accepted hadmin]
    rfl
  · rw [exec_holdTimeOff_offers ho, holdTime_accepted hadmin]
    rfl

/-! ### WRITE CONFIG: one taking for every row (R161) -/

/-- What a write of an item stores, whichever row it belongs to. -/
def State.storeItem (s : State) (item : Byte) (v : Word) : State :=
  if item = itemTickSource then s.storeTickSource v
  else if item = itemTickPeriod then s.storeTickPeriod v
  else if item ∈ accessLevelItems then s.storeAccessLevel (itemIndex item) v
  else if item ∈ quotaItems then s.storeQuota (itemIndex item) v
  else if item ∈ protectedRangeItems then s.storeProtectedRange item v
  else if item = itemSharedLimit then s.storeSharedLimit v
  else if item = itemQueueLimit then s.storeQueueLimit v
  else if item ∈ channelKeyItems then s.storeChannelKey (itemIndex item) v
  else s.storeChannelCtrl (itemIndex item) v

/-- The checks of a write in their order (R161, R169, R172). -/
def State.writeTests (s : State) (p : Station) (epoch : Byte) (format needsEmpty : Bool) : List (Bool × ResultCode) :=
  [(!format, .badArg)] ++ s.adminTests p epoch ++
    [(s.settings.frozen, .frozen), (needsEmpty && s.directory != [], .inUse)]

theorem writeItem_eq (p : Station) (epoch : Byte) (format needsEmpty : Bool) (store : State → State) (s : State) :
    writeItem p epoch format needsEmpty store s =
      match firstFailing (s.writeTests p epoch format needsEmpty) with
      | some r => (s, .plain r)
      | none => (store s, .plain .ok) := by
  have hempty : (!s.directory.isEmpty) = (s.directory != []) := by cases s.directory <;> rfl
  unfold writeItem State.writeTests
  rw [firstFailing_append, ← adminRefusal_eq, ← hempty]
  cases s.adminRefusal p epoch format with
  | some r => rfl
  | none =>
    cases s.settings.frozen with
    | true => rfl
    | false => cases needsEmpty && !s.directory.isEmpty <;> rfl

/-- The taking of a WRITE CONFIG whose row is about the item. -/
theorem writeTaking_offers {s : State} {p : Station} {epoch item : Byte} {v : Word}
    (ho : s.Offers p 0x69 ([epoch, item] ++ wordBytes v)) {about : List Byte → Bool}
    (habout : about ([epoch, item] ++ wordBytes v) = true) {format : List Byte → Bool} {needsEmpty : Bool}
    {store : List Byte → State → State} {format' : Bool} (hf : format ([epoch, item] ++ wordBytes v) = format')
    (hs : store ([epoch, item] ++ wordBytes v) s = s.storeItem item v) :
    unitTaking p codeWriteConfig about (fun a => writeItem p (argByte a 0) (format a) needsEmpty (store a)) s =
      .next ((writeItem p epoch format' needsEmpty (·.storeItem item v) s).1.placeResult p 0x69
        (writeItem p epoch format' needsEmpty (·.storeItem item v) s).2) := by
  subst hf
  refine (unitTaking_offers ho habout _).trans ?_
  simp only [writeItem_eq, List.cons_append, argByte_zero]
  rw [← hs]
  rfl

theorem writtenValue_offers (epoch item : Byte) (v : Word) : writtenValue ([epoch, item] ++ wordBytes v) = v :=
  argWord_zero' v

theorem le_one_iff (v : Word) : decide (v ≤ 1#16) = (v == 0 || v == 1) := by
  rw [Bool.eq_iff_iff, decide_eq_true_iff, Bool.or_eq_true, beq_iff_eq, beq_iff_eq]
  bv_omega

/-- The nine rows that write an item differ in the item's format alone: each takes its command with the write's checks
and, past them, stores the item. -/
theorem exec_writeRow {s : State} {p : Station} {epoch item : Byte} {v : Word}
    (ho : s.Offers p 0x69 ([epoch, item] ++ wordBytes v)) {row : Instr × List Byte × Bool × Bool}
    (hrow : row ∈ writeRows p item v) (hitem : item ∈ row.2.1) :
    exec row.1 s =
      .next ((writeItem p epoch row.2.2.1 row.2.2.2 (·.storeItem item v) s).1.placeResult p 0x69
        (writeItem p epoch row.2.2.1 row.2.2.2 (·.storeItem item v) s).2) := by
  have hv := writtenValue_offers epoch item v
  simp only [writeRows, List.mem_cons, List.not_mem_nil, or_false] at hrow
  rcases hrow with rfl | rfl | rfl | rfl | rfl | rfl | rfl | rfl | rfl
  · obtain rfl := List.mem_singleton.1 hitem
    exact writeTaking_offers ho rfl (by rw [hv]; exact le_one_iff v) (by rw [hv]; rfl)
  · obtain rfl := List.mem_singleton.1 hitem
    exact writeTaking_offers ho rfl (by rw [hv]) (by rw [hv]; rfl)
  · refine writeTaking_offers ho (by exact List.contains_iff_mem.2 hitem) (by rw [hv]) ?_
    rw [hv]
    rcases mem_four.1 hitem with rfl | rfl | rfl | rfl <;> rfl
  · refine writeTaking_offers ho (by exact List.contains_iff_mem.2 hitem) (by rw [hv]) ?_
    rw [hv]
    rcases mem_four.1 hitem with rfl | rfl | rfl | rfl <;> rfl
  · refine writeTaking_offers ho (by exact List.contains_iff_mem.2 hitem) ?_ ?_ <;> rw [hv] <;>
      simp only [List.mem_cons, List.not_mem_nil, or_false] at hitem
    · rcases hitem with rfl | rfl | rfl | rfl | rfl | rfl <;> rfl
    · rcases hitem with rfl | rfl | rfl | rfl | rfl | rfl <;> rfl
  · obtain rfl := List.mem_singleton.1 hitem
    exact writeTaking_offers ho rfl (by rw [hv]) (by rw [hv]; rfl)
  · obtain rfl := List.mem_singleton.1 hitem
    exact writeTaking_offers ho rfl (by rw [hv]) (by rw [hv]; rfl)
  · refine writeTaking_offers ho (by exact List.contains_iff_mem.2 hitem) rfl ?_
    rw [hv]
    rcases mem_four.1 hitem with rfl | rfl | rfl | rfl <;> rfl
  · refine writeTaking_offers ho (by exact List.contains_iff_mem.2 hitem) (by rw [hv]; rfl) ?_
    rw [hv]
    rcases mem_four.1 hitem with rfl | rfl | rfl | rfl <;> rfl

/-! ### The Configuration Unit's refusals (R161, R169, R171, R172) -/

theorem writableItems_eq : writableItems = writableItemNumbers := rfl

/-- A WRITE CONFIG of an unknown or read-only item. -/
theorem exec_writeConfig_offers {s : State} {p : Station} {epoch item : Byte} {v : Word}
    (ho : s.Offers p 0x69 ([epoch, item] ++ wordBytes v)) (hitem : item ∉ writableItemNumbers) :
    exec (.writeConfig p) s = .next (s.placeResult p 0x69 (.plain .badArg)) := by
  refine unitTaking_offers ho (about := fun a => !writableItems.contains (writtenItem a)) ?_
    fun _ t => (t, .plain .badArg)
  rw [Bool.not_eq_true', ← Bool.not_eq_true, List.contains_iff_mem]
  exact hitem

/-- A HOLD TIME of a setting other than 0 and 1. -/
theorem exec_holdTimeInvalidSetting_offers {s : State} {p : Station} {epoch setting : Byte}
    (ho : s.Offers p 0x6B [epoch, setting]) (hoff : setting ≠ 0x00) (hon : setting ≠ 0x01) :
    exec (.holdTimeInvalidSetting p) s = .next (s.placeResult p 0x6B (.plain .badArg)) :=
  unitTaking_offers ho (about := fun a => argByte a 1 != 0 && argByte a 1 != 1)
    (Bool.and_eq_true_iff.2 ⟨bne_iff_ne.2 hoff, bne_iff_ne.2 hon⟩) fun _ t => (t, .plain .badArg)

/-- Settles O45: each command's refusal by the first check of its list. -/
theorem configurationRefusedInOrder : Obligations.ConfigurationRefusedInOrder := by
  intro s p epoch r refuses
  refine ⟨fun item ho h => ?_, fun item v ho => ⟨fun row hrow hitem h => ?_, fun hitem hr => ?_⟩, fun ho h => ?_,
    fun setting ho => ⟨fun hon h => ?_, fun hoff h => ?_, fun hoff hon hr => ?_⟩⟩
  · show exec (.readConfig p) s = _
    rw [exec_readConfig_offers ho, readConfig_refused h]
    rfl
  · show exec row.1 s = _
    rw [exec_writeRow ho hrow hitem, writeItem_eq, State.writeTests, h]
    rfl
  · subst hr
    exact exec_writeConfig_offers ho hitem
  · show exec (.freeze p) s = _
    rw [exec_freeze_offers ho, freeze_refused h]
    rfl
  · subst hon
    show exec (.holdTimeOn p) s = _
    rw [exec_holdTimeOn_offers ho, holdTime_refused h]
    rfl
  · subst hoff
    show exec (.holdTimeOff p) s = _
    rw [exec_holdTimeOff_offers ho, holdTime_refused h]
    rfl
  · subst hr
    exact exec_holdTimeInvalidSetting_offers ho hoff hon

end Sys2Proof.Machine
end

section
/-! PROOFS. Writes of the configuration items, the frozen latch, ticks, and the protected ranges (chapters 4 and 9). -/

namespace Sys2Proof.Machine

/-! ### What an item reads after a write of an item (R162, R163) -/

theorem setWidth_setWidth_of_le_three {v : Word} (h : v ≤ 3#16) : (v.setWidth 2).setWidth 16 = v := by
  apply BitVec.eq_of_toNat_eq
  have hle : v.toNat ≤ 3 := h
  rw [BitVec.toNat_setWidth, BitVec.toNat_setWidth]
  omega

/-- A bit of a value that the mask of its unassigned bits clears is 0. -/
theorem bit_of_unassigned {v mask : Word} (h : v &&& mask = 0) {i : Nat} (hi : mask.getLsbD i = true) :
    v.toNat / 2 ^ i % 2 = 0 := by
  have hbit : v.getLsbD i = false := by
    have hand := congrArg (BitVec.getLsbD · i) h
    simpa only [BitVec.getLsbD_and, hi, Bool.and_true, BitVec.ofNat_eq_ofNat, BitVec.getLsbD_zero] using hand
  rw [← Nat.toNat_testBit, ← BitVec.getLsbD, hbit]
  rfl

theorem toNat_getLsbD (v : Word) (i : Nat) : (v.getLsbD i).toNat = v.toNat / 2 ^ i % 2 := Nat.toNat_testBit ..

theorem ctrlShown_withCtrl_range (r : KeyRange) {v : Word} (h : v &&& 0xFFCC#16 = 0) :
    (r.withCtrl v).ctrlShown = v := by
  have hzero : ∀ i, (0xFFCC#16).getLsbD i = true → v.toNat / 2 ^ i % 2 = 0 := fun i => bit_of_unassigned h
  have hlevel : (v.extractLsb' 4 2).toNat = v.toNat / 16 % 4 := by
    rw [BitVec.extractLsb'_toNat, Nat.shiftRight_eq_div_pow]
  apply BitVec.eq_of_toNat_eq
  simp only [KeyRange.ctrlShown, KeyRange.withCtrl, toNat_getLsbD, hlevel, BitVec.toNat_ofNat]
  have h2 := hzero 2 rfl
  have h3 := hzero 3 rfl
  have h6 := hzero 6 rfl
  have h7 := hzero 7 rfl
  have h8 := hzero 8 rfl
  have h9 := hzero 9 rfl
  have h10 := hzero 10 rfl
  have h11 := hzero 11 rfl
  have h12 := hzero 12 rfl
  have h13 := hzero 13 rfl
  have h14 := hzero 14 rfl
  have h15 := hzero 15 rfl
  have hlt := v.isLt
  omega

theorem ctrlShown_withCtrl_channel (c : Channel) {v : Word} (h : v &&& 0xFFFC#16 = 0) :
    (c.withCtrl v).ctrlShown = v := by
  have hzero : ∀ i, (0xFFFC#16).getLsbD i = true → v.toNat / 2 ^ i % 2 = 0 := fun i => bit_of_unassigned h
  apply BitVec.eq_of_toNat_eq
  simp only [Channel.ctrlShown, Channel.withCtrl, toNat_getLsbD, BitVec.toNat_ofNat]
  have h2 := hzero 2 rfl
  have h3 := hzero 3 rfl
  have h4 := hzero 4 rfl
  have h5 := hzero 5 rfl
  have h6 := hzero 6 rfl
  have h7 := hzero 7 rfl
  have h8 := hzero 8 rfl
  have h9 := hzero 9 rfl
  have h10 := hzero 10 rfl
  have h11 := hzero 11 rfl
  have h12 := hzero 12 rfl
  have h13 := hzero 13 rfl
  have h14 := hzero 14 rfl
  have h15 := hzero 15 rfl
  have hlt := v.isLt
  omega

/-- Items that come in four are told apart by their low two bits. -/
theorem itemIndex_inj : (∀ a ∈ accessLevelItems, ∀ b ∈ accessLevelItems, itemIndex a = itemIndex b → a = b) ∧
    (∀ a ∈ quotaItems, ∀ b ∈ quotaItems, itemIndex a = itemIndex b → a = b) ∧
    (∀ a ∈ channelKeyItems, ∀ b ∈ channelKeyItems, itemIndex a = itemIndex b → a = b) ∧
    ∀ a ∈ channelCtrlItems, ∀ b ∈ channelCtrlItems, itemIndex a = itemIndex b → a = b := by decide

theorem storeTickSource_same {s : State} {v : Word}
    (h : s.settings.tickSource = if v = 0 then TickSource.internal else .external) : s.storeTickSource v = s := if_pos h

theorem storeTickSource_switch {s : State} {v : Word}
    (h : s.settings.tickSource ≠ if v = 0 then TickSource.internal else .external) :
    s.storeTickSource v =
      { s with
        settings := { s.settings with tickSource := if v = 0 then TickSource.internal else .external }
        timeBase := { s.timeBase with count := 0, period := s.settings.tickPeriod } } := if_neg h

theorem storeTickSource_settings (s : State) (v : Word) :
    (s.storeTickSource v).settings =
      { s.settings with tickSource := if v = 0 then TickSource.internal else .external } := by
  by_cases h : s.settings.tickSource = if v = 0 then TickSource.internal else .external
  · rw [storeTickSource_same h, ← h]
  · rw [storeTickSource_switch h]

theorem storeTickSource_held (s : State) (v : Word) : (s.storeTickSource v).timeBase.held = s.timeBase.held := by
  by_cases h : s.settings.tickSource = if v = 0 then TickSource.internal else .external
  · rw [storeTickSource_same h]
  · rw [storeTickSource_switch h]

section reads
variable (s : State) {item : Byte} {v : Word} (item' : Byte)

theorem readItem_storeTickSource (hv : v = 0 ∨ v = 1) :
    (s.storeTickSource v).readItem item' = if item' = itemTickSource then some v else s.readItem item' := by
  by_cases h : item' = itemTickSource
  · subst h
    rw [if_pos rfl, State.readItem, if_pos rfl, storeTickSource_settings]
    rcases hv with rfl | rfl <;> rfl
  · simp only [State.readItem, storeTickSource_settings, storeTickSource_held, h, if_false]

theorem readItem_storeTickPeriod :
    (s.storeTickPeriod v).readItem item' = if item' = itemTickPeriod then some v else s.readItem item' := by
  by_cases h : item' = itemTickPeriod
  · subst h
    rfl
  · simp only [State.readItem, State.storeTickPeriod, modifySettings_settings, modifySettings_timeBase, h, if_false]
    rfl

theorem readItem_storeAccessLevel (hitem : item ∈ accessLevelItems) (hv : v ≤ 3#16) :
    (s.storeAccessLevel (itemIndex item) v).readItem item' = if item' = item then some v else s.readItem item' := by
  by_cases h : item' ∈ accessLevelItems
  · rw [readItem_accessLevel _ h, readItem_accessLevel _ h, State.storeAccessLevel, modifySettings_settings]
    dsimp only
    rw [updVec_get]
    by_cases heq : item' = item
    · rw [if_pos (congrArg itemIndex heq), if_pos heq, setWidth_setWidth_of_le_three hv]
    · rw [if_neg fun hc => heq (itemIndex_inj.1 _ h _ hitem hc), if_neg heq]
  · rw [if_neg fun hc : item' = item => h (hc ▸ hitem)]
    simp only [State.readItem, State.storeAccessLevel, modifySettings_settings, modifySettings_timeBase, h, if_false]
    rfl

theorem readItem_storeQuota (hitem : item ∈ quotaItems) :
    (s.storeQuota (itemIndex item) v).readItem item' = if item' = item then some v else s.readItem item' := by
  by_cases h : item' ∈ quotaItems
  · rw [readItem_quota _ h, readItem_quota _ h, State.storeQuota, modifySettings_settings]
    dsimp only
    rw [updVec_get]
    by_cases heq : item' = item
    · rw [if_pos (congrArg itemIndex heq), if_pos heq, BitVec.ofNat_toNat, BitVec.setWidth_eq]
    · rw [if_neg fun hc => heq (itemIndex_inj.2.1 _ h _ hitem hc), if_neg heq]
  · rw [if_neg fun hc : item' = item => h (hc ▸ hitem)]
    simp only [State.readItem, State.storeQuota, modifySettings_settings, modifySettings_timeBase, h, if_false]
    rfl

theorem readItem_storeChannelKey (hitem : item ∈ channelKeyItems) :
    (s.storeChannelKey (itemIndex item) v).readItem item' = if item' = item then some v else s.readItem item' := by
  have hctrl : ∀ n : Fin 4,
      channelCtrlWord (updVec s.settings.channels (itemIndex item) fun c => { c with key := v })[n] =
      channelCtrlWord s.settings.channels[n] := fun n => by
    rw [updVec_get]
    split <;> rfl
  by_cases h : item' ∈ channelKeyItems
  · rw [readItem_channelKey _ h, readItem_channelKey _ h, State.storeChannelKey, modifySettings_settings]
    dsimp only
    rw [updVec_get]
    by_cases heq : item' = item
    · rw [if_pos (congrArg itemIndex heq), if_pos heq]
    · rw [if_neg fun hc => heq (itemIndex_inj.2.2.1 _ h _ hitem hc), if_neg heq]
  · rw [if_neg fun hc : item' = item => h (hc ▸ hitem)]
    simp only [State.readItem, State.storeChannelKey, modifySettings_settings, modifySettings_timeBase, h, if_false,
      hctrl]
    rfl

theorem readItem_storeChannelCtrl (hitem : item ∈ channelCtrlItems) (hv : v &&& 0xFFFC#16 = 0) :
    (s.storeChannelCtrl (itemIndex item) v).readItem item' = if item' = item then some v else s.readItem item' := by
  have hkey : ∀ n : Fin 4, (updVec s.settings.channels (itemIndex item) fun c => c.withCtrl v)[n].key =
      s.settings.channels[n].key := fun n => by
    rw [updVec_get]
    split <;> rfl
  by_cases h : item' ∈ channelCtrlItems
  · rw [readItem_channelCtrl _ h, readItem_channelCtrl _ h, State.storeChannelCtrl, modifySettings_settings]
    dsimp only
    rw [updVec_get]
    by_cases heq : item' = item
    · rw [if_pos (congrArg itemIndex heq), if_pos heq, ctrlShown_withCtrl_channel _ hv]
    · rw [if_neg fun hc => heq (itemIndex_inj.2.2.2 _ h _ hitem hc), if_neg heq]
  · rw [if_neg fun hc : item' = item => h (hc ▸ hitem)]
    simp only [State.readItem, State.storeChannelCtrl, modifySettings_settings, modifySettings_timeBase, h, if_false,
      hkey]
    rfl

theorem readItem_storeSharedLimit :
    (s.storeSharedLimit v).readItem item' = if item' = itemSharedLimit then some v else s.readItem item' := by
  by_cases h : item' = itemSharedLimit
  · subst h
    rw [if_pos rfl]
    show some (BitVec.ofNat 16 v.toNat) = some v
    rw [BitVec.ofNat_toNat, BitVec.setWidth_eq]
  · simp only [State.readItem, State.storeSharedLimit, modifySettings_settings, modifySettings_timeBase, h, if_false]
    rfl

theorem readItem_storeQueueLimit :
    (s.storeQueueLimit v).readItem item' = if item' = itemQueueLimit then some v else s.readItem item' := by
  by_cases h : item' = itemQueueLimit
  · subst h
    rw [if_pos rfl]
    show some (BitVec.ofNat 16 v.toNat) = some v
    rw [BitVec.ofNat_toNat, BitVec.setWidth_eq]
  · simp only [State.readItem, State.storeQueueLimit, modifySettings_settings, modifySettings_timeBase, h, if_false]
    rfl

theorem readItem_storeProtectedRange (hitem : item ∈ protectedRangeItems)
    (hv : item = 0x22 ∨ item = 0x26 → v &&& 0xFFCC#16 = 0) :
    (s.storeProtectedRange item v).readItem item' = if item' = item then some v else s.readItem item' := by
  simp only [protectedRangeItems, List.mem_cons, List.not_mem_nil, or_false] at hitem
  by_cases h : item' = item
  · subst h
    rw [if_pos rfl]
    rcases hitem with rfl | rfl | rfl | rfl | rfl | rfl
    · rfl
    · rfl
    · exact congrArg some ((rangeCtrlWord_eq _).trans (ctrlShown_withCtrl_range _ (hv (.inl rfl))))
    · rfl
    · rfl
    · exact congrArg some ((rangeCtrlWord_eq _).trans (ctrlShown_withCtrl_range _ (hv (.inr rfl))))
  · rw [if_neg h]
    rcases hitem with rfl | rfl | rfl | rfl | rfl | rfl
    all_goals
      show (s.modifySettings _).readItem item' = s.readItem item'
      simp only [State.readItem, modifySettings_settings, modifySettings_timeBase, h, if_false]
      rfl

end reads

/-- The value a write of a row stores is the one its item then reads, and every other item reads as before. -/
theorem readItem_storeItem {s : State} {p : Station} {item : Byte} {v : Word} {row : Instr × List Byte × Bool × Bool}
    (hrow : row ∈ writeRows p item v) (hitem : item ∈ row.2.1) (hformat : row.2.2.1 = true) (item' : Byte) :
    (s.storeItem item v).readItem item' = if item' = item then some v else s.readItem item' := by
  simp only [writeRows, List.mem_cons, List.not_mem_nil, or_false] at hrow
  rcases hrow with rfl | rfl | rfl | rfl | rfl | rfl | rfl | rfl | rfl
  · obtain rfl := List.mem_singleton.1 hitem
    rw [Bool.or_eq_true, beq_iff_eq, beq_iff_eq] at hformat
    exact readItem_storeTickSource s item' hformat
  · obtain rfl := List.mem_singleton.1 hitem
    exact readItem_storeTickPeriod s item'
  · rw [show s.storeItem item v = s.storeAccessLevel (itemIndex item) v by
      rcases mem_four.1 hitem with rfl | rfl | rfl | rfl <;> rfl]
    exact readItem_storeAccessLevel s item' hitem (of_decide_eq_true hformat)
  · rw [show s.storeItem item v = s.storeQuota (itemIndex item) v by
      rcases mem_four.1 hitem with rfl | rfl | rfl | rfl <;> rfl]
    exact readItem_storeQuota s item' hitem
  · rw [show s.storeItem item v = s.storeProtectedRange item v by
      simp only [List.mem_cons, List.not_mem_nil, or_false] at hitem
      rcases hitem with rfl | rfl | rfl | rfl | rfl | rfl <;> rfl]
    refine readItem_storeProtectedRange s item' hitem fun hctrl => ?_
    rw [Bool.or_eq_true, Bool.and_eq_true, bne_iff_ne, bne_iff_ne, beq_iff_eq] at hformat
    rcases hctrl with rfl | rfl
    · exact hformat.resolve_left fun hc => hc.1 rfl
    · exact hformat.resolve_left fun hc => hc.2 rfl
  · obtain rfl := List.mem_singleton.1 hitem
    exact readItem_storeSharedLimit s item'
  · obtain rfl := List.mem_singleton.1 hitem
    exact readItem_storeQueueLimit s item'
  · rw [show s.storeItem item v = s.storeChannelKey (itemIndex item) v by
      rcases mem_four.1 hitem with rfl | rfl | rfl | rfl <;> rfl]
    exact readItem_storeChannelKey s item' hitem
  · rw [show s.storeItem item v = s.storeChannelCtrl (itemIndex item) v by
      rcases mem_four.1 hitem with rfl | rfl | rfl | rfl <;> rfl]
    exact readItem_storeChannelCtrl s item' hitem (beq_iff_eq.1 hformat)

/-- A store reaches the settings, and TICK_SOURCE alone the time base (R68). -/
theorem storeItem_frame (s : State) (item : Byte) (v : Word) :
    s.storeItem item v =
        { s with settings := (s.storeItem item v).settings, timeBase := (s.storeItem item v).timeBase } ∧
      (item ≠ itemTickSource → (s.storeItem item v).timeBase = s.timeBase) := by
  by_cases h : item = itemTickSource
  · refine ⟨?_, fun hne => absurd h hne⟩
    rw [show s.storeItem item v = s.storeTickSource v from if_pos h]
    by_cases hsame : s.settings.tickSource = if v = 0 then TickSource.internal else .external
    · rw [storeTickSource_same hsame]
    · rw [storeTickSource_switch hsame]
  · rw [show s.storeItem item v = _ from if_neg h]
    repeat' split
    all_goals exact ⟨rfl, fun _ => rfl⟩

/-- The rows but the first write no TICK_SOURCE. -/
theorem ne_tickSource_of_row {p : Station} {item : Byte} {v : Word} {row : Instr × List Byte × Bool × Bool}
    (hrow : row ∈ writeRows p item v) (hitem : item ∈ row.2.1) (hne : row.1 ≠ .writeTickSource p) :
    item ≠ itemTickSource := by
  rintro rfl
  rcases List.mem_cons.1 hrow with rfl | hrow
  · exact hne rfl
  · have hnone : ∀ row ∈ (writeRows p itemTickSource v).tail, itemTickSource ∉ row.2.1 := by
      simp [writeRows, itemTickSource]
    exact hnone row hrow hitem

/-- Settles O46: past its checks a row stores its item, and the stored item alone reads differently. -/
theorem writeThenRead : Obligations.WriteThenRead := by
  intro s p epoch item v ho row hrow hitem hpass
  have hformat : row.2.2.1 = true := by
    rw [firstFailing_append, firstFailing_append, Option.or_eq_none_iff, Option.or_eq_none_iff,
      firstFailing_cons_eq_none] at hpass
    simpa using hpass.1.1.1
  obtain ⟨hframe, htime⟩ := storeItem_frame s item v
  refine ⟨s.storeItem item v, ?_, hframe, fun hne => htime (ne_tickSource_of_row hrow hitem hne), ?_,
    fun item' v' hne => ?_⟩
  · rw [exec_writeRow ho hrow hitem, writeItem_eq, State.writeTests, hpass]
    rfl
  · rw [← readItem_iff, readItem_storeItem hrow hitem hformat, if_pos rfl]
  · rw [← readItem_iff, ← readItem_iff, readItem_storeItem hrow hitem hformat, if_neg hne]

/-! ### The time base (R68) -/

theorem writeTests_passed {s : State} {p : Station} {epoch : Byte} (hadmin : firstFailing (s.adminTests p epoch) = none)
    (hfrozen : s.settings.frozen = false) : firstFailing (s.writeTests p epoch true false) = none := by
  rw [State.writeTests, firstFailing_append, firstFailing_append, hadmin, hfrozen]
  rfl

/-- A write that passes its checks, of an item that does not ask for an empty directory. -/
theorem exec_writeRow_passed {s : State} {p : Station} {epoch item : Byte} {v : Word}
    (ho : s.Offers p 0x69 ([epoch, item] ++ wordBytes v)) {c : Instr} {items : List Byte} {format : Bool}
    (hrow : (c, items, format, false) ∈ writeRows p item v) (hitem : item ∈ items) (hformat : format = true)
    (hadmin : firstFailing (s.adminTests p epoch) = none) (hfrozen : s.settings.frozen = false) :
    exec c s = .next ((s.storeItem item v).placeResult p 0x69 (.plain .ok)) := by
  subst hformat
  rw [exec_writeRow ho hrow hitem, writeItem_eq, writeTests_passed hadmin hfrozen]

/-- Settles O47: a period is stored; a source is stored by whether it is the one held. -/
theorem timeBaseWrites : Obligations.TimeBaseWrites := by
  intro s p epoch v hadmin hfrozen ok
  refine ⟨fun ho hv => ?_, fun ho => ?_⟩
  · exact exec_writeRow_passed ho (List.mem_cons_of_mem _ List.mem_cons_self) (List.mem_singleton.2 rfl)
      (bne_iff_ne.2 hv) hadmin hfrozen
  · have hexec : v = 0 ∨ v = 1 →
        exec (.writeTickSource p) s = .next ((s.storeTickSource v).placeResult p 0x69 (.plain .ok)) := fun hv =>
      exec_writeRow_passed ho List.mem_cons_self (List.mem_singleton.2 rfl)
        (by rw [Bool.or_eq_true, beq_iff_eq, beq_iff_eq]; exact hv) hadmin hfrozen
    refine ⟨fun hv hsource => ?_, fun hv hsource => ?_, fun hv hsource => ?_, fun hv hsource => ?_⟩
    · rw [hexec (.inl hv), storeTickSource_same (by rw [hsource, hv]; rfl)]
      rfl
    · rw [hexec (.inr hv), storeTickSource_same (by rw [hsource, hv]; rfl)]
      rfl
    · rw [hexec (.inl hv), storeTickSource_switch (by rw [hsource, hv]; decide), hv]
      rfl
    · refine ⟨0, s.settings.tickPeriod, ?_⟩
      rw [hexec (.inr hv), storeTickSource_switch (by rw [hsource, hv]; decide), hv]
      rfl

/-! ### The frozen latch (R160, R172) -/

/-- The administrator station stays, and every setting while the latch is set. -/
structure SettingsStay (s t : State) : Prop where
  admin : t.settings.admin = s.settings.admin
  frozen : s.settings.frozen = true → t.settings = s.settings

theorem SettingsStay.of_settings {s t : State} (h : t.settings = s.settings) : SettingsStay s t :=
  ⟨by rw [h], fun _ => h⟩

theorem settingsStay_unitTaking {p : Station} {code : Byte} {about : List Byte → Bool}
    {act : List Byte → State → State × Reply} {s t : State} (h : unitTaking p code about act s = .next t)
    (hact : ∀ args, SettingsStay s (act args s).1) : SettingsStay s t := by
  rcases unitTaking_cases h with rfl | ⟨args, _, _, rfl⟩
  · exact .of_settings rfl
  · exact ⟨(hact args).admin, (hact args).frozen⟩

theorem settings_geTaking {p : Station} {code : Byte} {act : List Byte → State → State × Reply} {s t : State}
    (h : geTaking p code act s = .next t) (hact : ∀ args, (act args s).1.settings = s.settings) :
    t.settings = s.settings := by
  rcases geTaking_cases h with rfl | ⟨args, _, rfl⟩
  · rfl
  · exact hact args

/-- A write while the latch is set stores nothing. -/
theorem settingsStay_writeItem {p : Station} {epoch : Byte} {format needsEmpty : Bool} {store : State → State}
    {s : State}
    (hadmin : (store s).settings.admin = s.settings.admin) :
    SettingsStay s (writeItem p epoch format needsEmpty store s).1 := by
  rw [writeItem_eq]
  cases hpass : firstFailing (s.writeTests p epoch format needsEmpty) with
  | some r => exact .of_settings rfl
  | none =>
    refine ⟨hadmin, fun hfrozen => ?_⟩
    rw [State.writeTests, firstFailing_append, Option.or_eq_none_iff, firstFailing_cons_eq_none, hfrozen] at hpass
    cases hpass.2.1

theorem settingsStay_freeze (p : Station) (epoch : Byte) (s : State) : SettingsStay s (freeze p epoch s).1 := by
  unfold freeze
  split
  · exact .of_settings rfl
  · exact ⟨rfl, fun hfrozen => by rw [modifySettings_settings, ← hfrozen]⟩

theorem storeProtectedRange_admin (s : State) (item : Byte) (v : Word) :
    (s.storeProtectedRange item v).settings.admin = s.settings.admin := by
  rw [State.storeProtectedRange, modifySettings_settings]
  repeat' split
  all_goals rfl

theorem PortOnly.settings {p : Station} {s t : State} (h : PortOnly p s t) : t.settings = s.settings := by rw [h]

/-- Of the commands out of reset only the Configuration Unit's writes reach the settings. -/
theorem exec_settingsStay {c : Instr} {s t : State} (h : exec c s = .next t) (hreset : c ≠ .hardwareReset)
    (hin : s.inReset = false) : SettingsStay s t := by
  cases c
  case hardwareReset => exact absurd rfl hreset
  case endOfReset strap =>
    have hs : execEndOfReset strap s = .next s := if_neg (by rw [hin]; exact Bool.false_ne_true)
    obtain rfl := Host.Outcome.next.inj (hs.symm.trans h)
    exact .of_settings rfl
  case status p ev | fetch p ev | notices p ev | mask p ev | clearFlags p ev | ident p ev | brokenFrame p ev |
      postedFrameEnd p _ ev =>
    obtain rfl := Host.Outcome.next.inj h
    exact .of_settings (portOnly_frameEvent p s _ ev).settings
  case livenessReload =>
    change execLivenessReload _ _ s = _ at h
    unfold execLivenessReload at h
    repeat' split at h
    all_goals cases h; exact .of_settings rfl
  case badCmd =>
    change execBadCmd _ s = _ at h
    unfold execBadCmd at h
    repeat' split at h
    all_goals cases h; exact .of_settings rfl
  case attach => exact settingsStay_unitTaking h fun _ => .of_settings (edgeKept_attach _ _ _ _ s).settings
  case detach => exact settingsStay_unitTaking h fun _ => .of_settings (edgeKept_detach _ _ s).settings
  case purge => exact settingsStay_unitTaking h fun _ => .of_settings (edgeKept_purge _ _ _ s).settings
  case clearAll => exact settingsStay_unitTaking h fun _ => .of_settings (edgeKept_clearAll _ _ s).settings
  case readConfig =>
    exact settingsStay_unitTaking h fun _ => .of_settings (congrArg State.settings (readConfig_fst _ _ _ s))
  case writeConfig | holdTimeInvalidSetting =>
    exact settingsStay_unitTaking (act := fun _ u => (u, .plain .badArg)) h fun _ => .of_settings rfl
  case writeTickSource =>
    exact settingsStay_unitTaking h fun _ => settingsStay_writeItem (by rw [storeTickSource_settings])
  case writeProtectedRange =>
    exact settingsStay_unitTaking h fun _ => settingsStay_writeItem (storeProtectedRange_admin s _ _)
  case writeTickPeriod | writeAccessLevel | writeQuota | writeSharedLimit | writeQueueLimit | writeChannelKey |
      writeChannelCtrl =>
    exact settingsStay_unitTaking h fun _ => settingsStay_writeItem rfl
  case freeze => exact settingsStay_unitTaking h fun _ => settingsStay_freeze _ _ s
  case holdTimeOn | holdTimeOff =>
    exact settingsStay_unitTaking h fun _ => .of_settings (edgeKept_holdTime _ _ _ s).settings
  case acquire => exact .of_settings (settings_geTaking h fun _ => (poolOnly_acquire _ _ _ _ _ _ s).settings)
  case release => exact .of_settings (settings_geTaking h fun _ => (poolOnly_release _ _ _ s).settings)
  case renew => exact .of_settings (settings_geTaking h fun _ => (poolOnly_renew _ _ _ _ s).settings)
  case extend => exact .of_settings (settings_geTaking h fun _ => (poolOnly_extend _ _ _ _ s).settings)
  case convert => exact .of_settings (settings_geTaking h fun _ => (poolOnly_convert _ _ _ _ s).settings)
  case queryLease =>
    exact .of_settings (settings_geTaking h fun _ => congrArg State.settings (queryLease_fst _ _ _ s))
  case queryKey =>
    exact .of_settings (settings_geTaking h fun _ => congrArg State.settings (queryKey_fst _ _ _ s))
  case revokeRange => exact .of_settings (settings_geTaking h fun _ => (edgeKept_revokeRange _ _ _ _ _ s).settings)
  case internalTick =>
    change execInternalTick s = _ at h
    unfold execInternalTick at h
    split at h <;> cases h <;> exact .of_settings rfl
  case tick =>
    change execTick s = _ at h
    unfold execTick at h
    split at h <;> cases h <;> exact .of_settings rfl
  case leaseCounterRunout i =>
    change execLeaseCounterRunout i s = _ at h
    unfold execLeaseCounterRunout at h
    dsimp only at h
    split at h <;> cases h <;> exact .of_settings rfl
  case livenessCounterRunout p =>
    change execLivenessCounterRunout p s = _ at h
    unfold execLivenessCounterRunout at h
    dsimp only at h
    split at h <;> cases h <;> exact .of_settings rfl
  case termExpiryClaim i =>
    obtain rfl := Host.Outcome.next.inj h
    exact .of_settings (poolOnly_takeExpiry s i .term fun u => poolOnly_termExpires u i).settings
  case graceExpiryClaim i =>
    obtain rfl := Host.Outcome.next.inj h
    exact .of_settings (poolOnly_takeExpiry s i .grace fun u => poolOnly_removeSlot u i _).settings
  case waitExpiryClaim i =>
    obtain rfl := Host.Outcome.next.inj h
    exact .of_settings (poolOnly_takeExpiry s i .wait fun u => poolOnly_removeSlot u i _).settings
  case lapseClaim =>
    change execLapseClaim _ s = _ at h
    unfold execLapseClaim at h
    repeat' split at h
    all_goals cases h; exact .of_settings rfl
  case stationSweepRemoval =>
    change execStationSweepRemoval s = _ at h
    unfold execStationSweepRemoval at h
    split at h <;> cases h
    · exact .of_settings (poolOnly_stationVisit s _ _).settings
    · exact .of_settings rfl
  case rangeSweepRemoval =>
    change execRangeSweepRemoval s = _ at h
    unfold execRangeSweepRemoval at h
    split at h <;> cases h
    · exact .of_settings (poolOnly_rangeVisit s _ _).settings
    · exact .of_settings rfl
  case stationOrderComplete =>
    change execStationOrderComplete s = _ at h
    unfold execStationOrderComplete at h
    split at h <;> cases h <;> exact .of_settings rfl
  case sessionSweepCompletion =>
    change execSessionSweepCompletion _ s = _ at h
    unfold execSessionSweepCompletion at h
    split at h <;> cases h <;> exact .of_settings rfl
  case rangeOrderComplete =>
    change execRangeOrderComplete s = _ at h
    unfold execRangeOrderComplete at h
    split at h <;> cases h <;> exact .of_settings rfl
  case rangeCompletionClaim =>
    change execRangeCompletionClaim _ s = _ at h
    unfold execRangeCompletionClaim at h
    split at h <;> cases h
    · exact .of_settings rfl
    · exact .of_settings (poolOnly_regrantKeys _ _).settings
  case acknowledgementClaim =>
    change execAcknowledgementClaim _ s = _ at h
    unfold execAcknowledgementClaim at h
    split at h <;> cases h
    · exact .of_settings rfl
    · exact .of_settings (poolOnly_acknowledge_foldl _ _ _).settings

/-- Settles O49. -/
theorem frozenSettingsStay : Obligations.FrozenSettingsStay := fun _ _ _ h hreset hin =>
  have hstay := exec_settingsStay h hreset hin
  ⟨hstay.admin, hstay.frozen⟩

/-! ### Ticks and run-outs (R66, R67, R69, R72) -/

/-- A delivered tick counts every running counter down that has not reached 0, and touches nothing else. -/
theorem deliverTick_counters (s : State) :
    (∀ i : SlotIndex, s.deliverTick.leaseCounters[i] =
      if s.leaseCounters[i].running = true ∧ s.leaseCounters[i].value ≠ 0 then
        { s.leaseCounters[i] with value := s.leaseCounters[i].value - 1 }
      else s.leaseCounters[i]) ∧
    ∀ p : Station, s.deliverTick.livenessCounters[p] =
      if s.livenessCounters[p].running = true ∧ s.livenessCounters[p].value ≠ 0 then
        { s.livenessCounters[p] with value := s.livenessCounters[p].value - 1 }
      else s.livenessCounters[p] :=
  ⟨fun _ => mapVec_get .., fun _ => mapVec_get ..⟩

/-- Settles O50: a tick of the source that makes them, one of the other, and the two run-outs. -/
theorem ticksAndRunouts : Obligations.TicksAndRunouts := by
  intro s running ticked
  have hinternal : s.internalRuns = true ↔ running ∧ s.settings.tickSource = .internal :=
    (internalRuns_iff s).trans ⟨fun ⟨hsrc, hheld, hres⟩ => ⟨⟨hheld, hres⟩, hsrc⟩,
      fun ⟨⟨hheld, hres⟩, hsrc⟩ => ⟨hsrc, hheld, hres⟩⟩
  have hexternal : (s.settings.tickSource = .external ∧ s.timeBase.held = false ∧ s.inReset = false) ↔
      running ∧ s.settings.tickSource = .external :=
    ⟨fun ⟨hsrc, hheld, hres⟩ => ⟨⟨hheld, hres⟩, hsrc⟩, fun ⟨⟨hheld, hres⟩, hsrc⟩ => ⟨hsrc, hheld, hres⟩⟩
  obtain ⟨hlease, hliveness⟩ := deliverTick_counters s
  refine ⟨fun h => ?_, fun h => ?_, fun h => ?_, fun h => ?_, fun i hrunning hzero => ?_, fun p hrunning hzero => ?_⟩
  · refine ⟨s.deliverTick.beginInterval, execInternalTick_of_runs (hinternal.2 h), ⟨rfl, hlease, hliveness⟩, ?_⟩
    show ({ count := 0, period := s.settings.tickPeriod, held := s.timeBase.held } : TimeBase) = _
    rw [h.1.1]
  · exact ⟨s.deliverTick, if_pos (hexternal.2 h), ⟨rfl, hlease, hliveness⟩, rfl⟩
  · exact if_neg fun hruns => h (hinternal.1 hruns)
  · exact if_neg fun hruns => h (hexternal.1 hruns)
  · exact if_pos ⟨hrunning, hzero⟩
  · exact if_pos ⟨hrunning, hzero⟩

/-! ### Protected ranges, sweep scope and doom (R43, R44, R47, R166) -/

theorem covers_iff (r : KeyRange) (k : Word) : r.covers k = true ↔
    r.enable = true ∧
      ((r.invert = false ∧ r.first ≤ k ∧ k ≤ r.last) ∨
        (r.invert = true ∧ (r.last < r.first ∨ k < r.first ∨ r.last < k))) := by
  rw [KeyRange.covers, Bool.and_eq_true]
  refine and_congr_right fun _ => ?_
  by_cases hle : r.first ≤ r.last
  · rw [if_pos hle]
    cases r.invert with
    | true => simp [BitVec.not_lt.2 hle]
    | false => simp
  · rw [if_neg hle]
    cases r.invert with
    | true => simp [BitVec.not_le.1 hle]
    | false => simpa using fun h1 h2 => hle (BitVec.le_trans h1 h2)

theorem protectedKey_iff (s : State) (k : Word) :
    s.protectedKey k = true ↔ s.settings.p0.covers k = true ∨ s.settings.p1.covers k = true := by
  rw [State.protectedKey, Bool.or_eq_true]

theorem accessDenied_iff (s : State) (p : Station) (k : Word) : s.accessDenied p k = true ↔
    ∃ r, (r = s.settings.p0 ∨ r = s.settings.p1) ∧ r.covers k = true ∧
      s.settings.accessLevel[p].toNat < r.level.toNat := by
  simp only [State.accessDenied, Bool.or_eq_true, Bool.and_eq_true, decide_eq_true_iff, BitVec.lt_def]
  constructor
  · rintro (h | h)
    · exact ⟨_, .inl rfl, h⟩
    · exact ⟨_, .inr rfl, h⟩
  · rintro ⟨r, rfl | rfl, h⟩
    · exact .inl h
    · exact .inr h

theorem orderCovers_iff (s : State) (r : RangeOrder) (k : Word) : s.orderCovers r k = true ↔
    r.first ≤ k ∧ k ≤ r.last ∧ (r.force = true ∨ s.protectedKey k = false) := by
  simp only [State.orderCovers, Bool.and_eq_true, Bool.or_eq_true, decide_eq_true_iff, Bool.not_eq_true', and_assoc]

theorem inSweepScope_iff (s : State) (k : Word) : s.inSweepScope k = true ↔
    ∃ r, Order.range r ∈ s.sweepQueue ∧ r.first ≤ k ∧ k ≤ r.last ∧ (r.force = true ∨ s.protectedKey k = false) := by
  rw [State.inSweepScope, List.any_eq_true]
  constructor
  · rintro ⟨o, ho, hcovers⟩
    cases o with
    | station p cause => cases hcovers
    | range r => exact ⟨r, ho, (orderCovers_iff s r k).1 hcovers⟩
  · rintro ⟨r, ho, hcovers⟩
    exact ⟨_, ho, (orderCovers_iff s r k).2 hcovers⟩

theorem SlotState.isLive_iff (st : SlotState) : st.isLive = true ↔ st = .waiting ∨ st = .held ∨ st = .grace := by
  cases st <;> decide

theorem doomed_iff (s : State) (i : SlotIndex) : s.doomed i = true ↔
    s.slots[i].state.isLive = true ∧ ∃ l, s.slots[i].lease = some l ∧
      (s.sessions[l.station].state = .sweeping ∨ s.inSweepScope l.key = true) := by
  rw [State.doomed, Bool.and_eq_true]
  refine and_congr_right fun _ => ?_
  cases s.slots[i].lease with
  | none => simp
  | some l => simp

/-- Settles O53: one equivalence for each of the predicates. -/
theorem protectedRanges : Obligations.ProtectedRanges :=
  ⟨covers_iff, fun s p k => ⟨protectedKey_iff s k, accessDenied_iff s p k, inSweepScope_iff s k,
    fun i => ⟨SlotState.isLive_iff _, by rw [doomed_iff, SlotState.isLive_iff]⟩⟩⟩

end Sys2Proof.Machine
end

section
/-! PROOFS. The administrator's sweeps, the arbiter and ACQUIRE (chapters 3 and 6). -/

namespace Sys2Proof.Machine

/-! ### The checks of an administrator command with a format of its own (R112) -/

/-- The administrator's checks and one more, as the chain of the model's meanings. -/
theorem firstFailing_admin (s : State) (p : Station) (epoch : Byte) (format : Bool) (own : List (Bool × ResultCode)) :
    firstFailing ([(!format, .badArg)] ++ s.adminTests p epoch ++ own) =
      (s.adminRefusal p epoch format).or (firstFailing own) := by
  rw [firstFailing_append, adminRefusal_eq]

/-! ### PURGE (R112, R113) -/

theorem stationOfByte_ofNat : ∀ q : Station, stationOfByte (BitVec.ofNat 8 q.val) = q := by decide
theorem stationByte_le_three : ∀ q : Station, BitVec.ofNat 8 q.val ≤ 3#8 := by decide

theorem exec_purge_offers {s : State} {p : Station} {epoch station : Byte} (ho : s.Offers p 0x60 [epoch, station]) :
    exec (.purge p) s = .next ((purge p epoch station s).1.placeResult p 0x60 (purge p epoch station s).2) :=
  unitTaking_offers ho rfl _

section purge
variable {s : State} {p q : Station} {epoch : Byte} (hadmin : firstFailing (s.adminTests p epoch) = none)
include hadmin

theorem adminRefusal_passed {format : Bool} (hf : format = true) : s.adminRefusal p epoch format = none := by
  subst hf
  rw [adminRefusal_of_format, hadmin]

theorem purge_of_attached (hq : s.sessions[q].state = .attached) :
    purge p epoch (BitVec.ofNat 8 q.val) s = (s.endSession q .purge, .plain .accepted) := by
  have hpass := adminRefusal_passed hadmin (decide_eq_true (stationByte_le_three q))
  simp only [purge, hpass, stationOfByte_ofNat, hq]

theorem purge_of_sweeping (hq : s.sessions[q].state = .sweeping) :
    purge p epoch (BitVec.ofNat 8 q.val) s = (s, .plain .accepted) := by
  have hpass := adminRefusal_passed hadmin (decide_eq_true (stationByte_le_three q))
  simp only [purge, hpass, stationOfByte_ofNat, hq]

end purge

theorem purge_refused {s : State} {p : Station} {epoch station : Byte} {r : ResultCode}
    (h : firstFailing ([(decide (3#8 < station), ResultCode.badArg)] ++ s.adminTests p epoch ++
      [(s.sessions[stationOfByte station].state == .detached, .noSession)]) = some r) :
    purge p epoch station s = (s, .plain r) := by
  have hformat : decide (3#8 < station) = !decide (station ≤ 3#8) := by
    rw [← decide_not]
    exact decide_eq_decide.2 BitVec.not_le.symm
  rw [hformat, firstFailing_admin] at h
  unfold purge
  cases hadmin : s.adminRefusal p epoch (station ≤ 3#8) with
  | some r' =>
    rw [hadmin] at h
    cases h
    rfl
  | none =>
    rw [hadmin, Option.none_or] at h
    cases hstate : s.sessions[stationOfByte station].state <;> rw [hstate] at h <;> cases h
    rfl

/-! ### CLEAR ALL (R112, R115) -/

/-- The parts of a state after CLEAR ALL has come to these stations, in their order. -/
structure Cleared (qs : List Station) (s t : State) : Prop where
  frame : t = { s with
    sessions := t.sessions
    livenessCounters := t.livenessCounters
    sweepQueue := s.sweepQueue ++
      (qs.filter fun q : Station => s.sessions[q].state == .attached).map fun q => Order.station q .clear
    walk := if s.sweepQueue = [] ∧ (∃ q ∈ qs, s.sessions[q].state = .attached) then some 0 else s.walk }
  ended : ∀ q ∈ qs, s.sessions[q].state = .attached →
    t.sessions[q] = { s.sessions[q] with state := .sweeping, cause := some .clear } ∧
      t.livenessCounters[q] = { s.livenessCounters[q] with value := 0, running := false }
  others : ∀ q, q ∉ qs ∨ s.sessions[q].state ≠ .attached →
    t.sessions[q] = s.sessions[q] ∧ t.livenessCounters[q] = s.livenessCounters[q]

theorem endSession_livenessCounters (s : State) (p : Station) (cause : SweepCause) :
    (s.endSession p cause).livenessCounters = updVec s.livenessCounters p fun c =>
      { c with value := 0, running := false } := rfl

theorem cleared_foldl (qs : List Station) (hnd : qs.Nodup) (s : State) :
    Cleared qs s (qs.foldl State.clearStation s) := by
  induction qs generalizing s with
  | nil =>
    refine ⟨?_, nofun, fun _ _ => ⟨rfl, rfl⟩⟩
    have hwalk : ¬ (s.sweepQueue = [] ∧ ∃ q ∈ ([] : List Station), s.sessions[q].state = .attached) := by simp
    rw [if_neg hwalk, List.filter_nil, List.map_nil, List.append_nil]
    rfl
  | cons q qs ih =>
    obtain ⟨hq, hnd⟩ := List.nodup_cons.1 hnd
    rw [List.foldl_cons]
    by_cases hattached : s.sessions[q].state = .attached
    · rw [show s.clearStation q = s.endSession q .clear from if_pos hattached]
      obtain ⟨hframe, hended, hothers⟩ := ih hnd (s.endSession q .clear)
      have hkept : ∀ q', q' ≠ q → (s.endSession q .clear).sessions[q'] = s.sessions[q'] ∧
          (s.endSession q .clear).livenessCounters[q'] = s.livenessCounters[q'] := fun q' hne =>
        ⟨by rw [endSession_sessions, updVec_get_ne _ hne], by rw [endSession_livenessCounters, updVec_get_ne _ hne]⟩
      have hfilter : (qs.filter fun q' : Station => (s.endSession q .clear).sessions[q'].state == .attached) =
          qs.filter fun q' : Station => s.sessions[q'].state == .attached :=
        List.filter_congr fun q' hq' => by rw [(hkept q' (ne_of_mem_of_not_mem hq' hq)).1]
      refine ⟨?_, fun q' hq' hs => ?_, fun q' hq' => ?_⟩
      · rw [hframe, hfilter, List.filter_cons_of_pos (by rw [hattached]; rfl), List.map_cons]
        have hqueue : (s.endSession q .clear).sweepQueue = s.sweepQueue ++ [.station q .clear] := rfl
        have hwalk : (s.endSession q .clear).walk = if s.sweepQueue = [] then some 0 else s.walk := by
          show (if s.sweepQueue.isEmpty = true then _ else _) = _
          simp only [List.isEmpty_iff]
          rfl
        have hsome : ∃ q' ∈ q :: qs, s.sessions[q'].state = .attached := ⟨q, List.mem_cons_self, hattached⟩
        rw [hqueue, hwalk, if_neg fun hc => absurd hc.1 (List.append_ne_nil_of_right_ne_nil _ (List.cons_ne_nil _ _)),
          List.append_assoc]
        simp only [hsome, and_true]
        rfl
      · rcases List.mem_cons.1 hq' with rfl | hq'
        · obtain ⟨hsession, hcounter⟩ := hothers q' (.inl hq)
          rw [hsession, hcounter, endSession_sessions, endSession_livenessCounters, updVec_get_self, updVec_get_self]
          exact ⟨rfl, rfl⟩
        · obtain ⟨hsession, hcounter⟩ := hkept q' (ne_of_mem_of_not_mem hq' hq)
          rw [← hsession, ← hcounter]
          exact hended q' hq' (by rw [hsession]; exact hs)
      · have hne : q' ≠ q := by
          rintro rfl
          rcases hq' with hq' | hq'
          · exact hq' List.mem_cons_self
          · exact hq' hattached
        obtain ⟨hsession, hcounter⟩ := hkept q' hne
        rw [← hsession, ← hcounter]
        refine hothers q' (hq'.imp (fun hc hmem => hc (List.mem_cons_of_mem _ hmem))
          fun hc => by rw [hsession]; exact hc)
    · rw [show s.clearStation q = s from if_neg hattached]
      obtain ⟨hframe, hended, hothers⟩ := ih hnd s
      refine ⟨?_, fun q' hq' hs => ?_, fun q' hq' => ?_⟩
      · rw [List.filter_cons_of_neg (by rw [beq_iff_eq]; exact hattached)]
        have hsome : (∃ q' ∈ q :: qs, s.sessions[q'].state = .attached) ↔
            ∃ q' ∈ qs, s.sessions[q'].state = .attached := by
          rw [List.exists_mem_cons_iff]
          exact or_iff_right hattached
        simp only [hsome]
        exact hframe
      · rcases List.mem_cons.1 hq' with rfl | hq'
        · exact absurd hs hattached
        · exact hended q' hq' hs
      · exact hothers q' (hq'.imp_left fun hc hmem => hc (List.mem_cons_of_mem _ hmem))

/-- CLEAR ALL comes to the stations in ascending order (R115). -/
theorem clearAll_accepted {s : State} {p : Station} {epoch : Byte}
    (hadmin : firstFailing (s.adminTests p epoch) = none) :
    clearAll p epoch s = ((List.finRange 4).foldl State.clearStation s, .plain .accepted) := by
  simp only [clearAll, adminRefusal_passed hadmin rfl, show List.finRange 4 = [0, 1, 2, 3] by decide, List.foldl_cons,
    List.foldl_nil]

theorem clearAll_refused {s : State} {p : Station} {epoch : Byte} {r : ResultCode}
    (h : firstFailing (s.adminTests p epoch) = some r) : clearAll p epoch s = (s, .plain r) := by
  simp only [clearAll, adminRefusal_of_format, h]

theorem exec_clearAll_offers {s : State} {p : Station} {epoch : Byte} (ho : s.Offers p 0x62 [epoch]) :
    exec (.clearAll p) s = .next ((clearAll p epoch s).1.placeResult p 0x62 (clearAll p epoch s).2) :=
  unitTaking_offers ho rfl _

/-- A station that passes the administrator's checks is ATTACHED itself. -/
theorem attached_of_adminTests {s : State} {p : Station} {epoch : Byte}
    (h : firstFailing (s.adminTests p epoch) = none) : s.sessions[p].state = .attached := by
  rw [State.adminTests, firstFailing_append, Option.or_eq_none_iff, ← sessionRefusal_eq] at h
  exact attached_of_sessionRefusal h.1

/-! ### REVOKE RANGE (R112, R116) -/

theorem exec_revokeRange_offers {s : State} {p : Station} {epoch flags : Byte} {first last : Word}
    (ho : s.GeOffers p 0x61 ([epoch] ++ wordBytes first ++ wordBytes last ++ [flags])) :
    exec (.revokeRange p) s = .next
      ({ (revokeRange p epoch first last flags s).1 with lastTaken := p }.placeResult p 0x61
      (revokeRange p epoch first last flags s).2) := by
  refine (geTaking_offers ho fun a => revokeRange p (argByte a 0) (argWord a 1) (argWord a 3) (argByte a 5)).trans ?_
  simp only [List.append_assoc, List.cons_append, List.nil_append, argByte_zero, argWord_succ, argWord_zero,
    argWord_wordBytes, argByte_succ, argByte_wordBytes]

theorem revokeRange_accepted {s : State} {p : Station} {epoch flags : Byte} {first last : Word}
    (hadmin : firstFailing (s.adminTests p epoch) = none) (hle : first ≤ last) (hflags : flags &&& 0xFE#8 = 0)
    (hroom : (rangeOrders s.sweepQueue).length < 2) :
    revokeRange p epoch first last flags s =
      (s.enterOrder (.range { first := first, last := last, force := flagBit0 flags, requester := p }),
        .plain .accepted) := by
  have hpass := adminRefusal_passed hadmin
    (Bool.and_eq_true_iff.2 ⟨decide_eq_true hle, (oneFlagAssigned_iff flags).2 hflags⟩)
  rw [rangeOrders_length] at hroom
  unfold revokeRange
  rw [hpass]
  exact if_neg (Nat.not_le.2 hroom)

theorem revokeRange_refused {s : State} {p : Station} {epoch flags : Byte} {first last : Word} {r : ResultCode}
    (h : firstFailing ([(last < first || flags &&& 0xFE#8 != 0, .badArg)] ++ s.adminTests p epoch ++
      [(decide (2 ≤ (rangeOrders s.sweepQueue).length), ResultCode.sweepFull)]) = some r) :
    revokeRange p epoch first last flags s = (s, .plain r) := by
  have hformat : (last < first || flags &&& 0xFE#8 != 0 : Bool) = !(first ≤ last && oneFlagAssigned flags : Bool) := by
    have hle : decide (last < first) = !decide (first ≤ last) := by
      rw [← decide_not]
      exact decide_eq_decide.2 BitVec.not_le.symm
    rw [Bool.not_and, hle]
    rfl
  rw [hformat, firstFailing_admin, rangeOrders_length] at h
  unfold revokeRange
  cases hadmin : s.adminRefusal p epoch (first ≤ last && oneFlagAssigned flags) with
  | some r' =>
    rw [hadmin] at h
    cases h
    rfl
  | none =>
    rw [hadmin, Option.none_or] at h
    by_cases hfull : 2 ≤ s.sweepQueue.countP Order.isRange
    · rw [decide_eq_true hfull] at h
      cases h
      exact if_pos hfull
    · rw [decide_eq_false hfull] at h
      cases h

theorem enterOrder_eq (s : State) (o : Order) : s.enterOrder o =
    { s with sweepQueue := s.sweepQueue ++ [o], walk := if s.sweepQueue = [] then some 0 else s.walk } := by
  simp only [State.enterOrder, List.isEmpty_iff]

/-- Settles O25: each accepted command by its state, CLEAR ALL station by station. -/
theorem sweepCommandsAccepted : Obligations.SweepCommandsAccepted := by
  intro s p epoch hadmin accepted
  refine ⟨fun q ho => ⟨fun hq => ?_, fun hq => ?_⟩, fun ho => ?_, fun first last flags ho hle hflags hroom => ?_⟩
  · rw [exec_purge_offers ho, purge_of_attached hadmin hq]
    rfl
  · rw [exec_purge_offers ho, purge_of_sweeping hadmin hq]
    rfl
  · have hcleared := cleared_foldl (List.finRange 4) (List.nodup_finRange 4) s
    have haccepted := clearAll_accepted hadmin
    generalize (List.finRange 4).foldl State.clearStation s = t at hcleared haccepted
    obtain ⟨hframe, hended, hothers⟩ := hcleared
    refine ⟨t, ?_, ?_, fun q => ?_⟩
    · rw [exec_clearAll_offers ho, haccepted]
      rfl
    · have hsome : ∃ q ∈ List.finRange 4, s.sessions[q].state = .attached :=
        ⟨p, List.mem_finRange p, attached_of_adminTests hadmin⟩
      simp only [hsome, and_true] at hframe
      exact hframe
    · split <;> rename_i hq
      · exact hended q (List.mem_finRange q) hq
      · exact hothers q (.inr hq)
  · rw [exec_revokeRange_offers ho, revokeRange_accepted hadmin hle hflags hroom, enterOrder_eq]
    rfl

/-- Settles O26: each refused command by the first check of its list. -/
theorem sweepCommandsRefusedInOrder : Obligations.SweepCommandsRefusedInOrder := by
  intro s p epoch r
  refine ⟨fun station ho h => ?_, fun ho h => ?_, fun first last flags ho h => ?_⟩
  · rw [exec_purge_offers ho, purge_refused h]
    rfl
  · rw [exec_clearAll_offers ho, clearAll_refused h]
    rfl
  · rw [exec_revokeRange_offers ho, revokeRange_refused h]
    rfl

/-! ### The arbiter (R41) -/

theorem ownerOf_grantEngine_iff (code : Byte) : ownerOf code = .grantEngine ↔ code ∈ grantEngineCodes := by
  unfold ownerOf
  split
  · rename_i h
    exact iff_of_true rfl h
  · rename_i h
    refine iff_of_false (fun hc => ?_) h
    repeat' split at hc
    all_goals cases hc

/-- A port waits for the GE with a command passed on that the GE takes (R40, R41). -/
theorem waitsForGE_iff (s : State) (p : Station) :
    s.waitsForGE p = true ↔ ∃ code args, s.Offers p code args ∧ code ∈ grantEngineCodes := by
  unfold State.waitsForGE State.Offers
  cases s.ports[p].command with
  | ready => simp
  | holding r => simp
  | busy c =>
    obtain ⟨code, args, passedOn⟩ := c
    simp only [Bool.and_eq_true, beq_iff_eq, ownerOf_grantEngine_iff, CommandState.busy.injEq, PostedCommand.mk.injEq]
    constructor
    · rintro ⟨rfl, hcode⟩
      exact ⟨code, args, ⟨rfl, rfl, rfl⟩, hcode⟩
    · rintro ⟨_, _, ⟨rfl, rfl, rfl⟩, hcode⟩
      exact ⟨rfl, hcode⟩

/-- The first waiting station counted from the one after `last`. -/
theorem find?_rotating : ∀ (waits : Station → Bool) (last p : Station),
    [last + 1, last + 2, last + 3, last].find? waits = some p ↔
      waits p = true ∧ ∀ q : Station, (q - last - 1).val < (p - last - 1).val → waits q = false := by decide +kernel

theorem behindCompletion_iff (s : State) (p : Station) :
    s.behindCompletion p = false ↔ ∀ c ∈ s.rangeCompletions, c.requester = p → c.overtaken = true := by
  rw [State.behindCompletion, List.any_eq_false]
  refine forall₂_congr fun c _ => ?_
  rw [Bool.and_eq_true, beq_iff_eq, Bool.not_eq_true', not_and, Bool.not_eq_false]

/-- Settles O27: the arbiter's choice is the first waiting station of the rotation, and no completion claim of its
station that it must wait for is outstanding. -/
theorem arbiterRotates : Obligations.ArbiterRotates := by
  intro s p
  rw [State.geMayTake, Bool.and_eq_true, beq_iff_eq, Bool.not_eq_true', behindCompletion_iff, State.arbiterChoice,
    find?_rotating, waitsForGE_iff, and_assoc]
  refine and_congr_right fun _ => and_congr_left fun _ => forall₂_congr fun q _ => ?_
  rw [← Bool.not_eq_true, waitsForGE_iff]
  constructor
  · exact fun h code args ho hcode => h ⟨code, args, ho, hcode⟩
  · rintro h ⟨code, args, ho, hcode⟩
    exact h code args ho hcode

/-! ### ACQUIRE: its checks (R45) -/

/-- Steps 1 to 6 of R45. -/
def State.requestTests (s : State) (p : Station) (epoch : Byte) (k : Word) (flags : Byte) (term : Word) :
    List (Bool × ResultCode) :=
  [((flags &&& 0x03#8 != 0x01#8 && flags &&& 0x03#8 != 0x02#8) || flags &&& 0x7C#8 != 0x00#8 || term == 0, .badArg)] ++
    s.sessionTests p epoch ++
    [([s.settings.p0, s.settings.p1].any fun r => r.covers k && s.settings.accessLevel[p] < r.level, .denied),
      (s.inSweepScope k, .sweepingKey),
      ((List.finRange 256).any fun i =>
        s.slots[i].state.isLive && s.slots[i].lease.any fun l => l.station == p && l.key == k, .duplicate),
      (s.settings.quota[p] ≤ s.sessions[p].leaseCount, .quota)]

/-- Steps 7 and 8 of R45. -/
def State.roomTests (s : State) (k : Word) : List (Bool × ResultCode) :=
  [((List.finRange 256).all fun i => s.slots[i].state != .free, .poolFull),
    ((s.directory.all fun e => e.key != k) && 128 ≤ s.directory.length, .dirFull)]

theorem acquireTests_eq (s : State) (p : Station) (epoch : Byte) (k : Word) (flags : Byte) (term : Word) :
    s.acquireTests p epoch k flags term = s.requestTests p epoch k flags term ++ s.roomTests k := by
  simp only [State.acquireTests, State.requestTests, State.roomTests, List.append_assoc, List.cons_append,
    List.nil_append]

theorem acquireMode_of_code {flags : Byte} {m : LeaseMode} (h : flags &&& 0x03#8 = m.code) :
    acquireMode flags = some m := by
  rw [acquireMode, h]
  cases m <;> rfl

theorem acquireMode_isNone (flags : Byte) :
    (acquireMode flags).isNone = (flags &&& 0x03#8 != 0x01#8 && flags &&& 0x03#8 != 0x02#8) := by
  unfold acquireMode modeOfCode
  by_cases h1 : flags &&& 0x03#8 = 0x01#8
  · simp [h1]
  · by_cases h2 : flags &&& 0x03#8 = 0x02#8 <;> simp [h1, h2]

theorem liveLeaseOn_isSome (s : State) (p : Station) (k : Word) : (s.liveLeaseOn p k).isSome =
    (List.finRange 256).any fun i =>
      s.slots[i].state.isLive && s.slots[i].lease.any fun l => l.station == p && l.key == k := by
  rw [State.liveLeaseOn, List.isSome_find?]
  refine congrArg (List.any _) (funext fun i => ?_)
  cases s.slots[i].lease <;> rfl

/-- The six tests as the model takes them. -/
theorem acquireRefusal_eq (s : State) (p : Station) (epoch : Byte) (k : Word) (flags : Byte) (term : Word) :
    s.acquireRefusal p epoch k flags term = firstFailing (s.requestTests p epoch k flags term) := by
  have hformat : (!acquireFlagsAssigned flags) = (flags &&& 0x7C#8 != 0x00#8) := rfl
  have hdenied : s.accessDenied p k =
      [s.settings.p0, s.settings.p1].any fun r => r.covers k && s.settings.accessLevel[p] < r.level := by
    simp only [State.accessDenied, List.any_cons, List.any_nil, Bool.or_false]
  unfold State.acquireRefusal State.requestTests
  rw [acquireMode_isNone, hformat, hdenied, liveLeaseOn_isSome, firstFailing_append, firstFailing_append,
    ← sessionRefusal_eq]
  generalize
    ((flags &&& 0x03#8 != 0x01#8 && flags &&& 0x03#8 != 0x02#8) || flags &&& 0x7C#8 != 0x00#8 || term == 0) = bad
  cases bad with
  | true => rfl
  | false =>
    cases s.sessionRefusal p epoch with
    | some r => rfl
    | none =>
      simp only [firstFailing, Bool.false_eq_true, if_false, Option.none_or, decide_eq_true_eq]

theorem lowestFree_eq_none {s : State} :
    s.lowestFree = none ↔ ((List.finRange 256).all fun i => s.slots[i].state != .free) = true := by
  rw [State.lowestFree, List.find?_eq_none, List.all_eq_true]
  refine forall₂_congr fun i _ => ?_
  rw [beq_iff_eq, bne_iff_ne]

theorem lowestFree_eq_some {s : State} {i : SlotIndex} (hfree : s.slots[i].state = .free)
    (hlow : ∀ j, j < i → s.slots[j].state ≠ .free) : s.lowestFree = some i := by
  rw [State.lowestFree, List.find?_eq_some_iff_getElem]
  refine ⟨by rw [beq_iff_eq]; exact hfree, i.val, by rw [List.length_finRange]; exact i.isLt,
    by rw [List.getElem_finRange, Fin.cast_mk], fun j hj => ?_⟩
  rw [List.getElem_finRange, Fin.cast_mk, Bool.not_eq_true', beq_eq_false_iff_ne]
  exact hlow ⟨j, hj.trans i.isLt⟩ hj

theorem entryOf_isNone (d : List Entry) (k : Word) : (entryOf d k).isNone = d.all fun e => e.key != k := by
  rw [← Option.not_isSome, entryOf, List.isSome_find?, List.not_any_eq_all_not]
  rfl

/-- The place of an ACQUIRE that fails step 7 or 8. -/
theorem acquirePlace_refused {s : State} {l : Lease} {r : ResultCode} (h : firstFailing (s.roomTests l.key) = some r)
    (once : Bool) : acquirePlace l once s = (s, .plain r) := by
  unfold acquirePlace
  cases hfree : s.lowestFree with
  | none =>
    rw [State.roomTests, lowestFree_eq_none.1 hfree] at h
    cases h
    rfl
  | some i =>
    have hroom : ((List.finRange 256).all fun i => s.slots[i].state != .free) = false := by
      rw [← Bool.not_eq_true, ← lowestFree_eq_none, hfree]
      exact Option.some_ne_none i
    rw [State.roomTests, hroom, ← entryOf_isNone, show (128 : Nat) = Config.directoryCapacity from rfl] at h
    have hdir :
        ((entryOf s.directory l.key).isNone && decide (Config.directoryCapacity ≤ s.directory.length)) = true := by
      by_contra hc
      rw [Bool.not_eq_true] at hc
      rw [hc] at h
      cases h
    rw [hdir] at h
    cases h
    exact if_pos hdir

/-! ### ACQUIRE: its outcome (R9, R30, R45, R51 to R53) -/

theorem canGrantNow_eq (s : State) (e : Entry) (m : LeaseMode) : s.canGrantNow e m = s.immediateGrant e m := by
  unfold State.canGrantNow State.immediateGrant State.compatible
  cases m with
  | shared => rfl
  | exclusive => cases e.holders <;> rfl

theorem exec_acquire_offers {s : State} {p : Station} {epoch flags : Byte} {k term wait : Word}
    (ho : s.GeOffers p 0x30 ([epoch] ++ wordBytes k ++ [flags] ++ wordBytes term ++ wordBytes wait)) :
    exec (.acquire p) s = .next ({ (acquire p epoch k flags term wait s).1 with lastTaken := p }.placeResult p 0x30
      (acquire p epoch k flags term wait s).2) := by
  refine (geTaking_offers ho fun a =>
    acquire p (argByte a 0) (argWord a 1) (argByte a 3) (argWord a 4) (argWord a 6)).trans ?_
  simp only [List.append_assoc, List.cons_append, List.nil_append, argByte_zero, argWord_succ, argWord_zero,
    argWord_wordBytes, argByte_succ, argByte_wordBytes, argWord_zero']

section acquire
variable {s : State} {p : Station} {epoch flags : Byte} {k term : Word}

/-- An ACQUIRE that fails one of steps 1 to 8. -/
theorem acquire_refused {r : ResultCode} (h : firstFailing (s.acquireTests p epoch k flags term) = some r)
    (wait : Word) :
    acquire p epoch k flags term wait s = (s, .plain r) := by
  rw [acquireTests_eq, firstFailing_append, ← acquireRefusal_eq] at h
  unfold acquire
  cases hrequest : s.acquireRefusal p epoch k flags term with
  | some r' =>
    rw [hrequest] at h
    cases h
    rfl
  | none =>
    rw [hrequest, Option.none_or] at h
    cases hm : acquireMode flags with
    | some m => exact acquirePlace_refused (l := ⟨p, k, m, term, wait⟩) h _
    | none =>
      rw [State.acquireRefusal, hm] at hrequest
      cases hrequest

/-- An ACQUIRE that passes steps 1 to 8: steps 9 to 12. -/
theorem acquire_passed {m : LeaseMode} {i : SlotIndex} (h : firstFailing (s.acquireTests p epoch k flags term) = none)
    (hm : flags &&& 0x03#8 = m.code) (hi : s.lowestFree = some i) (wait : Word) :
    acquire p epoch k flags term wait s =
      let l : Lease := { station := p, key := k, mode := m, term := term, waitLimit := wait }
      if s.canGrantNow (s.entryOrNew k) m then
        (s.grantNow i l, { result := .granted, body := wordBytes (handleOf s.slots[i].generation i) })
      else if flags.getLsbD 7 then (s, .plain .busyRes)
      else if s.settings.queueLimit ≤ (s.entryOrNew k).queue.length then (s, .plain .queueFull)
      else
        (s.queueUp i l,
          { result := .queued
            body := wordBytes (handleOf s.slots[i].generation i) ++
              [BitVec.ofNat 8 ((s.entryOrNew k).queue.length + 1)] }) := by
  rw [acquireTests_eq, firstFailing_append, Option.or_eq_none_iff, ← acquireRefusal_eq, State.roomTests,
    firstFailing_cons_eq_none, firstFailing_cons_eq_none, ← entryOf_isNone] at h
  obtain ⟨hrequest, -, hdir, -⟩ := h
  unfold acquire
  rw [hrequest, acquireMode_of_code hm]
  simp only [acquirePlace, hi, canGrantNow_eq]
  rw [if_neg (by rw [show Config.directoryCapacity = 128 from rfl, hdir]; exact Bool.false_ne_true)]
  rfl

/-- An ACQUIRE that passes steps 1 to 8 finds a FREE slot and names a mode. -/
theorem acquire_room (h : firstFailing (s.acquireTests p epoch k flags term) = none) :
    (∃ i, s.lowestFree = some i) ∧
      flags &&& 0x03#8 = (if flags &&& 0x03#8 = 0x01#8 then LeaseMode.shared else .exclusive).code := by
  rw [acquireTests_eq, firstFailing_append, Option.or_eq_none_iff, State.roomTests, firstFailing_cons_eq_none,
    State.requestTests, List.append_assoc, List.singleton_append, firstFailing_cons_eq_none, Bool.or_eq_false_iff,
    Bool.or_eq_false_iff, Bool.and_eq_false_iff, bne_eq_false_iff_eq, bne_eq_false_iff_eq] at h
  obtain ⟨⟨⟨⟨hmode, -⟩, -⟩, -⟩, hfree, -⟩ := h
  constructor
  · rw [← Option.ne_none_iff_exists', Ne, lowestFree_eq_none, hfree]
    exact Bool.false_ne_true
  · split <;> rename_i hshared
    · exact hshared
    · exact hmode.resolve_left hshared

end acquire

/-- A grant at once as one record update: the counter's tag is the slot's generation, which stands. -/
theorem grantNow_eq (s : State) (i : SlotIndex) (l : Lease) :
    s.grantNow i l =
      { s with
        slots := s.slots.set i
          { state := .held, generation := s.slots[i].generation, lease := some l, extension := none, notice := none }
        leaseCounters := s.leaseCounters.set i
          { s.leaseCounters[i] with
            value := l.term, running := true, generation := s.slots[i].generation, phase := .term }
        sessions := s.sessions.set l.station
          { s.sessions[l.station] with leaseCount := s.sessions[l.station].leaseCount + 1 }
        directory := putEntry { s.entryOrNew l.key with
          holders := (s.entryOrNew l.key).holders ++ [i], holdMode := l.mode.hold } s.directory } := by
  simp only [State.grantNow, State.occupy, State.loadCounter, modifySession_slots, modifySlot_slots, updVec_get_self]
  rfl

/-- A queuing as one record update (R9, R53, R73). -/
theorem queueUp_eq (s : State) (i : SlotIndex) (l : Lease) :
    s.queueUp i l =
      { s with
        slots := s.slots.set i
          { state := .waiting, generation := s.slots[i].generation, lease := some l, extension := none, notice := none }
        leaseCounters := s.leaseCounters.set i
          (if l.waitLimit = 0 then { s.leaseCounters[i] with value := 0, running := false }
          else
            { s.leaseCounters[i] with
              value := l.waitLimit, running := true, generation := s.slots[i].generation, phase := .wait })
        sessions := s.sessions.set l.station
          { s.sessions[l.station] with leaseCount := s.sessions[l.station].leaseCount + 1 }
        directory := putEntry { s.entryOrNew l.key with queue := (s.entryOrNew l.key).queue ++ [i] } s.directory } := by
  unfold State.queueUp
  dsimp only
  by_cases h : l.waitLimit = 0
  · rw [if_pos h, if_pos h]
    rfl
  · rw [if_neg h, if_neg h]
    simp only [State.occupy, State.loadCounter, modifySession_slots, modifySlot_slots, updVec_get_self]
    rfl

/-- Settles O28: steps 1 to 8 pass and step 9 grants. -/
theorem acquireGrantedAtOnce : Obligations.AcquireGrantedAtOnce := by
  intro s p epoch flags k term wait m i ho htests hm hfree hlow hgrant e l
  rw [exec_acquire_offers ho, acquire_passed htests hm (lowestFree_eq_some hfree hlow)]
  dsimp only
  rw [if_pos hgrant, grantNow_eq]

/-- Settles O29: steps 1 to 8 pass, step 9 does not grant, and steps 10 and 11 pass. -/
theorem acquireQueued : Obligations.AcquireQueued := by
  intro s p epoch flags k term wait m i ho htests hm hfree hlow hgrant htry hroom e l
  rw [exec_acquire_offers ho, acquire_passed htests hm (lowestFree_eq_some hfree hlow)]
  dsimp only
  rw [if_neg (by rw [hgrant]; exact Bool.false_ne_true), if_neg (by rw [htry]; exact Bool.false_ne_true),
    if_neg (Nat.not_le.2 hroom), queueUp_eq]

/-- Settles O30: a test of steps 1 to 8 decides, or one of the two after a grant has failed. -/
theorem acquireRefusedInOrder : Obligations.AcquireRefusedInOrder := by
  intro s p epoch flags k term wait r ho m blocked h
  rw [exec_acquire_offers ho]
  rw [firstFailing_append] at h
  cases htests : firstFailing (s.acquireTests p epoch k flags term) with
  | some r' =>
    rw [htests] at h
    cases h
    rw [acquire_refused htests]
    rfl
  | none =>
    rw [htests, Option.none_or] at h
    obtain ⟨⟨i, hi⟩, hm⟩ := acquire_room htests
    rw [acquire_passed htests hm hi]
    dsimp only
    cases hgrant : s.canGrantNow (s.entryOrNew k) m with
    | true =>
      rw [show blocked = false from congrArg not hgrant] at h
      cases h
    | false =>
      rw [show blocked = true from congrArg not hgrant, Bool.true_and, Bool.true_and] at h
      rw [if_neg Bool.false_ne_true]
      cases htry : flags.getLsbD 7 with
      | true =>
        rw [htry] at h
        cases h
        rfl
      | false =>
        rw [htry] at h
        by_cases hfull : s.settings.queueLimit ≤ (s.entryOrNew k).queue.length
        · rw [decide_eq_true hfull] at h
          cases h
          rw [if_neg Bool.false_ne_true, if_pos hfull]
          rfl
        · rw [decide_eq_false hfull] at h
          cases h

end Sys2Proof.Machine
end

section
/-! PROOFS. Commands that name a handle, the queries, and what a regrant leaves (chapters 2 to 4). -/

namespace Sys2Proof.Machine

/-! ### Takings of commands that name a handle (section 11.2) -/

theorem exec_release_offers {s : State} {p : Station} {epoch : Byte} {h : Word}
    (ho : s.GeOffers p 0x31 ([epoch] ++ wordBytes h)) :
    exec (.release p) s = .next ({ (release p epoch h s).1 with lastTaken := p }.placeResult p 0x31
      (release p epoch h s).2) := by
  refine (geTaking_offers ho fun a => release p (argByte a 0) (argWord a 1)).trans ?_
  simp only [List.cons_append, List.nil_append, argByte_zero, argWord_succ, argWord_zero']

theorem exec_queryLease_offers {s : State} {p : Station} {epoch : Byte} {h : Word}
    (ho : s.GeOffers p 0x38 ([epoch] ++ wordBytes h)) :
    exec (.queryLease p) s = .next ({ (queryLease p epoch h s).1 with lastTaken := p }.placeResult p 0x38
      (queryLease p epoch h s).2) := by
  refine (geTaking_offers ho fun a => queryLease p (argByte a 0) (argWord a 1)).trans ?_
  simp only [List.cons_append, List.nil_append, argByte_zero, argWord_succ, argWord_zero']

theorem exec_queryKey_offers {s : State} {p : Station} {epoch : Byte} {k : Word}
    (ho : s.GeOffers p 0x39 ([epoch] ++ wordBytes k)) :
    exec (.queryKey p) s = .next ({ (queryKey p epoch k s).1 with lastTaken := p }.placeResult p 0x39
      (queryKey p epoch k s).2) := by
  refine (geTaking_offers ho fun a => queryKey p (argByte a 0) (argWord a 1)).trans ?_
  simp only [List.cons_append, List.nil_append, argByte_zero, argWord_succ, argWord_zero']

theorem exec_convert_offers {s : State} {p : Station} {epoch mode : Byte} {h : Word}
    (ho : s.GeOffers p 0x34 ([epoch] ++ wordBytes h ++ [mode])) :
    exec (.convert p) s = .next ({ (convert p epoch h mode s).1 with lastTaken := p }.placeResult p 0x34
      (convert p epoch h mode s).2) := by
  refine (geTaking_offers ho fun a => convert p (argByte a 0) (argWord a 1) (argByte a 3)).trans ?_
  simp only [List.cons_append, List.nil_append, argByte_zero, argWord_succ, argWord_zero, argByte_succ,
    argByte_wordBytes]

/-! ### Refusals (R7, R60, R63, R65, R81) -/

section refusals
variable {s : State} {p : Station} {epoch : Byte} {h : Word} {r : ResultCode}

theorem release_refused (hr : firstFailing (s.handleTests p epoch h true) = some r) :
    release p epoch h s = (s, .plain r) := by
  simp only [release, handleCommandRefusal_eq, hr]

theorem queryLease_refused (hr : firstFailing (s.handleTests p epoch h true) = some r) :
    queryLease p epoch h s = (s, .plain r) := by
  simp only [queryLease, handleCommandRefusal_eq, hr]

/-- The two state checks of RENEW and EXTEND, by the slot's state. -/
theorem holdingTests_cases (hr : firstFailing
      [(s.slots[handleSlot h].state != .held && s.slots[handleSlot h].state != .grace, .wrongState),
        (s.doomed (handleSlot h), .doomed)] = some r) :
    (r = .wrongState ∧ s.slots[handleSlot h].state ≠ .held ∧ s.slots[handleSlot h].state ≠ .grace) ∨
      (r = .doomed ∧ s.doomed (handleSlot h) = true ∧
        (s.slots[handleSlot h].state = .held ∨ s.slots[handleSlot h].state = .grace)) := by
  cases hstate : (s.slots[handleSlot h].state != .held && s.slots[handleSlot h].state != .grace) with
  | true =>
    rw [hstate] at hr
    cases hr
    rw [Bool.and_eq_true, bne_iff_ne, bne_iff_ne] at hstate
    exact .inl ⟨rfl, hstate⟩
  | false =>
    rw [hstate] at hr
    rw [Bool.and_eq_false_iff, bne_eq_false_iff_eq, bne_eq_false_iff_eq] at hstate
    cases hdoomed : s.doomed (handleSlot h) with
    | false =>
      rw [hdoomed] at hr
      cases hr
    | true =>
      rw [hdoomed] at hr
      cases hr
      exact .inr ⟨rfl, rfl, hstate⟩

theorem renew_refused (hr : firstFailing (s.handleTests p epoch h true ++
      [(s.slots[handleSlot h].state != .held && s.slots[handleSlot h].state != .grace, .wrongState),
        (s.doomed (handleSlot h), .doomed)]) = some r) (term : Word) : renew p epoch h term s = (s, .plain r) := by
  rw [firstFailing_append] at hr
  unfold renew
  rw [handleCommandRefusal_eq]
  cases htests : firstFailing (s.handleTests p epoch h true) with
  | some r' =>
    rw [htests] at hr
    cases hr
    rfl
  | none =>
    rw [htests, Option.none_or] at hr
    obtain ⟨l, hl, -⟩ := handleTests_lease htests
    rcases holdingTests_cases hr with ⟨rfl, hheld, hgrace⟩ | ⟨rfl, hdoomed, hstate | hstate⟩
    · cases hstate : s.slots[handleSlot h].state with
      | held => exact absurd hstate hheld
      | grace => exact absurd hstate hgrace
      | free | waiting | ended => rfl
    · simp only [hstate, hl, hdoomed, if_true]
    · simp only [hstate, hl, hdoomed, if_true]

theorem extend_refused (hr : firstFailing (s.handleTests p epoch h true ++
      [(s.slots[handleSlot h].state != .held && s.slots[handleSlot h].state != .grace, .wrongState),
        (s.doomed (handleSlot h), .doomed)]) = some r) (term : Word) : extend p epoch h term s = (s, .plain r) := by
  rw [firstFailing_append] at hr
  unfold extend
  rw [handleCommandRefusal_eq]
  cases htests : firstFailing (s.handleTests p epoch h true) with
  | some r' =>
    rw [htests] at hr
    cases hr
    rfl
  | none =>
    rw [htests, Option.none_or] at hr
    obtain ⟨l, hl, -⟩ := handleTests_lease htests
    rcases holdingTests_cases hr with ⟨rfl, hheld, hgrace⟩ | ⟨rfl, hdoomed, hstate | hstate⟩
    · cases hstate : s.slots[handleSlot h].state with
      | held => exact absurd hstate hheld
      | grace => exact absurd hstate hgrace
      | free | waiting | ended => rfl
    · simp only [hstate, hl, hdoomed, if_true]
    · simp only [hstate, hl, hdoomed, if_true]

end refusals

theorem modeOfCode_isSome (mode : Byte) : (modeOfCode mode).isSome = (mode == 0x01 || mode == 0x02) := by
  unfold modeOfCode
  by_cases h1 : mode = 0x01#8
  · simp [h1]
  · by_cases h2 : mode = 0x02#8 <;> simp [h1, h2]

theorem modeOfCode_code (m : LeaseMode) : modeOfCode m.code = some m := by cases m <;> rfl

theorem modeOfCode_eq_some {mode : Byte} {m : LeaseMode} (h : modeOfCode mode = some m) : mode = m.code := by
  unfold modeOfCode at h
  split at h
  · cases h
    assumption
  · split at h
    · cases h
      assumption
    · cases h

/-- A slot is the sole holder when the directory lists an entry of its key with no other (R65). -/
theorem soleHolder_eq_any {s : State} (h : Rising s.directory) (i : SlotIndex) (k : Word) :
    s.soleHolder i k = s.directory.any fun e => e.key == k && e.holders == [i] := by
  rw [Bool.eq_iff_iff, soleHolder_iff, List.any_eq_true]
  refine exists_congr fun e => ?_
  rw [h.entryOf_eq_some_iff, Bool.and_eq_true, beq_iff_eq, beq_iff_eq, and_assoc]

/-! ### CONVERT past R60 (R63 to R65) -/

section convert
variable {s : State} {p : Station} {epoch mode : Byte} {h : Word}

theorem convert_unrefused (ht : firstFailing (s.handleTests p epoch h (mode == 0x01 || mode == 0x02)) = none) :
    s.handleCommandRefusal p epoch h (modeOfCode mode).isSome = none := by
  rw [modeOfCode_isSome, handleCommandRefusal_eq, ht]

/-- The handle's own format check: a mode is named. -/
theorem mode_of_handleTests (ht : firstFailing (s.handleTests p epoch h (mode == 0x01 || mode == 0x02)) = none) :
    ∃ m, modeOfCode mode = some m := by
  rw [State.handleTests, List.append_assoc, List.singleton_append, firstFailing_cons_eq_none, Bool.or_eq_false_iff,
    Bool.not_eq_false', ← modeOfCode_isSome] at ht
  exact Option.isSome_iff_exists.1 ht.1.2

/-- CONVERT of a HELD slot that is not doomed. -/
theorem convert_of_held (ht : firstFailing (s.handleTests p epoch h (mode == 0x01 || mode == 0x02)) = none) {l : Lease}
    {m : LeaseMode} (hs : s.slots[handleSlot h].state = .held) (hl : s.slots[handleSlot h].lease = some l)
    (hm : modeOfCode mode = some m) (hd : s.doomed (handleSlot h) = false) :
    convert p epoch h mode s = convertHeld (handleSlot h) l m s := by
  have hunrefused := convert_unrefused ht
  rw [hm] at hunrefused
  simp only [convert, hunrefused, hs, hl, hm, hd, Bool.false_eq_true, if_false]

theorem convert_refused {r : ResultCode} (hsound : s.DirectorySound)
    (hr : firstFailing (s.handleTests p epoch h (mode == 0x01 || mode == 0x02) ++
      [(s.slots[handleSlot h].state != .held, .wrongState), (s.doomed (handleSlot h), .doomed),
        (mode == 0x02 && s.slots[handleSlot h].lease.any (fun l => l.mode == .shared &&
          !(s.directory.any fun e => e.key == l.key && e.holders == [handleSlot h])), .conflict)]) = some r) :
    convert p epoch h mode s = (s, .plain r) := by
  rw [firstFailing_append] at hr
  cases htests : firstFailing (s.handleTests p epoch h (mode == 0x01 || mode == 0x02)) with
  | some r' =>
    rw [htests] at hr
    cases hr
    simp only [convert, modeOfCode_isSome, handleCommandRefusal_eq, htests]
  | none =>
    rw [htests, Option.none_or] at hr
    obtain ⟨l, hl, -⟩ := handleTests_lease htests
    obtain ⟨m, hm⟩ := mode_of_handleTests htests
    by_cases hstate : s.slots[handleSlot h].state = .held
    · cases hdoomed : s.doomed (handleSlot h) with
      | true =>
        rw [hstate, hdoomed] at hr
        cases hr
        have hunrefused := convert_unrefused htests
        rw [hm] at hunrefused
        simp only [convert, hunrefused, hstate, hl, hm, hdoomed, if_true]
      | false =>
        rw [convert_of_held htests hstate hl hm hdoomed, convertHeld.eq_def, soleHolder_eq_any hsound.rising]
        rw [hstate, hdoomed, hl, modeOfCode_eq_some hm, Option.any_some] at hr
        cases m with
        | shared => cases hr
        | exclusive =>
          cases hmode : l.mode with
          | exclusive =>
            rw [hmode] at hr
            cases hr
          | shared =>
            rw [hmode] at hr
            cases hsole : s.directory.any fun e => e.key == l.key && e.holders == [handleSlot h] with
            | true =>
              rw [hsole] at hr
              cases hr
            | false =>
              rw [hsole] at hr
              cases hr
              rfl
    · rw [bne_iff_ne.2 hstate] at hr
      cases hr
      simp only [convert, convert_unrefused htests]
      cases hst : s.slots[handleSlot h].state with
      | held => exact absurd hst hstate
      | free | waiting | grace | ended => rfl

end convert

/-- Settles O31: each command's refusal by the first check of its list. -/
theorem handleCommandsRefusedInOrder : Obligations.HandleCommandsRefusedInOrder := by
  intro s p epoch h r i notHolding doomed refuses
  refine ⟨fun ho hr => ?_, fun ho hr => ?_, fun term ho hr => ?_, fun term ho hr => ?_, fun mode ho hr hsound => ?_⟩
  · show exec (.release p) s = _
    rw [exec_release_offers ho, release_refused hr]
    rfl
  · show exec (.queryLease p) s = _
    rw [exec_queryLease_offers ho, queryLease_refused hr]
    rfl
  · show exec (.renew p) s = _
    rw [exec_renew_offers ho, renew_refused hr]
    rfl
  · show exec (.extend p) s = _
    rw [exec_extend_offers ho, extend_refused hr]
    rfl
  · show exec (.convert p) s = _
    rw [exec_convert_offers ho, convert_refused hsound hr]
    rfl

/-! ### RELEASE (R18, R19, R61) -/

/-- Settles O32: an accepted RELEASE removes the slot. -/
theorem releaseFreesTheSlot : Obligations.ReleaseFreesTheSlot := by
  intro s p epoch h ho hsound htests
  obtain ⟨l, hl, hstation, -⟩ := handleTests_lease htests
  obtain ⟨hfreed, hleaves, hended⟩ := removeSlot_free hsound hl
  have hrelease : release p epoch h s = (s.removeSlot (handleSlot h) .free, .plain .ok) := by
    simp only [release, handleCommandRefusal_eq, htests]
  refine ⟨l, s.removeSlot (handleSlot h) .free, hl, hstation, ?_, hfreed, hleaves, hended⟩
  rw [exec_release_offers ho, hrelease]
  rfl

/-! ### CONVERT accepted (R63 to R65) -/

theorem stepUp_eq {s : State} {i : SlotIndex} {l : Lease} {e : Entry} (he : entryOf s.directory l.key = some e) :
    s.stepUp i l =
      { s with
        slots := s.slots.set i { s.slots[i] with lease := some { l with mode := .exclusive } }
        directory := putEntry { e with holdMode := .exclusive } s.directory } := by
  simp only [State.stepUp, State.editEntry, modifySlot_directory, he]
  rfl

/-- A step down changes the slot's mode and its entry's and regrants the key, the slot keeping its place (R64). -/
theorem stepDown_regrants {s : State} (hsound : s.DirectorySound) {i : SlotIndex} {l : Lease} {e : Entry}
    (hheld : s.slots[i].state = .held) (hl : s.slots[i].lease = some l) (he : entryOf s.directory l.key = some e) :
    (s.stepDown i l).slots[i] = { s.slots[i] with lease := some { l with mode := .shared } } ∧
      (s.stepDown i l).leaseCounters[i] = s.leaseCounters[i] ∧
      Regrants (some i) l.key { e with holdMode := .shared } s (s.stepDown i l) := by
  have hentry := hsound.entries e (entryOf_mem he)
  have hkey : e.key = l.key := entryOf_key he
  have hholder : i ∈ e.holders := (hentry.holders i).2 ⟨by rw [hheld]; rfl, l, hl, hkey.symm⟩
  have hwaiter : i ∉ e.queue := fun hi => by
    have hwaiting := ((hentry.waiters i).1 hi).1
    rw [hheld] at hwaiting
    cases hwaiting
  generalize hu : (s.modifySlot i fun sl => { sl with lease := some { l with mode := .shared } }).editEntry l.key
    (fun e => { e with holdMode := .shared }) = u
  have hpool : PoolOnly s u := hu ▸ (poolOnly_modifySlot _ _ _).trans (poolOnly_editEntry _ _ _)
  have hslots : u.slots = updVec s.slots i fun sl => { sl with lease := some { l with mode := .shared } } := by
    rw [← hu, editEntry_slots, modifySlot_slots]
  have hcounters : u.leaseCounters = s.leaseCounters := by
    rw [← hu, editEntry_leaseCounters, modifySlot_leaseCounters]
  have hsessions : u.sessions = s.sessions := by rw [← hu, editEntry_sessions, modifySlot_sessions]
  have hothers := occupied_others hslots
  have hself : entryOf u.directory l.key = some { e with holdMode := .shared } := by
    rw [← hu, editEntry_self _ _ _ fun _ => by rfl, modifySlot_directory, he]
    rfl
  have hrest : ∀ k', k' ≠ l.key → entryOf u.directory k' = entryOf s.directory k' := fun k' hk' => by
    rw [← hu, editEntry_ne _ _ (fun _ => by rfl) hk', modifySlot_directory]
  have hqueue : ∀ j ∈ e.queue, u.slots[j] = s.slots[j] := fun j hj => hothers j (ne_of_mem_of_not_mem hj hwaiter)
  have hgranted := grantedOf_congr (s := s) (t := u) { e with holdMode := .shared } hqueue
    (fun p => by rw [hsessions]) hpool.sweepQueue hpool.settings
  have hregranted := regranted_congr (s := s) (t := u) { e with holdMode := .shared } hqueue
    (fun p => by rw [hsessions]) hpool.sweepQueue hpool.settings
  have hpass : Pass l.key { e with holdMode := .shared } (u.grantedOf { e with holdMode := .shared }) u
      (u.regrant l.key) :=
    regrant_pass hself hentry.queueOnce fun j hj => by
      obtain ⟨-, l', hl', -⟩ := (hentry.waiters j).1 hj
      rw [hqueue j hj, hl']
      rfl
  have ht : s.stepDown i l = u.regrant l.key := by
    rw [← hu]
    rfl
  rw [hgranted] at hpass
  have hout : ∀ j ∈ s.grantedOf { e with holdMode := .shared }, j ≠ i := fun j hj =>
    ne_of_mem_of_not_mem (grantedOf_subset _ _ hj) hwaiter
  obtain ⟨hslot, hcounter⟩ := hpass.others i fun hi => hout i hi rfl
  rw [ht]
  refine ⟨by rw [hslot, hslots, updVec_get_self], by rw [hcounter, hcounters], ?_, fun k' hk' => ?_, fun j hj => ?_,
    fun j hj hjg => ?_⟩
  · have hnonempty : (s.regranted { e with holdMode := .shared }).holders ≠ [] :=
      List.ne_nil_of_mem (List.mem_append_left _ hholder)
    rw [if_neg fun hc => hnonempty hc.1, hpass.entry, ← hregranted, ← hgranted]
    rfl
  · rw [hpass.otherKeys k' hk', hrest k' hk']
  · refine ⟨fun hc => hout j hj (Option.some.inj hc), ?_⟩
    obtain ⟨l', hl', hs', hc'⟩ := hpass.granted j hj
    rw [hothers j (hout j hj)] at hl' hs' hc'
    rw [hcounters] at hc'
    exact ⟨l', hl', hs', hc'⟩
  · have hji : j ≠ i := fun hc => hj (congrArg some hc)
    obtain ⟨hs', hc'⟩ := hpass.others j hjg
    exact ⟨hs'.trans (hothers j hji), by rw [hc', hcounters]⟩

/-- Settles O34: by the mode asked for and the lease's own. -/
theorem convertChangesTheMode : Obligations.ConvertChangesTheMode := by
  intro s p epoch mode h l e i ho hsound htests hheld hdoomed hl he ok slots'
  have hconvert : ∀ m : LeaseMode, mode = m.code → convert p epoch h mode s = convertHeld i l m s := fun m hm =>
    convert_of_held htests hheld hl (by rw [hm, modeOfCode_code]) hdoomed
  rw [exec_convert_offers ho]
  refine ⟨fun hm => ?_, fun hm hmode hsole => ?_, fun hm hmode => ?_⟩
  · rw [hconvert l.mode hm, convertHeld.eq_def, if_pos rfl]
    rfl
  · have hholder : s.soleHolder i l.key = true := soleHolder_iff.2 ⟨e, he, hsole⟩
    have hup : convertHeld i l .exclusive s = (s.stepUp i l, .plain .ok) := by
      simp only [convertHeld, hmode, hholder, if_true, reduceCtorEq, if_false]
    rw [hconvert .exclusive hm, hup, stepUp_eq he]
    rfl
  · have hdown : convertHeld i l .shared s = (s.stepDown i l, .plain .ok) := by
      simp only [convertHeld, hmode, reduceCtorEq, if_false]
    obtain ⟨hslot, hcounter, hregrants⟩ := stepDown_regrants hsound hheld hl he
    refine ⟨s.stepDown i l, ?_, poolOnly_stepDown s i l, stepDown_sessions s i l, hslot, hcounter, hregrants⟩
    rw [hconvert .shared hm, hdown]
    rfl

/-! ### The queries (R29, R35 to R38, R180) -/

theorem entryOf_putEntry (e : Entry) (d : List Entry) (k : Word) :
    entryOf (putEntry e d) k = if k = e.key then some e else entryOf d k := by
  split <;> rename_i h
  · rw [h, entryOf_putEntry_self]
  · exact entryOf_putEntry_ne h d

theorem holderByte_toNat {s : State} {i : SlotIndex} {l : Lease} (hl : s.slots[i].lease = some l) :
    (holderByte s i).toNat = 16 * l.station.val + (match l.mode with | .shared => 1 | .exclusive => 2) := by
  have hbyte : ∀ (p : Station) (m : LeaseMode), ((BitVec.ofNat 4 p.val : BitVec 4) ++ m.code.extractLsb' 0 4).toNat =
      16 * p.val + (match m with | .shared => 1 | .exclusive => 2) := by
    intro p m
    cases m <;> revert p <;> decide
  unfold holderByte
  rw [hl]
  exact hbyte l.station l.mode

theorem queryLease_answers {s : State} {p : Station} {epoch : Byte} {h : Word} {l : Lease}
    (ht : firstFailing (s.handleTests p epoch h true) = none) (hl : s.slots[handleSlot h].lease = some l) :
    queryLease p epoch h s = (s, { result := .ok, body := leaseBody s (handleSlot h) l }) := by
  simp only [queryLease, handleCommandRefusal_eq, ht, hl]

/-- The body of a QUERY LEASE, each field by the slot's state (R37, R38). -/
theorem leaseBody_eq (s : State) (i : SlotIndex) (l : Lease) :
    let state := s.slots[i].state
    let remaining : Word :=
      if state = .held ∨ state = .grace ∨ (state = .waiting ∧ l.waitLimit ≠ 0) then s.leaseCounters[i].value else 0
    let extension : Word := if state = .held then s.slots[i].extension.getD 0 else 0
    let position : Nat :=
      if state = .waiting then (entryOf s.directory l.key).elim 0 fun e => e.queue.idxOf i + 1 else 0
    leaseBody s i l =
      [state.code] ++ wordBytes l.key ++ [l.mode.code] ++ wordBytes remaining ++ wordBytes extension ++
        [BitVec.ofNat 8 position] := by
  have hposition : s.queuePosition i l.key = (entryOf s.directory l.key).elim 0 fun e => e.queue.idxOf i + 1 := by
    unfold State.queuePosition
    cases entryOf s.directory l.key <;> rfl
  unfold leaseBody
  rw [hposition]
  dsimp only
  generalize s.slots[i] = sl
  cases sl.state with
  | waiting => by_cases hwait : l.waitLimit = 0 <;> simp [hwait]
  | held | grace | free | ended => simp

theorem queryKey_answers {s : State} {p : Station} {epoch : Byte} {k : Word}
    (ht : firstFailing (s.sessionTests p epoch) = none) :
    queryKey p epoch k s = (s, { result := .ok, body := keyBody s p k }) := by
  simp only [queryKey, sessionRefusal_eq, ht]

theorem queryKey_refused {s : State} {p : Station} {epoch : Byte} {k : Word} {r : ResultCode}
    (ht : firstFailing (s.sessionTests p epoch) = some r) : queryKey p epoch k s = (s, .plain r) := by
  simp only [queryKey, sessionRefusal_eq, ht]

/-- A station's live lease on a key is found where it is. -/
theorem liveLeaseOn_eq_some {s : State} (h : s.OneLeaseEach) {i : SlotIndex} {l : Lease}
    (hlive : s.slots[i].state.isLive = true) (hl : s.slots[i].lease = some l) :
    s.liveLeaseOn l.station l.key = some i := by
  cases hfind : s.liveLeaseOn l.station l.key with
  | none =>
    have hnot := List.find?_eq_none.1 hfind i (List.mem_finRange i)
    rw [hlive, hl] at hnot
    simp at hnot
  | some j =>
    have hj := List.find?_some hfind
    rw [Bool.and_eq_true] at hj
    obtain ⟨hjlive, hjlease⟩ := hj
    cases hlj : s.slots[j].lease with
    | none =>
      rw [hlj] at hjlease
      cases hjlease
    | some m =>
      rw [hlj, Bool.and_eq_true, beq_iff_eq, beq_iff_eq] at hjlease
      rw [h j i m l hjlive hlive hlj hl hjlease.1 hjlease.2]

theorem liveLeaseOn_eq_none {s : State} {p : Station} {k : Word}
    (h : ∀ (i : SlotIndex) (l : Lease), s.slots[i].state.isLive = true → s.slots[i].lease = some l →
      ¬ (l.station = p ∧ l.key = k)) : s.liveLeaseOn p k = none := by
  rw [State.liveLeaseOn, List.find?_eq_none]
  intro i _ hi
  rw [Bool.and_eq_true] at hi
  obtain ⟨hlive, hlease⟩ := hi
  cases hl : s.slots[i].lease with
  | none =>
    rw [hl] at hlease
    cases hlease
  | some l =>
    rw [hl, Bool.and_eq_true, beq_iff_eq, beq_iff_eq] at hlease
    exact h i l hlive hl hlease

/-- Settles O35: the directory's reads, the holder byte, and the two answers field by field. -/
theorem queriesAnswer : Obligations.QueriesAnswer := by
  intro s p epoch
  refine ⟨fun k e hsound => hsound.rising.entryOf_eq_some_iff, fun e k => entryOf_putEntry e s.directory k,
    fun i l hl => holderByte_toNat hl, fun h l ho ht hl => ?_, fun k ho honce ht => ?_, fun k r ho ht => ?_⟩
  · rw [exec_queryLease_offers ho, queryLease_answers ht hl, leaseBody_eq]
  · refine ⟨ownHandle s p k, fun i l hlive hl hstation hkey => ?_, fun hnone => ?_, ?_⟩
    · subst hstation hkey
      rw [ownHandle, liveLeaseOn_eq_some honce hlive hl]
    · rw [ownHandle, liveLeaseOn_eq_none hnone]
    · rw [exec_queryKey_offers ho, queryKey_answers ht, keyBody]
      cases entryOf s.directory k <;> rfl
  · rw [exec_queryKey_offers ho, queryKey_refused ht]
    rfl

/-! ### What a regrant leaves (R33, R54) -/

/-- The first mode past the granted ones cannot be granted: an exclusive one finds a holder, a shared one an exclusive
holder or as many holders as the limit allows. -/
theorem grantCount_stops (limit : Nat) : ∀ (modes : List LeaseMode) (exclusive : Bool) (holders : Nat) (m : LeaseMode)
    (rest : List LeaseMode), modes.drop (grantCount limit exclusive holders modes) = m :: rest →
    match m with
    | .exclusive => 0 < holders + grantCount limit exclusive holders modes
    | .shared =>
      (if grantCount limit exclusive holders modes = 0 then exclusive = true else modes.head? = some .exclusive) ∨
        limit ≤ holders + grantCount limit exclusive holders modes := by
  intro modes
  induction modes with
  | nil => intro _ _ m rest h; simp at h
  | cons m' modes ih =>
    intro exclusive holders m rest h
    cases m' with
    | exclusive =>
      by_cases hnone : holders = 0
      · rw [grantCount, if_pos hnone] at h ⊢
        cases m with
        | exclusive => exact Nat.succ_pos _
        | shared => exact .inl rfl
      · rw [grantCount, if_neg hnone] at h ⊢
        cases h
        exact Nat.pos_of_ne_zero hnone
    | shared =>
      by_cases hgrant : exclusive = false ∧ holders < limit
      · rw [grantCount, if_pos hgrant] at h ⊢
        rw [Nat.add_comm 1, List.drop_succ_cons] at h
        have hrest := ih false (holders + 1) m rest h
        cases m with
        | exclusive => exact Nat.add_pos_right _ (Nat.add_pos_left Nat.one_pos _)
        | shared =>
          rcases hrest with hstop | hfull
          · exfalso
            split at hstop
            · cases hstop
            · rename_i hsome
              cases modes with
              | nil => cases hstop
              | cons m'' modes =>
                cases hstop
                exact hsome (if_neg (Nat.succ_ne_zero holders))
          · exact .inr (by omega)
      · rw [grantCount, if_neg hgrant] at h ⊢
        cases h
        rw [not_and_or, Bool.not_eq_false, Nat.not_lt] at hgrant
        exact hgrant.imp_left fun hx => hx

/-- What a list without repetition keeps when its first `n` members go. -/
theorem filter_not_mem_take {α : Type} [DecidableEq α] {l : List α} (h : l.Nodup) (n : Nat) :
    (l.filter fun a => !(l.take n).contains a) = l.drop n := by
  conv_lhs => rw [← List.take_append_drop n l]
  rw [List.filter_append, List.take_append_drop]
  have hsplit := h
  rw [← List.take_append_drop n l] at hsplit
  have hdisjoint := List.disjoint_of_nodup_append hsplit
  rw [List.filter_eq_nil_iff.2 fun a ha => by simpa using ha, List.nil_append,
    List.filter_eq_self.2 fun a ha => by simpa using fun hc => hdisjoint hc ha]

/-- Settles O36: the waiters left are those past the granted ones, where the count of R54 stopped. -/
theorem regrantLeavesNoGrantableWaiter : Obligations.RegrantLeavesNoGrantableWaiter := by
  intro s k e j rest hsound he hfirst
  cases he0 : entryOf s.directory k with
  | none =>
    rw [regrant_none he0, he0] at he
    cases he
  | some e0 =>
    have hentry := hsound.entries e0 (entryOf_mem he0)
    have hpass := regrant_pass he0 hentry.queueOnce fun i hi => by
      obtain ⟨-, l, hl, -⟩ := (hentry.waiters i).1 hi
      rw [hl]
      rfl
    generalize s.regrant k = t at he hfirst hpass ⊢
    obtain rfl := Option.some.inj (hpass.entry.symm.trans he)
    generalize hws : (e0.queue.filter fun i => !s.doomed i) = ws
    generalize hn : grantCount s.settings.sharedLimit (e0.holdMode == .exclusive) e0.holders.length
      (ws.map s.modeOf) = n
    have hg : s.grantedOf e0 = ws.take n := by
      rw [← hn, ← hws]
      rfl
    have hleft : ws.drop n = j :: rest := by
      rw [← filter_not_mem_take (hws ▸ hentry.queueOnce.filter _), ← hg, ← hfirst, ← hws, List.filter_filter]
      show _ = (e0.queue.filter fun i => !(s.grantedOf e0).contains i).filter _
      rw [List.filter_filter]
      refine List.filter_congr fun i _ => ?_
      by_cases hi : i ∈ s.grantedOf e0
      · simp [hi]
      · rw [doomed_congr i (hpass.others i hi).1 (fun p => by rw [hpass.sessions]) hpass.poolOnly.sweepQueue
          hpass.poolOnly.settings, Bool.and_comm]
    have hjws : j ∈ ws := List.mem_of_mem_drop (by rw [hleft]; exact List.mem_cons_self)
    have hjout : j ∉ s.grantedOf e0 := by
      have hnd := hws ▸ hentry.queueOnce.filter fun i => !s.doomed i
      rw [← List.take_append_drop n ws] at hnd
      rw [hg]
      exact fun hc => List.disjoint_of_nodup_append hnd hc (by rw [hleft]; exact List.mem_cons_self)
    obtain ⟨-, l, hl, -⟩ := (hentry.waiters j).1 (List.mem_of_mem_filter (hws ▸ hjws))
    have hmode : s.modeOf j = l.mode := by
      rw [State.modeOf, hl]
    have hstops := grantCount_stops s.settings.sharedLimit (ws.map s.modeOf) (e0.holdMode == .exclusive)
      e0.holders.length l.mode (rest.map s.modeOf) (by rw [hn, ← List.map_drop, hleft, List.map_cons, hmode])
    rw [hn] at hstops
    have hlength : (s.withGranted e0 (s.grantedOf e0)).holders.length = e0.holders.length + n := by
      have hlt : n < ws.length := by
        by_contra hge
        rw [List.drop_of_length_le (Nat.not_lt.1 hge)] at hleft
        cases hleft
      show (e0.holders ++ s.grantedOf e0).length = _
      rw [List.length_append, hg, List.length_take, Nat.min_eq_left hlt.le]
    refine ⟨l, by rw [(hpass.others j hjout).1, hl], ?_⟩
    cases hm : l.mode with
    | exclusive =>
      rw [hm] at hstops
      exact List.ne_nil_of_length_pos (by rw [hlength]; exact hstops)
    | shared =>
      rw [hm] at hstops
      rw [hlength]
      refine hstops.imp_left fun hstop => ?_
      show s.holdAfter e0.holdMode (s.grantedOf e0) = .exclusive
      rw [hg]
      cases n with
      | zero => exact beq_iff_eq.1 hstop
      | succ n =>
        cases ws with
        | nil => cases hjws
        | cons i ws =>
          have hi : s.modeOf i = .exclusive := Option.some.inj hstop
          show (s.modeOf i).hold = .exclusive
          rw [hi]
          rfl

end Sys2Proof.Machine
end

section
/-! PROOFS. Expiry claims, removal claims, completions and acknowledgement claims (chapters 1, 2, 4, 6, 7). -/

namespace Sys2Proof.Machine

/-! ### Expiry claims that pass their test (R13 to R17, R77, R80) -/

/-- A claim of the phase asked for that passes its test is taken off its counter and acted on. -/
theorem takeExpiry_of_passes {s : State} {i : SlotIndex} {c : ExpiryClaim} {ph : Phase}
    (hc : s.leaseCounters[i].claim = some c) (hph : c.phase = ph)
    (hpasses : s.slots[i].generation = c.generation ∧ s.slots[i].state = ph.state ∧ s.leaseCounters[i].value = 0)
    (act : State → State) : s.takeExpiry i ph act = act (s.modifyCounter i fun k => { k with claim := none }) := by
  subst hph
  rw [← claimPasses_iff] at hpasses
  simp only [State.takeExpiry, hc, hpasses, if_true]

theorem directorySound_modifyCounter {s : State} (h : s.DirectorySound) (i : SlotIndex)
    (f : LeaseCounter → LeaseCounter) : (s.modifyCounter i f).DirectorySound where
  rising := h.rising
  entries e he :=
    have hsound := h.entries e he
    { inUse := hsound.inUse, holdersOnce := hsound.holdersOnce, queueOnce := hsound.queueOnce
      holders := hsound.holders, waiters := hsound.waiters, unheld := hsound.unheld, mode := hsound.mode
      alone := hsound.alone, shared := hsound.shared, queued := hsound.queued }
  listed := h.listed
  capacity := h.capacity
  sharedLimit := h.sharedLimit
  queueLimit := h.queueLimit

/-- A taking that moves a slot out of its list does so from any value of the slot's own counter. -/
theorem Leaves.of_modifyCounter {s t : State} {i : SlotIndex} {l : Lease} {f : LeaseCounter → LeaseCounter}
    (h : Leaves i l (s.modifyCounter i f) t) : Leaves i l s t where
  poolOnly := (poolOnly_modifyCounter s i f).trans h.poolOnly
  regrants e he := by
    obtain ⟨hentry, hkeys, hgranted, hothers⟩ := h.regrants e he
    have hcounter : ∀ j, some j ≠ some i → (s.modifyCounter i f).leaseCounters[j] = s.leaseCounters[j] :=
      fun j hj => updVec_get_ne _ (fun hji => hj (congrArg some hji)) f
    rw [regranted_congr (s := s) (t := s.modifyCounter i f) _ (fun _ _ => rfl) (fun _ => rfl) rfl rfl] at hentry
    rw [grantedOf_congr (s := s) (t := s.modifyCounter i f) _ (fun _ _ => rfl) (fun _ => rfl) rfl rfl]
      at hgranted hothers
    refine ⟨hentry, hkeys, fun j hj => ?_, fun j hj hout => ?_⟩
    · obtain ⟨hji, l', hl', hslot, hloaded⟩ := hgranted j hj
      exact ⟨hji, l', hl', hslot, by rw [hloaded, hcounter j hji]; rfl⟩
    · obtain ⟨hslot, hkept⟩ := hothers j hj hout
      exact ⟨hslot, by rw [hkept, hcounter j hj]⟩

/-- A live slot whose claim is taken is ended with a notice, and no claim is left of its counter. -/
theorem claimTaken_ended {s : State} (h : s.DirectorySound) {i : SlotIndex} {l : Lease}
    (hlive : s.slots[i].state.isLive = true) (hl : s.slots[i].lease = some l) (kind : NoticeKind) :
    EndedWith i kind none s ((s.modifyCounter i fun k => { k with claim := none }).removeSlot i (.ended kind)) ∧
      Leaves i l s ((s.modifyCounter i fun k => { k with claim := none }).removeSlot i (.ended kind)) := by
  obtain ⟨hended, hleaves⟩ := removeSlot_ended (s := s.modifyCounter i fun k => { k with claim := none })
    (directorySound_modifyCounter h i _) hlive hl kind
  refine ⟨⟨hended.slot, hended.counter.trans ?_, hended.count⟩, hleaves.of_modifyCounter⟩
  rw [modifyCounter_leaseCounters, updVec_get_self]

/-- A slot whose claim is taken moves within its generation, its counter loaded afresh. -/
theorem claimTaken_loaded (s : State) (i : SlotIndex) {f : Slot → Slot} (hf : ∀ sl, (f sl).generation = sl.generation)
    (v : Word) (phase : Phase) :
    (((s.modifyCounter i fun k => { k with claim := none }).modifySlot i f).loadCounter i v phase) =
      { s with
        slots := s.slots.set i (f s.slots[i])
        leaseCounters := s.leaseCounters.set i
          { value := v, running := true, generation := s.slots[i].generation, phase := phase, claim := none } } := by
  have hgeneration : (updVec s.slots i f)[i].generation = s.slots[i].generation := by
    rw [updVec_get_self, hf]
  simp only [State.loadCounter, State.modifySlot, State.modifyCounter, updVec_updVec, hgeneration]
  rfl

/-- Settles O37: by the pending extension, then by the grace of the lease's station. -/
theorem termExpires : Obligations.TermExpires := by
  intro s i l hc hheld hvalue hl grace loaded
  have htaken : exec (.termExpiryClaim i) s =
      .next ((s.modifyCounter i fun k => { k with claim := none }).termExpires i) :=
    congrArg Host.Outcome.next (takeExpiry_of_passes hc rfl ⟨rfl, hheld, hvalue⟩ fun t => t.termExpires i)
  rw [htaken]
  refine ⟨fun x hx => ?_, fun hnone hgrace => ?_, fun hnone hgrace hsound => ?_⟩
  · have hact : (s.modifyCounter i fun k => { k with claim := none }).termExpires i =
        (s.modifyCounter i fun k => { k with claim := none }).applyExtension i x := by
      simp only [State.termExpires, modifyCounter_slots, hx]
    rw [hact]
    exact congrArg Host.Outcome.next (claimTaken_loaded s i (fun _ => by rfl) x .term)
  · have hact : (s.modifyCounter i fun k => { k with claim := none }).termExpires i =
        (s.modifyCounter i fun k => { k with claim := none }).lapseInto i grace := by
      simp only [State.termExpires, modifyCounter_slots, modifyCounter_sessions, hnone, hl]
      exact if_neg hgrace
    rw [hact]
    exact congrArg Host.Outcome.next (claimTaken_loaded s i (fun _ => by rfl) (grace.setWidth 16) .grace)
  · have hact : (s.modifyCounter i fun k => { k with claim := none }).termExpires i =
        (s.modifyCounter i fun k => { k with claim := none }).removeSlot i (.ended .revoked) := by
      simp only [State.termExpires, modifyCounter_slots, modifyCounter_sessions, hnone, hl]
      exact if_pos hgrace
    rw [hact]
    exact ⟨_, rfl, claimTaken_ended hsound (by rw [hheld]; rfl) hl .revoked⟩

/-- Settles O38: both claims end a live slot, each with its own notice. -/
theorem graceAndWaitExpire : Obligations.GraceAndWaitExpire := by
  intro s i l hsound hvalue hl
  refine ⟨fun hc hgrace => ⟨_, ?_, claimTaken_ended hsound (by rw [hgrace]; rfl) hl .revoked⟩,
    fun hc hwaiting => ⟨_, ?_, claimTaken_ended hsound (by rw [hwaiting]; rfl) hl .timedOut⟩⟩
  · exact congrArg Host.Outcome.next
      (takeExpiry_of_passes hc rfl ⟨rfl, hgrace, hvalue⟩ fun t => t.removeSlot i (.ended .revoked))
  · exact congrArg Host.Outcome.next
      (takeExpiry_of_passes hc rfl ⟨rfl, hwaiting, hvalue⟩ fun t => t.removeSlot i (.ended .timedOut))

/-! ### Removal claims (R118 to R120) -/

theorem exec_stationSweepRemoval {s : State} {p : Station} {cause : SweepCause} {rest : List Order} {i : SlotIndex}
    (hq : s.sweepQueue = .station p cause :: rest) (hw : s.walk = some i) :
    exec .stationSweepRemoval s = .next { s.stationVisit p i with walk := nextWalk i } := by
  show execStationSweepRemoval s = _
  rw [execStationSweepRemoval, hq, hw]
  rfl

theorem exec_rangeSweepRemoval {s : State} {r : RangeOrder} {rest : List Order} {i : SlotIndex}
    (hq : s.sweepQueue = .range r :: rest) (hw : s.walk = some i) :
    exec .rangeSweepRemoval s = .next { s.rangeVisit r i with walk := nextWalk i } := by
  show execRangeSweepRemoval s = _
  rw [execRangeSweepRemoval, hq, hw]
  rfl

theorem protectedKey_eq_false_iff (s : State) (k : Word) :
    s.protectedKey k = false ↔ s.settings.p0.covers k = false ∧ s.settings.p1.covers k = false := by
  rw [State.protectedKey, Bool.or_eq_false_iff]

/-- A range order's claim ends the visited slot if its lease is live and in the order's scope, and passes it by
otherwise (R120). -/
theorem rangeVisit_of_lease {s : State} {i : SlotIndex} {l : Lease} (hl : s.slots[i].lease = some l) (r : RangeOrder) :
    s.rangeVisit r i =
      if s.slots[i].state.isLive && s.orderCovers r l.key then s.removeSlot i (.ended .swept) else s := by
  rw [State.rangeVisit, hl]

theorem rangeVisit_of_no_lease {s : State} {i : SlotIndex} (hl : s.slots[i].lease = none) (r : RangeOrder) :
    s.rangeVisit r i = s := by
  rw [State.rangeVisit, hl]

/-- Settles O40: a slot of the station is freed, a live slot in scope is ended, any other is passed by. -/
theorem removalClaims : Obligations.RemovalClaims := by
  intro s i rest hsound hw
  refine ⟨fun p cause l hq hfree hl hp => ?_, fun p cause hq hother => ?_, fun r hq => ?_⟩
  · have hvisit : s.stationVisit p i = s.removeSlot i .free := if_pos ⟨hfree, by rw [hl, ← hp]; rfl⟩
    exact ⟨_, hvisit ▸ exec_stationSweepRemoval hq hw, removeSlot_free hsound hl⟩
  · have hvisit : s.stationVisit p i = s := if_neg fun h => hother.elim h.1 fun hne => hne h.2
    rw [exec_stationSweepRemoval hq hw, hvisit]
  · intro inScope
    have hscope : ∀ l : Lease, (s.slots[i].state.isLive && s.orderCovers r l.key) = true ↔ inScope l := fun l => by
      rw [Bool.and_eq_true, orderCovers_iff, protectedKey_eq_false_iff]
    rw [exec_rangeSweepRemoval hq hw]
    refine ⟨fun l hl hin => ?_, fun hout => ?_⟩
    · rw [rangeVisit_of_lease hl, if_pos ((hscope l).2 hin)]
      exact ⟨_, rfl, removeSlot_ended hsound hin.1 hl .swept⟩
    · cases hl : s.slots[i].lease with
      | none => rw [rangeVisit_of_no_lease hl]
      | some l => rw [rangeVisit_of_lease hl, if_neg fun h => hout l hl ((hscope l).1 h)]

/-! ### Orders complete (R123 to R125) -/

theorem hasPassedOn_iff (s : State) (p : Station) :
    s.hasPassedOn p = true ↔ ∃ c, s.ports[p].command = .busy c ∧ c.passedOn = true := by
  rw [State.hasPassedOn]
  cases s.ports[p].command with
  | busy c => exact ⟨fun h => ⟨c, rfl, h⟩, fun ⟨c', hc, h⟩ => by cases hc; exact h⟩
  | ready => exact ⟨nofun, nofun⟩
  | holding r => exact ⟨nofun, nofun⟩

/-- Settles O41. -/
theorem ordersComplete : Obligations.OrdersComplete := by
  intro s rest hw walk'
  refine ⟨fun p cause hq => ?_, fun r hq => ⟨s.hasPassedOn r.requester, ?_, hasPassedOn_iff s r.requester⟩⟩
  · show execStationOrderComplete s = _
    rw [execStationOrderComplete, hq, hw]
    cases rest <;> rfl
  · show execRangeOrderComplete s = _
    rw [execRangeOrderComplete, hq, hw]
    cases rest <;> rfl

/-! ### A completion claim (R34) -/

theorem Untouched.trans {j : SlotIndex} {s t u : State} (h : Untouched j s t) (h' : Untouched j t u) :
    Untouched j s u :=
  ⟨h'.1.trans h.1, h'.2.trans h.2⟩

theorem Granted.of_untouched {j : SlotIndex} {s t u : State} (h : Untouched j s t) (h' : Granted j t u) :
    Granted j s u := by
  obtain ⟨hslot, hcounter⟩ := h
  rw [Granted, hslot, hcounter] at h'
  exact h'

theorem Granted.then_untouched {j : SlotIndex} {s t u : State} (h : Granted j s t) (h' : Untouched j t u) :
    Granted j s u := by
  obtain ⟨l, hl, hslot, hcounter⟩ := h
  exact ⟨l, hl, h'.1.trans hslot, h'.2.trans hcounter⟩

/-- Grants or not, a pass leaves every lease. -/
theorem Pass.lease {k : Word} {e : Entry} {g : List SlotIndex} {s t : State} (h : Pass k e g s t) (j : SlotIndex) :
    t.slots[j].lease = s.slots[j].lease := by
  by_cases hj : j ∈ g
  · obtain ⟨l, -, hslot, -⟩ := h.granted j hj
    rw [hslot]
  · rw [(h.others j hj).1]

theorem regranted_inUse {e : Entry} (s : State) (h : e.InUse) : (s.regranted e).InUse := by
  show e.holders ++ s.grantedOf e ≠ [] ∨ (e.queue.filter fun i => !(s.grantedOf e).contains i) ≠ []
  cases hg : s.grantedOf e with
  | nil =>
    rw [List.append_nil]
    simpa [Entry.InUse] using h
  | cons i g => exact .inl (by simp)

/-- Keys, no two the same, each with an entry in use whose waiters hold leases on the key: what a regrant of them one
after the other asks of the state. -/
structure State.AwaitsRegrant (s : State) (ks : List Word) : Prop where
  once : ks.Nodup
  entries : ∀ k ∈ ks, ∃ e, entryOf s.directory k = some e ∧ e.InUse ∧ e.queue.Nodup ∧
    ∀ j ∈ e.queue, s.slots[j].lease.map Lease.key = some k

/-- What regrants of several keys do: each entry follows R54 from the state before them all. -/
structure RegrantedAll (ks : List Word) (s t : State) : Prop where
  entries : ∀ k ∈ ks, entryOf t.directory k = (entryOf s.directory k).map s.regranted
  otherKeys : ∀ k, k ∉ ks → entryOf t.directory k = entryOf s.directory k
  granted : ∀ k ∈ ks, ∀ e, entryOf s.directory k = some e → ∀ j ∈ s.grantedOf e, Granted j s t
  others : ∀ j, (∀ k ∈ ks, ∀ e, entryOf s.directory k = some e → j ∉ s.grantedOf e) → Untouched j s t

/-- The regrant of an entry in use leaves it in use, so that no entry is removed. -/
theorem settleEntry_regrant {s : State} {k : Word} {e : Entry} (hu : e.InUse)
    (h : Pass k e (s.grantedOf e) s (s.regrant k)) : (s.regrant k).settleEntry k = s.regrant k := by
  rcases settleEntry_cases (s.regrant k) k with ⟨hsame, -⟩ | ⟨-, x, hx, hholders, hqueue⟩
  · exact hsame
  · obtain rfl := Option.some.inj (h.entry.symm.trans hx)
    exact absurd (regranted_inUse s hu) fun hc => hc.elim (fun hne => hne hholders) fun hne => hne hqueue

theorem regrantedAll_regrantKeys (ks : List Word) (s : State) (h : s.AwaitsRegrant ks) :
    RegrantedAll ks s (regrantKeys ks s) := by
  induction ks generalizing s with
  | nil => exact ⟨nofun, fun _ _ => rfl, nofun, fun _ _ => ⟨rfl, rfl⟩⟩
  | cons k ks ih =>
    obtain ⟨hk, hks⟩ := List.nodup_cons.1 h.once
    obtain ⟨e, he, hu, hnd, hkey⟩ := h.entries k List.mem_cons_self
    have hpass := regrant_pass he hnd fun j hj => by
      have := hkey j hj
      cases hl : s.slots[j].lease with
      | none => rw [hl] at this; cases this
      | some l => rfl
    show RegrantedAll (k :: ks) s (regrantKeys ks ((s.regrant k).settleEntry k))
    rw [settleEntry_regrant hu hpass]
    generalize s.regrant k = u at hpass
    have hne : ∀ k' ∈ ks, k' ≠ k := fun k' hk' => ne_of_mem_of_not_mem hk' hk
    have hold : ∀ k' ∈ ks, entryOf u.directory k' = entryOf s.directory k' := fun k' hk' =>
      hpass.otherKeys k' (hne k' hk')
    have hkeys : ∀ k' ∈ ks, ∀ e', entryOf s.directory k' = some e' → ∀ j ∈ e'.queue, j ∉ e.queue :=
      fun k' hk' e' he' j hj hj' => by
        obtain ⟨x, hx, -, -, hkey'⟩ := h.entries k' (List.mem_cons_of_mem k hk')
        obtain rfl := Option.some.inj (hx.symm.trans he')
        exact hne k' hk' (Option.some.inj ((hkey' j hj).symm.trans (hkey j hj')))
    have huntouched : ∀ k' ∈ ks, ∀ e', entryOf s.directory k' = some e' → ∀ j ∈ e'.queue, Untouched j s u :=
      fun k' hk' e' he' j hj => hpass.others j fun hg => hkeys k' hk' e' he' j hj (grantedOf_subset _ _ hg)
    have hgranted : ∀ k' ∈ ks, ∀ e', entryOf s.directory k' = some e' → u.grantedOf e' = s.grantedOf e' :=
      fun k' hk' e' he' => grantedOf_congr e' (fun j hj => (huntouched k' hk' e' he' j hj).1)
        (fun p => by rw [hpass.sessions]) hpass.poolOnly.sweepQueue hpass.poolOnly.settings
    have hregranted : ∀ k' ∈ ks, ∀ e', entryOf s.directory k' = some e' → u.regranted e' = s.regranted e' :=
      fun k' hk' e' he' => regranted_congr e' (fun j hj => (huntouched k' hk' e' he' j hj).1)
        (fun p => by rw [hpass.sessions]) hpass.poolOnly.sweepQueue hpass.poolOnly.settings
    have hrest := ih u ⟨hks, fun k' hk' => by
      obtain ⟨e', he', hu', hnd', hkey'⟩ := h.entries k' (List.mem_cons_of_mem k hk')
      exact ⟨e', by rw [hold k' hk', he'], hu', hnd', fun j hj => by rw [hpass.lease j, hkey' j hj]⟩⟩
    refine ⟨fun k' hk' => ?_, fun k' hk' => ?_, fun k' hk' e' he' j hj => ?_, fun j hj => ?_⟩
    · rcases List.mem_cons.1 hk' with rfl | hk'
      · rw [hrest.otherKeys k' hk, hpass.entry, he]
        rfl
      · rw [hrest.entries k' hk', hold k' hk']
        obtain ⟨e', he', -⟩ := h.entries k' (List.mem_cons_of_mem k hk')
        rw [he', Option.map_some, Option.map_some, hregranted k' hk' e' he']
    · rw [hrest.otherKeys k' (List.not_mem_of_not_mem_cons hk'), hpass.otherKeys k' (List.ne_of_not_mem_cons hk')]
    · rcases List.mem_cons.1 hk' with rfl | hk'
      · obtain rfl := Option.some.inj (he.symm.trans he')
        refine (hpass.granted j hj).then_untouched (hrest.others j fun k' hk' e' he' hj' => ?_)
        rw [hold k' hk'] at he'
        rw [hgranted k' hk' e' he'] at hj'
        exact hkeys k' hk' e' he' j (grantedOf_subset _ _ hj') (grantedOf_subset _ _ hj)
      · exact .of_untouched (huntouched k' hk' e' he' j (grantedOf_subset _ _ hj))
          (hrest.granted k' hk' e' (by rw [hold k' hk', he']) j (by rw [hgranted k' hk' e' he']; exact hj))
    · refine (hpass.others j (hj k List.mem_cons_self e he)).trans (hrest.others j fun k' hk' e' he' hj' => ?_)
      rw [hold k' hk'] at he'
      rw [hgranted k' hk' e' he'] at hj'
      exact hj k' (List.mem_cons_of_mem k hk') e' he' hj'

theorem Rising.keys_nodup {d : List Entry} (h : Rising d) : (d.map Entry.key).Nodup :=
  List.pairwise_map.2 (h.imp fun hlt => (BitVec.ne_of_lt hlt))

theorem State.DirectorySound.awaitsRegrant {s : State} (h : s.DirectorySound) (f : Word → Bool) :
    s.AwaitsRegrant ((s.directory.map Entry.key).filter f) where
  once := h.rising.keys_nodup.filter f
  entries k hk := by
    obtain ⟨e, he, rfl⟩ := List.mem_map.1 (List.mem_of_mem_filter hk)
    have hsound := h.entries e he
    refine ⟨e, entryOf_of_mem h.rising he, hsound.inUse, hsound.queueOnce, fun j hj => ?_⟩
    obtain ⟨-, l, hl, hkey⟩ := (hsound.waiters j).1 hj
    rw [hl, ← hkey]
    rfl

/-- Settles O42: each key in the range is regranted from the state before the claim, since no waiter stands in the
queues of two keys. -/
theorem rangeCompletionRegrants : Obligations.RangeCompletionRegrants := by
  intro s which c hsound hc inRange
  generalize hks : ((s.directory.map Entry.key).filter fun k => c.first ≤ k && k ≤ c.last) = ks
  generalize htaken : { s with rangeCompletions := s.rangeCompletions.eraseIdx which } = taken
  have hmem : ∀ k, k ∈ ks ↔ (∃ e, entryOf s.directory k = some e) ∧ inRange k := fun k => by
    rw [← hks, List.mem_filter, List.mem_map, Bool.and_eq_true, decide_eq_true_iff, decide_eq_true_iff]
    exact and_congr_left fun _ => exists_congr fun e => hsound.rising.entryOf_eq_some_iff.symm
  have hwaits : taken.AwaitsRegrant ks := by
    obtain ⟨honce, hentries⟩ := hsound.awaitsRegrant fun k => c.first ≤ k && k ≤ c.last
    rw [hks] at honce hentries
    rw [← htaken]
    exact ⟨honce, hentries⟩
  have hpool := poolOnly_regrantKeys ks taken
  have hsessions := regrantKeys_sessions ks taken
  obtain ⟨hentries, hkeys, hgranted, hothers⟩ := regrantedAll_regrantKeys ks taken hwaits
  have hexec : exec (.rangeCompletionClaim which) s = .next (regrantKeys ks taken) := by
    show execRangeCompletionClaim which s = _
    rw [execRangeCompletionClaim, hc, ← hks, ← htaken]
  generalize regrantKeys ks taken = v at hpool hsessions hentries hkeys hgranted hothers hexec
  subst htaken
  have hsame : ∀ e,
      State.grantedOf { s with rangeCompletions := s.rangeCompletions.eraseIdx which } e = s.grantedOf e := fun e =>
    grantedOf_congr e (fun _ _ => rfl) (fun _ => rfl) rfl rfl
  refine ⟨{ v with rangeCompletions := s.rangeCompletions }, ?_, ?_, hsessions, fun k => ?_, fun k e j he hk hj => ?_,
    fun j hj => ?_⟩
  · have hleft : v.rangeCompletions = s.rangeCompletions.eraseIdx which := hpool.rangeCompletions
    rw [hexec, ← hleft]
  · exact congrArg (fun x : State => { x with rangeCompletions := s.rangeCompletions }) hpool
  · by_cases hk : inRange k
    · rw [if_pos hk]
      cases he : entryOf s.directory k with
      | none => exact (hkeys k fun hin => ((hmem k).1 hin).1.elim fun e he' => by rw [he] at he'; cases he').trans he
      | some e =>
        refine (hentries k ((hmem k).2 ⟨⟨e, he⟩, hk⟩)).trans ?_
        show (entryOf s.directory k).map _ = _
        rw [he]
        exact congrArg some (regranted_congr e (fun _ _ => rfl) (fun _ => rfl) rfl rfl)
    · rw [if_neg hk]
      exact hkeys k fun hin => hk ((hmem k).1 hin).2
  · exact hgranted k ((hmem k).2 ⟨⟨e, he⟩, hk⟩) e he j (by rw [hsame]; exact hj)
  · exact hothers j fun k hk e he => by
      rw [hsame]
      exact hj k e he ((hmem k).1 hk).2

/-! ### An acknowledgement claim (R136, R138) -/

/-- One more member counted. -/
theorem countP_of_one_more {α : Type} [DecidableEq α] {l : List α} (hl : l.Nodup) {a : α} (ha : a ∈ l) {f g : α → Bool}
    (hf : f a = false) (hg : g a = true) (hothers : ∀ b, b ≠ a → g b = f b) : l.countP g = l.countP f + 1 := by
  rw [(List.perm_cons_erase ha).countP_eq g, (List.perm_cons_erase ha).countP_eq f, List.countP_cons_of_pos hg,
    List.countP_cons_of_neg (by rw [hf]; exact Bool.false_ne_true)]
  congr 1
  exact List.countP_congr fun b hb => by rw [hothers b (hl.mem_erase_iff.1 hb).1]

/-- An entry of the claim passes its test for the slot (R136). -/
def State.acks (s : State) (p : Station) (claim : List AckEntry) (i : SlotIndex) : Bool :=
  claim.any fun e =>
    e.slot == i && s.slots[i].generation == e.generation && s.slots[i].notice == some e.kind && s.slots[i].ownedBy p

/-- The claim frees the slot (R136). -/
def State.ackFrees (s : State) (p : Station) (claim : List AckEntry) (i : SlotIndex) : Bool :=
  s.acks p claim i && s.slots[i].state == .ended

theorem acks_cons_self {s : State} {p : Station} {e : AckEntry} (h : s.ackPasses p e = true) (claim : List AckEntry) :
    s.acks p (e :: claim) e.slot = true := by
  rw [State.acks, List.any_cons, beq_self_eq_true, Bool.true_and]
  exact Bool.or_eq_true_iff.2 (.inl h)

theorem acks_cons_of_ne {s : State} {p : Station} {e : AckEntry} {i : SlotIndex} (h : i ≠ e.slot)
    (claim : List AckEntry) : s.acks p (e :: claim) i = s.acks p claim i := by
  rw [State.acks, List.any_cons, beq_eq_false_iff_ne.2 h.symm]
  rfl

theorem acks_cons_of_fails {s : State} {p : Station} {e : AckEntry} (h : s.ackPasses p e = false)
    (claim : List AckEntry) : s.acks p (e :: claim) = s.acks p claim := by
  funext i
  by_cases hi : i = e.slot
  · subst hi
    rw [State.acks, List.any_cons, beq_self_eq_true, Bool.true_and]
    exact (congrArg (· || s.acks p claim e.slot) h).trans (Bool.false_or _)
  · exact acks_cons_of_ne hi claim

theorem acks_of_no_notice {s : State} {i : SlotIndex} (h : s.slots[i].notice = none) (p : Station)
    (claim : List AckEntry) : s.acks p claim i = false := by
  rw [State.acks, h, List.any_eq_false]
  intro e _
  rw [show (none == some e.kind) = false from rfl, Bool.and_false, Bool.false_and]
  exact Bool.false_ne_true

theorem acks_congr {s t : State} {i : SlotIndex} (h : t.slots[i] = s.slots[i]) (p : Station) (claim : List AckEntry) :
    t.acks p claim i = s.acks p claim i := by
  rw [State.acks, h]
  rfl

/-- What an entry that passes its test does (R136, R19): the slot, its counter and the station's lease count. -/
theorem acknowledge_passes {s : State} {p : Station} {e : AckEntry} (h : s.ackPasses p e = true) :
    (s.acknowledge p e).directory = s.directory ∧
      (s.acknowledge p e).leaseCounters = updVec s.leaseCounters e.slot (fun c =>
        if s.slots[e.slot].state = .ended then { c with value := 0, running := false } else c) ∧
      (s.acknowledge p e).sessions = updVec s.sessions p (fun r =>
        { r with leaseCount := r.leaseCount - if s.slots[e.slot].state = .ended then 1 else 0 }) := by
  rw [State.acknowledge, if_pos h]
  by_cases hended : s.slots[e.slot].state = .ended
  · rw [if_pos hended]
    obtain ⟨l, hl, hp⟩ : ∃ l, s.slots[e.slot].lease = some l ∧ l.station = p := by
      simp only [State.ackPasses, Bool.and_eq_true, beq_iff_eq] at h
      exact Option.map_eq_some_iff.1 h.2
    simp only [if_pos hended]
    exact ⟨dispose_directory s e.slot .free, dispose_leaseCounters s e.slot .free, hp ▸ freeSlot_sessions s hl⟩
  · simp only [if_neg hended]
    exact ⟨rfl, (updVec_id _ _).symm, (updVec_id _ _).symm⟩

/-- What the entries of a claim do one after the other, each slot judged as it stood before them all. -/
structure Acknowledged (p : Station) (claim : List AckEntry) (s t : State) : Prop where
  directory : t.directory = s.directory
  slot : ∀ i : SlotIndex, t.slots[i] = if s.acks p claim i then s.slots[i].withoutNotice else s.slots[i]
  counter : ∀ i : SlotIndex, t.leaseCounters[i] =
    if s.ackFrees p claim i then { s.leaseCounters[i] with value := 0, running := false } else s.leaseCounters[i]
  sessions : t.sessions = updVec s.sessions p fun r =>
    { r with leaseCount := r.leaseCount - (List.finRange 256).countP (s.ackFrees p claim) }

/-- An entry that fails its test changes nothing. -/
theorem Acknowledged.cons_of_fails {p : Station} {e : AckEntry} {claim : List AckEntry} {s t : State}
    (h : Acknowledged p claim s t) (hfails : s.ackPasses p e = false) : Acknowledged p (e :: claim) s t := by
  have hacks : s.acks p (e :: claim) = s.acks p claim := acks_cons_of_fails hfails claim
  have hfrees : s.ackFrees p (e :: claim) = s.ackFrees p claim := by
    funext i
    rw [State.ackFrees, hacks]
    rfl
  obtain ⟨hdir, hslot, hcounter, hsessions⟩ := h
  exact ⟨hdir, by rw [hacks]; exact hslot, by rw [hfrees]; exact hcounter, by rw [hfrees]; exact hsessions⟩

/-- An entry that passes leaves its slot without a notice, so that no later entry passes for the same slot. -/
theorem Acknowledged.cons_of_passes {p : Station} {e : AckEntry} {claim : List AckEntry} {s t : State}
    (hpass : s.ackPasses p e = true) (h : Acknowledged p claim (s.acknowledge p e) t) :
    Acknowledged p (e :: claim) s t := by
  have hslots := acknowledge_slots hpass
  obtain ⟨hdir, hcounters, hsessions⟩ := acknowledge_passes hpass
  obtain ⟨htd, hts, htc, htse⟩ := h
  generalize s.acknowledge p e = u at *
  have hother : ∀ i, i ≠ e.slot → u.slots[i] = s.slots[i] := occupied_others hslots
  have hself : u.acks p claim e.slot = false :=
    acks_of_no_notice (by rw [hslots, updVec_get_self, Slot.withoutNotice_notice]) p claim
  have hacks : ∀ i, i ≠ e.slot → u.acks p claim i = s.acks p (e :: claim) i := fun i hi => by
    rw [acks_congr (hother i hi), acks_cons_of_ne hi]
  have hfrees : ∀ i, i ≠ e.slot → u.ackFrees p claim i = s.ackFrees p (e :: claim) i := fun i hi => by
    rw [State.ackFrees, hacks i hi, hother i hi]
    rfl
  have hselfFrees : u.ackFrees p claim e.slot = false := by
    rw [State.ackFrees, hself]
    rfl
  have hended : s.ackFrees p (e :: claim) e.slot = decide (s.slots[e.slot].state = .ended) := by
    rw [State.ackFrees, acks_cons_self hpass]
    rfl
  have hcount : (List.finRange 256).countP (s.ackFrees p (e :: claim)) =
      (if s.slots[e.slot].state = .ended then 1 else 0) + (List.finRange 256).countP (u.ackFrees p claim) := by
    by_cases hstate : s.slots[e.slot].state = .ended
    · rw [if_pos hstate, Nat.add_comm]
      exact countP_of_one_more (List.nodup_finRange 256) (List.mem_finRange _) hselfFrees
        (hended.trans (decide_eq_true hstate)) fun i hi => (hfrees i hi).symm
    · rw [if_neg hstate, Nat.zero_add]
      refine List.countP_congr fun i _ => ?_
      by_cases hi : i = e.slot
      · subst hi
        rw [hselfFrees, hended, decide_eq_false hstate]
      · rw [hfrees i hi]
  refine ⟨htd.trans hdir, fun i => ?_, fun i => ?_, ?_⟩
  · rw [hts]
    by_cases hi : i = e.slot
    · subst hi
      rw [hself, acks_cons_self hpass, if_neg Bool.false_ne_true, if_pos rfl, hslots, updVec_get_self]
    · rw [hacks i hi, hother i hi]
  · rw [htc]
    by_cases hi : i = e.slot
    · subst hi
      rw [hselfFrees, hended, if_neg Bool.false_ne_true, hcounters, updVec_get_self]
      simp only [decide_eq_true_iff]
    · rw [hfrees i hi, hcounters, updVec_get_ne _ hi]
  · rw [htse, hsessions, updVec_updVec, hcount]
    simp only [Nat.sub_sub]

theorem acknowledged_foldl (p : Station) (claim : List AckEntry) (s : State) :
    Acknowledged p claim s (claim.foldl (fun t e => t.acknowledge p e) s) := by
  induction claim generalizing s with
  | nil =>
    refine ⟨rfl, fun _ => rfl, fun _ => rfl, ?_⟩
    have hnone : (List.finRange 256).countP (s.ackFrees p []) = 0 :=
      List.countP_eq_zero.2 fun _ _ => Bool.false_ne_true
    rw [hnone]
    exact (updVec_id _ _).symm
  | cons e claim ih =>
    rw [List.foldl_cons]
    cases hpass : s.ackPasses p e with
    | true => exact .cons_of_passes hpass (ih _)
    | false =>
      have hsame : s.acknowledge p e = s := by
        rw [State.acknowledge, hpass]
        rfl
      rw [hsame]
      exact (ih s).cons_of_fails hpass

/-- Settles O43. -/
theorem acknowledgementTaken : Obligations.AcknowledgementTaken := by
  intro s p claim rest hacks passes frees
  have hexec : exec (.acknowledgementClaim p) s =
      .next (claim.foldl (fun t e => t.acknowledge p e) (s.modifyPort p fun q => { q with acks := rest })) := by
    show execAcknowledgementClaim p s = _
    rw [execAcknowledgementClaim, hacks]
  have hpool := poolOnly_acknowledge_foldl p claim (s.modifyPort p fun q => { q with acks := rest })
  obtain ⟨hdir, hslot, hcounter, hsessions⟩ :=
    acknowledged_foldl p claim (s.modifyPort p fun q => { q with acks := rest })
  generalize claim.foldl (fun t e => t.acknowledge p e) (s.modifyPort p fun q => { q with acks := rest }) = t at *
  refine ⟨t, hexec, ?_, fun i => ⟨(hslot i).trans ?_, hcounter i⟩⟩
  · rw [PoolOnly, hdir, hsessions] at hpool
    exact hpool
  · show (if passes i then s.slots[i].withoutNotice else s.slots[i]) =
      if passes i && s.slots[i].state == .ended then s.slots[i].freed
      else if passes i then { s.slots[i] with notice := none } else s.slots[i]
    cases passes i with
    | false => rfl
    | true =>
      rw [Slot.withoutNotice]
      simp only [Bool.true_and, beq_iff_eq, if_true]

end Sys2Proof.Machine
end

section
/-! PROOFS. Frames of a station port: FETCH, NOTICES, MASK, CLEARFLAGS and broken frames, what they show and how they
end (chapter 7, R145 to R151). -/

namespace Sys2Proof.Machine

/-! ### The frame rows -/

/-- Every frame row is its port's event, with the bytes it puts before the event's bits. -/
theorem exec_frameRow {p : Station} {code : Byte} {row : (FrameEvent → Instr) × List Byte}
    (h : row ∈ frameRowsWithLead p code) (ev : FrameEvent) (s : State) :
    exec (row.1 ev) s = .next (s.frameEvent p row.2 ev) := by
  simp only [frameRowsWithLead, List.mem_cons, List.not_mem_nil, or_false] at h
  rcases h with rfl | rfl | rfl | rfl | rfl | rfl | rfl | rfl <;> rfl

theorem frameRows_lead {p : Station} {code : Byte} {row : FrameEvent → Instr} (h : row ∈ frameRows p code) :
    ∃ lead, (row, lead) ∈ frameRowsWithLead p code := by
  have hrows : frameRows p code = (frameRowsWithLead p code).map Prod.fst := rfl
  rw [hrows] at h
  obtain ⟨⟨row, lead⟩, hmem, rfl⟩ := List.mem_map.1 h
  exact ⟨lead, hmem⟩

/-- Settles O16. -/
theorem framesStayOnTheirPort : Obligations.FramesStayOnTheirPort := by
  intro s p code ev row hrow
  obtain ⟨lead, hlead⟩ := frameRows_lead hrow
  exact ⟨_, exec_frameRow hlead ev s, portOnly_frameEvent p s lead ev⟩

/-- The command byte of a frame that its row opens with. -/
theorem bitsByte_lead (code : Byte) (bits : List Bool) : bitsByte (bytesBits [code] ++ bits) = code := by
  rw [bytesBits_cons, List.append_assoc, bitsByte_byteBits]

/-! ### The ends of FETCH and NOTICES frames (R135, R151) -/

/-- The end of a FETCH frame: its result goes if it went out whole, and the reload is handed over. -/
theorem endFrame_fetch {f : Frame} (hlength : 8 ≤ f.received.length) (hcode : bitsByte f.received = codeFetch)
    (s : State) (p : Station) :
    s.endFrame p f = s.modifyPort p fun q => { q.endsFetch f with reloads := (q.endsFetch f).reloads ++ [.plain] } := by
  unfold State.endFrame
  rw [classify_of_code hlength (by rw [hcode]; decide)]
  dsimp only [State.endRead]
  rw [if_pos hcode, endFetch_eq, State.handReload, modifyPort_modifyPort]

/-- The end of a NOTICES frame: the records read whole are claimed, and the reload is handed over. -/
theorem endFrame_notices {f : Frame} (hlength : 8 ≤ f.received.length) (hcode : bitsByte f.received = codeNotices)
    (s : State) (p : Station) :
    s.endFrame p f =
      s.modifyPort p fun q => { q.endsNotices f with reloads := (q.endsNotices f).reloads ++ [.plain] } := by
  unfold State.endFrame
  rw [classify_of_code hlength (by rw [hcode]; decide)]
  dsimp only [State.endRead]
  rw [if_neg (by rw [hcode]; decide), if_pos hcode, endNotices_eq, State.handReload, modifyPort_modifyPort]

/-- What the end of a FETCH frame leaves of its port, select released and the frame's bits recorded. -/
theorem Port.endsFetch_released (q : Port) (f : Frame) (out : List Bool) :
    { q.endsFetch f with reloads := (q.endsFetch f).reloads ++ [.plain], shifter := .released, sdo := out } =
      match f.fetched with
      | none => q.afterStop [.plain] out
      | some record =>
        { q.afterStop [.plain] out with
          command := if 8 * (1 + record.length) ≤ f.received.length then .ready else q.command } := by
  unfold Port.endsFetch
  cases f.fetched with
  | none => rfl
  | some record => dsimp only; split <;> rfl

/-- The records read whole, the snapshot not taken counting as an empty one. -/
theorem Frame.recordsRead_eq (f : Frame) :
    f.recordsRead = (f.snapshot.getD []).take ((f.received.length / 8 - 3) / 6) := by
  unfold Frame.recordsRead
  cases f.snapshot with
  | none => exact List.take_nil.symm
  | some rs => rfl

/-- What the end of a NOTICES frame leaves of its port, select released and the frame's bits recorded. -/
theorem Port.endsNotices_released (q : Port) (f : Frame) (out : List Bool) :
    { q.endsNotices f with reloads := (q.endsNotices f).reloads ++ [.plain], shifter := .released, sdo := out } =
      { q.afterStop [.plain] out with
        acks := q.acks ++ if f.recordsRead = [] then [] else [f.recordsRead.map NoticeRecord.ack] } := by
  unfold Port.endsNotices
  cases f.recordsRead with
  | nil => rw [List.isEmpty_nil, if_pos rfl, if_pos rfl, List.append_nil]; rfl
  | cons r rs => rw [if_neg (List.cons_ne_nil _ _)]; rfl

/-! ### What a FETCH frame shows (R145, R151) -/

/-- The result record a command state holds. -/
def CommandState.held : CommandState → Option (List Byte)
  | .holding record => some record
  | _ => none

theorem CommandState.held_of_not_holding {c : CommandState} (h : ∀ record, c ≠ .holding record) : c.held = none := by
  cases c with
  | holding record => exact absurd rfl (h record)
  | ready => rfl
  | busy _ => rfl

/-- The command byte fixes the record a port holds, and no later byte fixes anything. -/
theorem fixReply_fetch {s : State} {p : Station} {f : Frame} (hcode : frameByte f.received 0 = codeFetch) :
    s.fixReply p f =
      if f.received.length / 8 = 1 then { f with fetched := s.ports[p].command.held.or f.fetched } else f := by
  unfold State.fixReply
  dsimp only
  by_cases hone : f.received.length / 8 = 1
  · rw [if_pos ⟨hone, hcode⟩, if_pos hone]
    cases s.ports[p].command <;> rfl
  · rw [if_neg fun h => hone h.1, if_neg hone, if_neg fun h => absurd (hcode.symm.trans h.2) (by decide)]

theorem nextOutByte_fetch {s : State} {p : Station} {f : Frame} (hcode : frameByte f.received 0 = codeFetch) :
    s.nextOutByte p f = (f.fetched.getD noneRecord).getD (f.received.length / 8 - 1) 0 := by
  unfold State.nextOutByte
  dsimp only
  rw [if_neg (by rw [hcode]; decide), if_pos hcode]

/-- The bytes of a FETCH frame: the status byte and then the held record, or the NONE record. -/
def State.fetchShown (s : State) (p : Station) (n : Nat) : Byte :=
  if n = 0 then s.statusByte p else (s.ports[p].command.held.getD noneRecord).getD (n - 1) 0

/-- What a FETCH frame has fixed after so many bytes. -/
def State.fetchFixed (s : State) (p : Station) : Nat → Option (List Byte)
  | 0 => none
  | _ + 1 => s.ports[p].command.held

theorem clock_run_fetch (s : State) (p : Station) (bits : List Bool) :
    (bytesBits [codeFetch] ++ bits).foldl (s.clockFrame p)
        { received := [], sent := [], outByte := s.statusByte p, fetched := none, snapshot := none } =
      runningFrame (bytesBits [codeFetch] ++ bits) (s.fetchShown p) (s.fetchFixed p) fun _ => none := by
  have hstart : runningFrame [] (s.fetchShown p) (s.fetchFixed p) (fun _ => none) =
      { received := [], sent := [], outByte := s.statusByte p, fetched := none, snapshot := none } := rfl
  rw [← hstart]
  refine clock_run s p _ _ _ (bytesBits [codeFetch] ++ bits) (fun received m hprefix hlength => ?_) _ List.prefix_rfl
  have hcode : frameByte received 0 = codeFetch := code_of_prefix hprefix hlength
  have hbytes : received.length / 8 = m + 1 := by omega
  constructor
  · refine Eq.trans (fixReply_fetch hcode) ?_
    cases m with
    | zero =>
      rw [if_pos hbytes]
      show Frame.mk _ _ _ (s.ports[p].command.held.or none) _ = _
      rw [Option.or_none]
      rfl
    | succ m => exact if_neg (by rw [hbytes]; omega)
  · refine Eq.trans (nextOutByte_fetch hcode) ?_
    rw [hbytes]
    rfl

/-- A whole FETCH frame: the held record, or the NONE record, goes out, and the frame ends as `Port.endsFetch` says. -/
theorem frameEvent_whole_fetch {s : State} {p : Station} (hr : s.ports[p].shifter = .released) (hi : s.inReset = false)
    (bits : List Bool) :
    s.frameEvent p [codeFetch] (.whole bits) =
      { s with
        ports := s.ports.set p
          (match s.ports[p].command.held with
          | none => s.ports[p].afterFrame [.plain] (wireBits (s.fetchShown p) (8 + bits.length))
          | some record =>
            { s.ports[p].afterFrame [.plain] (wireBits (s.fetchShown p) (8 + bits.length)) with
              command := if 8 * (1 + record.length) ≤ 8 + bits.length then .ready else s.ports[p].command }) } := by
  have hlength : (bytesBits [codeFetch] ++ bits).length = 8 + bits.length := by simp
  obtain ⟨m, hm⟩ : ∃ m, (8 + bits.length) / 8 = m + 1 := ⟨bits.length / 8, by omega⟩
  have hends := endFrame_fetch
    (f := runningFrame (bytesBits [codeFetch] ++ bits) (s.fetchShown p) (s.fetchFixed p) fun _ => none)
    (by show 8 ≤ (bytesBits [codeFetch] ++ bits).length; omega) (bitsByte_lead codeFetch bits)
  rw [frameEvent_whole_of_endFrame hr hi (List.cons_ne_nil _ _) (clock_run_fetch s p bits) fun t => hends t p]
  refine congrArg (fun q => { s with ports := s.ports.set p q }) ((Port.endsFetch_released _ _ _).trans ?_)
  simp only [runningFrame, hlength, hm, State.fetchFixed]
  cases s.ports[p].command.held <;> rfl

/-- Settles O7: a frame ends by what its command byte fixed, whatever has become of the port. -/
theorem fetchFrame : Obligations.FetchFrame := by
  intro s p
  refine ⟨fun f hf hlength hcode => ?_, fun bits hr hi => ⟨fun record hholding => ?_, fun hnone => ?_⟩⟩
  · exact stopsAs_of_endFrame hf _ (endFrame_fetch hlength hcode s p) (Port.endsFetch_released _ _ _)
  · have hheld : s.ports[p].command.held = some record := by rw [hholding]; rfl
    have hshown : s.fetchShown p = fun n => if n = 0 then s.statusByte p else record.getD (n - 1) 0x00 := by
      funext n
      rw [State.fetchShown, hheld]
      rfl
    have hframe := frameEvent_whole_fetch hr hi bits
    rw [hheld, hshown, hholding] at hframe
    exact congrArg Host.Outcome.next hframe
  · have hheld := CommandState.held_of_not_holding hnone
    have hshown : s.fetchShown p = fun n =>
        if n = 0 then s.statusByte p else ([0x02, 0x00, 0xFF] : List Byte).getD (n - 1) 0x00 := by
      funext n
      rw [State.fetchShown, hheld]
      rfl
    have hframe := frameEvent_whole_fetch hr hi bits
    rw [hheld, hshown] at hframe
    exact congrArg Host.Outcome.next hframe

/-! ### What a NOTICES frame shows (R132 to R134, R138) -/

theorem frameByte_first (bits : List Bool) : frameByte bits 0 = bitsByte bits := rfl

/-- The second byte of a frame, read from any part of it that has the byte whole. -/
theorem frameByte_one_of_prefix {code : Byte} {bits received : List Bool}
    (hprefix : received <+: bytesBits [code] ++ bits) (hlength : 16 ≤ received.length) :
    8 ≤ bits.length ∧ frameByte received 1 = bitsByte bits := by
  have hle := hprefix.length_le
  rw [List.length_append, bytesBits_length] at hle
  obtain ⟨rest, hrest⟩ := hprefix
  refine ⟨by simp only [List.length_cons, List.length_nil] at hle; omega, ?_⟩
  rw [← frameByte_append (b := rest) hlength, hrest, bytesBits_cons, List.append_assoc, frameByte_succ]
  rfl

/-- The limit byte takes the snapshot, unless four claims are in flight, and no other byte fixes anything. -/
theorem fixReply_notices {s : State} {p : Station} {f : Frame} (hcode : frameByte f.received 0 = codeNotices) :
    s.fixReply p f =
      if f.received.length / 8 = 2 ∧ s.ports[p].acks.length < 4 then
        { f with snapshot := some (s.noticesSnapshot p (frameByte f.received 1)) }
      else f := by
  unfold State.fixReply
  dsimp only
  rw [if_neg fun h => absurd (hcode.symm.trans h.2) (by decide)]
  by_cases htwo : f.received.length / 8 = 2
  · rw [if_pos ⟨htwo, hcode⟩]
    by_cases hroom : s.ports[p].acks.length < 4
    · rw [if_pos (show _ < Config.acknowledgementCapacity from hroom), if_pos ⟨htwo, hroom⟩]
    · rw [if_neg (show ¬ _ < Config.acknowledgementCapacity from hroom), if_neg fun h => hroom h.2]
  · rw [if_neg fun h => htwo h.1, if_neg fun h => htwo h.1]

theorem nextOutByte_notices {s : State} {p : Station} {f : Frame} (hcode : frameByte f.received 0 = codeNotices) :
    s.nextOutByte p f = f.snapshot.elim 0 fun rs =>
      if f.received.length / 8 < 2 then 0 else (noticesBytes rs).getD (f.received.length / 8 - 2) 0 := by
  unfold State.nextOutByte
  dsimp only
  rw [if_neg (by rw [hcode]; decide), if_neg (by rw [hcode]; decide), if_neg (by rw [hcode]; decide), if_pos hcode]
  cases f.snapshot <;> rfl

/-- The bytes of a NOTICES frame: the status byte, 0x00, and then the count and records of its snapshot. -/
def State.noticesShown (s : State) (p : Station) (snapshot : Option (List NoticeRecord)) : Nat → Byte
  | 0 => s.statusByte p
  | 1 => 0
  | n + 2 => snapshot.elim 0 fun rs => (noticesBytes rs).getD n 0

/-- What a NOTICES frame has fixed after so many bytes. -/
def noticesFixed (snapshot : Option (List NoticeRecord)) : Nat → Option (List NoticeRecord)
  | 0 => none
  | 1 => none
  | _ + 2 => snapshot

/-- The snapshot a whole NOTICES frame takes: none if it ends before its limit byte or finds four claims in flight. -/
def State.snapshotTaken (s : State) (p : Station) (bits : List Bool) : Option (List NoticeRecord) :=
  if 8 ≤ bits.length ∧ s.ports[p].acks.length < 4 then some (s.noticesSnapshot p (bitsByte bits)) else none

theorem clock_run_notices (s : State) (p : Station) (bits : List Bool) :
    (bytesBits [codeNotices] ++ bits).foldl (s.clockFrame p)
        { received := [], sent := [], outByte := s.statusByte p, fetched := none, snapshot := none } =
      runningFrame (bytesBits [codeNotices] ++ bits) (s.noticesShown p (s.snapshotTaken p bits)) (fun _ => none)
        (noticesFixed (s.snapshotTaken p bits)) := by
  generalize htaken : s.snapshotTaken p bits = snapshot
  have hstart : runningFrame [] (s.noticesShown p snapshot) (fun _ => none) (noticesFixed snapshot) =
      { received := [], sent := [], outByte := s.statusByte p, fetched := none, snapshot := none } := rfl
  rw [← hstart]
  refine clock_run s p _ _ _ (bytesBits [codeNotices] ++ bits) (fun received m hprefix hlength => ?_) _ List.prefix_rfl
  have hcode : frameByte received 0 = codeNotices := code_of_prefix hprefix hlength
  have hbytes : received.length / 8 = m + 1 := by omega
  constructor
  · refine Eq.trans (fixReply_notices hcode) ?_
    dsimp only
    rw [hbytes]
    match m with
    | 0 => exact if_neg fun h => absurd h.1 (by decide)
    | m + 2 => exact if_neg fun h => absurd h.1 (by omega)
    | 1 =>
      obtain ⟨hlimit, hbyte⟩ := frameByte_one_of_prefix hprefix hlength.ge
      by_cases hroom : s.ports[p].acks.length < 4
      · have hsome : snapshot = some (s.noticesSnapshot p (bitsByte bits)) :=
          htaken.symm.trans (if_pos ⟨hlimit, hroom⟩)
        rw [if_pos ⟨rfl, hroom⟩, hbyte, hsome]
        rfl
      · have hnone : snapshot = none := htaken.symm.trans (if_neg fun h => hroom h.2)
        rw [if_neg fun h => hroom h.2, hnone]
        rfl
  · refine Eq.trans (nextOutByte_notices hcode) ?_
    dsimp only
    rw [hbytes]
    match m with
    | 0 => rfl
    | m + 1 => cases snapshot <;> rfl

/-- A whole NOTICES frame: its snapshot goes out and the records read whole are claimed. -/
theorem frameEvent_whole_notices {s : State} {p : Station} (hr : s.ports[p].shifter = .released)
    (hi : s.inReset = false) {bits : List Bool} {snapshot : Option (List NoticeRecord)}
    (htaken : s.snapshotTaken p bits = snapshot) :
    s.frameEvent p [codeNotices] (.whole bits) =
      { s with
        ports := s.ports.set p
          { s.ports[p].afterFrame [.plain] (wireBits (s.noticesShown p snapshot) (8 + bits.length)) with
            acks := s.ports[p].acks ++
              if (snapshot.getD []).take (((8 + bits.length) / 8 - 3) / 6) = [] then []
              else [((snapshot.getD []).take (((8 + bits.length) / 8 - 3) / 6)).map NoticeRecord.ack] } } := by
  have hlength : (bytesBits [codeNotices] ++ bits).length = 8 + bits.length := by simp
  have hfixed : noticesFixed snapshot ((8 + bits.length) / 8) = snapshot := by
    by_cases hlimit : 8 ≤ bits.length
    · obtain ⟨m, hm⟩ : ∃ m, (8 + bits.length) / 8 = m + 2 := ⟨bits.length / 8 - 1, by omega⟩
      rw [hm]
      rfl
    · have hone : (8 + bits.length) / 8 = 1 := by omega
      rw [hone, ← htaken, State.snapshotTaken, if_neg fun h => hlimit h.1]
      rfl
  have hrun := clock_run_notices s p bits
  rw [htaken] at hrun
  generalize hg : runningFrame (bytesBits [codeNotices] ++ bits) (s.noticesShown p snapshot) (fun _ => none)
    (noticesFixed snapshot) = g at hrun
  have hreceived : g.received = bytesBits [codeNotices] ++ bits := by rw [← hg]; rfl
  have hsnapshot : g.snapshot = snapshot := by
    rw [← hg]
    show noticesFixed snapshot ((bytesBits [codeNotices] ++ bits).length / 8) = snapshot
    rw [hlength, hfixed]
  have hsent : g.sent = wireBits (s.noticesShown p snapshot) (8 + bits.length) := by rw [← hg, ← hlength]; rfl
  have hends := endFrame_notices (f := g) (by rw [hreceived, hlength]; omega)
    (by rw [hreceived]; exact bitsByte_lead codeNotices bits)
  rw [frameEvent_whole_of_endFrame hr hi (List.cons_ne_nil _ _) hrun fun t => hends t p]
  refine congrArg (fun q => { s with ports := s.ports.set p q }) ((Port.endsNotices_released _ _ _).trans ?_)
  rw [Frame.recordsRead_eq, hreceived, hsnapshot, hsent, hlength]
  rfl

/-- Settles O8: a frame ends by its own snapshot, whatever has become of the pool. -/
theorem noticesFrame : Obligations.NoticesFrame := by
  intro s p
  refine ⟨fun f hf hlength hcode => ?_, fun bits hr hi => ⟨fun hroom => ?_, fun hnone => ?_⟩⟩
  · refine stopsAs_of_endFrame hf _ (endFrame_notices hlength hcode s p) ((Port.endsNotices_released _ _ _).trans ?_)
    rw [Frame.recordsRead_eq]
    rfl
  · intro records bytes read
    have htaken : s.snapshotTaken p bits = some records := if_pos hroom
    have hshown : s.noticesShown p (some records) = fun n =>
        if n = 0 then s.statusByte p else if n = 1 then 0x00 else bytes.getD (n - 2) 0x00 := by
      funext n
      match n with
      | 0 => rfl
      | 1 => rfl
      | n + 2 => rfl
    have hframe := frameEvent_whole_notices hr hi htaken
    rw [hshown] at hframe
    exact congrArg Host.Outcome.next hframe
  · have htaken : s.snapshotTaken p bits = none := if_neg fun h => by omega
    have hshown : s.noticesShown p none = statusThenZeros (s.statusByte p) := by
      funext n
      match n with
      | 0 => rfl
      | 1 => rfl
      | n + 2 => rfl
    have hframe := frameEvent_whole_notices hr hi htaken
    rw [hshown, Option.getD_none, List.take_nil, if_pos rfl, List.append_nil] at hframe
    exact congrArg Host.Outcome.next hframe

/-! ### The snapshot (R132, R133) -/

/-- A slot has a record in a station's snapshot exactly if it carries a notice and the station's lease. -/
theorem noticeRecord_slot (s : State) (p : Station) (i : SlotIndex) :
    (s.noticeRecord p i).map NoticeRecord.slot =
      Option.guard
        (fun i : SlotIndex => s.slots[i].notice.isSome && s.slots[i].lease.any fun l => l.station == p) i := by
  rw [State.noticeRecord, Option.guard]
  cases s.slots[i].notice with
  | none => rfl
  | some kind =>
    cases s.slots[i].lease with
    | none => rfl
    | some l =>
      by_cases hp : l.station = p
      · simp [hp]
      · simp [hp]

theorem noticeRecord_eq_some {s : State} {p : Station} {i : SlotIndex} {r : NoticeRecord}
    (h : s.noticeRecord p i = some r) :
    ∃ l, s.slots[i].lease = some l ∧ l.station = p ∧ r.slot = i ∧ r.key = l.key ∧
      r.generation = s.slots[i].generation ∧ s.slots[i].notice = some r.kind ∧ r.state = s.slots[i].state := by
  rw [State.noticeRecord] at h
  split at h
  · rename_i kind l hnotice hlease
    split at h
    · rename_i hp
      cases h
      exact ⟨l, hlease, hp, rfl, rfl, rfl, hnotice, rfl⟩
    · cases h
  · cases h

theorem limitOf_eq (limit : Byte) : limitOf limit = if 1 ≤ limit.toNat ∧ limit.toNat ≤ 8 then limit.toNat else 8 := by
  rw [limitOf]
  simp only [Bool.and_eq_true, decide_eq_true_iff]
  rfl

/-- Settles O9. -/
theorem noticesSnapshotReadsThePool : Obligations.NoticesSnapshotReadsThePool := by
  intro s p limit
  constructor
  · rw [State.noticesSnapshot, List.map_take, List.map_filterMap, limitOf_eq, ← List.filterMap_eq_filter]
    exact congrArg (List.take _) (congrArg (List.filterMap · _) (funext (noticeRecord_slot s p)))
  · intro r hr
    obtain ⟨i, -, hi⟩ := List.mem_filterMap.1 (List.mem_of_mem_take hr)
    obtain ⟨l, hlease, hp, rfl, hrest⟩ := noticeRecord_eq_some hi
    exact ⟨l, hlease, hp, hrest⟩

/-! ### MASK and CLEARFLAGS (R140, R141, R147, R181) -/

theorem classify_mask {bits : List Bool} (hboundary : bits.length % 8 = 0) (hlength : 16 ≤ bits.length)
    (hcode : bitsByte bits = codeMask) : classify bits = .mask (bitsByte (bits.drop 8)) := by
  have hwhole : (bits.length % 8 == 0 && decide (2 ≤ bits.length / 8)) = true := by
    rw [Bool.and_eq_true, beq_iff_eq, decide_eq_true_iff]
    omega
  rw [classify, if_neg (by omega), if_neg (by omega), classifyCommand]
  rw [frameByte_first, hcode, if_neg (by decide), if_pos rfl, if_pos hwhole]
  rfl

theorem classify_clearFlags {bits : List Bool} (hboundary : bits.length % 8 = 0) (hlength : 16 ≤ bits.length)
    (hcode : bitsByte bits = codeClearFlags) : classify bits = .clearFlags (bitsByte (bits.drop 8)) := by
  have hwhole : (bits.length % 8 == 0 && decide (2 ≤ bits.length / 8)) = true := by
    rw [Bool.and_eq_true, beq_iff_eq, decide_eq_true_iff]
    omega
  rw [classify, if_neg (by omega), if_neg (by omega), classifyCommand]
  rw [frameByte_first, hcode, if_neg (by decide), if_neg (by decide), if_pos rfl, if_pos hwhole]
  rfl

theorem endFrame_mask {f : Frame} {b : Byte} (h : classify f.received = .mask b) (s : State) (p : Station) :
    s.endFrame p f = s.modifyPort p fun q => { q with mask := .ofByte b, reloads := q.reloads ++ [.plain] } := by
  unfold State.endFrame State.handReload
  rw [h]
  exact modifyPort_modifyPort _ _ _ _

theorem endFrame_clearFlags {f : Frame} {b : Byte} (h : classify f.received = .clearFlags b) (s : State)
    (p : Station) :
    s.endFrame p f =
      s.modifyPort p fun q => { q with flags := q.flags.clearedBy b, reloads := q.reloads ++ [.plain] } := by
  unfold State.endFrame State.handReload
  rw [h]
  exact modifyPort_modifyPort _ _ _ _

/-- A flag whose bit is set goes, and any other stays. -/
theorem clearedBy_eq (f : EventFlags) (b : Byte) : f.clearedBy b =
    { overrun := if b.getLsbD 0 then false else f.overrun, lost := if b.getLsbD 1 then false else f.lost,
      frameErr := if b.getLsbD 2 then false else f.frameErr,
      sessionEnded := if b.getLsbD 3 then false else f.sessionEnded,
      sweepDone := if b.getLsbD 4 then false else f.sweepDone } := by
  have hcleared : ∀ flag bit : Bool, (flag && !bit) = if bit then false else flag := by decide
  rw [EventFlags.clearedBy]
  simp only [hcleared]

/-- Settles O10: the second byte decides, as select rises. -/
theorem maskAndClearFlagsFrames : Obligations.MaskAndClearFlagsFrames := by
  intro s p masked cleared
  refine ⟨fun f hf hboundary hlength => ⟨fun hcode => ?_, fun hcode => ?_⟩, fun bits hr hi hboundary hlength => ?_⟩
  · exact stopsAs_of_endFrame hf _ (endFrame_mask (classify_mask hboundary hlength hcode) s p) rfl
  · refine stopsAs_of_endFrame hf _ (endFrame_clearFlags (classify_clearFlags hboundary hlength hcode) s p) ?_
    rw [clearedBy_eq]
    rfl
  · have hframe : ∀ code : Byte, (bytesBits [code] ++ bits).length % 8 = 0 ∧ 16 ≤ (bytesBits [code] ++ bits).length :=
      fun code => by
        rw [List.length_append, bytesBits_length, List.length_cons, List.length_nil]
        omega
    refine ⟨congrArg Host.Outcome.next ?_, congrArg Host.Outcome.next ?_⟩
    · refine (frameEvent_whole_unfixed hr hi (code := codeMask) (by decide) (by decide) (shows_zeros s p (by decide))
        bits fun t f hreceived => endFrame_mask (b := bitsByte bits) ?_ t p).trans rfl
      obtain ⟨hwhole, hbytes⟩ := hframe codeMask
      rw [hreceived]
      exact classify_mask hwhole hbytes (bitsByte_lead codeMask bits)
    · refine (frameEvent_whole_unfixed hr hi (code := codeClearFlags) (by decide) (by decide)
        (shows_zeros s p (by decide)) bits fun t f hreceived =>
          endFrame_clearFlags (b := bitsByte bits) ?_ t p).trans ?_
      · obtain ⟨hwhole, hbytes⟩ := hframe codeClearFlags
        rw [hreceived]
        exact classify_clearFlags hwhole hbytes (bitsByte_lead codeClearFlags bits)
      · rw [clearedBy_eq]
        rfl

/-! ### Broken frames (R146) -/

/-- Bits that make a broken frame: some, and either no whole command byte or a code that is no read, cut within a byte
or short of what the code needs (R146). -/
def IsBroken (bits : List Bool) : Prop :=
  bits ≠ [] ∧ (8 ≤ bits.length → bitsByte bits ∉ readCodes ∧ (bits.length % 8 ≠ 0 ∨
    bits.length / 8 < if bitsByte bits = 0x54 ∨ bitsByte bits = 0x55 then 2 else postedBytes (bitsByte bits)))

theorem classify_broken {bits : List Bool} (h : IsBroken bits) : classify bits = .broken := by
  obtain ⟨hsome, hbroken⟩ := h
  rw [classify, if_neg (mt List.eq_nil_of_length_eq_zero hsome)]
  by_cases hshort : bits.length < 8
  · rw [if_pos hshort]
  · obtain ⟨hread, hcut⟩ := hbroken (Nat.not_lt.1 hshort)
    rw [if_neg hshort, classifyCommand]
    rw [frameByte_first, if_neg hread]
    have hfails : ∀ needed, (bits.length % 8 ≠ 0 ∨ bits.length / 8 < needed) →
        ¬ (bits.length % 8 == 0 && decide (needed ≤ bits.length / 8)) = true := fun needed hneeded => by
      rw [Bool.and_eq_true, beq_iff_eq, decide_eq_true_iff]
      omega
    by_cases hmask : bitsByte bits = codeMask
    · rw [if_pos hmask, if_neg (hfails 2 (by rwa [if_pos (.inl hmask)] at hcut))]
    · rw [if_neg hmask]
      by_cases hclear : bitsByte bits = codeClearFlags
      · rw [if_pos hclear, if_neg (hfails 2 (by rwa [if_pos (.inr hclear)] at hcut))]
      · rw [if_neg (fun h => h.elim hmask hclear), postedBytes_eq, Nat.add_comm] at hcut
        rw [if_neg hclear, if_neg (hfails _ hcut)]

theorem endFrame_broken {f : Frame} (h : IsBroken f.received) (s : State) (p : Station) :
    s.endFrame p f = s.modifyPort p fun q => { q with flags := { q.flags with frameErr := true } } := by
  unfold State.endFrame
  rw [classify_broken h]

/-- A frame of no bits has no end. -/
theorem endFrame_empty {f : Frame} (h : f.received = []) (s : State) (p : Station) :
    s.endFrame p f = s.modifyPort p fun q => q := by
  unfold State.endFrame
  rw [h, modifyPort_id]
  rfl

/-- A run of clocks that makes a broken frame shows nothing but zeros after the status byte. -/
theorem clock_run_broken {bits : List Bool} (h : IsBroken bits) (s : State) (p : Station) :
    bits.foldl (s.clockFrame p)
        { received := [], sent := [], outByte := s.statusByte p, fetched := none, snapshot := none } =
      runningFrame bits (statusThenZeros (s.statusByte p)) (fun _ => none) fun _ => none := by
  have hstart : runningFrame [] (statusThenZeros (s.statusByte p)) (fun _ => none) (fun _ => none) =
      { received := [], sent := [], outByte := s.statusByte p, fetched := none, snapshot := none } := rfl
  rw [← hstart]
  refine clock_run s p _ _ _ bits (fun received m hprefix hlength => ?_) _ List.prefix_rfl
  have hcode : frameByte received 0 = bitsByte bits := by
    obtain ⟨rest, rfl⟩ := hprefix
    exact (frameByte_append (n := 0) (by omega)).symm
  have hread : bitsByte bits ∉ readCodes := (h.2 (by have := hprefix.length_le; omega)).1
  have hbytes : received.length / 8 = m + 1 := by omega
  exact ⟨fixReply_of_code s p (hcode.trans_ne (ne_of_mem_of_not_mem (by decide) hread).symm)
    (hcode.trans_ne (ne_of_mem_of_not_mem (by decide) hread).symm), (shows_zeros s p hread).next _ m hcode hbytes⟩

/-- Settles O11. -/
theorem brokenFrameSetsFrameErrAlone : Obligations.BrokenFrameSetsFrameErrAlone := by
  intro s p broken
  refine ⟨fun f hf => ⟨fun hempty => ?_, fun hbroken => ?_⟩, fun bits hr hi hbroken => ?_⟩
  · refine stopsAs_of_endFrame hf _ (endFrame_empty hempty s p) ?_
    rw [Port.afterStop, Port.afterFrame, List.append_nil]
  · refine stopsAs_of_endFrame hf _ (endFrame_broken hbroken s p) ?_
    rw [Port.afterStop, Port.afterFrame, List.append_nil]
  · have hframe := frameEvent_whole_of_endFrame hr hi (lead := []) hbroken.1 (clock_run_broken hbroken s p)
      fun t => endFrame_broken (f := runningFrame bits _ _ _) hbroken t p
    refine congrArg Host.Outcome.next (hframe.trans ?_)
    rw [Port.afterFrame, List.append_nil]
    rfl

end Sys2Proof.Machine
end

section
/-! PROOFS. The frame shifter: frames clocked in pieces, what each edge of SnSCK does, and spans of select that reset
meets (R133, R134, R145, R151, R159, R182, R183). -/

namespace Sys2Proof.Machine

/-! ### Frames in pieces (R145, R183) -/

/-- Settles O13: clocks follow on one another, and a clock is its two edges. -/
theorem frameInPieces : Obligations.FrameInPieces := by
  intro s p code row hrow
  obtain ⟨lead, hlead⟩ := frameRows_lead hrow
  refine ⟨fun a b _ => ⟨_, _, _, exec_frameRow hlead _ s, exec_frameRow hlead _ _, exec_frameRow hlead _ _, ?_⟩,
    fun b bits => ⟨_, _, _, _, exec_frameRow hlead _ s, exec_frameRow hlead _ _, exec_frameRow hlead _ _,
      exec_frameRow hlead _ _, ?_⟩⟩
  · rw [exec_frameRow hlead]
    dsimp only [State.frameEvent]
    rw [← List.append_assoc, clockBits_append]
  · rw [exec_frameRow hlead]
    dsimp only [State.frameEvent]
    rw [clockBits_cons]

/-! ### Clocks while select is released (R145) -/

/-- The level a clock is left at by whole clocks of these bits. -/
def levelAfter (bits : List Bool) (high : Bool) : Bool := if bits = [] then high else false

/-- While select is released, clocks move the level of the clock alone. -/
theorem Port.falls_released {q : Port} (h : q.shifter = .released) (shift : Frame → Frame) :
    q.falls shift = { q with clockHigh := false } := by
  cases hq : q.clockHigh with
  | false => rw [Port.falls_of_low hq, ← hq]
  | true => rw [Port.falls, hq, h]; rfl

theorem clockBits_released {s : State} {p : Station} (h : s.ports[p].shifter = .released) (bits : List Bool) :
    s.clockBits p bits = s.modifyPort p fun q => { q with clockHigh := levelAfter bits q.clockHigh } := by
  cases bits with
  | nil => exact (modifyPort_id s p).symm
  | cons b bits =>
    rw [clockBits_eq s p _ (List.cons_ne_nil _ _)]
    refine modifyPort_congr ?_
    rw [Port.falls_released h, Port.clocked, h]
    rfl

/-! ### Clocks in a frame in progress (R182, R183) -/

theorem fixReply_received (s : State) (p : Station) (f : Frame) : (s.fixReply p f).received = f.received := by
  unfold State.fixReply
  dsimp only
  repeat' split
  all_goals rfl

theorem sampleBit_received (s : State) (p : Station) (f : Frame) (b : Bool) :
    (s.sampleBit p f b).received = f.received ++ [b] := by
  unfold State.sampleBit
  dsimp only
  split
  · exact fixReply_received s p _
  · rfl

/-- A falling edge changes the byte on the wire alone. -/
theorem shiftOut_eq (s : State) (p : Station) (f : Frame) :
    s.shiftOut p f = { f with outByte := (s.shiftOut p f).outByte } := by
  unfold State.shiftOut
  split <;> rfl

theorem shiftOut_received (s : State) (p : Station) (f : Frame) : (s.shiftOut p f).received = f.received := by
  rw [shiftOut_eq]

theorem foldl_clockFrame_received (s : State) (p : Station) (bits : List Bool) (f : Frame) :
    (bits.foldl (s.clockFrame p) f).received = f.received ++ bits := by
  induction bits generalizing f with
  | nil => exact (List.append_nil _).symm
  | cons b bits ih =>
    rw [List.foldl_cons, ih, State.clockFrame, shiftOut_received, sampleBit_received, List.append_assoc]
    rfl

/-- Clocks of an open frame count on: its bits follow those received. -/
theorem clockBits_receiving {s : State} {p : Station} {f : Frame} (h : s.ports[p].shifter = .receiving f)
    (bits : List Bool) :
    ∃ g, s.clockBits p bits = (s.modifyPort p fun q =>
        { q with shifter := .receiving g, clockHigh := levelAfter bits q.clockHigh }) ∧
      g.received = f.received ++ bits := by
  cases bits with
  | nil =>
    refine ⟨f, ?_, (List.append_nil _).symm⟩
    rw [← h]
    exact (modifyPort_id s p).symm.trans (modifyPort_congr rfl)
  | cons b bits =>
    obtain ⟨f', hfalls, hreceived⟩ : ∃ f', s.ports[p].falls (s.shiftOut p) =
        { s.ports[p] with shifter := .receiving f', clockHigh := false } ∧ f'.received = f.received := by
      cases hq : s.ports[p].clockHigh with
      | false =>
        refine ⟨f, ?_, rfl⟩
        rw [Port.falls_of_low hq, ← hq, ← h]
      | true =>
        refine ⟨s.shiftOut p f, ?_, shiftOut_received s p f⟩
        rw [Port.falls, hq, h]
        rfl
    refine ⟨(b :: bits).foldl (s.clockFrame p) f', ?_, ?_⟩
    · rw [clockBits_eq s p _ (List.cons_ne_nil _ _)]
      refine modifyPort_congr ?_
      rw [hfalls]
      rfl
    · rw [foldl_clockFrame_received, hreceived]

/-- Select falls while it is low already: nothing happens (log entry 3). -/
theorem selectFalls_receiving {s : State} {p : Station} {f : Frame} (h : s.ports[p].shifter = .receiving f) :
    s.selectFalls p = s := by
  rw [State.selectFalls, h]

/-- A span that is no frame goes on as it stands. -/
theorem modifyPort_ignoring {s : State} {p : Station} {sent : List Bool} (h : s.ports[p].shifter = .ignoring sent) :
    s = s.modifyPort p fun q => { q with shifter := .ignoring sent } := by
  rw [← h]
  exact (modifyPort_id s p).symm.trans (modifyPort_congr rfl)

theorem selectFalls_ignoring {s : State} {p : Station} {sent : List Bool} (h : s.ports[p].shifter = .ignoring sent) :
    s.selectFalls p = s.modifyPort p fun q => { q with shifter := .ignoring sent } := by
  rw [← modifyPort_ignoring h, State.selectFalls, h]

theorem selectFalls_released {s : State} {p : Station} (h : s.ports[p].shifter = .released)
    (hreset : s.inReset = false) :
    s.selectFalls p = s.modifyPort p fun q =>
      { q with
        shifter :=
          .receiving
            { received := [], sent := [], outByte := s.statusByte p, fetched := none, snapshot := none } } := by
  rw [State.selectFalls, h, hreset]
  rfl

theorem selectFalls_inReset {s : State} {p : Station} (h : s.ports[p].shifter = .released) (hreset : s.inReset = true) :
    s.selectFalls p = s.modifyPort p fun q => { q with shifter := .ignoring [] } := by
  rw [State.selectFalls, h, hreset]
  rfl

/-! ### What SnSDO shows (R148, R182) -/

theorem byteBits_getD (b : Byte) {n : Nat} (h : n < 8) : (byteBits b).getD n false = b.getLsbD (7 - n) := by
  rw [List.getD_eq_getElem?_getD, byteBits_getElem? b h, Option.getD_some]

theorem sdoPin_released {s : State} {p : Station} (h : s.ports[p].shifter = .released) : s.sdoPin p = none := by
  rw [State.sdoPin, h]

theorem sdoPin_receiving {s : State} {p : Station} {f : Frame} (h : s.ports[p].shifter = .receiving f) :
    s.sdoPin p = some ((byteBits f.outByte).getD ((f.received.length - s.ports[p].clockHigh.toNat) % 8) false) := by
  rw [State.sdoPin, h]

theorem port_set_self (s : State) (p : Station) (q : Port) :
    ({ s with ports := s.ports.set p q } : State).ports[p] = q :=
  updVec_get_self s.ports p fun _ => q

/-! ### The edges of a frame in progress (R133, R134, R138, R151, R182) -/

/-- A rising edge samples a bit, takes the bit on SnSDO, and fixes what the byte it completes fixes. -/
theorem sampleBit_eq {s : State} {p : Station} (f : Frame) (b : Bool) {bits : List Bool}
    (hbits : f.received ++ [b] = bits)
    {out : Bool} (hout : (byteBits f.outByte).getD (f.received.length % 8) false = out) :
    s.sampleBit p f b =
      { received := bits
        sent := f.sent ++ [out]
        outByte := f.outByte
        fetched := if bits.length = 8 ∧ bitsByte bits = 0x52 then s.ports[p].command.held.or f.fetched else f.fetched
        snapshot :=
          if bits.length = 16 ∧ bitsByte bits = 0x53 ∧ s.ports[p].acks.length < 4 then
            some (s.noticesSnapshot p (bitsByte (bits.drop 8)))
          else f.snapshot } := by
  subst hbits hout
  unfold State.sampleBit
  dsimp only
  generalize f.received ++ [b] = bits
  by_cases hboundary : bits.length % 8 = 0
  · rw [if_pos hboundary]
    by_cases hfetch : bitsByte bits = codeFetch
    · have hnotices : ¬ (bits.length = 16 ∧ bitsByte bits = 0x53 ∧ s.ports[p].acks.length < 4) := fun h =>
        absurd (hfetch.symm.trans h.2.1) (by decide)
      rw [if_neg hnotices]
      refine Eq.trans (fixReply_fetch hfetch) ?_
      dsimp only
      by_cases hone : bits.length / 8 = 1
      · rw [if_pos hone, if_pos ⟨by omega, hfetch⟩]
      · rw [if_neg hone, if_neg fun h => hone (by omega)]
    · rw [if_neg fun h => hfetch h.2]
      by_cases hnotices : bitsByte bits = codeNotices
      · refine Eq.trans (fixReply_notices hnotices) ?_
        dsimp only
        by_cases htwo : bits.length / 8 = 2 ∧ s.ports[p].acks.length < 4
        · rw [if_pos htwo, if_pos ⟨by omega, hnotices, htwo.2⟩]
          rfl
        · rw [if_neg htwo, if_neg fun h => htwo ⟨by omega, h.2.2⟩]
      · rw [if_neg fun h => hnotices h.2.1]
        exact fixReply_of_code s p hfetch hnotices
  · rw [if_neg hboundary, if_neg fun h => hboundary (by omega), if_neg fun h => hboundary (by omega)]

theorem Port.rises_receiving {q : Port} {f : Frame} (h : q.shifter = .receiving f) (hlow : q.clockHigh = false)
    (p : Station) (sample : Frame → Frame) :
    q.rises p sample = { q with shifter := .receiving (sample f), clockHigh := true } := by
  rw [Port.rises, hlow, h]
  rfl

theorem Port.rises_released {q : Port} (h : q.shifter = .released) (hlow : q.clockHigh = false) (p : Station)
    (sample : Frame → Frame) : q.rises p sample = { q with clockHigh := true } := by
  rw [Port.rises, hlow, h]
  rfl

theorem Port.falls_receiving {q : Port} {f : Frame} (h : q.shifter = .receiving f) (hhigh : q.clockHigh = true)
    (shift : Frame → Frame) : q.falls shift = { q with shifter := .receiving (shift f), clockHigh := false } := by
  rw [Port.falls, hhigh, h]
  rfl

/-- A rising edge leaves SnSDO. -/
theorem sdoPin_afterRise {s : State} {p : Station} {f : Frame} (h : s.ports[p].shifter = .receiving f)
    (hlow : s.ports[p].clockHigh = false) (b : Bool) :
    s.sdoPin p = some ((byteBits f.outByte).getD (f.received.length % 8) false) ∧
      ({ s with
          ports := s.ports.set p
            { s.ports[p] with shifter := .receiving (s.sampleBit p f b), clockHigh := true } } : State).sdoPin p =
        some ((byteBits f.outByte).getD (f.received.length % 8) false) := by
  constructor
  · rw [sdoPin_receiving h, hlow]
    rfl
  · rw [sdoPin_receiving (f := s.sampleBit p f b) (by rw [port_set_self]), port_set_self, sampleBit_received,
      List.length_append, sampleBit_eq f b rfl rfl]
    rfl

/-- A falling edge puts the bit after the one taken on SnSDO. -/
theorem sdoPin_afterFall (s : State) (p : Station) (f : Frame) :
    ({ s with
        ports := s.ports.set p
          { s.ports[p] with shifter := .receiving (s.shiftOut p f), clockHigh := false } } : State).sdoPin p =
      some ((byteBits (s.shiftOut p f).outByte).getD (f.received.length % 8) false) := by
  rw [sdoPin_receiving (f := s.shiftOut p f) (by rw [port_set_self]), port_set_self, shiftOut_received]
  rfl

theorem shiftOut_within {f : Frame} (h : f.received = [] ∨ f.received.length % 8 ≠ 0) (s : State) (p : Station) :
    (s.shiftOut p f).outByte = f.outByte := by
  rw [State.shiftOut, if_neg fun hc => h.elim hc.2 fun hn => hn hc.1]

theorem shiftOut_boundary {f : Frame} (hsome : f.received ≠ []) (h : f.received.length % 8 = 0) (s : State)
    (p : Station) : (s.shiftOut p f).outByte = s.nextOutByte p f := by
  rw [State.shiftOut, if_pos ⟨h, hsome⟩]

/-- The bytes of a snapshot as they follow the second byte of their frame, whose place shows 0x00. -/
theorem nextOutByte_notices_of_bytes {s : State} {p : Station} {f : Frame} {m : Nat}
    (hcode : bitsByte f.received = codeNotices) (hbytes : f.received.length / 8 = m + 1) :
    s.nextOutByte p f = f.snapshot.elim 0 fun rs => (0x00 :: noticesBytes rs).getD m 0 := by
  rw [nextOutByte_notices hcode, hbytes]
  cases f.snapshot with
  | none => rfl
  | some rs => cases m <;> rfl

theorem bytesBits_append_eq_nil {lead : List Byte} {bits : List Bool} :
    bytesBits lead ++ bits = [] ↔ lead = [] ∧ bits = [] := by
  rw [List.append_eq_nil_iff]
  refine and_congr_left fun _ => ?_
  cases lead with
  | nil => exact ⟨fun _ => rfl, fun _ => rfl⟩
  | cons b bs => exact ⟨nofun, nofun⟩

/-- Settles O14: by the state of the shifter, then edge by edge. -/
theorem openFrameCountsOn : Obligations.OpenFrameCountsOn := by
  intro s p code b bits row hrow q becomes level
  have hexec : ∀ ev, exec (row.1 ev) s = .next (s.frameEvent p row.2 ev) := fun ev => exec_frameRow hrow ev s
  have hbecomes : ∀ (ev : FrameEvent) (g : Port → Port) (q' : Port), s.frameEvent p row.2 ev = s.modifyPort p g →
      g q = q' → becomes (row.1 ev) q' := fun ev g q' he hq =>
    (hexec ev).trans (congrArg Host.Outcome.next (he.trans (modifyPort_of_eq s p g hq)))
  refine ⟨fun hhigh => ?_, fun hlow => ?_, fun hreleased => ⟨sdoPin_released hreleased, fun hlow => ?_, fun _ => ?_, ?_,
    fun hreset => ?_⟩, fun f hf => ⟨?_, ?_, fun hlow => ?_, fun hhigh => ?_⟩⟩
  · refine (hexec (.rise b)).trans (congrArg Host.Outcome.next ?_)
    exact (modifyPort_congr (Port.rises_of_high hhigh p _)).trans (modifyPort_id s p)
  · refine (hexec .fall).trans (congrArg Host.Outcome.next ?_)
    exact (modifyPort_congr (Port.falls_of_low hlow _)).trans (modifyPort_id s p)
  · exact hbecomes (.rise b) _ _ rfl (Port.rises_released hreleased hlow p _)
  · exact hbecomes .fall _ _ rfl (Port.falls_released hreleased _)
  · exact hbecomes (.more bits) _ _ (clockBits_released hreleased bits) rfl
  · have hfalls := (selectFalls_released hreleased hreset).trans (modifyPort_of_eq s p _ rfl)
    refine ⟨_, congrArg Host.Outcome.next hfalls, ?_, rfl⟩
    rw [sdoPin_receiving (by rw [port_set_self])]
    show some ((byteBits (s.statusByte p)).getD ((0 - _) % 8) false) = _
    rw [Nat.zero_sub, Nat.zero_mod, byteBits_getD _ (by decide)]
  · obtain ⟨g, hclocked, hreceived⟩ := clockBits_receiving hf bits
    exact ⟨g, hbecomes (.more bits) _ _ hclocked rfl, hreceived⟩
  · obtain ⟨g, hclocked, hreceived⟩ := clockBits_receiving hf (bytesBits row.2 ++ bits)
    have hstart : s.frameEvent p row.2 (.start bits) = s.clockBits p (bytesBits row.2 ++ bits) := by
      rw [State.frameEvent, selectFalls_receiving hf]
    refine ⟨g, hbecomes (.start bits) _ _ (hstart.trans hclocked) ?_, by rw [hreceived, List.append_assoc]⟩
    simp only [levelAfter, bytesBits_append_eq_nil]
  · intro bits
    obtain ⟨hbefore, hafter⟩ := sdoPin_afterRise hf hlow b
    refine ⟨_, s.sampleBit p f b, _, hbecomes (.rise b) _ _ rfl (Port.rises_receiving hf hlow p _), rfl, hbefore,
      hafter,
      (sampleBit_eq f b rfl rfl).trans ?_⟩
    show _ = Frame.mk _ _ _ (if _ then (match s.ports[p].command with | .holding record => _ | _ => _) else _) _
    cases s.ports[p].command <;> rfl
  · have hpin := sdoPin_afterFall s p f
    refine ⟨_, s.shiftOut p f, hbecomes .fall _ _ rfl (Port.falls_receiving hf hhigh _), rfl, shiftOut_eq s p f,
      fun hempty => ?_, fun hinside => ?_, fun hsome hboundary => ?_⟩
    · rw [hpin, shiftOut_within (.inl hempty), sdoPin_receiving hf, hempty, List.length_nil, Nat.zero_sub]
    · rw [hpin, shiftOut_within (.inr hinside), byteBits_getD _ (Nat.mod_lt _ (by decide))]
    · obtain ⟨m, hm⟩ : ∃ m, f.received.length / 8 = m + 1 := by
        have := List.length_pos_iff.2 hsome
        exact ⟨f.received.length / 8 - 1, by omega⟩
      intro n code
      refine ⟨?_, ?_⟩
      · rw [hpin, hboundary, byteBits_getD _ (by decide)]
      · rw [shiftOut_boundary hsome hboundary]
        have hn : n = m + 1 := hm
        refine ⟨fun hcode => ?_, fun hcode => ?_, fun hcode => ?_, fun hcode => ?_, fun hcode => ?_⟩
        · rw [hn]
          exact (shows_status s p).next f m hcode hm
        · exact nextOutByte_fetch hcode
        · rw [hn, nextOutByte_notices_of_bytes hcode hm]
          cases f.snapshot <;> rfl
        · rw [hn]
          exact (shows_ident s p).next f m hcode hm
        · exact (shows_zeros s p hcode).next f m rfl hm

/-! ### Spans of select that are no frame (R159) -/

/-- `n` clocks of a span that is no frame: the clock ends low, and a free value is spent at each falling edge. -/
def Port.spends (q : Port) (n : Nat) : Port :=
  { q with
    clockHigh := if n = 0 then q.clockHigh else false
    freeIndex := q.freeIndex + n + if n ≠ 0 ∧ q.clockHigh = true then 1 else 0 }

theorem Port.falls_ignoring {q : Port} {sent : List Bool} (h : q.shifter = .ignoring sent) (shift : Frame → Frame) :
    q.falls shift =
      { q with shifter := .ignoring sent, clockHigh := false, freeIndex := q.freeIndex + q.clockHigh.toNat } := by
  obtain ⟨command, flags, mask, high, shifter, reloads, acks, sdo, index⟩ := q
  subst h
  cases high <;> rfl

theorem Port.rises_ignoring {q : Port} {sent : List Bool} (h : q.shifter = .ignoring sent) (hlow : q.clockHigh = false)
    (p : Station) (sample : Frame → Frame) :
    q.rises p sample =
      { q with shifter := .ignoring (sent ++ [Config.freeSdoBit p q.freeIndex]), clockHigh := true } := by
  rw [Port.rises, hlow, h]
  rfl

theorem clockBits_ignoring {s : State} {p : Station} {sent : List Bool} (h : s.ports[p].shifter = .ignoring sent)
    (bits : List Bool) :
    ∃ out, out.length = bits.length ∧ s.clockBits p bits = s.modifyPort p fun q =>
      { q.spends bits.length with shifter := .ignoring (sent ++ out) } := by
  cases bits with
  | nil =>
    refine ⟨[], rfl, ?_⟩
    rw [List.append_nil, ← h]
    exact (modifyPort_id s p).symm.trans (modifyPort_congr rfl)
  | cons b bits =>
    rw [clockBits_eq s p _ (List.cons_ne_nil _ _)]
    generalize hfirst : s.ports[p].freeIndex + s.ports[p].clockHigh.toNat = first
    refine ⟨(List.range (b :: bits).length).map fun n => Config.freeSdoBit p (first + n), by simp,
      modifyPort_congr ?_⟩
    have hspent : first + (b :: bits).length = (s.ports[p].spends (b :: bits).length).freeIndex := by
      rw [Port.spends, ← hfirst]
      dsimp only [List.length_cons]
      cases s.ports[p].clockHigh with
      | false => simp
      | true => simp [Nat.add_right_comm]
    rw [Port.falls_ignoring h, hfirst, Port.clocked]
    dsimp only
    rw [hspent]
    rfl

/-- Select rises on a span that is no frame. -/
theorem selectRises_ignoring {s : State} {p : Station} {sent : List Bool} (h : s.ports[p].shifter = .ignoring sent) :
    s.selectRises p = s.modifyPort p fun q => { q with shifter := .released, sdo := sent } := by
  rw [State.selectRises, h]

/-- Bits clocked after select has fallen on a span that is no frame, and the rise of select after them. -/
theorem clockBits_selectRises_ignoring {s u : State} {p : Station} {sent : List Bool}
    (hu : u = s.modifyPort p fun q => { q with shifter := .ignoring sent }) (bits : List Bool) :
    ∃ out, out.length = bits.length ∧
      (u.clockBits p bits = s.modifyPort p fun q =>
        { q.spends bits.length with shifter := .ignoring (sent ++ out) }) ∧
      (u.clockBits p bits).selectRises p = s.modifyPort p fun q =>
        { q.spends bits.length with shifter := .released, sdo := sent ++ out } := by
  have hshifter : u.ports[p].shifter = .ignoring sent := by rw [hu, modifyPort_ports, updVec_get_self]
  obtain ⟨out, hlength, hclocked⟩ := clockBits_ignoring hshifter bits
  have hsame : u.clockBits p bits = s.modifyPort p fun q =>
      { q.spends bits.length with shifter := .ignoring (sent ++ out) } := by
    rw [hclocked, hu, modifyPort_modifyPort]
    rfl
  refine ⟨out, hlength, hsame, ?_⟩
  rw [selectRises_ignoring (sent := sent ++ out) (by rw [hsame, modifyPort_ports, updVec_get_self]), hsame,
    modifyPort_modifyPort]

theorem sdoPin_ignoring {s : State} {p : Station} {sent : List Bool} (h : s.ports[p].shifter = .ignoring sent) :
    s.sdoPin p = if Config.freeSdoDriven p s.ports[p].freeIndex then
      some (Config.freeSdoBit p s.ports[p].freeIndex) else none := by
  rw [State.sdoPin, h]

/-- Settles O15: a span that reset meets, or that begins in reset, is ignored to its end. -/
theorem spanBegunInResetIsNoFrame : Obligations.SpanBegunInResetIsNoFrame := by
  intro s p
  refine ⟨fun hlow => ?_, fun strap => ?_, fun code b bits row hrow => ?_⟩
  · have hport := inHardwareReset_port s p
    cases hs : s.ports[p].shifter with
    | released => exact absurd hs hlow
    | ignoring sent => exact ⟨_, [], exec_hardwareReset s, by rw [hport, hs]; rfl⟩
    | receiving f => exact ⟨_, [], exec_hardwareReset s, by rw [hport, hs]; rfl⟩
  · show ∃ t, execEndOfReset strap s = .next t ∧ t.ports = s.ports
    unfold execEndOfReset
    split
    · exact ⟨_, rfl, rfl⟩
    · exact ⟨_, rfl, rfl⟩
  · intro q clocks n
    have hexec : ∀ ev, exec (row.1 ev) s = .next (s.frameEvent p row.2 ev) := fun ev => exec_frameRow hrow ev s
    have hlength : (bytesBits row.2 ++ bits).length = n := by rw [List.length_append, bytesBits_length]
    have hclocks : ∀ (ev : FrameEvent) (m : Nat) (port : List Bool → Port) (out : List Bool), out.length = m →
        s.frameEvent p row.2 ev = s.modifyPort p (fun _ =>
          { port out with
            clockHigh := if m = 0 then q.clockHigh else false
            freeIndex := q.freeIndex + m + if m ≠ 0 ∧ q.clockHigh = true then 1 else 0 }) →
        clocks (row.1 ev) m port := fun ev m port out hout he =>
      ⟨out, hout, (hexec ev).trans (congrArg Host.Outcome.next (he.trans (modifyPort_of_eq s p _ rfl)))⟩
    refine ⟨fun hreset hreleased => ?_, fun sent hignoring => ?_⟩
    · obtain ⟨out, hout, hstart, hwhole⟩ :=
        clockBits_selectRises_ignoring (selectFalls_inReset hreleased hreset) (bytesBits row.2 ++ bits)
      rw [hlength] at hout hstart hwhole
      refine ⟨hclocks (.start bits) n _ out hout (hstart.trans (modifyPort_congr rfl)),
        hclocks (.whole bits) n _ out hout (hwhole.trans (modifyPort_congr ?_))⟩
      show _ = { q with sdo := out, clockHigh := _, freeIndex := _ }
      rw [← hreleased]
      rfl
    · obtain ⟨out, hout, hstart, hwhole⟩ :=
        clockBits_selectRises_ignoring (selectFalls_ignoring hignoring) (bytesBits row.2 ++ bits)
      rw [hlength] at hout hstart hwhole
      obtain ⟨outMore, houtMore, hmore, -⟩ := clockBits_selectRises_ignoring (modifyPort_ignoring hignoring) bits
      refine ⟨hclocks (.start bits) n _ out hout (hstart.trans (modifyPort_congr rfl)),
        hclocks (.more bits) _ _ outMore houtMore (hmore.trans (modifyPort_congr rfl)),
        hclocks (.whole bits) n _ out hout (hwhole.trans (modifyPort_congr rfl)),
        hclocks .stop 0 _ [] rfl ((selectRises_ignoring hignoring).trans (modifyPort_congr rfl)), fun hlow => ?_,
        fun hhigh => ?_⟩
      · refine ⟨_, _, hexec (.rise b), ?_, modifyPort_of_eq s p _ (Port.rises_ignoring hignoring hlow p _)⟩
        show (s.clockRises p b).sdoPin p = s.sdoPin p
        have hrises : (s.clockRises p b).ports[p] = _ :=
          (updVec_get_self ..).trans (Port.rises_ignoring hignoring hlow p _)
        rw [sdoPin_ignoring hignoring, sdoPin_ignoring (by rw [hrises]), hrises]
      · refine (hexec .fall).trans (congrArg Host.Outcome.next (modifyPort_of_eq s p _ ?_))
        rw [Port.falls_ignoring hignoring, ← hignoring, hhigh]
        rfl

end Sys2Proof.Machine
end
